-- ==== Sys2Proof/Word.lean ====
section
/-! DEFINITION. The widths the AC-620 uses (00_scope.md Conventions, R161, R168): bytes, 16-bit and 32-bit numbers. -/

namespace Sys2Proof

/-- One byte on the link, on a capture port or in the frame store. -/
abbrev Byte := BitVec 8

/-- A 16-bit number: generations, pass counts, notice sequences, user words, the data lines of an output port. -/
abbrev Half := BitVec 16

/-- A 32-bit number: sequence numbers, output frame numbers, event counters. -/
abbrev Word := BitVec 32

/-- Device time: a 32-bit count of milliseconds that wraps (00_scope.md Conventions). -/
abbrev Time := BitVec 32

/-- The 8-bit number the host places in a request (R168). -/
abbrev Tag := BitVec 8

/-- Source 0 to source 15. -/
abbrev SourceIx := Fin 16

/-- Streams S0 to S19. -/
abbrev StreamIx := Fin 20

/-- Lanes L0 to L5. -/
abbrev LaneIx := Fin 6

/-- Output ports OP0 to OP2. -/
abbrev PortIx := Fin 3

/-- Capture ports CP0 to CP3, and the local indices 0 to 3 of one port. -/
abbrev CaptureIx := Fin 4

end Sys2Proof
end

