-- ==== Sys2Proof/Syntax.lean ====
section
/-! DEFINITION. The commands of the block: one constructor per row of spec/opcode_table.json, in the table's order.

A request row carries the request's tag and its body bytes as they stand on the link (R168, R173), so that every field value
and every body length, right or wrong, is a form of the row. An event row carries what the event brings from outside. -/

namespace Sys2Proof

/-- The commands of the block, one per row of the operation and event table. -/
inductive Instr where
  /-- R28, R29. Body: stream, source, scale, depth, loss policy. -/
  | streamBind (tag : Tag) (body : List Byte)
  /-- R30. Body: stream. -/
  | streamUnbind (tag : Tag) (body : List Byte)
  /-- R31. Body: stream. -/
  | streamStart (tag : Tag) (body : List Byte)
  /-- R32 to R35. Body: stream, option. -/
  | streamStop (tag : Tag) (body : List Byte)
  /-- R36, R37. Body: stream. -/
  | streamFreeze (tag : Tag) (body : List Byte)
  /-- R39. Body: stream. -/
  | streamThaw (tag : Tag) (body : List Byte)
  /-- R41. Body: stream, Y, Cb, Cr. -/
  | streamFill (tag : Tag) (body : List Byte)
  /-- R49. Body: source, width 2, height 2, period 2, loss factor. -/
  | sourceSetup (tag : Tag) (body : List Byte)
  /-- R65, R66. Body: lane, operation, index, count, entries 3 each. -/
  | listEdit (tag : Tag) (body : List Byte)
  /-- R68. Body: lane, list, start index, count. -/
  | listRead (tag : Tag) (body : List Byte)
  /-- R69. Body: lane, timing. -/
  | listCommit (tag : Tag) (body : List Byte)
  /-- R83, R84. Body: lane, width 2, height 2, period 2, list mode, port, stamp enable, Y, Cb, Cr. -/
  | laneSetup (tag : Tag) (body : List Byte)
  /-- R85. Body: port, width mode. -/
  | portSetup (tag : Tag) (body : List Byte)
  /-- R95. Body: lane. -/
  | laneStart (tag : Tag) (body : List Byte)
  /-- R97 to R99, R112. Body: lane, option. -/
  | laneStop (tag : Tag) (body : List Byte)
  /-- R105, R106. Body: follower, leader. -/
  | lockJoin (tag : Tag) (body : List Byte)
  /-- R110. Body: lane. -/
  | lockLeave (tag : Tag) (body : List Byte)
  /-- R119. Body: stream, word count, words 2 each. -/
  | streamStamp (tag : Tag) (body : List Byte)
  /-- R132. Body: slot width 2, slot height 2, slot count. -/
  | storeConfig (tag : Tag) (body : List Byte)
  /-- R157. No body. -/
  | identify (tag : Tag) (body : List Byte)
  /-- R158. Body: view, index. -/
  | status (tag : Tag) (body : List Byte)
  /-- R159. Body: holder kind, index, clear option. -/
  | counters (tag : Tag) (body : List Byte)
  /-- R160. Body: class mask. -/
  | linkSet (tag : Tag) (body : List Byte)
  /-- R155. Body: the tag to withdraw. -/
  | cancel (tag : Tag) (body : List Byte)
  /-- R156. No body. -/
  | reset (tag : Tag) (body : List Byte)
  /-- R164. Body: sequence 2. -/
  | noticeAck (tag : Tag) (body : List Byte)
  /-- R165. No body. -/
  | noticeResend (tag : Tag) (body : List Byte)
  /-- R149: a dispatched request whose type is no request kind. -/
  | unknownRequest (kind : Byte) (tag : Tag) (body : List Byte)
  /-- R145: bytes shifted in on LSDI, taken by the framer in order. -/
  | inboundFrame (bytes : List Byte)
  /-- R146, R153. -/
  | lcsNRise
  /-- R152: a free byte position is reached. -/
  | outboundFrameStart
  /-- R152: the last check byte of the reply in progress is shifted out. -/
  | replyTransmitted
  /-- R152, R163: the last check byte of the notice in progress is shifted out. -/
  | noticeTransmitted
  /-- R143. -/
  | resetNAssert
  /-- R125, R143, R166. -/
  | resetNRelease
  /-- R125: the probe stage ends; whether the DRAM answered. -/
  | bringupProbeDone (answered : Bool)
  /-- R125: the training stage ends; whether the patterns read back unchanged. -/
  | bringupTrainingDone (passed : Bool)
  /-- R125, R126: the sizing stage ends; the capacity measured in MiB. -/
  | bringupSizingDone (mib : Nat)
  /-- R125: the bring-up deadline expires. -/
  | bringupDeadlineExpiry
  /-- R130. -/
  | dramAccessFailure
  /-- R50 to R52: a frame start marker on a capture port, with its local index. -/
  | captureFrameStart (port index : CaptureIx)
  /-- R53: a line start marker and the data bytes that stand between it and the next marker on the port (R46). -/
  | lineStart (port index : CaptureIx) (data : List Byte)
  /-- R55: a frame end marker. -/
  | frameEnd (port index : CaptureIx)
  /-- R56. -/
  | sourceLossTimerExpiry (source : SourceIx)
  /-- R93, R107. -/
  | pacingTimerExpiry (lane : LaneIx)
  /-- R87, R118, R121: the lane's port reaches the trailer start marker. -/
  | outputTrailerStart (lane : LaneIx)
  /-- R87, R122: the lane's port sends the frame end marker. -/
  | outputFrameEnd (lane : LaneIx)
  deriving DecidableEq, Repr

end Sys2Proof
end

