-- ==== Sys2Proof/Decode.lean ====
section
/-! DEFINITION. No row of spec/opcode_table.json gives bits, so no word spells a command. The bytes of the link are read by the
framer and the dispatcher (Machine/Link.lean), which are state, not a decoder. -/

namespace Sys2Proof

/-- The command a word spells by the table's bits: none, since no row of the table has bits. -/
def decodeTableWord (_nbits _w : Nat) : Option Instr := none

end Sys2Proof
end

