-- ==== Sys2Proof/Config.lean ====
section
/-! DEFINITION. What the device fixes (00_scope.md Fixed numbers, R157) and the free values: constants without a body that
stand for what the manual leaves open, so that no proof can know them. -/

namespace Sys2Proof.Config

/-- R174: the vendor code IDENTIFY returns. -/
def vendorCode : Nat := 0x0139
/-- R157: the part code. -/
def partCode : Nat := 620
/-- R157: the revision of the device the manual describes. -/
def revision : Nat := 1
/-- R157: 16 sources, 20 streams, 6 lanes, 3 output ports, 48 list entries, 64 pool slots, 8 outstanding entries, 32 notices. -/
def capabilityCounts : List Nat := [16, 20, 6, 3, 48, 64, 8, 32]
/-- R135: the bandwidth budget in units. -/
def budgetUnits : Nat := 1000
/-- R147: the request window. -/
def requestWindow : Nat := 4
/-- R150: the capacity of the outstanding table, and R151: the places for final replies. -/
def outstandingPlaces : Nat := 8
/-- R163: the capacity of the notice queue. -/
def noticePlaces : Nat := 32
/-- R62: the longest sequence list. -/
def listPlaces : Nat := 48
/-- R65: the most entries one LIST_EDIT carries. -/
def editEntries : Nat := 12
/-- R125: bring-up completes or fails within 40 ms. -/
def bringupMs : Nat := 40
/-- R126: the default slot format. -/
def defaultSlotWidth : Nat := 1920
/-- R126: the default slot format. -/
def defaultSlotHeight : Nat := 1088
/-- 00_scope.md Conventions: bytes in one MiB. -/
def mib : Nat := 1048576

/-- FREE VALUE (log 13): how many output words of the part still to be sent had gone out when an abort marker took the place
of the rest (R87 gives no count). Applied to the counter `State.freeCount`. -/
opaque wordsBeforeAbort : Nat → Nat

/-- FREE VALUE (log 13): how many lines of the frame in progress the composer had read when the frame store failed (R92, R118
give no count). Applied to the counter `State.freeCount`. -/
opaque linesBeforeFault : Nat → Nat

end Sys2Proof.Config
end

