-- ==== Sys2Proof/Machine/State.lean ====
section
/-! DEFINITION. The state of the block, record by record as the chapters give it, with the values after reset, and the reasons
a step can stop. Every record is plain data. -/

namespace Sys2Proof.Machine

open Sys2Proof

/-! ### Values shared by several blocks -/

/-- A colour: Y, Cb and Cr components (00_scope.md Conventions). -/
structure Colour where
  y : Byte
  cb : Byte
  cr : Byte
  deriving DecidableEq, Repr

/-- 00_scope.md Conventions: the default fill colour is Y 16, Cb 128, Cr 128. -/
def Colour.default : Colour := ⟨16, 128, 128⟩

/-- 00_scope.md Fixed numbers: the scales FULL, HALF, THIRD. -/
inductive Scale where
  | full | half | third
  deriving DecidableEq, Repr

/-- R8, R172: why a fill was abandoned or a frame was in error. -/
inductive Cause where
  | short | long | badLine | broken | lostMidFrame | access | stopDiscard | overRate
  deriving DecidableEq, Repr

/-- R149: the result codes. -/
inductive Result where
  | ok | pending | cancelled | aborted | badRequest | badParam | badState | inUse | notReady | noSlots | noBandwidth | busy
  | tagInUse | notPending | listInvalid | commitPending | leaderStopped
  deriving DecidableEq, Repr

/-- R171: the request kinds. -/
inductive Kind where
  | streamBind | streamUnbind | streamStart | streamStop | streamFreeze | streamThaw | streamFill | sourceSetup | listEdit
  | listRead | listCommit | laneSetup | portSetup | laneStart | laneStop | lockJoin | lockLeave | streamStamp | storeConfig
  | identify | status | counters | linkSet | cancel | reset | noticeAck | noticeResend
  deriving DecidableEq, Repr

/-! ### Sources and capture ports (chapter 3) -/

/-- R48: the state of a source. -/
inductive SourceState where
  | unset | silent | present | lost
  deriving DecidableEq, Repr

/-- R48: where the source stands within its own frame; IN_FRAME holds the lines begun. -/
inductive FramePhase where
  | out
  | inFrame (lines : Nat)
  | skipping
  deriving DecidableEq, Repr

/-- R48, R49: what SOURCE_SETUP fixes; present when the source is not UNSET. -/
structure SourceSetup where
  width : Nat
  height : Nat
  period : Nat
  factor : Nat
  deriving DecidableEq, Repr

/-- R48, R61: the counters of a source, in their order. -/
structure SourceCounters where
  accepted : Word
  overRate : Word
  short : Word
  long : Word
  badLine : Word
  broken : Word
  lostMidFrame : Word
  deriving DecidableEq, Repr

/-- R48: the source record. -/
structure Source where
  state : SourceState
  setup : Option SourceSetup
  lastStart : Option Time
  phase : FramePhase
  lossTimer : Option Time
  errorFlag : Bool
  counters : SourceCounters
  deriving DecidableEq, Repr

def SourceCounters.zero : SourceCounters := ⟨0, 0, 0, 0, 0, 0, 0⟩

/-- R48: a source record after a reset. -/
def Source.initial : Source := ⟨.unset, none, none, .out, none, false, .zero⟩

/-- R46, R47: what a capture port keeps: the unclaimed count of each local index, and the line being collected, if any, with
its local index and bytes. -/
structure CapturePort where
  unclaimed : Vector Word 4
  line : Option (CaptureIx × List Byte)
  deriving DecidableEq, Repr

/-- R47: a capture port after a reset. A line being collected when a soft reset comes is dropped, and counted nowhere: the model's
choice, log 36 (DESIGN CHOICE, unsafe). -/
def CapturePort.initial : CapturePort := ⟨Vector.replicate 4 0, none⟩

/-! ### Streams and rings (chapters 1 and 2) -/

/-- R28: what a lane shows of the stream while its source is LOST. -/
inductive LossPolicy where
  | hold | blank
  deriving DecidableEq, Repr

/-- R23: the stream state. -/
inductive StreamState where
  | unbound | stopped | armed | capturing | stopping
  deriving DecidableEq, Repr

/-- R23: the freeze state. -/
inductive FreezeState where
  | live | freezePending | frozen
  deriving DecidableEq, Repr

/-- R22: the fields present when the stream is bound. -/
structure Binding where
  source : SourceIx
  scale : Scale
  storedWidth : Nat
  storedHeight : Nat
  depth : Nat
  policy : LossPolicy
  deriving DecidableEq, Repr

/-- R22, R26: the counters of a stream, in the order R42 reads them. -/
structure StreamCounters where
  captured : Word
  dropsStall : Word
  dropsFrozen : Word
  dropsStore : Word
  discarded : Word
  deriving DecidableEq, Repr

def StreamCounters.zero : StreamCounters := ⟨0, 0, 0, 0, 0⟩

/-- R24: the writer: the accepted source lines of the group in progress, and the lines stored in the current fill. -/
structure Writer where
  group : List (List Byte)
  stored : Nat
  deriving DecidableEq, Repr

def Writer.initial : Writer := ⟨[], 0⟩

/-- R22: the stream record. -/
structure Stream where
  state : StreamState
  binding : Option Binding
  freeze : FreezeState
  fill : Colour
  words : List Half
  admitted : Option Nat
  dropFlag : Bool
  pendingStop : Option Tag
  pendingFreeze : Option Tag
  counters : StreamCounters
  writer : Writer
  deriving DecidableEq, Repr

/-- R22: a stream record after a reset. -/
def Stream.initial : Stream :=
  ⟨.unbound, none, .live, .default, [], none, false, none, none, .zero, .initial⟩

/-- R2: the fill state of a slot record with the items present in it. -/
inductive Fill where
  | empty
  | filling (captured : Time)
  | ready (seq : Word) (captured : Time)
  | retired (seq : Word) (captured : Time)
  deriving DecidableEq, Repr

/-- R2: a slot record: the pool slot backing the position, the fill state, the pin count. -/
structure Slot where
  pool : Nat
  fill : Fill
  pins : Nat
  deriving DecidableEq, Repr

/-- R1 to R3: a ring: its slot records in position order, its ready order oldest first, its next sequence number. -/
structure Ring where
  slots : List Slot
  ready : List Nat
  nextSeq : Word
  deriving DecidableEq, Repr

/-! ### Sequence lists (chapter 4) -/

/-- R63: what a list entry shows. -/
inductive EntryKind where
  | stream (stream : StreamIx)
  | blank (scale : Scale)
  deriving DecidableEq, Repr

/-- R63: a list entry; its dwell is 1 to 255 or absent. -/
structure ListEntry where
  kind : EntryKind
  dwell : Option Nat
  deriving DecidableEq, Repr

/-- R62: the timing of a pending commit. -/
inductive Timing where
  | atFrame | atCycle
  deriving DecidableEq, Repr

/-- R62: what the list unit of a lane holds. -/
structure ListUnit where
  staged : List ListEntry
  active : List ListEntry
  commit : Option (Tag × Timing)
  generation : Half
  deriving DecidableEq, Repr

/-- R62: a list unit after a reset. -/
def ListUnit.initial : ListUnit := ⟨[], [], none, 0⟩

/-! ### Lanes and output ports (chapter 5) -/

/-- R81: the lane state. -/
inductive LaneState where
  | unset | ready | starting | running | stopping
  deriving DecidableEq, Repr

/-- R81: the list mode. -/
inductive ListMode where
  | cycle | once
  deriving DecidableEq, Repr

/-- R81, R83: what LANE_SETUP fixes beside the port; present when the lane is not UNSET. -/
structure LaneSetup where
  width : Nat
  height : Nat
  period : Nat
  mode : ListMode
  stamp : Bool
  fill : Colour
  deriving DecidableEq, Repr

/-- R10, R89, R117: what a tile shows; a STREAM tile holds the position, sequence number and captured-at time the pin claim
answered. -/
inductive TileBody where
  | blank
  | fill (stream : StreamIx) (frozen lost : Bool)
  | shown (stream : StreamIx) (position : Nat) (seq : Word) (captured : Time) (age : Nat) (repeated frozen lost : Bool)
      (words : List Half)
  deriving DecidableEq, Repr

/-- R89: a tile record: the entry index, the tile's fill colour, and what it shows. -/
structure Tile where
  index : Nat
  colour : Colour
  body : TileBody
  deriving DecidableEq, Repr

/-- R100: the counters of a lane, in their order. -/
structure LaneCounters where
  frames : Word
  repeats : Word
  fills : Word
  commits : Word
  deriving DecidableEq, Repr

def LaneCounters.zero : LaneCounters := ⟨0, 0, 0, 0⟩

/-- R81: the lane record. -/
structure Lane where
  state : LaneState
  drained : Bool
  setup : Option LaneSetup
  port : Option PortIx
  groupStart : Nat
  framesShown : Nat
  passCount : Half
  lastShown : List (Option Word)
  tiles : List Tile
  frameNumber : Word
  admitted : Option Nat
  timer : Option Time
  pendingStart : Option Tag
  pendingStop : Option Tag
  counters : LaneCounters
  deriving DecidableEq, Repr

/-- R81: a lane record after a reset. -/
def Lane.initial : Lane :=
  ⟨.unset, false, none, none, 0, 0, 0, [], [], 0, none, none, none, none, .zero⟩

/-- R85: the width mode of an output port. -/
inductive WidthMode where
  | w8 | w16
  deriving DecidableEq, Repr

/-- R85, R100: the record of an output port with its counters. -/
structure OutPort where
  width : WidthMode
  carried : List LaneIx
  ended : Word
  aborted : Word
  cut : Word
  deriving DecidableEq, Repr

/-- R85: an output port after a reset. -/
def OutPort.initial : OutPort := ⟨.w8, [], 0, 0, 0⟩

/-- R87: how far the frame in progress has come: its lines, or the words of its trailer packet still to be sent. -/
inductive OutStage where
  | lines
  | trailer (rest : List Half)
  deriving DecidableEq, Repr

/-- R87, R92: the output frame in progress, and the line from which its STREAM tiles are filled after a store fault. -/
structure OutFrame where
  stage : OutStage
  faultLine : Option Nat
  deriving DecidableEq, Repr

/-- R86, R87: what the port drives on a lane's phase: the frame in progress (none is idle code), the words sent since the frame
start marker of the current or last frame, and the words of the frame before that one, through its frame end or abort marker;
each word is the 16 data lines of one phase (log 14). -/
structure LaneOut where
  frame : Option OutFrame
  sent : List Half
  previous : List Half
  deriving DecidableEq, Repr

def LaneOut.initial : LaneOut := ⟨none, [], []⟩

/-- R115, R116: the stamp unit's copy for the frame in progress: the trailer head and the tile records it is made from. -/
structure Trailer where
  frameNumber : Word
  generation : Half
  passCount : Half
  groupStart : Nat
  framesShown : Nat
  dwell : Nat
  time : Time
  drained : Bool
  emptyList : Bool
  storeFault : Bool
  tiles : List Tile
  deriving DecidableEq, Repr

/-! ### Lock groups (chapter 6) -/

/-- R103: the lock role of a lane; JOINING holds the join phase and the tag of the pending LOCK_JOIN. -/
inductive JoinPhase where
  | finishing | waiting
  deriving DecidableEq, Repr

/-- R103: the lock role with the fields present in it: the leader named, and for JOINING the join phase and pending join. -/
inductive LockRole where
  | free
  | leader
  | follower (of : LaneIx)
  | joining (of : LaneIx) (phase : JoinPhase) (tag : Tag)
  deriving DecidableEq, Repr

/-- R103: the lock record. -/
structure Lock where
  role : LockRole
  lastRelayed : Option Time
  deriving DecidableEq, Repr

/-- R103: a lock record after a reset. -/
def Lock.initial : Lock := ⟨.free, none⟩

/-! ### Frame store (chapter 8) -/

/-- R124: why the store entered FAULT. -/
inductive StoreCause where
  | noResponse | training | unsupported | access
  deriving DecidableEq, Repr

/-- R125: the stages of bring-up. -/
inductive BringupStage where
  | probe | training | sizing
  deriving DecidableEq, Repr

/-- R124: the store state with the fields present in it. -/
inductive StoreState where
  | offline
  | bringup (stage : BringupStage) (deadline : Time)
  | ready
  | fault (cause : StoreCause)
  deriving DecidableEq, Repr

/-- R124: the slot format; bytes per slot = width × height × 2. -/
structure SlotFormat where
  width : Nat
  height : Nat
  deriving DecidableEq, Repr

/-- R124: the store record. The free set is a strictly rising list of slot numbers. -/
structure Store where
  state : StoreState
  capacity : Option Nat
  format : Option SlotFormat
  count : Nat
  free : List Nat
  deriving DecidableEq, Repr

/-- R124: the store record while RESET_N is asserted. -/
def Store.offline : Store := ⟨.offline, none, none, 0, []⟩

/-- The content of the external DRAM: the listed bytes by rising address. -/
abbrev Memory := List Host.Cell

/-! ### Bandwidth admission (chapter 9) -/

/-- R135: the holder of a claim. -/
inductive Holder where
  | stream (i : StreamIx)
  | lane (l : LaneIx)
  deriving DecidableEq, Repr

/-- R135: a claim of the budget table. -/
structure Claim where
  holder : Holder
  units : Nat
  deriving DecidableEq, Repr

/-! ### Control link (chapter 10) -/

/-- R147: an accepted request: its type byte, tag and body. -/
structure Request where
  kind : Byte
  tag : Tag
  body : List Byte
  deriving DecidableEq, Repr

/-- R150: the pending operation of an outstanding entry with its target; the request kind is the operation's. -/
inductive Pending where
  | streamStop (i : StreamIx)
  | streamFreeze (i : StreamIx)
  | listCommit (l : LaneIx)
  | laneStart (l : LaneIx)
  | laneStop (l : LaneIx)
  | lockJoin (follower : LaneIx)
  deriving DecidableEq, Repr

/-- R150: an entry of the outstanding table. -/
structure Entry where
  tag : Tag
  op : Pending
  deriving DecidableEq, Repr

/-- R149: the phase of a reply. -/
inductive ReplyPhase where
  | first | final
  deriving DecidableEq, Repr

/-- R149, R174: a reply: its type byte, tag, phase, result, and the body bytes after the result code. -/
structure Reply where
  kind : Byte
  tag : Tag
  phase : ReplyPhase
  result : Result
  fields : List Byte
  deriving DecidableEq, Repr

/-- R143, R156, R165: what the outbound frame is: the head of the reply queue, the notice with this sequence, or a notice a
soft reset has removed from the queue. -/
inductive OutboundKind where
  | reply
  | notice (seq : Half)
  | orphan
  deriving DecidableEq, Repr

/-- R143: the outbound frame with the number of its bytes sent so far. -/
structure Outbound where
  kind : OutboundKind
  bytes : List Byte
  sent : Nat
  deriving DecidableEq, Repr

/-- R159: the link counters, in their order. -/
structure LinkCounters where
  accepted : Word
  checkErrors : Word
  truncated : Word
  overruns : Word
  repliesSent : Word
  noticesSent : Word
  interrupted : Word
  deriving DecidableEq, Repr

def LinkCounters.zero : LinkCounters := ⟨0, 0, 0, 0, 0, 0, 0⟩

/-- R144, R168: the idle byte, which the device sends on LSDO between frames. -/
def idleByte : Byte := 0xFF

/-- R143, R144: the state of the link controller. The framer holds the bytes received since the sync byte, or none while hunting;
`lsdo` is the byte the device has sent at the last byte position (log 35). -/
structure Link where
  framer : Option (List Byte)
  inbound : List Request
  outstanding : List Entry
  replies : List Reply
  outbound : Option Outbound
  counters : LinkCounters
  lsdo : Byte
  deriving DecidableEq, Repr

/-- R143: the link controller while RESET_N is asserted; it drives LSDO with the idle byte. -/
def Link.initial : Link := ⟨none, [], [], [], none, .zero, idleByte⟩

/-! ### Notices (chapter 11) -/

/-- R172: the start cause. -/
inductive StartCause where
  | hard | soft
  deriving DecidableEq, Repr

/-- R172: the drop reason of a CAPTURE_DROP notice. -/
inductive DropReason where
  | stall | store
  deriving DecidableEq, Repr

/-- R161: the kind of a notice with its body. LINK_ERROR with a tag argument of none carries no tag. -/
inductive NoticeBody where
  | start (cause : StartCause)
  | noticesLost (count : Half)
  | linkCheck (tag : Option Tag)
  | linkTruncated (tag : Option Tag)
  | linkOverrun (tag : Tag)
  | storeReady (mib count : Nat)
  | storeFault (cause : StoreCause)
  | sourcePresent (source : SourceIx)
  | sourceLost (source : SourceIx)
  | frameError (source : SourceIx) (cause : Cause)
  | captureDrop (stream : StreamIx) (reason : DropReason)
  | listDone (lane : LaneIx) (generation : Half)
  | lockLost (lane leader : LaneIx)
  deriving DecidableEq, Repr

/-- R161: a notice record. -/
structure Notice where
  seq : Half
  time : Time
  body : NoticeBody
  deriving DecidableEq, Repr

/-- R162, R163: the notice unit. The notice queue is the transmitted prefix followed by the untransmitted suffix. -/
structure NoticeUnit where
  mask : BitVec 5
  transmitted : List Notice
  untransmitted : List Notice
  nextSeq : Half
  lost : Half
  deriving DecidableEq, Repr

/-- R160, R166: the notice unit while RESET_N is asserted; the mask is all enabled (log 28). -/
def NoticeUnit.initial : NoticeUnit := ⟨0x1F, [], [], 0, 0⟩

/-! ### The whole block -/

/-- The state of the block. -/
structure State where
  /-- R143: RESET_N is asserted. -/
  resetAsserted : Bool
  /-- R144: LCS_N is held low by the host. -/
  lcsLow : Bool
  deviceTime : Time
  sources : Vector Source 16
  capturePorts : Vector CapturePort 4
  streams : Vector Stream 20
  /-- R1: the ring of each bound stream. -/
  rings : Vector (Option Ring) 20
  lists : Vector ListUnit 6
  lanes : Vector Lane 6
  locks : Vector Lock 6
  outPorts : Vector OutPort 3
  outs : Vector LaneOut 6
  /-- R122: the stamp unit's copies. -/
  trailers : Vector (Option Trailer) 6
  store : Store
  dram : Memory
  /-- R135: the claims of the budget table, in order of admission. -/
  claims : List Claim
  link : Link
  notices : NoticeUnit
  /-- The MODEL's own: the counter the free values of Config are applied to (log 13). -/
  freeCount : Nat
  /-- The commands waiting, first in, first out. -/
  pending : List Instr
  deriving DecidableEq, Repr

/-- The machine right after a hard reset: RESET_N is asserted and every block holds the value its chapter gives (R143, R124,
R166 and the record rules; log 1). -/
def State.reset : State where
  resetAsserted := true
  lcsLow := false
  deviceTime := 0
  sources := Vector.replicate 16 Source.initial
  capturePorts := Vector.replicate 4 CapturePort.initial
  streams := Vector.replicate 20 Stream.initial
  rings := Vector.replicate 20 none
  lists := Vector.replicate 6 ListUnit.initial
  lanes := Vector.replicate 6 Lane.initial
  locks := Vector.replicate 6 Lock.initial
  outPorts := Vector.replicate 3 OutPort.initial
  outs := Vector.replicate 6 LaneOut.initial
  trailers := Vector.replicate 6 none
  store := Store.offline
  dram := []
  claims := []
  link := Link.initial
  notices := NoticeUnit.initial
  freeCount := 0
  pending := []

/-- Why the machine stops with a fault. -/
inductive Fault where
  /-- Raised by CAPTURE_FRAME_START, LINE_START and FRAME_END when the line judged there would be stored at a DRAM address
  beyond the detected capacity, an address R124 and R132 leave no slot at. Safe: the block never makes such an access. -/
  | dramRange
  deriving DecidableEq, Repr

/-- Why a command has no meaning. -/
inductive Refusal where
  /-- Raised by exec's arm of a command that is not modelled yet; safe. No arm raises it. -/
  | notModelled (mnemonic : String)
  deriving DecidableEq, Repr

/-- The outcome of a step of this machine. -/
abbrev Outcome := Host.Outcome State Fault Refusal

end Sys2Proof.Machine
end

