-- ==== Sys2Proof/Machine/Operands.lean ====
section
/-! DEFINITION. The encodings of chapter 12: byte order, the check, the code tables, the fields of request bodies as the
dispatcher reads them, and the conventions that reply and notice bodies follow. -/

namespace Sys2Proof.Machine

open Sys2Proof

/-! ### Numbers on the link: little-endian (R168 to R170) -/

/-- The byte with value `n`, a number that fits one byte. -/
def byte (n : Nat) : Byte := BitVec.ofNat 8 n

def u8 (n : Nat) : List Byte := [byte n]
def u16 (n : Nat) : List Byte := [byte n, byte (n / 256)]
def u32 (n : Nat) : List Byte := [byte n, byte (n / 256), byte (n / 65536), byte (n / 16777216)]

/-- A two-byte field as a number, least significant byte first. -/
def le16 (lo hi : Byte) : Nat := lo.toNat + 256 * hi.toNat

/-- R170: a flag is one byte, 0 for clear and 1 for set. -/
def flagByte (b : Bool) : List Byte := [if b then 1 else 0]

/-- R170: an optional field is a presence byte, followed by the value when present. -/
def optional {α : Type} (enc : α → List Byte) : Option α → List Byte
  | none => [0]
  | some x => 1 :: enc x

/-- R170: an absent stream, lane, port, source or position index is 0xFF. -/
def indexByte : Option Nat → List Byte
  | none => [0xFF]
  | some n => u8 n

/-- R170: an absent captured-frame sequence number is 0. -/
def seqBytes (seq : Option Word) : List Byte := u32 (seq.getD 0).toNat

/-- R170: a list is a count byte followed by its items. -/
def listBytes {α : Type} (enc : α → List Byte) (xs : List α) : List Byte := u8 xs.length ++ xs.flatMap enc

/-- R170: a colour is Y, then Cb, then Cr. -/
def Colour.bytes (c : Colour) : List Byte := [c.y, c.cb, c.cr]

/-! ### The check (R169) -/

/-- One bit of the CRC-16 with polynomial 0x1021, most significant bit first. -/
def crcBit (crc : Half) (bit : Bool) : Half :=
  if crc.msb != bit then (crc <<< 1) ^^^ 0x1021 else crc <<< 1

/-- One byte of the check, its most significant bit fed first. -/
def crcByte (crc : Half) (b : Byte) : Half :=
  [7, 6, 5, 4, 3, 2, 1, 0].foldl (fun c i => crcBit c (b.getLsbD i)) crc

/-- R169: CRC-16, polynomial 0x1021, initial value 0xFFFF, neither reflected nor inverted. -/
def crc16 (bs : List Byte) : Half := bs.foldl crcByte 0xFFFF

/-! ### Code tables (R171, R172) -/

/-- R171: the code of a request kind. -/
def Kind.code : Kind → Byte
  | .streamBind => 0x01 | .streamUnbind => 0x02 | .streamStart => 0x03 | .streamStop => 0x04 | .streamFreeze => 0x05
  | .streamThaw => 0x06 | .streamFill => 0x07 | .sourceSetup => 0x08 | .listEdit => 0x09 | .listRead => 0x0A
  | .listCommit => 0x0B | .laneSetup => 0x0C | .portSetup => 0x0D | .laneStart => 0x0E | .laneStop => 0x0F
  | .lockJoin => 0x10 | .lockLeave => 0x11 | .streamStamp => 0x12 | .storeConfig => 0x13 | .identify => 0x14
  | .status => 0x15 | .counters => 0x16 | .linkSet => 0x17 | .cancel => 0x18 | .reset => 0x19 | .noticeAck => 0x1A
  | .noticeResend => 0x1B

/-- R168: the reply kind that answers a received type is that type with its top bit inverted. -/
def replyKind (kind : Byte) : Byte := kind ^^^ 0x80

/-- R171: the code of a result. -/
def Result.code : Result → Byte
  | .ok => 0x00 | .pending => 0x01 | .cancelled => 0x02 | .aborted => 0x03 | .badRequest => 0x10 | .badParam => 0x11
  | .badState => 0x12 | .inUse => 0x13 | .notReady => 0x14 | .noSlots => 0x15 | .noBandwidth => 0x16 | .busy => 0x17
  | .tagInUse => 0x18 | .notPending => 0x19 | .listInvalid => 0x1A | .commitPending => 0x1B | .leaderStopped => 0x1C

/-- R172: discard and error causes. -/
def Cause.code : Cause → Byte
  | .short => 1 | .long => 2 | .badLine => 3 | .broken => 4 | .lostMidFrame => 5 | .access => 6 | .stopDiscard => 7
  | .overRate => 8

/-- R172: store fault causes. -/
def StoreCause.code : StoreCause → Byte
  | .noResponse => 0 | .training => 1 | .unsupported => 2 | .access => 3

def Scale.code : Scale → Byte
  | .full => 0 | .half => 1 | .third => 2

def LossPolicy.code : LossPolicy → Byte
  | .hold => 0 | .blank => 1

def Timing.code : Timing → Byte
  | .atFrame => 0 | .atCycle => 1

def ListMode.code : ListMode → Byte
  | .cycle => 0 | .once => 1

def WidthMode.code : WidthMode → Byte
  | .w8 => 8 | .w16 => 16

def StartCause.code : StartCause → Byte
  | .hard => 0 | .soft => 1

def DropReason.code : DropReason → Byte
  | .stall => 0 | .store => 1

/-! R170: where 12.3 gives no code, the position in the list of values the owning rule gives. -/

def SourceState.code : SourceState → Byte
  | .unset => 0 | .silent => 1 | .present => 2 | .lost => 3

def FramePhase.code : FramePhase → Byte
  | .out => 0 | .inFrame _ => 1 | .skipping => 2

def StreamState.code : StreamState → Byte
  | .unbound => 0 | .stopped => 1 | .armed => 2 | .capturing => 3 | .stopping => 4

def FreezeState.code : FreezeState → Byte
  | .live => 0 | .freezePending => 1 | .frozen => 2

def Fill.code : Fill → Byte
  | .empty => 0 | .filling _ => 1 | .ready _ _ => 2 | .retired _ _ => 3

def LaneState.code : LaneState → Byte
  | .unset => 0 | .ready => 1 | .starting => 2 | .running => 3 | .stopping => 4

def LockRole.code : LockRole → Byte
  | .free => 0 | .leader => 1 | .follower _ => 2 | .joining _ _ _ => 3

def JoinPhase.code : JoinPhase → Byte
  | .finishing => 0 | .waiting => 1

def StoreState.code : StoreState → Byte
  | .offline => 0 | .bringup _ _ => 1 | .ready => 2 | .fault _ => 3

/-- R175: the kind of a tile entry. -/
def TileBody.code : TileBody → Byte
  | .shown _ _ _ _ _ _ _ _ _ => 0 | .blank => 1 | .fill _ _ _ => 2

/-- R150: the request kind of a pending operation. -/
def Pending.kind : Pending → Kind
  | .streamStop _ => .streamStop | .streamFreeze _ => .streamFreeze | .listCommit _ => .listCommit
  | .laneStart _ => .laneStart | .laneStop _ => .laneStop | .lockJoin _ => .lockJoin

/-- R143: the index of the stream or lane a pending operation names; for LOCK_JOIN the follower. -/
def Pending.target : Pending → Nat
  | .streamStop i => i.val | .streamFreeze i => i.val | .listCommit l => l.val
  | .laneStart l => l.val | .laneStop l => l.val | .lockJoin l => l.val

/-! ### Field readers: none where the value is out of range -/

/-- An index below `n`. -/
def index? (n : Nat) (b : Byte) : Option (Fin n) := if h : b.toNat < n then some ⟨b.toNat, h⟩ else none

def scale? (b : Byte) : Option Scale :=
  if b = 0 then some .full else if b = 1 then some .half else if b = 2 then some .third else none

def policy? (b : Byte) : Option LossPolicy := if b = 0 then some .hold else if b = 1 then some .blank else none

/-- R172: the stop option; true is DISCARD for a stream and IMMEDIATE for a lane. -/
def option? (b : Byte) : Option Bool := if b = 0 then some false else if b = 1 then some true else none

def timing? (b : Byte) : Option Timing := if b = 0 then some .atFrame else if b = 1 then some .atCycle else none

def mode? (b : Byte) : Option ListMode := if b = 0 then some .cycle else if b = 1 then some .once else none

/-- R172: the port field of LANE_SETUP: OP0 to OP2, or 0xFF for none. -/
def port? (b : Byte) : Option (Option PortIx) :=
  if b = 0xFF then some none else (index? 3 b).map some

def width? (b : Byte) : Option WidthMode := if b = 8 then some .w8 else if b = 16 then some .w16 else none

/-- R63, R172: a list entry of three bytes. -/
def entry? (kind what dwell : Byte) : Option ListEntry :=
  let d := if dwell = 0 then none else some dwell.toNat
  if kind = 0 then (index? 20 what).map (fun i => ⟨.stream i, d⟩)
  else if kind = 1 then (scale? what).map (fun sc => ⟨.blank sc, d⟩)
  else none

/-- R172: the entries of a LIST_EDIT, three bytes each; none if one is out of range. -/
def entries? : List Byte → Option (List ListEntry)
  | [] => some []
  | k :: w :: d :: rest =>
    match entry? k w d, entries? rest with
    | some e, some es => some (e :: es)
    | _, _ => none
  | _ => none

/-- R172: a list entry on the link. -/
def ListEntry.bytes (e : ListEntry) : List Byte :=
  match e.kind with
  | .stream i => [0, byte i.val, byte (e.dwell.getD 0)]
  | .blank sc => [1, sc.code, byte (e.dwell.getD 0)]

/-- R119: the user words of a STREAM_STAMP. -/
def words : List Byte → List Half
  | lo :: hi :: rest => BitVec.ofNat 16 (le16 lo hi) :: words rest
  | _ => []

/-! ### Link frames (R168) -/

/-- R168: a whole frame: the sync byte, the four header bytes, the body and the check, low byte first. -/
def frameBytes (kind tag aux : Byte) (body : List Byte) : List Byte :=
  let covered := kind :: tag :: aux :: byte body.length :: body
  0xA5 :: covered ++ u16 (crc16 covered).toNat

/-- R168, R174: a reply as a frame: aux 0x01 for FIRST and 0x02 for FINAL; the body begins with the result code. -/
def Reply.bytes (r : Reply) : List Byte :=
  frameBytes r.kind r.tag (match r.phase with | .first => 0x01 | .final => 0x02) (r.result.code :: r.fields)

/-- R157, R166: part code, revision and the eight capability counts. -/
def capabilitySummary : List Byte :=
  u16 Config.partCode ++ u8 Config.revision ++ Config.capabilityCounts.flatMap u8

/-- R171: the code of a notice kind. -/
def NoticeBody.code : NoticeBody → Byte
  | .start _ => 0x40 | .noticesLost _ => 0x41 | .linkCheck _ => 0x42 | .linkTruncated _ => 0x42 | .linkOverrun _ => 0x43
  | .storeReady _ _ => 0x44 | .storeFault _ => 0x45 | .sourcePresent _ => 0x46 | .sourceLost _ => 0x47
  | .frameError _ _ => 0x48 | .captureDrop _ _ => 0x49 | .listDone _ _ => 0x4A | .lockLost _ _ => 0x4B

/-- R174: the fields of a notice after its device time. -/
def NoticeBody.fields : NoticeBody → List Byte
  | .start c => c.code :: capabilitySummary
  | .noticesLost n => u16 n.toNat
  | .linkCheck t => 0 :: optional (fun x => [x]) t
  | .linkTruncated t => 1 :: optional (fun x => [x]) t
  | .linkOverrun t => [t]
  | .storeReady mib n => u16 mib ++ u8 n
  | .storeFault c => [c.code]
  | .sourcePresent n => u8 n.val
  | .sourceLost n => u8 n.val
  | .frameError n c => [byte n.val, c.code]
  | .captureDrop i r => [byte i.val, r.code]
  | .listDone l g => u8 l.val ++ u16 g.toNat
  | .lockLost l ld => [byte l.val, byte ld.val]

/-- R168, R174: a notice as a frame: the tag byte is the low byte of the sequence and aux the high byte. -/
def Notice.bytes (n : Notice) : List Byte :=
  frameBytes n.body.code (byte n.seq.toNat) (byte (n.seq.toNat / 256)) (u32 n.time.toNat ++ n.body.fields)

end Sys2Proof.Machine
end

