-- ==== Sys2Proof/Machine/Flags.lean ====
section
/-! DEFINITION. Counters, timers and the conditions the link and the notice unit judge: saturation (00_scope.md Counters),
expiry (R56, R93), the request window (R147), the room for final replies (R151), ATTN_N (R154) and the class mask (R160). -/

namespace Sys2Proof.Machine

open Sys2Proof

/-- 00_scope.md: an event counter saturates at its largest value. -/
def satInc {n : Nat} (x : BitVec n) : BitVec n := if x = BitVec.allOnes n then x else x + 1

/-- R7: the next captured-frame sequence number; it wraps from 4,294,967,295 to 1. -/
def seqAfter (x : Word) : Word := if x = BitVec.allOnes 32 then 1 else x + 1

/-- The device time `ms` milliseconds after `t`, modulo 2³². -/
def after (t : Time) (ms : Nat) : Time := t + BitVec.ofNat 32 ms

/-- The time from `t` to `now`, modulo 2³² (00_scope.md Device time). -/
def elapsed (now t : Time) : Nat := (now - t).toNat

/-- A timer with this expiry is due: the device time has reached it (log 5). -/
def due (now expiry : Time) : Bool := decide (elapsed now expiry < 2147483648)

/-- R147: the first replies queued and not yet transmitted. -/
def firstReplies (k : Link) : Nat := k.replies.countP (fun r => r.phase = .first)

/-- R151: the final replies queued and not yet transmitted. -/
def finalReplies (k : Link) : Nat := k.replies.countP (fun r => r.phase = .final)

/-- R147: the request window has room. -/
def windowOpen (k : Link) : Bool := decide (k.inbound.length + firstReplies k < Config.requestWindow)

/-- R151: the dispatcher takes a request unless the outstanding entries and the queued final replies number 8 together and
at least one of them is a queued final reply. -/
def replyRoom (k : Link) : Bool :=
  decide (k.outstanding.length + finalReplies k < Config.outstandingPlaces) || decide (finalReplies k = 0)

/-- R148: step 6: the outstanding table holds 8 entries. -/
def tableFull (k : Link) : Bool := decide (Config.outstandingPlaces ≤ k.outstanding.length)

/-- R148: step 2: an outstanding entry holds the tag. -/
def tagHeld (k : Link) (tag : Tag) : Bool := k.outstanding.any (fun e => e.tag = tag)

/-- R163: the notices in the queue. -/
def noticeCount (u : NoticeUnit) : Nat := u.transmitted.length + u.untransmitted.length

/-- R154: ATTN_N is driven low. -/
def State.attnLow (s : State) : Bool := !s.link.replies.isEmpty || !s.notices.untransmitted.isEmpty

/-- R172: the mask bit of a notice's class; START, NOTICES_LOST and STORE_FAULT belong to no class (R161). -/
def NoticeBody.maskBit : NoticeBody → Option Nat
  | .start _ => none | .noticesLost _ => none | .storeFault _ => none
  | .linkCheck _ => some 0 | .linkTruncated _ => some 0 | .linkOverrun _ => some 0
  | .storeReady _ _ => some 1
  | .sourcePresent _ => some 2 | .sourceLost _ => some 2 | .frameError _ _ => some 2
  | .captureDrop _ _ => some 3
  | .listDone _ _ => some 4 | .lockLost _ _ => some 4

/-- R162: the notice's class is enabled, or it belongs to none. -/
def classEnabled (mask : BitVec 5) (b : NoticeBody) : Bool :=
  match b.maskBit with
  | none => true
  | some n => mask.getLsbD n

/-- 00_scope.md: k = 1, 2, 3 for FULL, HALF, THIRD. -/
def Scale.k : Scale → Nat
  | .full => 1 | .half => 2 | .third => 3

/-- R64: the group size: FULL 1, HALF 4, THIRD 9. -/
def Scale.groupSize : Scale → Nat
  | .full => 1 | .half => 4 | .third => 9

/-- R136: the demand of a stream at scale k, ceil(3600 / (period × k²)); of a lane with k = 1. -/
def demand (period k : Nat) : Nat := (3600 + period * (k * k) - 1) / (period * (k * k))

end Sys2Proof.Machine
end

