-- ==== Sys2Proof/Machine/Ops.lean ====
section
/-! DEFINITION. The named operations over the state: records by index, the external memory, the notice unit's entry (R162),
replies and the outstanding table (R149, R150), the budget table (R135, R137), and the claims on a ring (chapter 1). -/

namespace Sys2Proof.Machine

open Sys2Proof

/-! ### Records by index -/

def rd {α : Type} {n : Nat} (v : Vector α n) (i : Fin n) : α := v[i.val]
def wr {α : Type} {n : Nat} (v : Vector α n) (i : Fin n) (x : α) : Vector α n := v.set i.val x

def State.source (s : State) (n : SourceIx) : Source := rd s.sources n
def State.capturePort (s : State) (p : CaptureIx) : CapturePort := rd s.capturePorts p
def State.stream (s : State) (i : StreamIx) : Stream := rd s.streams i
def State.ring (s : State) (i : StreamIx) : Option Ring := rd s.rings i
def State.list (s : State) (l : LaneIx) : ListUnit := rd s.lists l
def State.lane (s : State) (l : LaneIx) : Lane := rd s.lanes l
def State.lock (s : State) (l : LaneIx) : Lock := rd s.locks l
def State.outPort (s : State) (p : PortIx) : OutPort := rd s.outPorts p
def State.out (s : State) (l : LaneIx) : LaneOut := rd s.outs l
def State.trailer (s : State) (l : LaneIx) : Option Trailer := rd s.trailers l

def State.modSource (s : State) (n : SourceIx) (f : Source → Source) : State :=
  { s with sources := wr s.sources n (f (s.source n)) }
def State.modCapturePort (s : State) (p : CaptureIx) (f : CapturePort → CapturePort) : State :=
  { s with capturePorts := wr s.capturePorts p (f (s.capturePort p)) }
def State.modStream (s : State) (i : StreamIx) (f : Stream → Stream) : State :=
  { s with streams := wr s.streams i (f (s.stream i)) }
def State.setRing (s : State) (i : StreamIx) (r : Option Ring) : State :=
  { s with rings := wr s.rings i r }
def State.modRing (s : State) (i : StreamIx) (f : Ring → Ring) : State := s.setRing i ((s.ring i).map f)
def State.modList (s : State) (l : LaneIx) (f : ListUnit → ListUnit) : State :=
  { s with lists := wr s.lists l (f (s.list l)) }
def State.modLane (s : State) (l : LaneIx) (f : Lane → Lane) : State :=
  { s with lanes := wr s.lanes l (f (s.lane l)) }
def State.modLock (s : State) (l : LaneIx) (f : Lock → Lock) : State :=
  { s with locks := wr s.locks l (f (s.lock l)) }
def State.modOutPort (s : State) (p : PortIx) (f : OutPort → OutPort) : State :=
  { s with outPorts := wr s.outPorts p (f (s.outPort p)) }
def State.modOut (s : State) (l : LaneIx) (f : LaneOut → LaneOut) : State :=
  { s with outs := wr s.outs l (f (s.out l)) }
def State.setTrailer (s : State) (l : LaneIx) (t : Option Trailer) : State :=
  { s with trailers := wr s.trailers l t }
def State.modLink (s : State) (f : Link → Link) : State := { s with link := f s.link }

/-- `f` applied for each index in increasing order. -/
def forAll {n : Nat} (f : Fin n → State → State) (s : State) : State := (List.finRange n).foldl (fun t i => f i t) s

/-! ### The external memory (R124, log 10) -/

/-- What an unlisted byte of the frame store reads as: DESIGN CHOICE 0 (log 10). -/
def unlistedByte : Byte := 0

/-- The byte at an address. -/
def Memory.read : Memory → Nat → Byte
  | [], _ => unlistedByte
  | (k, b) :: m, a => if k = a then b else Memory.read m a

/-- Writes one byte and keeps the canonical form. -/
def Memory.write : Memory → Nat → Byte → Memory
  | [], a, b => if b = unlistedByte then [] else [(a, b)]
  | (k, c) :: m, a, b =>
    if a < k then (if b = unlistedByte then (k, c) :: m else (a, b) :: (k, c) :: m)
    else if a = k then (if b = unlistedByte then m else (a, b) :: m)
    else (k, c) :: Memory.write m a b

/-- Writes a run of bytes from an address upward. -/
def Memory.writeBytes : Memory → Nat → List Byte → Memory
  | m, _, [] => m
  | m, a, b :: bs => Memory.writeBytes (Memory.write m a b) (a + 1) bs

/-- The bytes of a run from an address upward. -/
def Memory.readBytes (m : Memory) (a n : Nat) : List Byte := (List.range n).map (fun j => Memory.read m (a + j))

/-- The canonical form from an address on: addresses strictly rising, no entry equal to an unlisted byte. -/
def Memory.wfFrom : Nat → Memory → Bool
  | _, [] => true
  | low, (k, b) :: m => decide (low ≤ k) && decide (b ≠ unlistedByte) && Memory.wfFrom (k + 1) m

/-- The canonical form. -/
def Memory.wf (m : Memory) : Bool := Memory.wfFrom 0 m

/-- R124: bytes per slot = width × height × 2. -/
def SlotFormat.bytes (f : SlotFormat) : Nat := f.width * f.height * 2

/-- R124 and log 11: the address of byte 0 of a stored line of a pool slot; lines stand 2 × slot width bytes apart. -/
def lineAddress (f : SlotFormat) (pool line : Nat) : Nat := pool * f.bytes + line * (f.width * 2)

/-- R124: the run of `n` bytes from an address lies in the detected capacity. -/
def Store.holds (st : Store) (a n : Nat) : Bool :=
  match st.capacity with
  | none => false
  | some c => decide (a + n ≤ c * Config.mib)

/-! ### Notices (R162) -/

/-- Appends a notice with the next sequence number and the device time `s` holds. -/
def enterNotice (b : NoticeBody) (s : State) : State :=
  { s with notices := { s.notices with
      untransmitted := s.notices.untransmitted ++ [⟨s.notices.nextSeq, s.deviceTime, b⟩]
      nextSeq := s.notices.nextSeq + 1 } }

/-- R162: a block hands a notice to the notice unit. -/
def raise (b : NoticeBody) (s : State) : State :=
  if classEnabled s.notices.mask b then
    if Config.noticePlaces ≤ noticeCount s.notices then
      { s with notices := { s.notices with lost := satInc s.notices.lost } }
    else enterNotice b s
  else s

/-! ### Replies and the outstanding table (R149, R150) -/

/-- Appends a reply to the reply queue. -/
def queueReply (r : Reply) (s : State) : State := s.modLink (fun k => { k with replies := k.replies ++ [r] })

/-- R148: the first reply of a request of kind `k`. -/
def firstReply (k : Kind) (tag : Tag) (res : Result) (fields : List Byte) (s : State) : State :=
  queueReply ⟨replyKind k.code, tag, .first, res, fields⟩ s

/-- R150: removes the entry with the tag and queues its final reply, in one action; nothing where no entry holds the tag. -/
def complete (tag : Tag) (res : Result) (fields : List Byte) (s : State) : State :=
  match s.link.outstanding.find? (fun e => e.tag = tag) with
  | none => s
  | some e =>
    queueReply ⟨replyKind e.op.kind.code, tag, .final, res, fields⟩
      (s.modLink (fun k => { k with outstanding := k.outstanding.eraseP (fun x => x.tag = tag) }))

/-- `complete` for a tag that may be absent. -/
def completeIf (tag : Option Tag) (res : Result) (fields : List Byte) (s : State) : State :=
  match tag with
  | none => s
  | some t => complete t res fields s

/-- R150: enters a request answered PENDING and queues that first reply. -/
def defer (tag : Tag) (op : Pending) (s : State) : State :=
  firstReply op.kind tag .pending [] (s.modLink (fun k => { k with outstanding := k.outstanding ++ [⟨tag, op⟩] }))

/-- A request refused: its result and what the refusal carries after it (LIST_INVALID alone carries more, R174). -/
structure Refused where
  result : Result
  fields : List Byte
  deriving DecidableEq, Repr

/-- R148: what the judging of a request ends in: a refusal, which changes nothing, or the state after the owning block has
performed it, its first reply queued. -/
abbrev Verdict := Except Refused State

/-- A refusal that carries the result alone. -/
def refuse (r : Result) : Verdict := .error ⟨r, []⟩

/-- R148: the first reply of a refused request carries the refusal. -/
def answer (k : Kind) (tag : Tag) (s : State) : Verdict → State
  | .error r => firstReply k tag r.result r.fields s
  | .ok t => t

/-! ### Budget table (R135 to R139) -/

/-- R135: the total is the sum of the units of all claims. -/
def claimTotal (cs : List Claim) : Nat := (cs.map Claim.units).sum

/-- R137: the claim is admitted if the total plus the demand is 1000 or less. -/
def fits (s : State) (units : Nat) : Bool := decide (claimTotal s.claims + units ≤ Config.budgetUnits)

/-- R137: appends a claim. -/
def admitClaim (h : Holder) (units : Nat) (s : State) : State := { s with claims := s.claims ++ [⟨h, units⟩] }

/-- R135: removes the holder's claim; the others keep their order. -/
def releaseClaim (h : Holder) (s : State) : State := { s with claims := s.claims.filter (fun c => c.holder ≠ h) }

/-! ### Rings (chapter 1) -/

/-- R1: the ring over the given pool slots, in position order. -/
def Ring.create (pools : List Nat) : Ring := ⟨pools.map (fun p => ⟨p, .empty, 0⟩), [], 1⟩

/-- R3: the newest frame's position: the last entry of the ready order. -/
def Ring.newest (r : Ring) : Option Nat := r.ready.getLast?

def Fill.isFilling : Fill → Bool
  | .filling _ => true
  | _ => false

def Fill.isEmpty : Fill → Bool
  | .empty => true
  | _ => false

/-- R2: the sequence number, present when READY or RETIRED. -/
def Fill.seq : Fill → Option Word
  | .ready q _ => some q
  | .retired q _ => some q
  | _ => none

/-- R2: the captured-at time, present unless EMPTY. -/
def Fill.captured : Fill → Option Time
  | .empty => none
  | .filling t => some t
  | .ready _ t => some t
  | .retired _ t => some t

/-- R5: the FILLING position, of which a ring holds at most one. -/
def Ring.filling (r : Ring) : Option Nat := r.slots.findIdx? (fun x => x.fill.isFilling)

def Ring.setFill (r : Ring) (p : Nat) (f : Fill) : Ring :=
  { r with slots := r.slots.modify p (fun x => { x with fill := f }) }

/-- R5: a position is eligible if it is not FILLING, its pin count is 0 and it is not the newest. -/
def Ring.eligible (r : Ring) (p : Nat) : Bool :=
  match r.slots[p]? with
  | none => false
  | some x => !x.fill.isFilling && decide (x.pins = 0) && decide (r.newest ≠ some p)

/-- R5: the writer's choice: the lowest eligible EMPTY position, else the eligible READY position earliest in the ready order. -/
def Ring.choose (r : Ring) : Option Nat :=
  match (List.range r.slots.length).find? (fun p => r.eligible p && (r.slots[p]?.any (fun x => x.fill.isEmpty))) with
  | some p => some p
  | none => r.ready.find? (fun p => r.eligible p)

/-- R5: the chosen position leaves the ready order and becomes FILLING, captured at `t`. -/
def Ring.begin (r : Ring) (p : Nat) (t : Time) : Ring :=
  { (r.setFill p (.filling t)) with ready := r.ready.filter (fun q => q ≠ p) }

/-- R7: the FILLING position becomes READY with the next sequence number and joins the ready order at its end. -/
def Ring.finish (r : Ring) (p : Nat) (t : Time) : Ring :=
  { (r.setFill p (.ready r.nextSeq t)) with ready := r.ready ++ [p], nextSeq := seqAfter r.nextSeq }

/-- R8: the FILLING position becomes EMPTY. -/
def Ring.abandon (r : Ring) (p : Nat) : Ring := r.setFill p .empty

/-- R14: an unpinned READY position becomes EMPTY, a pinned one RETIRED. -/
def Slot.retire (x : Slot) : Slot :=
  match x.fill with
  | .ready q t => { x with fill := if x.pins = 0 then .empty else .retired q t }
  | _ => x

/-- R14: retirement; every READY position leaves the ready order. -/
def Ring.retire (r : Ring) : Ring := { r with slots := r.slots.map Slot.retire, ready := [] }

/-- R10: one more pin on the position. -/
def Ring.pin (r : Ring) (p : Nat) : Ring :=
  { r with slots := r.slots.modify p (fun x => { x with pins := x.pins + 1 }) }

/-- R11: one pin less; a RETIRED position that reaches 0 becomes EMPTY. -/
def Slot.unpin (x : Slot) : Slot :=
  match x.fill with
  | .retired q t => { x with pins := x.pins - 1, fill := if x.pins - 1 = 0 then .empty else .retired q t }
  | _ => { x with pins := x.pins - 1 }

def Ring.unpin (r : Ring) (p : Nat) : Ring := { r with slots := r.slots.modify p Slot.unpin }

/-- The sequence number of the newest frame, if any. -/
def Ring.newestSeq (r : Ring) : Option Word := r.newest.bind (fun p => (r.slots[p]?).bind (fun x => x.fill.seq))

/-- The sequence number of the stream's newest frame, if any. -/
def newestSeq (s : State) (i : StreamIx) : Option Word := (s.ring i).bind Ring.newestSeq

/-- The FILLING position of the stream's ring, if any. -/
def fillingAt (s : State) (i : StreamIx) : Option Nat := (s.ring i).bind Ring.filling

/-- R10: the answer to a pin claim: the newest position with its sequence number and captured-at time, while the store is
READY and the ready order is not empty. -/
def pinAnswer (s : State) (i : StreamIx) : Option (Nat × Word × Time) :=
  if s.store.state = .ready then
    (s.ring i).bind (fun r => r.newest.bind (fun p => (r.slots[p]?).bind (fun x =>
      match x.fill with
      | .ready q t => some (p, q, t)
      | _ => none)))
  else none

/-- R14: retirement of a stream's ring on source loss: under BLANK, and not while FROZEN. -/
def retireOnLoss (i : StreamIx) (s : State) : State :=
  match (s.stream i).binding with
  | some b => if b.policy = .blank ∧ (s.stream i).freeze ≠ .frozen then s.modRing i Ring.retire else s
  | none => s

/-- R58: the streams whose records name the source, in increasing stream number. -/
def boundStreams (s : State) (n : SourceIx) : List StreamIx :=
  (List.finRange 20).filter (fun i => (s.stream i).binding.any (fun b => b.source = n))

/-- R58: an event of a source handed to every stream bound to it. -/
def handOver (n : SourceIx) (f : StreamIx → State → State) (s : State) : State :=
  (boundStreams s n).foldl (fun t i => f i t) s

/-! ### The free set (R128) -/

/-- Adds a slot to a rising list of slots. -/
def insertSlot (x : Nat) : List Nat → List Nat
  | [] => [x]
  | y :: ys => if x < y then x :: y :: ys else if x = y then y :: ys else y :: insertSlot x ys

/-- R30: a stream named by an entry of a list. -/
def namedBy (i : StreamIx) (es : List ListEntry) : Bool := es.any (fun e => e.kind = .stream i)

end Sys2Proof.Machine
end

