-- ==== Sys2Proof/Machine/Request.lean ====
section
/-! DEFINITION. Acceptance of a good frame (R147), the bytes that move with it (R144) and the dispatcher (R148): what every
request row does before and around its own effect. -/

namespace Sys2Proof.Machine

open Sys2Proof

/-- R147: a good frame offered to the inbound queue: accepted if the request window has room, else discarded as an overrun. -/
def offer (r : Request) (s : State) : State :=
  if windowOpen s.link then
    s.modLink (fun k => { k with
      inbound := k.inbound ++ [r], counters := { k.counters with accepted := satInc k.counters.accepted } })
  else
    raise (.linkOverrun r.tag)
      (s.modLink (fun k => { k with counters := { k.counters with overruns := satInc k.counters.overruns } }))

/-! ### Bytes on the wire (R144) -/

/-- R152: the arbiter's choice, of which no byte has been sent: the head of the reply queue, else the first untransmitted
notice. -/
def chosenFrame (s : State) : Option Outbound :=
  match s.link.replies, s.notices.untransmitted with
  | r :: _, _ => some ⟨.reply, r.bytes, 0⟩
  | [], n :: _ => some ⟨.notice n.seq, n.bytes, 0⟩
  | [], [] => none

/-- R152: the frame whose next byte a byte position carries: the one in progress, else the arbiter's choice. -/
def frameAt (s : State) : Option Outbound :=
  match s.link.outbound with
  | some o => some o
  | none => chosenFrame s

/-- R149, R152: a reply has been shifted out: it leaves the reply queue and is counted. -/
def replySent (s : State) : State :=
  s.modLink (fun k => { k with
    replies := k.replies.tail, counters := { k.counters with repliesSent := satInc k.counters.repliesSent } })

/-- R163: the first untransmitted notice joins the transmitted prefix and is counted. -/
def noticeSent (n : Notice) (rest : List Notice) (s : State) : State :=
  { (s.modLink (fun k => { k with counters := { k.counters with noticesSent := satInc k.counters.noticesSent } })) with
    notices := { s.notices with transmitted := s.notices.transmitted ++ [n], untransmitted := rest } }

/-- R152, R163, R165, R156: the last check byte of a frame has been shifted out. A notice becomes transmitted only if it is the
first untransmitted one; else its end moves nothing and counts nothing. -/
def frameSent (k : OutboundKind) (s : State) : State :=
  match k, s.notices.untransmitted with
  | .reply, _ => replySent s
  | .notice q, n :: rest => if n.seq = q then noticeSent n rest s else s
  | .notice _, [] => s
  | .orphan, _ => s

/-- R144: LSDO carries a byte in one position, LCS_N being low (log 6), and `o` is the frame then in progress. -/
def putByte (b : Byte) (o : Option Outbound) (s : State) : State :=
  { s.modLink (fun k => { k with outbound := o, lsdo := b }) with lcsLow := true }

/-- R144, R152, R168: the device's byte in one byte position: the next byte of the frame in progress, the sync byte of a frame that
the arbiter starts, or the idle byte. With its last check byte the frame has been transmitted. -/
def sendByte (s : State) : State :=
  match frameAt s with
  | none => putByte idleByte none s
  | some o =>
    let b := o.bytes.getD o.sent idleByte
    if o.sent + 1 < o.bytes.length then putByte b (some { o with sent := o.sent + 1 }) s
    else frameSent o.kind (putByte b none s)

/-- R144, R152: the device's bytes in n byte positions. -/
def State.shifted (s : State) : Nat → State
  | 0 => s
  | n + 1 => (sendByte s).shifted n

/-- R143, R144: LSDO: the idle byte while RESET_N is asserted, the byte sent in the last byte position while LCS_N is low
(log 35), and not driven otherwise. -/
def State.lsdo (s : State) : Option Byte :=
  if s.resetAsserted then some idleByte else if s.lcsLow then some s.link.lsdo else none

/-- Log 3: a request command whose request does not stand at the head of the inbound queue also stands for the arrival of its
frame, whole and good: its 7 bytes around the body move in, a byte moves out in each of the same positions, and the frame is
offered. A frame the framer holds in part is kept. -/
def present (r : Request) (s : State) : State :=
  if s.link.inbound.head? = some r then s else offer r (s.shifted (7 + r.body.length))

/-- R148: the request stands at the head of the inbound queue and the reply queue has room. -/
def canTake (r : Request) (s : State) : Bool := decide (s.link.inbound.head? = some r) && replyRoom s.link

/-- R148: the dispatcher removes the request at the head from the inbound queue. -/
def taken (s : State) : State := s.modLink (fun k => { k with inbound := k.inbound.tail })

/-- R148: the dispatcher takes the request and `act` judges it and queues its first reply. While RESET_N is asserted the link
takes no frame and nothing waits (R143); a request that cannot be taken yet goes on waiting (R151). -/
def dispatch (r : Request) (act : State → State) (s : State) : Outcome :=
  if s.resetAsserted then .next s
  else if canTake r (present r s) then .next (act (taken (present r s)))
  else .next (present r s)

/-- R148: a request of a known kind: judged by its owner, a refusal answered with the state unchanged. -/
def request (k : Kind) (judge : Tag → List Byte → State → Verdict) (tag : Tag) (body : List Byte) (s : State) : Outcome :=
  dispatch ⟨k.code, tag, body⟩ (fun t => answer k tag t (judge tag body t)) s

/-- The state after a request is performed with an immediate outcome OK. -/
def okReply (k : Kind) (tag : Tag) (fields : List Byte) (s : State) : Verdict := .ok (firstReply k tag .ok fields s)

/-- R143: while RESET_N is asserted no event acts on the block. -/
def whileReleased (s t : State) : Outcome := if s.resetAsserted then .next s else .next t

/-- R149: UNKNOWN_REQUEST: a dispatched request of unknown kind is answered BAD_REQUEST with the received type's top bit
inverted as the reply kind, and changes nothing else. -/
def execUnknownRequest (kind tag : Byte) (body : List Byte) (s : State) : Outcome :=
  if 1 ≤ kind.toNat ∧ kind.toNat ≤ 0x1B then .next s
  else dispatch ⟨kind, tag, body⟩ (queueReply ⟨replyKind kind, tag, .first, .badRequest, []⟩) s

end Sys2Proof.Machine
end

