-- ==== Sys2Proof/Machine/Streams.lean ====
section
/-! DEFINITION. The stream controllers and the writer's claims (chapters 1 and 2): frame events reaching a stream, the settling
of pending stops and freezes, and the stream requests. -/

namespace Sys2Proof.Machine

open Sys2Proof

/-! ### The writer (R24) -/

/-- R46: the Y sample of pixel x of a line; bytes stand Cb, Y, Cr, Y. -/
def lumaAt (line : List Byte) (x : Nat) : Nat := (line.getD (2 * x + 1) 0).toNat
/-- R46: the Cb sample of pixel pair p of a line. -/
def cbAt (line : List Byte) (p : Nat) : Nat := (line.getD (4 * p) 0).toNat
/-- R46: the Cr sample of pixel pair p of a line. -/
def crAt (line : List Byte) (p : Nat) : Nat := (line.getD (4 * p + 2) 0).toNat

/-- R24: the mean of samples, rounded to the nearest integer, a half rounding up. -/
def roundedMean (xs : List Nat) : Byte := byte ((2 * xs.sum + xs.length) / (2 * xs.length))

/-- The numbers `a`, `a + 1`, … `a + n − 1`. -/
def span (a n : Nat) : List Nat := (List.range n).map (a + ·)

/-- R24: the mean over the group's lines of one sample at each of the given columns. -/
def groupMean (sample : List Byte → Nat → Nat) (group : List (List Byte)) (cols : List Nat) : Byte :=
  roundedMean (group.flatMap (fun line => cols.map (sample line)))

/-- R24: one stored pixel's Y at scale k. -/
def storedLuma (k : Nat) (group : List (List Byte)) (x : Nat) : Byte := groupMean lumaAt group (span (k * x) k)

/-- R24: the source pairs that hold a pixel of the last stored pixel's block. -/
def lonePairs (k x : Nat) : List Nat := span (k * x / 2) ((k * x + k - 1) / 2 + 1 - k * x / 2)

/-- R24: one stored line of `w` pixels made from the k lines of a group; FULL is a copy of the line. -/
def storedLine (sc : Scale) (w : Nat) (group : List (List Byte)) : List Byte :=
  match sc with
  | .full => group.headD []
  | _ =>
    let k := sc.k
    (List.range (w / 2)).flatMap (fun q =>
      [groupMean cbAt group (span (k * q) k), storedLuma k group (2 * q),
       groupMean crAt group (span (k * q) k), storedLuma k group (2 * q + 1)])
    ++ (if w % 2 = 1 then [groupMean cbAt group (lonePairs k (w - 1)), storedLuma k group (w - 1)] else [])

/-- R6, R24: the address and bytes of the stored line that an accepted line completes, if it completes one: the stream holds a
FILLING position and the line is the last of its group. -/
def lineStore (line : List Byte) (i : StreamIx) (s : State) : Option (Nat × List Byte) :=
  match (s.stream i).binding, s.ring i, s.store.format with
  | some b, some r, some f =>
    match r.filling with
    | none => none
    | some p =>
      let group := (s.stream i).writer.group ++ [line]
      if group.length = b.scale.k then
        some (lineAddress f ((r.slots[p]?.map Slot.pool).getD 0) (s.stream i).writer.stored,
          storedLine b.scale b.storedWidth group)
      else none
  | _, _, _ => none

/-- R24, R25: an accepted line reaching a stream: the writer accumulates it and stores one line when its group is whole. -/
def streamLine (line : List Byte) (i : StreamIx) (s : State) : State :=
  if (fillingAt s i).isSome then
    match lineStore line i s with
    | some (a, bytes) =>
      { (s.modStream i (fun r => { r with writer := ⟨[], r.writer.stored + 1⟩ })) with dram := s.dram.writeBytes a bytes }
    | none => s.modStream i (fun r => { r with writer := { r.writer with group := r.writer.group ++ [line] } })
  else s

/-- Log 12: every stored line the accepted line completes lies in the detected capacity. -/
def lineInRange (line : List Byte) (n : SourceIx) (s : State) : Bool :=
  (boundStreams s n).all (fun i => (lineStore line i s).all (fun x => s.store.holds x.1 x.2.length))

/-! ### Reports (R9, R26) and settling (R33, R37, R40) -/

/-- How a fill ended: completed with its sequence number, or abandoned for a cause. -/
inductive Settle where
  | completed (seq : Word)
  | discarded (cause : Cause)
  deriving DecidableEq, Repr

/-- R172, R174: the settle cause and cause bytes. -/
def Settle.code : Settle → List Byte
  | .completed _ => [1, 0]
  | .discarded c => [2, c.code]

/-- R174: a stop settled by COMPLETED carries the new sequence number, one settled otherwise 0. -/
def Settle.stopFields (x : Settle) : List Byte :=
  x.code ++ seqBytes (match x with | .completed q => some q | .discarded _ => none)

/-- R174: a stop or freeze answered OK at once carries settle cause 0 and cause 0. -/
def atOnce (seq : Option Word) : List Byte := [0, 0] ++ seqBytes seq

/-- R32, R138: the stream becomes STOPPED: its claim is released and its admitted demand becomes absent in the same action. -/
def stopStream (i : StreamIx) (s : State) : State :=
  releaseClaim (.stream i) (s.modStream i (fun r => { r with state := .stopped, admitted := none, pendingStop := none }))

/-- R37: a pending freeze is settled: the stream becomes FROZEN, holding whatever is newest. -/
def settleFreeze (x : Settle) (i : StreamIx) (s : State) : State :=
  match (s.stream i).pendingFreeze with
  | none => s
  | some t =>
    complete t .ok (x.code ++ seqBytes (newestSeq s i))
      (s.modStream i (fun r => { r with freeze := .frozen, pendingFreeze := none }))

/-- R33: a pending stop is settled: the stream becomes STOPPED, then its final reply is queued. -/
def settleStop (x : Settle) (i : StreamIx) (s : State) : State :=
  match (s.stream i).pendingStop with
  | none => s
  | some t => complete t .ok x.stopFields (stopStream i s)

/-- R40: the report of a fill settles the freeze first and the stop second. -/
def settle (x : Settle) (i : StreamIx) (s : State) : State := settleStop x i (settleFreeze x i s)

def State.modStreamCounters (s : State) (i : StreamIx) (f : StreamCounters → StreamCounters) : State :=
  s.modStream i (fun r => { r with counters := f r.counters })

/-- R27: a drop with reason STALL or STORE raises CAPTURE_DROP when the drop-notice flag is clear, and sets it. -/
def noteDrop (reason : DropReason) (i : StreamIx) (s : State) : State :=
  if (s.stream i).dropFlag then s
  else raise (.captureDrop i reason) (s.modStream i (fun r => { r with dropFlag := true }))

def dropStall (i : StreamIx) (s : State) : State :=
  noteDrop .stall i (s.modStreamCounters i (fun c => { c with dropsStall := satInc c.dropsStall }))

def dropStore (i : StreamIx) (s : State) : State :=
  noteDrop .store i (s.modStreamCounters i (fun c => { c with dropsStore := satInc c.dropsStore }))

def dropFrozen (i : StreamIx) (s : State) : State :=
  s.modStreamCounters i (fun c => { c with dropsFrozen := satInc c.dropsFrozen })

/-- R5: the writer's choice of a position, or the drop with reason STALL. -/
def choosePosition (t : Time) (i : StreamIx) (s : State) : State :=
  match (s.ring i).bind Ring.choose with
  | some p => (s.modRing i (fun r => r.begin p t)).modStream i (fun r => { r with writer := .initial })
  | none => dropStall i s

/-- R4: a frame start reaching a stream, in the order of its conditions. -/
def streamFrameStart (t : Time) (i : StreamIx) (s : State) : State :=
  if (s.stream i).state = .armed ∨ (s.stream i).state = .capturing then
    let s := s.modStream i (fun r => { r with state := .capturing })
    if (s.stream i).freeze = .frozen then dropFrozen i s
    else if s.store.state ≠ .ready then dropStore i s
    else choosePosition t i s
  else s

/-- R7: a frame completion reaching a stream. -/
def streamComplete (i : StreamIx) (s : State) : State :=
  match s.ring i with
  | none => s
  | some r =>
    match r.filling with
    | none => s
    | some p =>
      let t := ((r.slots[p]?).bind (fun x => x.fill.captured)).getD 0
      settle (.completed r.nextSeq) i
        ((s.setRing i (some (r.finish p t))).modStreamCounters i (fun c => { c with captured := satInc c.captured }))

/-- R8: a frame discard reaching a stream, and the emptying of the fill by a DISCARD stop or a store fault. -/
def streamDiscard (c : Cause) (i : StreamIx) (s : State) : State :=
  match fillingAt s i with
  | none => s
  | some p =>
    settle (.discarded c) i
      ((s.modRing i (fun r => r.abandon p)).modStreamCounters i (fun k => { k with discarded := satInc k.discarded }))

/-! ### Stream requests -/

/-- R22: the stored geometry at a scale. -/
def storedGeometry (g : SourceSetup) (sc : Scale) : Nat × Nat := (g.width / sc.k, g.height / sc.k)

/-- R28: the stored geometry of a source that is set up fits the slot format, where there is one. -/
def geometryFits (s : State) (n : SourceIx) (sc : Scale) : Bool :=
  match (s.source n).setup, s.store.format with
  | some g, some f => decide ((storedGeometry g sc).1 ≤ f.width ∧ (storedGeometry g sc).2 ≤ f.height)
  | _, _ => true

/-- R1, R29: the bind performed: the ring over the lowest free slots, the record STOPPED with every other field at its value
for a new binding. -/
def bindStream (i : StreamIx) (n : SourceIx) (sc : Scale) (depth : Nat) (pol : LossPolicy) (g : SourceSetup) (s : State) :
    State :=
  let pools := s.store.free.take depth
  { ((s.modStream i (fun _ => { Stream.initial with
        state := .stopped
        binding := some ⟨n, sc, (storedGeometry g sc).1, (storedGeometry g sc).2, depth, pol⟩ })).setRing i
      (some (Ring.create pools))) with
    store := { s.store with free := s.store.free.drop depth } }

/-- R28, R29: STREAM_BIND. -/
def streamBind (tag : Tag) (body : List Byte) (s : State) : Verdict :=
  match body with
  | [bi, bn, bsc, bd, bp] =>
    match index? 20 bi, index? 16 bn, scale? bsc, policy? bp with
    | some i, some n, some sc, some pol =>
      if ¬ (2 ≤ bd.toNat ∧ bd.toNat ≤ 6) then refuse .badParam
      else if ¬ geometryFits s n sc then refuse .badParam
      else if s.store.state ≠ .ready then refuse .notReady
      else if (s.stream i).state ≠ .unbound then refuse .badState
      else
        match (s.source n).setup with
        | none => refuse .badState
        | some g =>
          if s.store.free.length < bd.toNat then refuse .noSlots
          else okReply .streamBind tag (u8 bd.toNat ++ (s.store.free.take bd.toNat).flatMap u8)
            (bindStream i n sc bd.toNat pol g s)
    | _, _, _, _ => refuse .badParam
  | _ => refuse .badRequest

def execStreamBind (tag : Tag) (body : List Byte) (s : State) : Outcome := request .streamBind streamBind tag body s

/-- R30: an active list, or the staged list of a lane whose commit is pending, names the stream. -/
def listsName (s : State) (i : StreamIx) : Bool :=
  (List.finRange 6).any (fun l =>
    namedBy i (s.list l).active || ((s.list l).commit.isSome && namedBy i (s.list l).staged))

/-- R19, R30: the ring's slots return to the free set and the record becomes UNBOUND; counters and drop-notice flag stay. -/
def unbindStream (i : StreamIx) (s : State) : State :=
  let pools := match s.ring i with | some r => r.slots.map Slot.pool | none => []
  { ((s.modStream i (fun r => { Stream.initial with counters := r.counters, dropFlag := r.dropFlag })).setRing i none) with
    store := { s.store with free := pools.foldl (fun fs p => insertSlot p fs) s.store.free } }

/-- R30: STREAM_UNBIND. -/
def streamUnbind (tag : Tag) (body : List Byte) (s : State) : Verdict :=
  match body with
  | [bi] =>
    match index? 20 bi with
    | none => refuse .badParam
    | some i =>
      if (s.stream i).state ≠ .stopped then refuse .badState
      else if listsName s i then refuse .inUse
      else okReply .streamUnbind tag [] (unbindStream i s)
  | _ => refuse .badRequest

def execStreamUnbind (tag : Tag) (body : List Byte) (s : State) : Outcome := request .streamUnbind streamUnbind tag body s

/-- R31, R136: the demand of a bound stream, from its source record and its scale. -/
def streamDemand (s : State) (i : StreamIx) : Nat :=
  match (s.stream i).binding with
  | none => 0
  | some b => demand (((s.source b.source).setup.map SourceSetup.period).getD 0) b.scale.k

/-- R31: STREAM_START. -/
def streamStart (tag : Tag) (body : List Byte) (s : State) : Verdict :=
  match body with
  | [bi] =>
    match index? 20 bi with
    | none => refuse .badParam
    | some i =>
      if (s.stream i).state ≠ .stopped then refuse .badState
      else if ¬ fits s (streamDemand s i) then refuse .noBandwidth
      else okReply .streamStart tag []
        (admitClaim (.stream i) (streamDemand s i)
          (s.modStream i (fun r => { r with state := .armed, admitted := some (streamDemand s i) })))
  | _ => refuse .badRequest

def execStreamStart (tag : Tag) (body : List Byte) (s : State) : Outcome := request .streamStart streamStart tag body s

/-- R34: a DISCARD stop that finds a FILLING position: the fill ends at once, an earlier pending freeze and stop are settled
first, and the stream is STOPPED. -/
def discardStop (i : StreamIx) (s : State) : State :=
  let t := streamDiscard .stopDiscard i s
  if (t.stream i).state = .stopped then t else stopStream i t

/-- R32 to R35: STREAM_STOP. -/
def streamStop (tag : Tag) (body : List Byte) (s : State) : Verdict :=
  match body with
  | [bi, bo] =>
    if tagHeld s.link tag then refuse .tagInUse
    else
      match index? 20 bi, option? bo with
      | some i, some discard =>
        match (s.stream i).state with
        | .unbound => refuse .badState
        | .stopped => okReply .streamStop tag (atOnce none) s
        | .armed => okReply .streamStop tag (atOnce none) (stopStream i s)
        | .capturing =>
          if (fillingAt s i).isNone then okReply .streamStop tag (atOnce none) (stopStream i s)
          else if discard then okReply .streamStop tag (atOnce none) (discardStop i s)
          else if tableFull s.link then refuse .busy
          else .ok (defer tag (.streamStop i)
            (s.modStream i (fun r => { r with state := .stopping, pendingStop := some tag })))
        | .stopping =>
          if discard then okReply .streamStop tag (atOnce none) (discardStop i s)
          else refuse .badState
      | _, _ => refuse .badParam
  | _ => refuse .badRequest

def execStreamStop (tag : Tag) (body : List Byte) (s : State) : Outcome := request .streamStop streamStop tag body s

/-- R36, R37: STREAM_FREEZE. -/
def streamFreeze (tag : Tag) (body : List Byte) (s : State) : Verdict :=
  match body with
  | [bi] =>
    if tagHeld s.link tag then refuse .tagInUse
    else
      match index? 20 bi with
      | none => refuse .badParam
      | some i =>
        if (s.stream i).state = .unbound then refuse .badState
        else
          match (s.stream i).freeze with
          | .freezePending => refuse .badState
          | .frozen => okReply .streamFreeze tag (atOnce (newestSeq s i)) s
          | .live =>
            if (fillingAt s i).isNone then
              okReply .streamFreeze tag (atOnce (newestSeq s i)) (s.modStream i (fun r => { r with freeze := .frozen }))
            else if tableFull s.link then refuse .busy
            else .ok (defer tag (.streamFreeze i)
              (s.modStream i (fun r => { r with freeze := .freezePending, pendingFreeze := some tag })))
  | _ => refuse .badRequest

def execStreamFreeze (tag : Tag) (body : List Byte) (s : State) : Outcome := request .streamFreeze streamFreeze tag body s

/-- R17: retirement as part of a thaw: the source is LOST and the policy BLANK. -/
def retireOnThaw (i : StreamIx) (s : State) : State :=
  match (s.stream i).binding with
  | some b => if (s.source b.source).state = .lost then retireOnLoss i s else s
  | none => s

/-- R38, R39: a pending freeze is withdrawn with CANCELLED; the FILLING position is kept. -/
def withdrawFreeze (i : StreamIx) (s : State) : State :=
  completeIf (s.stream i).pendingFreeze .cancelled []
    (s.modStream i (fun r => { r with freeze := .live, pendingFreeze := none }))

/-- R39: STREAM_THAW. -/
def streamThaw (tag : Tag) (body : List Byte) (s : State) : Verdict :=
  match body with
  | [bi] =>
    match index? 20 bi with
    | none => refuse .badParam
    | some i =>
      if (s.stream i).state = .unbound then refuse .badState
      else
        match (s.stream i).freeze with
        | .live => okReply .streamThaw tag [] s
        | .frozen => okReply .streamThaw tag [] (retireOnThaw i (s.modStream i (fun r => { r with freeze := .live })))
        | .freezePending => okReply .streamThaw tag [] (withdrawFreeze i s)
  | _ => refuse .badRequest

def execStreamThaw (tag : Tag) (body : List Byte) (s : State) : Outcome := request .streamThaw streamThaw tag body s

/-- R41: STREAM_FILL. -/
def streamFill (tag : Tag) (body : List Byte) (s : State) : Verdict :=
  match body with
  | [bi, y, cb, cr] =>
    match index? 20 bi with
    | none => refuse .badParam
    | some i =>
      if (s.stream i).state = .unbound then refuse .badState
      else okReply .streamFill tag [] (s.modStream i (fun r => { r with fill := ⟨y, cb, cr⟩ }))
  | _ => refuse .badRequest

def execStreamFill (tag : Tag) (body : List Byte) (s : State) : Outcome := request .streamFill streamFill tag body s

/-- R119: STREAM_STAMP: a body whose length does not agree with its word count is BAD_REQUEST. -/
def streamStamp (tag : Tag) (body : List Byte) (s : State) : Verdict :=
  match body with
  | bi :: bc :: rest =>
    if rest.length ≠ 2 * bc.toNat then refuse .badRequest
    else
      match index? 20 bi with
      | none => refuse .badParam
      | some i =>
        if 4 < bc.toNat then refuse .badParam
        else if (s.stream i).state = .unbound then refuse .badState
        else okReply .streamStamp tag [] (s.modStream i (fun r => { r with words := words rest }))
  | _ => refuse .badRequest

def execStreamStamp (tag : Tag) (body : List Byte) (s : State) : Outcome := request .streamStamp streamStamp tag body s

/-- R35: a CANCEL of a pending stop of a stream: back to CAPTURING with claim, demand and FILLING position kept. -/
def cancelStreamStop (tag : Tag) (i : StreamIx) (s : State) : State :=
  complete tag .cancelled [] (s.modStream i (fun r => { r with state := .capturing, pendingStop := none }))

/-- R38: a CANCEL of a pending freeze. -/
def cancelStreamFreeze (tag : Tag) (i : StreamIx) (s : State) : State :=
  complete tag .cancelled [] (s.modStream i (fun r => { r with freeze := .live, pendingFreeze := none }))

end Sys2Proof.Machine
end

