-- ==== Sys2Proof/Machine/Sources.lean ====
section
/-! DEFINITION. The Capture Front End (chapter 3): markers, lines, verdicts, the loss timer, and SOURCE_SETUP. -/

namespace Sys2Proof.Machine

open Sys2Proof

/-- 03_ 3.1: source number = 4 × port + local index. -/
def sourceOf (port index : CaptureIx) : SourceIx := ⟨4 * port.val + index.val, by omega⟩

/-- R47: one more unclaimed marker or line of a local index. -/
def unclaimed (port index : CaptureIx) (s : State) : State :=
  s.modCapturePort port (fun c => { c with unclaimed := wr c.unclaimed index (satInc (rd c.unclaimed index)) })

def State.modSourceCounters (s : State) (n : SourceIx) (f : SourceCounters → SourceCounters) : State :=
  s.modSource n (fun r => { r with counters := f r.counters })

/-- R59: a frame error raises FRAME_ERROR when the error-notice flag is clear, and sets it. -/
def frameError (c : Cause) (n : SourceIx) (s : State) : State :=
  if (s.source n).errorFlag then s
  else raise (.frameError n c) (s.modSource n (fun r => { r with errorFlag := true }))

/-- The source's counter of a discard cause (R59). -/
def countCause (c : Cause) (k : SourceCounters) : SourceCounters :=
  match c with
  | .short => { k with short := satInc k.short }
  | .long => { k with long := satInc k.long }
  | .badLine => { k with badLine := satInc k.badLine }
  | .broken => { k with broken := satInc k.broken }
  | .lostMidFrame => { k with lostMidFrame := satInc k.lostMidFrame }
  | .overRate => { k with overRate := satInc k.overRate }
  | .access => k
  | .stopDiscard => k

/-- R51 to R56: the frame in progress is discarded: every bound stream receives the discard, the cause is counted, and the
frame phase becomes `next`. -/
def discardFrame (c : Cause) (next : FramePhase) (n : SourceIx) (s : State) : State :=
  ((handOver n (streamDiscard c) s).modSourceCounters n (countCause c)).modSource n (fun r => { r with phase := next })

/-- R46, R54: the line being collected on the port ends at this marker and is judged; it counts only while its source is still
IN_FRAME. -/
def closeLine (port : CaptureIx) (s : State) : State :=
  match (s.capturePort port).line with
  | none => s
  | some (index, data) =>
    let n := sourceOf port index
    let t := s.modCapturePort port (fun c => { c with line := none })
    match (s.source n).phase, (s.source n).setup with
    | .inFrame _, some g =>
      if data.length = 2 * g.width then handOver n (streamLine data) t
      else frameError .badLine n (discardFrame .badLine .skipping n t)
    | _, _ => t

/-- Log 12: the line that ends at this marker, if it is good, is stored inside the detected capacity. -/
def closeLineInRange (port : CaptureIx) (s : State) : Bool :=
  match (s.capturePort port).line with
  | none => true
  | some (index, data) =>
    match (s.source (sourceOf port index)).phase, (s.source (sourceOf port index)).setup with
    | .inFrame _, some g => decide (data.length ≠ 2 * g.width) || lineInRange data (sourceOf port index) s
    | _, _ => true

/-- R46: a marker first ends the port's line, then acts. -/
def marker (port : CaptureIx) (act : State → State) (s : State) : Outcome :=
  if s.resetAsserted then .next s
  else if closeLineInRange port s then .next (act (closeLine port s))
  else .fault .dramRange

/-- R52: a start comes less than half the expected period after the last accepted start. -/
def overRate (now : Time) (r : Source) : Bool :=
  match r.setup, r.lastStart with
  | some g, some t => decide (2 * elapsed now t < g.period)
  | _, _ => false

/-- R56: the loss timer's expiry when armed at a start taken now. -/
def lossExpiry (now : Time) (r : Source) : Option Time := r.setup.map (fun g => after now (g.period * g.factor))

/-- R50: an accepted start: the record, then the frame start event to every bound stream. -/
def acceptStart (n : SourceIx) (s : State) : State :=
  handOver n (streamFrameStart s.deviceTime)
    (s.modSource n (fun r => { r with
      state := .present, lastStart := some s.deviceTime, lossTimer := lossExpiry s.deviceTime r, phase := .inFrame 0,
      counters := { r.counters with accepted := satInc r.counters.accepted } }))

/-- R52: a start rejected as OVER_RATE. -/
def rejectStart (n : SourceIx) (s : State) : State :=
  frameError .overRate n
    (s.modSource n (fun r => { r with
      lossTimer := lossExpiry s.deviceTime r, phase := .skipping, counters := countCause .overRate r.counters }))

/-- R50, R51: a frame in progress is first discarded as BROKEN; a skip ends uncounted. The phase is then OUT. -/
def endOldFrame (n : SourceIx) (s : State) : State :=
  match (s.source n).phase with
  | .inFrame _ => frameError .broken n (discardFrame .broken .out n s)
  | .skipping => s.modSource n (fun r => { r with phase := .out })
  | .out => s

/-- R50, R52: the new start is judged: a SILENT or LOST source becomes PRESENT with its notice; a PRESENT one is judged for
over-rate. -/
def judgeStart (n : SourceIx) (s : State) : State :=
  if (s.source n).state = .present then
    if overRate s.deviceTime (s.source n) then rejectStart n s else acceptStart n s
  else acceptStart n (raise (.sourcePresent n) (s.modSource n (fun r => { r with state := .present })))

/-- R50: a frame start marker, after the port's line has been judged. -/
def captureFrameStart (port index : CaptureIx) (s : State) : State :=
  let n := sourceOf port index
  if (s.source n).state = .unset then unclaimed port index s
  else judgeStart n (endOldFrame n s)

/-- R53: a line start marker, after the port's line has been judged. -/
def lineStart (port index : CaptureIx) (data : List Byte) (s : State) : State :=
  let n := sourceOf port index
  match (s.source n).setup, (s.source n).phase with
  | none, _ => unclaimed port index s
  | some _, .out => unclaimed port index s
  | some _, .skipping => s
  | some g, .inFrame c =>
    if g.height ≤ c then frameError .long n (discardFrame .long .skipping n s)
    else (s.modSource n (fun r => { r with phase := .inFrame (c + 1) })).modCapturePort port
      (fun p => { p with line := some (index, data) })

/-- R55: a frame end marker, after the port's line has been judged. -/
def frameEnd (port index : CaptureIx) (s : State) : State :=
  let n := sourceOf port index
  match (s.source n).setup, (s.source n).phase with
  | none, _ => unclaimed port index s
  | some _, .out => unclaimed port index s
  | some _, .skipping => s.modSource n (fun r => { r with phase := .out })
  | some g, .inFrame c =>
    if c = g.height then (handOver n streamComplete s).modSource n (fun r => { r with phase := .out })
    else frameError .short n (discardFrame .short .out n s)

/-! ### Capture bytes (R46, R175) -/

/-- R175: the command of a marker byte, 4 × kind + local index: frame start 0x00 to 0x03, line start 0x04 to 0x07, frame end 0x08
to 0x0B; `data` are the bytes that stand between it and the next marker, which only a line start takes. A pixel byte is no
marker. -/
def markerCommand (port : CaptureIx) (b : Byte) (data : List Byte) : Option Instr :=
  let index : CaptureIx := ⟨b.toNat % 4, by omega⟩
  match b.toNat / 4 with
  | 0 => some (.captureFrameStart port index)
  | 1 => some (.lineStart port index data)
  | 2 => some (.frameEnd port index)
  | _ => none

/-- R46: the bytes of a capture port as its markers and data: the data bytes before the first marker, then one command for each
marker, the last one's data being the bytes read so far. -/
def captureCommands (port : CaptureIx) : List Byte → List Byte × List Instr
  | [] => ([], [])
  | b :: bs =>
    let rest := captureCommands port bs
    match markerCommand port b rest.1 with
    | some c => ([], c :: rest.2)
    | none => (b :: rest.1, rest.2)

def execCaptureFrameStart (port index : CaptureIx) (s : State) : Outcome := marker port (captureFrameStart port index) s

def execLineStart (port index : CaptureIx) (data : List Byte) (s : State) : Outcome :=
  marker port (lineStart port index data) s

def execFrameEnd (port index : CaptureIx) (s : State) : Outcome := marker port (frameEnd port index) s

/-- R56: a frame in progress at the expiry is discarded as LOST_MID_FRAME, which is no frame error (R59). -/
def loseFrame (n : SourceIx) (s : State) : State :=
  match (s.source n).phase with
  | .inFrame _ => discardFrame .lostMidFrame .skipping n s
  | _ => s

/-- R56: the loss timer's expiry: the discard, then the loss handed to every bound stream, then the notice. -/
def sourceLoss (n : SourceIx) (s : State) : State :=
  raise (.sourceLost n)
    (handOver n retireOnLoss
      ((loseFrame n s).modSource n (fun r => { r with state := .lost, lossTimer := none })))

/-- R56: the timer expires only while it is armed and the source is PRESENT; log 5: and only when due. -/
def lossDue (s : State) (n : SourceIx) : Bool :=
  decide ((s.source n).state = .present) && (s.source n).lossTimer.any (fun e => due s.deviceTime e)

def execSourceLossTimerExpiry (n : SourceIx) (s : State) : Outcome :=
  whileReleased s (if lossDue s n then sourceLoss n s else s)

/-- R49: the setup performed: the record keeps its counters and error-notice flag. -/
def setupSource (n : SourceIx) (g : SourceSetup) (s : State) : State :=
  s.modSource n (fun r => { r with
    state := .silent, setup := some g, lastStart := none, lossTimer := none,
    phase := match r.phase with | .inFrame _ => .skipping | .out => .out | .skipping => .skipping })

/-- R49, R172: a period or loss factor of 0 is the default code: 40 ms, factor 4. -/
def orDefault (v d : Nat) : Nat := if v = 0 then d else v

/-- R49: SOURCE_SETUP. -/
def sourceSetup (tag : Tag) (body : List Byte) (s : State) : Verdict :=
  match body with
  | [bn, w0, w1, h0, h1, p0, p1, bf] =>
    match index? 16 bn with
    | none => refuse .badParam
    | some n =>
      let g : SourceSetup := ⟨le16 w0 w1, le16 h0 h1, orDefault (le16 p0 p1) 40, orDefault bf.toNat 4⟩
      if ¬ (64 ≤ g.width ∧ g.width ≤ 1920 ∧ 32 ≤ g.height ∧ g.height ≤ 1088 ∧ 10 ≤ g.period ∧ g.period ≤ 2000 ∧
          2 ≤ g.factor ∧ g.factor ≤ 16) then refuse .badParam
      else if ¬ (boundStreams s n).isEmpty then refuse .inUse
      else okReply .sourceSetup tag [] (setupSource n g s)
  | _ => refuse .badRequest

def execSourceSetup (tag : Tag) (body : List Byte) (s : State) : Outcome := request .sourceSetup sourceSetup tag body s

end Sys2Proof.Machine
end

