-- ==== Sys2Proof/Machine/Lists.lean ====
section
/-! DEFINITION. The list units (chapter 4): edits, readings, the commit walk, and the application of a commit. -/

namespace Sys2Proof.Machine

open Sys2Proof

/-- R63: the scale of an entry: a BLANK entry's own, a STREAM entry's from the stream it names; none while that is UNBOUND. -/
def entryScale (s : State) (e : ListEntry) : Option Scale :=
  match e.kind with
  | .blank sc => some sc
  | .stream i => if (s.stream i).state = .unbound then none else (s.stream i).binding.map Binding.scale

/-- R70, R172: the reasons of LIST_INVALID. -/
inductive InvalidReason where
  | unboundStream | scaleMismatch | incompleteGroup | dwellMissing | dwellMisplaced
  deriving DecidableEq, Repr

def InvalidReason.code : InvalidReason → Byte
  | .unboundStream => 1 | .scaleMismatch => 2 | .incompleteGroup => 3 | .dwellMissing => 4 | .dwellMisplaced => 5

/-- R70: the entries of a group after its first, from index j. -/
def walkRest (s : State) (sc : Scale) : List ListEntry → Nat → Option (Nat × InvalidReason)
  | [], _ => none
  | e :: es, j =>
    match entryScale s e with
    | none => some (j, .unboundStream)
    | some sc' =>
      if sc' ≠ sc then some (j, .scaleMismatch)
      else if e.dwell.isSome then some (j, .dwellMisplaced)
      else walkRest s sc es (j + 1)

/-- R70: the walk from the group start index i over the entries from i on; none when it succeeds. The first argument bounds
the groups. -/
def walk (s : State) : Nat → List ListEntry → Nat → Option (Nat × InvalidReason)
  | 0, _, _ => none
  | _ + 1, [], _ => none
  | fuel + 1, e :: es, i =>
    match entryScale s e with
    | none => some (i, .unboundStream)
    | some sc =>
      if e.dwell.isNone then some (i, .dwellMissing)
      else if (e :: es).length < sc.groupSize then some (i, .incompleteGroup)
      else
        match walkRest s sc (es.take (sc.groupSize - 1)) (i + 1) with
        | some f => some f
        | none => walk s fuel ((e :: es).drop sc.groupSize) (i + sc.groupSize)

/-- R70: the first failure of a staged list, or none. -/
def listFailure (s : State) (es : List ListEntry) : Option (Nat × InvalidReason) := walk s (es.length + 1) es 0

/-- R66: the staged list after an operation, or none where the operation is refused with BAD_PARAM. -/
def edited (op i c : Nat) (new old : List ListEntry) : Option (List ListEntry) :=
  match op with
  | 0 => if new.length ≠ 0 then none else some []
  | 1 => if new.length = 0 ∨ Config.listPlaces < old.length + new.length then none else some (old ++ new)
  | 2 =>
    if new.length = 0 ∨ old.length < i ∨ Config.listPlaces < old.length + new.length then none
    else some (old.take i ++ new ++ old.drop i)
  | 3 =>
    if new.length = 0 ∨ old.length < i + new.length then none
    else some (old.take i ++ new ++ old.drop (i + new.length))
  | 4 =>
    if new.length ≠ 0 ∨ c = 0 ∨ 48 < c ∨ old.length < i + c then none
    else some (old.take i ++ old.drop (i + c))
  | _ => none

/-- R65: LIST_EDIT. -/
def listEdit (tag : Tag) (body : List Byte) (s : State) : Verdict :=
  match body with
  | bl :: bo :: bi :: bc :: rest =>
    if rest.length % 3 ≠ 0 then refuse .badRequest
    else
      match index? 6 bl, entries? rest with
      | some l, some new =>
        if Config.editEntries < new.length then refuse .badParam
        else
          match edited bo.toNat bi.toNat bc.toNat new (s.list l).staged with
          | none => refuse .badParam
          | some es =>
            if (s.lane l).state = .unset then refuse .badState
            else if (s.list l).commit.isSome then refuse .commitPending
            else okReply .listEdit tag (u8 es.length) (s.modList l (fun u => { u with staged := es }))
      | _, _ => refuse .badParam
  | _ => refuse .badRequest

def execListEdit (tag : Tag) (body : List Byte) (s : State) : Outcome := request .listEdit listEdit tag body s

/-- R174: the commit record of a LIST_READ: pending flag, tag, timing; 0, 0, 0 when absent. -/
def commitBytes : Option (Tag × Timing) → List Byte
  | none => [0, 0, 0]
  | some (t, tm) => [1, t, tm.code]

/-- R68, R174: what a LIST_READ returns. -/
def listReadFields (u : ListUnit) (es : List ListEntry) (start count : Nat) : List Byte :=
  u8 es.length ++ u16 u.generation.toNat ++ commitBytes u.commit ++ ((es.drop start).take count).flatMap ListEntry.bytes

/-- R68: LIST_READ. -/
def listRead (tag : Tag) (body : List Byte) (s : State) : Verdict :=
  match body with
  | [bl, bw, bi, bc] =>
    match index? 6 bl with
    | none => refuse .badParam
    | some l =>
      if 1 < bw.toNat then refuse .badParam
      else
        let es := if bw = 0 then (s.list l).staged else (s.list l).active
        if ¬ (1 ≤ bc.toNat ∧ bc.toNat ≤ 12) ∨ es.length < bi.toNat then refuse .badParam
        else okReply .listRead tag (listReadFields (s.list l) es bi.toNat bc.toNat) s
  | _ => refuse .badRequest

def execListRead (tag : Tag) (body : List Byte) (s : State) : Outcome := request .listRead listRead tag body s

/-- R75: steps 1 to 6: the staged list becomes active and the lane starts it from group 0. -/
def adoptList (l : LaneIx) (s : State) : State :=
  (s.modList l (fun u => { u with active := u.staged, generation := u.generation + 1, commit := none })).modLane l
    (fun r => { r with
      groupStart := 0, framesShown := 0, passCount := 0,
      lastShown := List.replicate (s.list l).staged.length none, drained := false,
      counters := { r.counters with commits := satInc r.counters.commits } })

/-- R75: a pending commit is applied and its final reply OK, carrying the new generation, queued; nothing where none is
pending. -/
def applyPending (l : LaneIx) (s : State) : State :=
  match (s.list l).commit with
  | none => s
  | some (t, _) => complete t .ok (u16 ((s.list l).generation + 1).toNat) (adoptList l s)

/-- R69: LIST_COMMIT. -/
def listCommit (tag : Tag) (body : List Byte) (s : State) : Verdict :=
  match body with
  | [bl, bt] =>
    if tagHeld s.link tag then refuse .tagInUse
    else
      match index? 6 bl, timing? bt with
      | some l, some tm =>
        if (s.lane l).state = .unset then refuse .badState
        else if (s.list l).commit.isSome then refuse .commitPending
        else
          match listFailure s (s.list l).staged with
          | some (i, why) => .error ⟨.listInvalid, [byte i, why.code]⟩
          | none =>
            if (s.lane l).state = .ready then
              okReply .listCommit tag (u16 ((s.list l).generation + 1).toNat) (adoptList l s)
            else if tableFull s.link then refuse .busy
            else .ok (defer tag (.listCommit l) (s.modList l (fun u => { u with commit := some (tag, tm) })))
      | _, _ => refuse .badParam
  | _ => refuse .badRequest

def execListCommit (tag : Tag) (body : List Byte) (s : State) : Outcome := request .listCommit listCommit tag body s

/-- R77: a CANCEL of a pending commit. -/
def cancelCommit (tag : Tag) (l : LaneIx) (s : State) : State :=
  complete tag .cancelled [] (s.modList l (fun u => { u with commit := none }))

end Sys2Proof.Machine
end

