-- ==== Sys2Proof/Machine/Output.lean ====
section
/-! DEFINITION. The composer (R91, R92), the output ports (R86, R87) and the stamp unit's packet (R115 to R122, R175). -/

namespace Sys2Proof.Machine

open Sys2Proof

/-! ### The composer (R91) -/

/-- The 4:2:2 bytes of n pixels, n even, of one colour. -/
def solid (c : Colour) (n : Nat) : List Byte := (List.replicate (n / 2) [c.cb, c.y, c.cr, c.y]).flatten

/-- R91: the scale k of the group shown, from the number of its tiles: 1, 4 or 9. -/
def tileScale (tiles : Nat) : Nat := if tiles = 1 then 1 else if tiles = 4 then 2 else 3

/-- R91: the width of a tile area. -/
def tileWidth (w k : Nat) : Nat := 2 * (w / (2 * k))

/-- R91: the height of a tile area. -/
def tileHeight (h k : Nat) : Nat := h / k

/-- R91: line y of a stored frame of width w placed in a tile area of width tw, and the tile's colour beyond it. -/
def placeLine (stored : List Byte) (w tw : Nat) (c : Colour) : List Byte :=
  if tw ≤ w then stored.take (2 * tw)
  else if w % 2 = 0 then stored ++ solid c (tw - w)
  else stored ++ [c.cr, c.y] ++ solid c (tw - w - 1)

/-- R91, R92: line y of a STREAM tile: the stored line of its pinned position, read through the frame store controller; the
tile's colour where there is none, or where the read returns no data (log 12). -/
def shownLine (s : State) (i : StreamIx) (p y tw : Nat) (c : Colour) : List Byte :=
  match (s.stream i).binding, s.ring i, s.store.format with
  | some b, some r, some f =>
    if b.storedHeight ≤ y then solid c tw
    else
      let a := lineAddress f ((r.slots[p]?.map Slot.pool).getD 0) y
      if s.store.holds a (2 * b.storedWidth) then
        placeLine (s.dram.readBytes a (2 * b.storedWidth)) b.storedWidth tw c
      else solid c tw
  | _, _, _ => solid c tw

/-- R91, R92: line y of a tile's area; `failed` when the line comes after a store fault taken during the frame. -/
def tileLine (s : State) (failed : Bool) (t : Tile) (y tw : Nat) : List Byte :=
  match t.body with
  | .blank => solid t.colour tw
  | .fill _ _ _ => solid t.colour tw
  | .shown i p _ _ _ _ _ _ _ => if failed then solid t.colour tw else shownLine s i p y tw t.colour

/-- R91, R92: line y of the lane's output frame. -/
def composedLine (s : State) (g : LaneSetup) (tiles : List Tile) (faultLine : Option Nat) (y : Nat) : List Byte :=
  let k := tileScale tiles.length
  let tw := tileWidth g.width k
  let th := tileHeight g.height k
  if tiles.isEmpty ∨ k * th ≤ y then solid g.fill g.width
  else
    let failed := faultLine.any (fun n => decide (n ≤ y))
    ((tiles.drop (y / th * k)).take k).flatMap (fun t => tileLine s failed t (y % th) tw) ++ solid g.fill (g.width - k * tw)

/-! ### Output ports (R86) -/

/-- R175: output port codes. -/
def idleCode : Byte := 0x00
def frameStartCode : Byte := 0x01
def lineStartCode : Byte := 0x02
def trailerStartCode : Byte := 0x03
def frameEndCode : Byte := 0x04
def abortCode : Byte := 0x05

/-- R86: a marker occupies one phase; in width mode 16 its code stands on both bytes. -/
def markerWord (m : WidthMode) (code : Byte) : Half :=
  match m with
  | .w8 => code.setWidth 16
  | .w16 => code ++ code

/-- R86, R121: the phases that carry a run of bytes: one byte a phase with data lines 8 to 15 low, or two bytes a phase, the
earlier on data lines 0 to 7; an odd run ends with a pad byte of 0. -/
def pairUp : List Byte → List Half
  | a :: b :: rest => (b ++ a) :: pairUp rest
  | [a] => [(0 : Byte) ++ a]
  | [] => []

def dataWords (m : WidthMode) (bs : List Byte) : List Half :=
  match m with
  | .w8 => bs.map (fun b => b.setWidth 16)
  | .w16 => pairUp bs

/-- R86: no data byte takes an output marker code: a line's byte below 0x06 is sent as 0x06. -/
def clearOfMarkers (b : Byte) : Byte := if b.toNat < 6 then 6 else b

/-- R87: one line on the port. -/
def lineWords (m : WidthMode) (bs : List Byte) : List Half :=
  markerWord m lineStartCode :: dataWords m (bs.map clearOfMarkers)

/-- R121: a packet byte is sent as two code bytes, 0x10 plus its upper and then its lower four bits. -/
def codeBytes (b : Byte) : List Byte := [0x10 ||| (b >>> 4), 0x10 ||| (b &&& 0x0F)]

/-- The width mode of the port that carries the lane. -/
def laneWidth (s : State) (l : LaneIx) : WidthMode :=
  match (s.lane l).port with
  | some p => (s.outPort p).width
  | none => .w8

/-- R86: a phase carries idle code when no lane stands in its place on the port, or when its lane has no frame in progress; else
the last word sent of that frame. The first phase is place 0, the second place 1. -/
def phaseWord (s : State) (p : PortIx) (place : Nat) : Half :=
  let idle := markerWord (s.outPort p).width idleCode
  match (s.outPort p).carried[place]? with
  | none => idle
  | some l => if (s.out l).frame.isNone then idle else ((s.out l).sent.getLast?).getD idle

/-- R87: the words of all the lines of the lane's frame in progress. -/
def frameLines (s : State) (l : LaneIx) (faultLine : Option Nat) : List Half :=
  match (s.lane l).setup with
  | none => []
  | some g => (List.range g.height).flatMap (fun y =>
      lineWords (laneWidth s l) (composedLine s g (s.lane l).tiles faultLine y))

/-- Counts on the record of the port that carries the lane. -/
def countOnPort (l : LaneIx) (f : OutPort → OutPort) (s : State) : State :=
  match (s.lane l).port with
  | some p => s.modOutPort p f
  | none => s

/-- Log 13: the words of the frame in progress certainly sent: the lines read before a store fault. -/
def sentAtLeast (s : State) (l : LaneIx) (faultLine : Option Nat) : Nat :=
  match faultLine, (s.lane l).setup with
  | some n, some g => n * (lineWords (laneWidth s l) (solid g.fill g.width)).length
  | _, _ => 0

/-- R87, R122: the words of a frame in progress that went out before an abort marker: a free value (log 13), never all of a
trailer packet, since the frame end marker follows the packet directly (R121). -/
def goneBeforeAbort (s : State) (l : LaneIx) (fr : OutFrame) : List Half :=
  let n := Config.wordsBeforeAbort s.freeCount
  match fr.stage with
  | .lines => (frameLines s l fr.faultLine).take (max (sentAtLeast s l fr.faultLine) n)
  | .trailer rest => rest.take (min n (rest.length - 1))

/-- R87, R122: the abort marker in place of whatever remained of the frame in progress. The stamp unit discards its copy. Nothing
where no frame is in progress. -/
def abortFrame (l : LaneIx) (count : OutPort → OutPort) (s : State) : State :=
  match (s.out l).frame with
  | none => s
  | some fr =>
    { ((countOnPort l count s).modOut l (fun o =>
        { o with frame := none, sent := o.sent ++ goneBeforeAbort s l fr ++ [markerWord (laneWidth s l) abortCode] })).setTrailer l none with
      freeCount := s.freeCount + 1 }

/-- R100: frames cut and frames aborted. -/
def countCut (p : OutPort) : OutPort := { p with cut := satInc p.cut }
def countAborted (p : OutPort) : OutPort := { p with aborted := satInc p.aborted }
def countEnded (p : OutPort) : OutPort := { p with ended := satInc p.ended }

/-! ### The trailer packet (R175) -/

def bit (b : Bool) (n : Nat) : Nat := if b then 2 ^ n else 0

/-- R175: a tile entry. -/
def Tile.bytes (t : Tile) : List Byte :=
  match t.body with
  | .blank => [t.body.code, 0xFF, 0, 0]
  | .fill i fz lost => [t.body.code, byte i.val, byte (bit fz 1 + bit lost 2), 0]
  | .shown i _ q _ age rep fz lost ws =>
    [t.body.code, byte i.val, byte (bit rep 0 + bit fz 1 + bit lost 2), byte ws.length]
      ++ u32 q.toNat ++ u16 age ++ ws.flatMap (fun w => u16 w.toNat)

/-- R175: the head after the length field, and the tile entries. -/
def Trailer.content (l : LaneIx) (c : Trailer) : List Byte :=
  u8 l.val ++ u32 c.frameNumber.toNat ++ u16 c.generation.toNat ++ u16 c.passCount.toNat ++ u8 c.groupStart
    ++ u8 c.framesShown ++ u8 c.dwell ++ u32 c.time.toNat
    ++ u8 (bit c.drained 0 + bit c.emptyList 1 + bit c.storeFault 2) ++ u8 c.tiles.length ++ c.tiles.flatMap Tile.bytes

/-- R121, R169, R175: the packet: its length from that field to the last byte of the check, the content, and the check. -/
def Trailer.packet (l : LaneIx) (c : Trailer) : List Byte :=
  let covered := u16 ((Trailer.content l c).length + 4) ++ Trailer.content l c
  covered ++ u16 (crc16 covered).toNat

/-- R87, R118, R121: the port reaches the trailer start marker: every line has been sent, and the packet is computed as it is
sent. Without a frame whose lines are being sent, or with stamp enable off, the port reaches no trailer. -/
def trailerStart (l : LaneIx) (s : State) : State :=
  match (s.out l).frame, s.trailer l, (s.lane l).setup with
  | some ⟨.lines, fl⟩, some c, some g =>
    if g.stamp then
      s.modOut l (fun o => { o with
        frame := some ⟨.trailer (dataWords (laneWidth s l) ((Trailer.packet l c).flatMap codeBytes)), fl⟩
        sent := o.sent ++ frameLines s l fl ++ [markerWord (laneWidth s l) trailerStartCode] })
    else s
  | _, _, _ => s

def execOutputTrailerStart (l : LaneIx) (s : State) : Outcome := whileReleased s (trailerStart l s)

/-- R87, R100, R122: the frame end marker: the frame counts as ended and the stamp unit discards its copy. With stamp enable on
it comes after the trailer, with stamp enable off after the last line. -/
def frameEnded (l : LaneIx) (s : State) : State :=
  match (s.out l).frame, (s.lane l).setup with
  | some ⟨.trailer rest, _⟩, some g =>
    if g.stamp then
      ((countOnPort l countEnded s).modOut l (fun o =>
        { o with frame := none, sent := o.sent ++ rest ++ [markerWord (laneWidth s l) frameEndCode] })).setTrailer l none
    else s
  | some ⟨.lines, fl⟩, some g =>
    if g.stamp then s
    else
      ((countOnPort l countEnded s).modOut l (fun o =>
        { o with
          frame := none
          sent := o.sent ++ frameLines s l fl ++ [markerWord (laneWidth s l) frameEndCode] })).setTrailer l none
  | _, _ => s

def execOutputFrameEnd (l : LaneIx) (s : State) : Outcome := whileReleased s (frameEnded l s)

/-- R92: how many lines of the lane's frame the composer had read when the store failed: a free value (log 13). -/
def linesRead (s : State) (l : LaneIx) : Nat :=
  Config.linesBeforeFault s.freeCount % (((s.lane l).setup.map LaneSetup.height).getD 0 + 1)

/-- R92, R118: the store enters FAULT while the lane's frame is being composed: its STREAM tiles are filled from here on, and the
store-fault flag of its trailer, whose start marker has not been sent, is set. -/
def failComposing (l : LaneIx) (s : State) : State :=
  match (s.out l).frame with
  | some ⟨.lines, fl⟩ =>
    { (s.modOut l (fun o => { o with frame := some ⟨.lines, some (fl.getD (linesRead s l))⟩ })).setTrailer l
        ((s.trailer l).map (fun c => { c with storeFault := true })) with
      freeCount := s.freeCount + 1 }
  | _ => s

end Sys2Proof.Machine
end

