-- ==== Sys2Proof/Machine/Boundary.lean ====
section
/-! DEFINITION. The lane's boundary (R94), its relay to followers (R108), the end of a leader's run (R109) and the end of a
JOINING lane's own frame (R107). -/

namespace Sys2Proof.Machine

open Sys2Proof

/-! ### Parts of a boundary -/

/-- R94 step 1, R11: one unpin claim for the position a tile record names. -/
def unpinTile (t : Tile) (s : State) : State :=
  match t.body with
  | .shown i p _ _ _ _ _ _ _ => s.modRing i (fun r => r.unpin p)
  | _ => s

/-- R94 step 1: the lane releases its tiles' positions and its tile records become empty. -/
def releaseTiles (l : LaneIx) (s : State) : State :=
  ((s.lane l).tiles.foldl (fun t x => unpinTile x t) s).modLane l (fun r => { r with tiles := [] })

/-- R82, R139: the lane becomes READY: drained flag cleared, claim released, admitted demand absent, timer off, no pending start
or stop. -/
def makeReady (l : LaneIx) (s : State) : State :=
  releaseClaim (.lane l) (s.modLane l (fun r => { r with
    state := .ready, drained := false, admitted := none, timer := none, pendingStart := none, pendingStop := none }))

/-- R76, R94 step 2: the commit's final OK, then READY, then the stop's final OK. -/
def finishStop (l : LaneIx) (s : State) : State :=
  completeIf (s.lane l).pendingStop .ok [] (makeReady l (applyPending l s))

/-- The current group of a lane: the active list from the group start index. -/
def groupEntries (s : State) (l : LaneIx) : List ListEntry := (s.list l).active.drop (s.lane l).groupStart

/-- R64: the size of the current group, from the scale of its first entry; 0 where there is none. -/
def groupSizeAt (s : State) (l : LaneIx) : Nat :=
  match groupEntries s l with
  | [] => 0
  | e :: _ => ((entryScale s e).map Scale.groupSize).getD 1

/-- R64, R115: the dwell of the current group; 0 where there is none. -/
def dwellAt (s : State) (l : LaneIx) : Nat :=
  match groupEntries s l with
  | [] => 0
  | e :: _ => e.dwell.getD 0

/-- R72: the current group is the last one and the frame just ended completes its dwell. -/
def endsPass (s : State) (l : LaneIx) : Bool :=
  decide ((s.list l).active.length ≤ (s.lane l).groupStart + groupSizeAt s l) &&
    decide ((s.lane l).framesShown + 1 = dwellAt s l)

/-- R71 to R73: a pending commit is due at this boundary. -/
def commitDue (first : Bool) (l : LaneIx) (s : State) : Bool :=
  match (s.list l).commit with
  | none => false
  | some (_, .atFrame) => true
  | some (_, .atCycle) => first || (s.lane l).drained || (s.list l).active.isEmpty || endsPass s l

/-- R88: the position advances, wraps or drains. -/
def advance (l : LaneIx) (s : State) : State :=
  if (s.list l).active.isEmpty ∨ (s.lane l).drained then s
  else if (s.lane l).framesShown + 1 < dwellAt s l then
    s.modLane l (fun r => { r with framesShown := r.framesShown + 1 })
  else if (s.lane l).groupStart + groupSizeAt s l < (s.list l).active.length then
    s.modLane l (fun r => { r with groupStart := r.groupStart + groupSizeAt s l, framesShown := 0 })
  else
    match (s.lane l).setup.map LaneSetup.mode with
    | some .once =>
      raise (.listDone l (s.list l).generation)
        (s.modLane l (fun r => { r with drained := true, groupStart := (s.list l).active.length, framesShown := 0 }))
    | _ => s.modLane l (fun r => { r with groupStart := 0, framesShown := 0, passCount := r.passCount + 1 })

/-- R89, R117: the age of a captured frame at a boundary, held at 65535. -/
def ageAt (t captured : Time) : Nat := min (elapsed t captured) 65535

/-- R89: the source-lost flag of a stream. -/
def streamLost (s : State) (i : StreamIx) : Bool :=
  (s.stream i).binding.any (fun b => decide ((s.source b.source).state = .lost))

def addTile (l : LaneIx) (x : Tile) (s : State) : State := s.modLane l (fun r => { r with tiles := r.tiles ++ [x] })

def State.modLaneCounters (s : State) (l : LaneIx) (f : LaneCounters → LaneCounters) : State :=
  s.modLane l (fun r => { r with counters := f r.counters })

/-- R90: the sequence number last shown at an index. -/
def lastShownAt (s : State) (l : LaneIx) (j : Nat) : Option Word := ((s.lane l).lastShown[j]?).getD none

/-- R89, R90: one tile record for the entry at index j, at a boundary of device time t. -/
def selectTile (l : LaneIx) (t : Time) (j : Nat) (e : ListEntry) (s : State) : State :=
  match e.kind with
  | .blank _ => addTile l ⟨j, ((s.lane l).setup.map LaneSetup.fill).getD .default, .blank⟩ s
  | .stream i =>
    let frozen := decide ((s.stream i).freeze = .frozen)
    let lost := streamLost s i
    match pinAnswer s i with
    | none =>
      (addTile l ⟨j, (s.stream i).fill, .fill i frozen lost⟩ s).modLaneCounters l
        (fun c => { c with fills := satInc c.fills })
    | some (p, q, captured) =>
      let rep := decide (lastShownAt s l j = some q)
      let s1 := (s.modRing i (fun r => r.pin p)).modLane l (fun r => { r with
        lastShown := r.lastShown.set j (some q),
        counters := if rep then { r.counters with repeats := satInc r.counters.repeats } else r.counters })
      addTile l
        ⟨j, (s.stream i).fill, .shown i p q captured (ageAt t captured) rep frozen lost (s.stream i).words⟩ s1

/-- R89: the tiles of the given entries in index order. -/
def selectTiles (l : LaneIx) (t : Time) : List ListEntry → Nat → State → State
  | [], _, s => s
  | e :: es, j, s => selectTiles l t es (j + 1) (selectTile l t j e s)

/-- R94 step 5, R92: the tiles of the current group, or none for a lane-fill frame. -/
def tileStep (l : LaneIx) (t : Time) (s : State) : State :=
  if (s.lane l).drained ∨ (s.list l).active.isEmpty then s
  else selectTiles l t ((groupEntries s l).take (groupSizeAt s l)) (s.lane l).groupStart s

/-- R116: the stamp unit's copy of the head and the tiles. -/
def takeTrailer (l : LaneIx) (t : Time) (s : State) : Trailer where
  frameNumber := (s.lane l).frameNumber
  generation := (s.list l).generation
  passCount := (s.lane l).passCount
  groupStart := (s.lane l).groupStart
  framesShown := (s.lane l).framesShown
  dwell := if (s.lane l).drained then 0 else dwellAt s l
  time := t
  drained := (s.lane l).drained
  emptyList := (s.list l).active.isEmpty
  storeFault := match s.store.state with | .fault _ => true | _ => false
  tiles := (s.lane l).tiles

/-- R93: a FREE or LEADER lane's pacing timer is armed one period after the boundary. -/
def rearm (l : LaneIx) (t : Time) (s : State) : State :=
  match (s.lock l).role with
  | .free => s.modLane l (fun r => { r with timer := r.setup.map (fun g => after t g.period) })
  | .leader => s.modLane l (fun r => { r with timer := r.setup.map (fun g => after t g.period) })
  | _ => s

/-- R94 step 6 before the relay: the new output frame starts, its trailer head is taken and the timer re-armed. -/
def outputStep (l : LaneIx) (t : Time) (s : State) : State :=
  let s1 := s.modLane l (fun r => { r with
    frameNumber := r.frameNumber + 1, counters := { r.counters with frames := satInc r.counters.frames } })
  let stamped := (s.lane l).setup.any LaneSetup.stamp
  rearm l t ((s1.setTrailer l (if stamped then some (takeTrailer l t s1) else none)).modOut l (fun o =>
    ⟨some ⟨.lines, none⟩, [markerWord (laneWidth s l) frameStartCode], o.sent⟩))

/-- R94 step 3 and 4: a due commit is applied, or else the position advances. A first boundary does not advance. -/
def commitStep (first : Bool) (l : LaneIx) (s : State) : State :=
  if commitDue first l s then applyPending l s
  else if first then s
  else advance l s

/-- R94 steps 3 to 6 of a boundary at device time t, without the relay. -/
def nextFrame (first : Bool) (l : LaneIx) (t : Time) (s : State) : State :=
  outputStep l t (tileStep l t (commitStep first l s))

/-- R94: a boundary of a lane that is RUNNING or STOPPING, without what follows for a leader's followers. -/
def laneBoundary (l : LaneIx) (t : Time) (s : State) : State :=
  let s1 := releaseTiles l (abortFrame l countCut s)
  if (s.lane l).state = .stopping then finishStop l s1 else nextFrame false l t s1

/-- R94: the first boundary of a run: the lane becomes RUNNING with its position at the start of the list. -/
def firstBoundary (l : LaneIx) (t : Time) (s : State) : State :=
  nextFrame true l t (s.modLane l (fun r => { r with
    state := .running, groupStart := 0, framesShown := 0, passCount := 0,
    lastShown := List.replicate (s.list l).active.length none, drained := false }))

/-! ### Lock groups -/

/-- R103: the lane names `ld` as its leader. -/
def namesLeader (s : State) (ld l : LaneIx) : Bool :=
  match (s.lock l).role with
  | .follower x => decide (x = ld)
  | .joining x _ _ => decide (x = ld)
  | _ => false

/-- R103: no lane names `ld` as its leader. -/
def leadsNone (s : State) (ld : LaneIx) : Bool := (List.finRange 6).all (fun l => !namesLeader s ld l)

/-- R103: a lane leaves its group: its role becomes FREE and the fields of the role absent. -/
def freeLane (l : LaneIx) (s : State) : State := s.modLock l (fun _ => Lock.initial)

/-- R103, R104: a leader that no lane names becomes FREE. -/
def freeLeader (ld : LaneIx) (s : State) : State := if leadsNone s ld then freeLane ld s else s

/-- Arms the lane's own timer one period after t. -/
def armTimer (l : LaneIx) (t : Time) (s : State) : State :=
  s.modLane l (fun r => { r with timer := r.setup.map (fun g => after t g.period) })

/-- R108: the last relayed boundary is set where the relay acts. -/
def noteRelay (l : LaneIx) (t : Time) (s : State) : State := s.modLock l (fun k => { k with lastRelayed := some t })

/-- R96, R108: a STARTING lane takes the boundary it waits for as the first of its run, and its start receives the final OK with
the number of its first frame. -/
def startRun (l : LaneIx) (t : Time) (s : State) : State :=
  let s1 := firstBoundary l t (s.modLane l (fun r => { r with pendingStart := none }))
  completeIf (s.lane l).pendingStart .ok (u32 (s1.lane l).frameNumber.toNat) s1

/-- R107, R108, R112: a join is completed: the role becomes FOLLOWER and the join receives its final OK. -/
def completeJoin (l : LaneIx) (s : State) : State :=
  match (s.lock l).role with
  | .joining ld _ tag => complete tag .ok [] (s.modLock l (fun k => { k with role := .follower ld }))
  | _ => s

/-- R108: the relay of a boundary of the leader at device time t to one lane that names it. -/
def relayTo (t : Time) (l : LaneIx) (s : State) : State :=
  match (s.lock l).role with
  | .follower _ =>
    match (s.lane l).state with
    | .starting => noteRelay l t (startRun l t s)
    | .running => noteRelay l t (laneBoundary l t s)
    | .stopping => noteRelay l t (laneBoundary l t s)
    | _ => s
  | .joining _ .waiting _ => noteRelay l t (laneBoundary l t (completeJoin l s))
  | _ => s

/-- R108: the relay to every lane that names the leader, in increasing lane number. -/
def relay (ld : LaneIx) (t : Time) (s : State) : State :=
  forAll (fun l u => if namesLeader u ld l then relayTo t l u else u) s

/-- R109: a follower of a leader whose run has ended becomes FREE with a LOCK_LOST notice. -/
def lockLost (ld l : LaneIx) (s : State) : State := raise (.lockLost l ld) (freeLane l s)

/-- R109: a lane that was JOINING: its join receives LEADER_STOPPED and its role becomes FREE; a WAITING lane then takes a
boundary of its own at once. -/
def dropJoin (t : Time) (phase : JoinPhase) (tag : Tag) (l : LaneIx) (s : State) : State :=
  let s1 := freeLane l (complete tag .leaderStopped [] s)
  match phase with
  | .waiting => laneBoundary l t s1
  | .finishing => s1

/-- R109: the leader's stop has completed at a boundary at device time t: the column for one lane that names it. -/
def dissolveStopped (ld : LaneIx) (t : Time) (l : LaneIx) (s : State) : State :=
  match (s.lock l).role with
  | .follower _ =>
    match (s.lane l).state with
    | .starting => lockLost ld l (armTimer l t (startRun l t s))
    | .running => lockLost ld l (armTimer l t (laneBoundary l t s))
    | .stopping => lockLost ld l (laneBoundary l t s)
    | _ => lockLost ld l s
  | .joining _ phase tag => dropJoin t phase tag l s
  | _ => s

/-- R109, R110: the timer of a running follower that becomes FREE expires one period after its last relayed boundary (log 19
where there is none). -/
def armAfterRelay (l : LaneIx) (s : State) : State := armTimer l ((s.lock l).lastRelayed.getD s.deviceTime) s

/-- R109: an IMMEDIATE stop of the leader at device time t: the column for one lane that names it. -/
def dissolveImmediate (ld : LaneIx) (t : Time) (l : LaneIx) (s : State) : State :=
  match (s.lock l).role with
  | .follower _ =>
    match (s.lane l).state with
    | .starting => raise (.lockLost l ld) (startRun l t (freeLane l s))
    | .running => lockLost ld l (armAfterRelay l s)
    | .stopping => lockLost ld l (armAfterRelay l s)
    | _ => lockLost ld l s
  | .joining _ phase tag => dropJoin t phase tag l s
  | _ => s

/-- R109: the group is dissolved in increasing lane number, and after the last lane the leader becomes FREE. -/
def dissolve (column : LaneIx → State → State) (ld : LaneIx) (s : State) : State :=
  freeLane ld (forAll (fun l u => if namesLeader u ld l then column l u else u) s)

/-- R94, R108, R109: a boundary of a lane paced by its own timer, with what follows for the lanes that name it. -/
def boundary (l : LaneIx) (t : Time) (s : State) : State :=
  let s1 := laneBoundary l t s
  if (s.lock l).role = .leader then
    if (s.lane l).state = .stopping then dissolve (dissolveStopped l t) l s1 else relay l t s1
  else s1

/-- R107: the timer expiry that ends the own frame of a lane JOINING in FINISHING. -/
def joiningFrameEnd (l : LaneIx) (s : State) : State :=
  let s1 := (releaseTiles l (abortFrame l countCut s)).modLane l (fun r => { r with timer := none })
  if (s.lane l).state = .stopping then finishStop l (completeJoin l s1)
  else
    s1.modLock l (fun k => match k.role with
      | .joining ld _ tag => { k with role := .joining ld .waiting tag }
      | _ => k)

/-- R93, R107: the expiry of a lane's pacing timer: the end of a FINISHING lane's own frame, or a boundary of a lane that is
RUNNING or STOPPING. -/
def pacingExpiry (l : LaneIx) (s : State) : State :=
  if (s.lane l).state = .running ∨ (s.lane l).state = .stopping then
    match (s.lock l).role with
    | .joining _ .finishing _ => joiningFrameEnd l s
    | .joining _ .waiting _ => s
    | .follower _ => s
    | _ => boundary l s.deviceTime s
  else s

/-- R93: while the timer is off it cannot expire; log 5: it expires only when due. -/
def pacingDue (s : State) (l : LaneIx) : Bool := (s.lane l).timer.any (fun e => due s.deviceTime e)

def execPacingTimerExpiry (l : LaneIx) (s : State) : Outcome :=
  whileReleased s (if pacingDue s l then pacingExpiry l s else s)

end Sys2Proof.Machine
end

