-- ==== Sys2Proof/Machine/Lanes.lean ====
section
/-! DEFINITION. The lane and port requests (chapter 5): LANE_SETUP with its routing, PORT_SETUP, LANE_START, LANE_STOP, and
the withdrawal of a pending start or stop. -/

namespace Sys2Proof.Machine

open Sys2Proof

/-- R82: the lane is STARTING, RUNNING or STOPPING. -/
def Lane.busy (r : Lane) : Bool :=
  match r.state with
  | .starting => true
  | .running => true
  | .stopping => true
  | _ => false

/-- R84: the lane leaves the list of its old port; the other lane moves to the first place. -/
def unroute (l : LaneIx) (s : State) : State :=
  match (s.lane l).port with
  | some p => s.modOutPort p (fun r => { r with carried := r.carried.filter (fun x => x ≠ l) })
  | none => s

/-- R84: the lane is appended at the end of the list of its new port, if it names one. -/
def routeTo (l : LaneIx) (port : Option PortIx) (s : State) : State :=
  match port with
  | some p => s.modOutPort p (fun r => { r with carried := r.carried ++ [l] })
  | none => s

/-- R84: routing follows the port field. -/
def route (l : LaneIx) (port : Option PortIx) (s : State) : State :=
  if (s.lane l).port = port then s
  else (routeTo l port (unroute l s)).modLane l (fun r => { r with port := port })

/-- R83: the lanes other than `l` that the port carries. -/
def otherLanes (s : State) (l : LaneIx) (port : Option PortIx) : List LaneIx :=
  match port with
  | none => []
  | some p => (s.outPort p).carried.filter (fun x => x ≠ l)

/-- R84: a lane set up out of UNSET starts from the values of a new lane; a READY one keeps what it has. -/
def setupLane (l : LaneIx) (g : LaneSetup) (s : State) : State :=
  s.modLane l (fun r =>
    if r.state = .unset then
      { r with state := .ready, setup := some g, groupStart := 0, framesShown := 0, passCount := 0, lastShown := [],
               frameNumber := 0, drained := false }
    else { r with state := .ready, setup := some g })

/-- R83: the ranges of the fields of LANE_SETUP. -/
def LaneSetup.inRange (g : LaneSetup) : Bool :=
  decide (96 ≤ g.width) && decide (g.width ≤ 1920) && decide (g.width % 2 = 0) && decide (64 ≤ g.height) &&
    decide (g.height ≤ 1088) && decide (10 ≤ g.period) && decide (g.period ≤ 2000)

/-- R83, R84: LANE_SETUP. -/
def laneSetup (tag : Tag) (body : List Byte) (s : State) : Verdict :=
  match body with
  | [bl, w0, w1, h0, h1, p0, p1, bm, bp, bs, y, cb, cr] =>
    match index? 6 bl, mode? bm, port? bp, option? bs with
    | some l, some mode, some port, some stamp =>
      let g : LaneSetup := ⟨le16 w0 w1, le16 h0 h1, le16 p0 p1, mode, stamp, ⟨y, cb, cr⟩⟩
      if ¬ g.inRange then refuse .badParam
      else if (otherLanes s l port).any (fun x => (s.lane x).setup.any (fun o => o.period ≠ g.period)) then
        refuse .badParam
      else if (s.lane l).busy then refuse .badState
      else if (s.lock l).role ≠ .free then refuse .inUse
      else if 2 ≤ (otherLanes s l port).length then refuse .inUse
      else okReply .laneSetup tag [] (route l port (setupLane l g s))
    | _, _, _, _ => refuse .badParam
  | _ => refuse .badRequest

def execLaneSetup (tag : Tag) (body : List Byte) (s : State) : Outcome := request .laneSetup laneSetup tag body s

/-- R85: PORT_SETUP. -/
def portSetup (tag : Tag) (body : List Byte) (s : State) : Verdict :=
  match body with
  | [bp, bw] =>
    match index? 3 bp, width? bw with
    | some p, some w =>
      if (s.outPort p).carried.any (fun l => (s.lane l).busy) then refuse .badState
      else okReply .portSetup tag [] (s.modOutPort p (fun r => { r with width := w }))
    | _, _ => refuse .badParam
  | _ => refuse .badRequest

def execPortSetup (tag : Tag) (body : List Byte) (s : State) : Outcome := request .portSetup portSetup tag body s

/-- R136: the demand of a lane, from its own period. -/
def laneDemand (s : State) (l : LaneIx) : Nat := demand (((s.lane l).setup.map LaneSetup.period).getD 0) 1

/-- R137: the lane's claim is appended and recorded as its admitted demand. -/
def claimLane (l : LaneIx) (s : State) : State :=
  admitClaim (.lane l) (laneDemand s l) (s.modLane l (fun r => { r with admitted := some (laneDemand s l) }))

/-- R95: LANE_START. A FREE lane and a LEADER take the first boundary at once (log 16: a leader's own OK precedes the replies
of the lanes it relays to); any other role waits for its leader. -/
def laneStart (tag : Tag) (body : List Byte) (s : State) : Verdict :=
  match body with
  | [bl] =>
    if tagHeld s.link tag then refuse .tagInUse
    else
      match index? 6 bl with
      | none => refuse .badParam
      | some l =>
        if (s.lane l).state ≠ .ready then refuse .badState
        else if (s.lane l).port.isNone then refuse .badState
        else if ¬ fits s (laneDemand s l) then refuse .noBandwidth
        else
          match (s.lock l).role with
          | .free => okReply .laneStart tag [] (firstBoundary l s.deviceTime (claimLane l s))
          | .leader =>
            .ok (relay l s.deviceTime
              (firstReply .laneStart tag .ok [] (firstBoundary l s.deviceTime (claimLane l s))))
          | _ =>
            if tableFull s.link then refuse .busy
            else .ok (defer tag (.laneStart l)
              ((claimLane l s).modLane l (fun r => { r with state := .starting, pendingStart := some tag })))
  | _ => refuse .badRequest

def execLaneStart (tag : Tag) (body : List Byte) (s : State) : Outcome := request .laneStart laneStart tag body s

/-- R96, R99: a pending start is withdrawn: a pending commit is applied, the STARTING lane becomes READY, and the start receives
CANCELLED. -/
def cancelLaneStart (tag : Tag) (l : LaneIx) (s : State) : State :=
  complete tag .cancelled []
    (if (s.lane l).state = .starting then makeReady l (applyPending l s) else s)

/-- R99: a CANCEL of a pending NORMAL stop of a lane. -/
def cancelLaneStop (tag : Tag) (l : LaneIx) (s : State) : State :=
  complete tag .cancelled [] (s.modLane l (fun r => { r with state := .running, pendingStop := none }))

/-- R98, R112: an IMMEDIATE stop of a RUNNING or STOPPING lane: the abort marker, the pins, the timer, then a join in
FINISHING, the commit, READY and an earlier stop, in this order. -/
def stopNow (l : LaneIx) (s : State) : State :=
  finishStop l (completeJoin l
    ((releaseTiles l (abortFrame l countAborted s)).modLane l (fun r => { r with timer := none })))

/-- R98: the IMMEDIATE stop with its own OK, and for a leader the end of its group after it (R109; log 30). -/
def immediateStop (tag : Tag) (l : LaneIx) (s : State) : State :=
  let t := firstReply .laneStop tag .ok [] (stopNow l s)
  if (s.lock l).role = .leader then dissolve (dissolveImmediate l s.deviceTime) l t else t

/-- R112: a stop of a lane JOINING in WAITING completes the join and then the stop. -/
def stopWaiting (tag : Tag) (l : LaneIx) (s : State) : State :=
  firstReply .laneStop tag .ok [] (finishStop l (completeJoin l s))

/-- R112: the lane is JOINING in join phase WAITING. -/
def Lock.waiting (k : Lock) : Bool :=
  match k.role with
  | .joining _ .waiting _ => true
  | _ => false

/-- R97 to R99, R112: LANE_STOP. -/
def laneStop (tag : Tag) (body : List Byte) (s : State) : Verdict :=
  match body with
  | [bl, bo] =>
    if tagHeld s.link tag then refuse .tagInUse
    else
      match index? 6 bl, option? bo with
      | some l, some immediate =>
        match (s.lane l).state with
        | .unset => refuse .badState
        | .ready => okReply .laneStop tag [] s
        | .starting =>
          okReply .laneStop tag []
            (completeIf (s.lane l).pendingStart .cancelled [] (makeReady l (applyPending l s)))
        | .running =>
          if (s.lock l).waiting then .ok (stopWaiting tag l s)
          else if immediate then .ok (immediateStop tag l s)
          else if tableFull s.link then refuse .busy
          else .ok (defer tag (.laneStop l)
            (s.modLane l (fun r => { r with state := .stopping, pendingStop := some tag })))
        | .stopping =>
          if (s.lock l).waiting then .ok (stopWaiting tag l s)
          else if immediate then .ok (immediateStop tag l s)
          else refuse .badState
      | _, _ => refuse .badParam
  | _ => refuse .badRequest

def execLaneStop (tag : Tag) (body : List Byte) (s : State) : Outcome := request .laneStop laneStop tag body s

end Sys2Proof.Machine
end

