-- ==== Sys2Proof/Machine/Locks.lean ====
section
/-! DEFINITION. The lock requests (chapter 6): LOCK_JOIN, LOCK_LEAVE, and the withdrawal of a pending join. -/

namespace Sys2Proof.Machine

open Sys2Proof

/-- R105, R106: the lane named becomes LEADER. -/
def makeLeader (ld : LaneIx) (s : State) : State := s.modLock ld (fun k => { k with role := .leader })

/-- R105: the leader named follows or is joining another lane. -/
def Lock.follows (k : Lock) : Bool :=
  match k.role with
  | .follower _ => true
  | .joining _ _ _ => true
  | _ => false

/-- R104: the two lanes have equal periods. -/
def equalPeriods (s : State) (l ld : LaneIx) : Bool :=
  decide ((s.lane l).setup.map LaneSetup.period = (s.lane ld).setup.map LaneSetup.period)

/-- R105, R106: LOCK_JOIN. -/
def lockJoin (tag : Tag) (body : List Byte) (s : State) : Verdict :=
  match body with
  | [bf, bl] =>
    if tagHeld s.link tag then refuse .tagInUse
    else
      match index? 6 bf, index? 6 bl with
      | some l, some ld =>
        if l = ld then refuse .badParam
        else if (s.lane l).state = .unset ∨ (s.lane ld).state = .unset then refuse .badState
        else if (s.lock ld).follows then refuse .badState
        else if (s.lock l).role ≠ .free then refuse .badState
        else if ¬ equalPeriods s l ld then refuse .badState
        else if (s.lane l).state = .running ∨ (s.lane l).state = .stopping then
          if tableFull s.link then refuse .busy
          else .ok (defer tag (.lockJoin l)
            (makeLeader ld (s.modLock l (fun _ => ⟨.joining ld .finishing tag, none⟩))))
        else okReply .lockJoin tag [] (makeLeader ld (s.modLock l (fun _ => ⟨.follower ld, none⟩)))
      | _, _ => refuse .badParam
  | _ => refuse .badRequest

def execLockJoin (tag : Tag) (body : List Byte) (s : State) : Outcome := request .lockJoin lockJoin tag body s

/-- R111: a pending join is withdrawn: the role becomes FREE, CANCELLED is queued, the leader becomes FREE when no other lane
names it, and a WAITING lane takes a boundary of its own at once. -/
def cancelJoin (tag : Tag) (l : LaneIx) (s : State) : State :=
  match (s.lock l).role with
  | .joining ld phase _ =>
    let t := freeLeader ld (complete tag .cancelled [] (freeLane l s))
    match phase with
    | .waiting => laneBoundary l s.deviceTime t
    | .finishing => t
  | _ => complete tag .cancelled [] s

/-- R110: what a leave does to the pacing of a FOLLOWER, its role becoming FREE. -/
def leaveGroup (l : LaneIx) (s : State) : State :=
  match (s.lane l).state with
  | .running => freeLane l (armAfterRelay l s)
  | .stopping => freeLane l (armAfterRelay l s)
  | .starting => startRun l s.deviceTime (freeLane l s)
  | _ => freeLane l s

/-- R110: LOCK_LEAVE. -/
def lockLeave (tag : Tag) (body : List Byte) (s : State) : Verdict :=
  match body with
  | [bl] =>
    match index? 6 bl with
    | none => refuse .badParam
    | some l =>
      match (s.lock l).role with
      | .free => refuse .badState
      | .leader => refuse .badState
      | .follower ld => okReply .lockLeave tag [] (freeLeader ld (leaveGroup l s))
      | .joining _ _ t => okReply .lockLeave tag [] (cancelJoin t l s)
  | _ => refuse .badRequest

def execLockLeave (tag : Tag) (body : List Byte) (s : State) : Outcome := request .lockLeave lockLeave tag body s

end Sys2Proof.Machine
end

