-- ==== Sys2Proof/Machine/Store.lean ====
section
/-! DEFINITION. The frame store controller (chapter 8): bring-up, STORE_CONFIG, and an access failure. -/

namespace Sys2Proof.Machine

open Sys2Proof

/-- R125: the cause a stage fails with. -/
def BringupStage.cause : BringupStage → StoreCause
  | .probe => .noResponse
  | .training => .training
  | .sizing => .unsupported

/-- R127, R118: bring-up fails: FAULT with the cause, which the trailers of the frames being composed carry, and STORE_FAULT. -/
def failBringup (c : StoreCause) (s : State) : State :=
  raise (.storeFault c) (forAll failComposing { s with store := ⟨.fault c, none, none, 0, []⟩ })

/-- R126: the default slot count of a capacity. -/
def defaultCount (mib : Nat) : Nat := if mib = 128 then 32 else 64

/-- R126: bring-up succeeds: READY with the default format, and STORE_READY. -/
def finishBringup (mib : Nat) (s : State) : State :=
  raise (.storeReady mib (defaultCount mib))
    { s with store := ⟨.ready, some mib, some ⟨Config.defaultSlotWidth, Config.defaultSlotHeight⟩, defaultCount mib,
      List.range (defaultCount mib)⟩ }

/-- R125: the next stage begins. -/
def enterStage (stage : BringupStage) (deadline : Time) (s : State) : State :=
  { s with store := { s.store with state := .bringup stage deadline } }

/-- R125: the supported capacities. -/
def supported (mib : Nat) : Bool := decide (mib = 128) || decide (mib = 256) || decide (mib = 512)

/-- R125: the end of the probe stage; it ends only while it is in progress (log 5). -/
def probeDone (answered : Bool) (s : State) : State :=
  match s.store.state with
  | .bringup .probe d => if answered then enterStage .training d s else failBringup .noResponse s
  | _ => s

/-- R125: the end of the training stage. -/
def trainingDone (passed : Bool) (s : State) : State :=
  match s.store.state with
  | .bringup .training d => if passed then enterStage .sizing d s else failBringup .training s
  | _ => s

/-- R125, R126: the end of the sizing stage. -/
def sizingDone (mib : Nat) (s : State) : State :=
  match s.store.state with
  | .bringup .sizing _ => if supported mib then finishBringup mib s else failBringup .unsupported s
  | _ => s

/-- R125: the bring-up deadline expires before bring-up has ended. -/
def deadlineExpiry (s : State) : State :=
  match s.store.state with
  | .bringup stage d => if due s.deviceTime d then failBringup stage.cause s else s
  | _ => s

def execBringupProbeDone (answered : Bool) (s : State) : Outcome := whileReleased s (probeDone answered s)

def execBringupTrainingDone (passed : Bool) (s : State) : Outcome := whileReleased s (trainingDone passed s)

def execBringupSizingDone (mib : Nat) (s : State) : Outcome := whileReleased s (sizingDone mib s)

def execBringupDeadlineExpiry (s : State) : Outcome := whileReleased s (deadlineExpiry s)

/-- R130: an access failure taken while the store is READY, in the order the rule gives. -/
def accessFailure (s : State) : State :=
  if s.store.state = .ready then
    raise (.storeFault .access)
      (forAll (streamDiscard .access)
        (forAll failComposing { s with store := { s.store with state := .fault .access } }))
  else s

def execDramAccessFailure (s : State) : Outcome := whileReleased s (accessFailure s)

/-- R132: the slots do not fit the detected capacity; judged only where there is one. -/
def tooLarge (s : State) (f : SlotFormat) (count : Nat) : Bool :=
  s.store.capacity.any (fun c => decide (c * Config.mib < count * f.bytes))

/-- R132: the configuration performed: every slot is free. -/
def configureStore (f : SlotFormat) (count : Nat) (s : State) : State :=
  { s with store := { s.store with format := some f, count := count, free := List.range count } }

/-- R132: STORE_CONFIG. -/
def storeConfig (tag : Tag) (body : List Byte) (s : State) : Verdict :=
  match body with
  | [w0, w1, h0, h1, bc] =>
    let f : SlotFormat := ⟨le16 w0 w1, le16 h0 h1⟩
    if ¬ (64 ≤ f.width ∧ f.width ≤ 1920 ∧ 32 ≤ f.height ∧ f.height ≤ 1088 ∧ 1 ≤ bc.toNat ∧ bc.toNat ≤ 64) then
      refuse .badParam
    else if tooLarge s f bc.toNat then refuse .badParam
    else if s.store.state ≠ .ready then refuse .notReady
    else if (List.finRange 20).any (fun i => decide ((s.stream i).state ≠ .unbound)) then refuse .badState
    else okReply .storeConfig tag (u32 f.bytes ++ u8 bc.toNat) (configureStore f bc.toNat s)
  | _ => refuse .badRequest

def execStoreConfig (tag : Tag) (body : List Byte) (s : State) : Outcome := request .storeConfig storeConfig tag body s

end Sys2Proof.Machine
end

