-- ==== Sys2Proof/Machine/Notices.lean ====
section
/-! DEFINITION. The requests of the notice unit (chapter 11): NOTICE_ACK and NOTICE_RESEND. -/

namespace Sys2Proof.Machine

open Sys2Proof

/-- R164: how many notices an ACK of a sequence removes: those up to and including the transmitted notice that has it; none
where no transmitted notice has it. -/
def ackCount (u : NoticeUnit) (seq : Half) : Option Nat :=
  (u.transmitted.findIdx? (fun n => n.seq = seq)).map (· + 1)

/-- R164: the removal of the first n notices, all transmitted. -/
def removeNotices (n : Nat) (s : State) : State :=
  { s with notices := { s.notices with transmitted := s.notices.transmitted.drop n } }

/-- R164: NOTICES_LOST is created when the loss count is above 0, and the loss count becomes 0. -/
def reportLost (s : State) : State :=
  if s.notices.lost = 0 then s
  else enterNotice (.noticesLost s.notices.lost) { s with notices := { s.notices with lost := 0 } }

/-- R164: NOTICE_ACK. -/
def noticeAck (tag : Tag) (body : List Byte) (s : State) : Verdict :=
  match body with
  | [q0, q1] =>
    match ackCount s.notices (BitVec.ofNat 16 (le16 q0 q1)) with
    | none => refuse .badParam
    | some n => okReply .noticeAck tag (u8 n) (reportLost (removeNotices n s))
  | _ => refuse .badRequest

def execNoticeAck (tag : Tag) (body : List Byte) (s : State) : Outcome := request .noticeAck noticeAck tag body s

/-- R165: every transmitted notice becomes untransmitted. -/
def resendNotices (s : State) : State :=
  { s with notices := { s.notices with
      transmitted := [], untransmitted := s.notices.transmitted ++ s.notices.untransmitted } }

/-- R165: NOTICE_RESEND. -/
def noticeResend (tag : Tag) (body : List Byte) (s : State) : Verdict :=
  match body with
  | [] => okReply .noticeResend tag (u8 s.notices.transmitted.length) (resendNotices s)
  | _ => refuse .badRequest

def execNoticeResend (tag : Tag) (body : List Byte) (s : State) : Outcome :=
  request .noticeResend noticeResend tag body s

end Sys2Proof.Machine
end

