-- ==== Sys2Proof/Machine/Status.lean ====
section
/-! DEFINITION. IDENTIFY (R157), STATUS with its five views (R21, R42, R61, R80, R101, R113, R134, R141, R158, R167) and
COUNTERS (R159), encoded by R170 and R174 (log 15). -/

namespace Sys2Proof.Machine

open Sys2Proof

/-! ### IDENTIFY -/

/-- R174: vendor code, part code, revision, capacity (0 when absent), capability counts. -/
def identifyFields (s : State) : List Byte :=
  u16 Config.vendorCode ++ u16 Config.partCode ++ u8 Config.revision ++ u16 (s.store.capacity.getD 0) ++
    Config.capabilityCounts.flatMap u8

/-- R157: IDENTIFY. -/
def identify (tag : Tag) (body : List Byte) (s : State) : Verdict :=
  match body with
  | [] => okReply .identify tag (identifyFields s) s
  | _ => refuse .badRequest

def execIdentify (tag : Tag) (body : List Byte) (s : State) : Outcome := request .identify identify tag body s

/-! ### The DEVICE view -/

def timeBytes (t : Time) : List Byte := u32 t.toNat
def tagBytes (t : Tag) : List Byte := [t]

/-- R134: the fault cause, where present. -/
def StoreState.faultCause : StoreState → Option StoreCause
  | .fault c => some c
  | _ => none

/-- R170: the holder of a pool slot: 8 × stream + position, or 0xFF for FREE. -/
def slotHolder (s : State) (slot : Nat) : Byte :=
  ((List.finRange 20).findSome? (fun i => (s.ring i).bind (fun r =>
    (r.slots.findIdx? (fun x => x.pool = slot)).map (fun p => byte (8 * i.val + p))))).getD 0xFF

/-- R134: the store part; the two numbers of slots are one byte each (log 15). -/
def storePart (s : State) : List Byte :=
  [s.store.state.code] ++ optional (fun c => [c.code]) s.store.state.faultCause ++ optional u16 s.store.capacity ++
    optional (fun f => u16 f.width) s.store.format ++ optional (fun f => u16 f.height) s.store.format ++
    optional (fun f => u32 f.bytes) s.store.format ++ u8 s.store.count ++ u8 s.store.free.length ++
    listBytes (fun n => [slotHolder s n]) (List.range s.store.count)

/-- R170: the holder byte and the units of a claim. -/
def Claim.bytes (c : Claim) : List Byte :=
  (match c.holder with | .stream i => u8 i.val | .lane l => u8 (0x80 + l.val)) ++ u16 c.units

/-- R141: the budget part. -/
def budgetPart (s : State) : List Byte :=
  u16 Config.budgetUnits ++ u16 (claimTotal s.claims) ++ u16 (Config.budgetUnits - claimTotal s.claims) ++
    listBytes Claim.bytes s.claims

/-- R158: the link part (log 29): the requests waiting, the first replies and the final replies, each a count of one byte, and the
outstanding entries. That the replies are two counts, first replies before final replies, and that these three counts have the size
of counts of entries, is the model's choice (log 15, DESIGN CHOICE, unsafe). -/
def linkPart (k : Link) : List Byte :=
  u8 k.inbound.length ++ u8 (firstReplies k) ++ u8 (finalReplies k) ++
    listBytes (fun e => [e.tag, e.op.kind.code, byte e.op.target]) k.outstanding

/-- R167: the sequence of the notice at the head of the queue. -/
def NoticeUnit.headSeq (u : NoticeUnit) : Option Half := (u.transmitted ++ u.untransmitted).head?.map Notice.seq

/-- R167: the notice part; the numbers of notices are one byte each, the loss count two (log 15). -/
def noticePart (u : NoticeUnit) : List Byte :=
  [u.mask.setWidth 8] ++ u16 u.nextSeq.toNat ++ u8 (noticeCount u) ++ u8 u.transmitted.length ++
    optional (fun q => u16 q.toNat) u.headSeq ++ u16 u.lost.toNat

/-- R158: the DEVICE view. -/
def deviceView (s : State) : List Byte :=
  storePart s ++ budgetPart s ++ timeBytes s.deviceTime ++ linkPart s.link ++ noticePart s.notices

/-! ### The SOURCE view -/

/-- R48: the line count, present when IN_FRAME. -/
def FramePhase.lineCount : FramePhase → Option Nat
  | .inFrame n => some n
  | _ => none

/-- R61: the SOURCE view; the loss factor and the line count have the sizes of log 15. -/
def sourceView (s : State) (n : SourceIx) : List Byte :=
  let r := s.source n
  [r.state.code] ++ optional (fun g => u16 g.width) r.setup ++ optional (fun g => u16 g.height) r.setup ++
    optional (fun g => u16 g.period) r.setup ++ optional (fun g => u8 g.factor) r.setup ++
    optional timeBytes r.lastStart ++ [r.phase.code] ++ optional u16 r.phase.lineCount ++ optional timeBytes r.lossTimer ++
    flagByte r.errorFlag ++ listBytes (fun i => u8 i.val) (boundStreams s n)

/-! ### The STREAM view -/

/-- R21: one slot record; its pin count is one byte (log 15). -/
def Slot.viewBytes (x : Slot) (position : Nat) : List Byte :=
  u8 position ++ u8 x.pool ++ [x.fill.code] ++ seqBytes x.fill.seq ++ optional timeBytes x.fill.captured ++ u8 x.pins

/-- R21: the ring part; for an UNBOUND stream depth 0, no sequence number, no slot records and an empty ready order. -/
def ringPart : Option Ring → List Byte
  | none => u8 0 ++ seqBytes none ++ u8 0 ++ u8 0
  | some r => u8 r.slots.length ++ seqBytes (some r.nextSeq) ++
      listBytes (fun x => x.1.viewBytes x.2) r.slots.zipIdx ++ listBytes u8 r.ready

/-- R42: the STREAM view. -/
def streamView (s : State) (i : StreamIx) : List Byte :=
  let r := s.stream i
  let bound := r.binding.isSome
  [r.state.code, r.freeze.code] ++ indexByte (r.binding.map (fun b => b.source.val)) ++
    optional (fun b => [b.scale.code]) r.binding ++
    optional (fun b => u16 b.storedWidth ++ u16 b.storedHeight) r.binding ++
    optional (fun b => [b.policy.code]) r.binding ++
    optional Colour.bytes (if bound then some r.fill else none) ++
    optional (listBytes (fun w => u16 w.toNat)) (if bound then some r.words else none) ++
    optional u16 r.admitted ++ optional flagByte (if bound then some r.dropFlag else none) ++
    optional tagBytes r.pendingStop ++ optional tagBytes r.pendingFreeze ++ ringPart (s.ring i)

/-! ### The LANE view -/

/-- R101: one tile record: kind, entry index, stream, pinned position, sequence number, age, and the flags, of which R101 gives no
order: repeat, frozen, source-lost, as a trailer has them (R115), each 0 in a tile that has none (log 15, DESIGN CHOICE, unsafe). -/
def Tile.viewBytes (t : Tile) : List Byte :=
  [t.body.code] ++ u8 t.index ++
    match t.body with
    | .blank => indexByte none ++ indexByte none ++ seqBytes none ++ [0] ++ flagByte false ++ flagByte false ++ flagByte false
    | .fill i fz lost =>
      u8 i.val ++ indexByte none ++ seqBytes none ++ [0] ++ flagByte false ++ flagByte fz ++ flagByte lost
    | .shown i p q _ age rep fz lost _ =>
      u8 i.val ++ u8 p ++ seqBytes (some q) ++ optional u16 (some age) ++ flagByte rep ++ flagByte fz ++ flagByte lost

/-- R103: the leader, when FOLLOWER or JOINING. -/
def LockRole.leaderOf : LockRole → Option LaneIx
  | .follower ld => some ld
  | .joining ld _ _ => some ld
  | _ => none

/-- R103: the join phase, when JOINING. -/
def LockRole.phase : LockRole → Option JoinPhase
  | .joining _ p _ => some p
  | _ => none

/-- R103: the tag of the pending join, when JOINING. -/
def LockRole.joinTag : LockRole → Option Tag
  | .joining _ _ t => some t
  | _ => none

/-- R113: the lock part. -/
def lockPart (s : State) (l : LaneIx) : List Byte :=
  let k := s.lock l
  [k.role.code] ++ indexByte (k.role.leaderOf.map Fin.val) ++ optional (fun p => [p.code]) k.role.phase ++
    optional tagBytes k.role.joinTag ++ optional timeBytes k.lastRelayed ++
    optional (listBytes (fun x => [byte x.val, (s.lock x).role.code]))
      (if k.role = .leader then some ((List.finRange 6).filter (fun x => namesLeader s l x)) else none)

/-- R64: the number of groups of an active list: the first entry of each group carries the dwell. -/
def groupCount (es : List ListEntry) : Nat := es.countP (fun e => e.dwell.isSome)

/-- R64: the output frames in one pass: the sum of the dwells. -/
def passFrames (es : List ListEntry) : Nat := (es.map (fun e => e.dwell.getD 0)).sum

/-- R80: the list part; the lengths and the number of groups are one byte each (log 15). -/
def listPart (u : ListUnit) : List Byte :=
  u8 u.staged.length ++ u8 u.active.length ++ u16 u.generation.toNat ++
    optional (fun c => [c.1, c.2.code]) u.commit ++ u8 (groupCount u.active) ++ u16 (passFrames u.active)

/-- R101: the lane's place in the list of its port: 0 for the first, 1 for the second (log 15). -/
def placeOf (s : State) (l : LaneIx) : Option Nat :=
  (s.lane l).port.bind (fun p => (s.outPort p).carried.findIdx? (fun x => x = l))

/-- R101: the LANE view; the place in the port's list has a presence byte, and frames shown is one byte (log 15). -/
def laneView (s : State) (l : LaneIx) : List Byte :=
  let r := s.lane l
  [r.state.code] ++ flagByte r.drained ++ optional (fun g => u16 g.width ++ u16 g.height) r.setup ++
    optional (fun g => u16 g.period) r.setup ++ optional (fun g => [g.mode.code]) r.setup ++
    optional (fun g => flagByte g.stamp) r.setup ++ optional (fun g => g.fill.bytes) r.setup ++
    indexByte (r.port.map Fin.val) ++ optional u8 (placeOf s l) ++ u8 r.groupStart ++ u8 r.framesShown ++ u8 (dwellAt s l) ++
    u16 r.passCount.toNat ++ u32 r.frameNumber.toNat ++ optional u16 r.admitted ++ optional timeBytes r.timer ++
    optional tagBytes r.pendingStart ++ optional tagBytes r.pendingStop ++ listBytes Tile.viewBytes r.tiles ++
    lockPart s l ++ listPart (s.list l)

/-! ### The PORT view -/

/-- R101: the PORT view: the width mode, and the carried lanes with phase (first 0, second 1) and lane state. -/
def portView (s : State) (p : PortIx) : List Byte :=
  [(s.outPort p).width.code] ++
    listBytes (fun x => [byte x.1.val, byte x.2, (s.lane x.1).state.code]) (s.outPort p).carried.zipIdx

/-! ### STATUS -/

/-- R158: the view named, where view and index are in range. -/
def statusView (s : State) (view index : Byte) : Option (List Byte) :=
  if view = 0 then some (deviceView s)
  else if view = 1 then (index? 16 index).map (sourceView s)
  else if view = 2 then (index? 20 index).map (streamView s)
  else if view = 3 then (index? 6 index).map (laneView s)
  else if view = 4 then (index? 3 index).map (portView s)
  else none

/-- R158: STATUS. -/
def status (tag : Tag) (body : List Byte) (s : State) : Verdict :=
  match body with
  | [bv, bi] =>
    match statusView s bv bi with
    | none => refuse .badParam
    | some fields => okReply .status tag ([bv, bi] ++ fields) s
  | _ => refuse .badRequest

def execStatus (tag : Tag) (body : List Byte) (s : State) : Outcome := request .status status tag body s

/-! ### COUNTERS -/

/-- R159: the holder of counters. -/
inductive CounterHolder where
  | source (n : SourceIx)
  | stream (i : StreamIx)
  | lane (l : LaneIx)
  | port (p : PortIx)
  | link
  deriving DecidableEq, Repr

/-- R159, R172: the holder kind and index, where in range. -/
def holder? (kind index : Byte) : Option CounterHolder :=
  if kind = 0 then (index? 16 index).map .source
  else if kind = 1 then (index? 20 index).map .stream
  else if kind = 2 then (index? 6 index).map .lane
  else if kind = 3 then (index? 3 index).map .port
  else if kind = 4 then (if index = 0 then some .link else none)
  else none

/-- R47: the capture port and local index of a source. -/
def portOf (n : SourceIx) : CaptureIx := ⟨n.val / 4, by omega⟩
def localOf (n : SourceIx) : CaptureIx := ⟨n.val % 4, by omega⟩

/-- R47, R61: the unclaimed count of the source's local index on its port. -/
def unclaimedOf (s : State) (n : SourceIx) : Word := rd (s.capturePort (portOf n)).unclaimed (localOf n)

def SourceCounters.list (c : SourceCounters) : List Word :=
  [c.accepted, c.overRate, c.short, c.long, c.badLine, c.broken, c.lostMidFrame]
def StreamCounters.list (c : StreamCounters) : List Word :=
  [c.captured, c.dropsStall, c.dropsFrozen, c.dropsStore, c.discarded]
def LaneCounters.list (c : LaneCounters) : List Word := [c.frames, c.repeats, c.fills, c.commits]
def OutPort.counterList (p : OutPort) : List Word := [p.ended, p.aborted, p.cut]
def LinkCounters.list (c : LinkCounters) : List Word :=
  [c.accepted, c.checkErrors, c.truncated, c.overruns, c.repliesSent, c.noticesSent, c.interrupted]

/-- R61, R42, R100, R159: the counters of a holder in its owner's order. -/
def countersOf (s : State) : CounterHolder → List Word
  | .source n => (s.source n).counters.list ++ [unclaimedOf s n]
  | .stream i => (s.stream i).counters.list
  | .lane l => (s.lane l).counters.list
  | .port p => (s.outPort p).counterList
  | .link => s.link.counters.list

/-- R27, R59: reading a SOURCE or a STREAM clears its flag. -/
def clearFlag (h : CounterHolder) (s : State) : State :=
  match h with
  | .source n => s.modSource n (fun r => { r with errorFlag := false })
  | .stream i => s.modStream i (fun r => { r with dropFlag := false })
  | _ => s

/-- R159: the clear option sets the counters read to 0. -/
def clearCounters (h : CounterHolder) (s : State) : State :=
  match h with
  | .source n =>
    (s.modSource n (fun r => { r with counters := .zero })).modCapturePort (portOf n)
      (fun c => { c with unclaimed := wr c.unclaimed (localOf n) 0 })
  | .stream i => s.modStream i (fun r => { r with counters := .zero })
  | .lane l => s.modLane l (fun r => { r with counters := .zero })
  | .port p => s.modOutPort p (fun r => { r with ended := 0, aborted := 0, cut := 0 })
  | .link => s.modLink (fun k => { k with counters := .zero })

/-- R159: COUNTERS. -/
def counters (tag : Tag) (body : List Byte) (s : State) : Verdict :=
  match body with
  | [bk, bi, bo] =>
    match holder? bk bi, option? bo with
    | some h, some clear =>
      let t := clearFlag h s
      okReply .counters tag ([bk, bi] ++ (countersOf s h).flatMap (fun c => u32 c.toNat))
        (if clear then clearCounters h t else t)
    | _, _ => refuse .badParam
  | _ => refuse .badRequest

def execCounters (tag : Tag) (body : List Byte) (s : State) : Outcome := request .counters counters tag body s

end Sys2Proof.Machine
end

