-- ==== Sys2Proof/Machine/Link.lean ====
section
/-! DEFINITION. The link controller (chapter 10): LINK_SET, CANCEL, the inbound framer, the end of a transfer, and the sending
of replies and notices. -/

namespace Sys2Proof.Machine

open Sys2Proof

/-! ### LINK_SET and CANCEL -/

/-- R160: LINK_SET. -/
def linkSet (tag : Tag) (body : List Byte) (s : State) : Verdict :=
  match body with
  | [bm] =>
    if 32 ≤ bm.toNat then refuse .badParam
    else okReply .linkSet tag [bm] { s with notices := { s.notices with mask := bm.setWidth 5 } }
  | _ => refuse .badRequest

def execLinkSet (tag : Tag) (body : List Byte) (s : State) : Outcome := request .linkSet linkSet tag body s

/-- R155: the owner of the entry's operation withdraws it (R35, R38, R77, R96, R99, R111). -/
def withdraw (e : Entry) (s : State) : State :=
  match e.op with
  | .streamStop i => cancelStreamStop e.tag i s
  | .streamFreeze i => cancelStreamFreeze e.tag i s
  | .listCommit l => cancelCommit e.tag l s
  | .laneStart l => cancelLaneStart e.tag l s
  | .laneStop l => cancelLaneStop e.tag l s
  | .lockJoin l => cancelJoin e.tag l s

/-- R155: CANCEL. -/
def cancel (tag : Tag) (body : List Byte) (s : State) : Verdict :=
  match body with
  | [t] =>
    match s.link.outstanding.find? (fun e => e.tag = t) with
    | none => refuse .notPending
    | some e => okReply .cancel tag [] (withdraw e s)
  | _ => refuse .badRequest

def execCancel (tag : Tag) (body : List Byte) (s : State) : Outcome := request .cancel cancel tag body s

/-! ### The inbound framer (R145) -/

/-- R168: the sync byte. -/
def syncByte : Byte := 0xA5

def setFramer (f : Option (List Byte)) (s : State) : State := s.modLink (fun k => { k with framer := f })

/-- R145: a frame discarded as a CHECK error, with the tag as received. -/
def checkError (tag : Option Tag) (s : State) : State :=
  raise (.linkCheck tag)
    (s.modLink (fun k => { k with
      framer := none, counters := { k.counters with checkErrors := satInc k.counters.checkErrors } }))

/-- R145, R169: the bytes of a whole frame after its sync byte carry the check of the rest, low byte first. -/
def goodFrame (got : List Byte) : Bool :=
  decide (got.drop (got.length - 2) = u16 (crc16 (got.take (got.length - 2))).toNat)

/-- R168: the request a whole frame carries; aux is not examined. -/
def frameRequest (got : List Byte) : Request :=
  ⟨got.getD 0 0, got.getD 1 0, (got.drop 4).take (got.length - 6)⟩

/-- R145: a whole frame is judged. -/
def judgeFrame (got : List Byte) (s : State) : State :=
  if goodFrame got then offer (frameRequest got) (setFramer none s) else checkError got[1]? s

/-- R145: the framer, with these bytes received since the sync byte, takes one more. -/
def frameByte (got : List Byte) (b : Byte) (s : State) : State :=
  let now := got ++ [b]
  if now.length = 4 ∧ 240 < b.toNat then checkError now[1]? s
  else if 4 ≤ now.length ∧ now.length = 6 + (now.getD 3 0).toNat then judgeFrame now s
  else setFramer (some now) s

/-- R145: the framer takes one byte on LSDI; while hunting only a sync byte begins a frame. -/
def takeByte (b : Byte) (s : State) : State :=
  match s.link.framer with
  | none => if b = syncByte then setFramer (some []) s else s
  | some got => frameByte got b s

/-- R144, R145: one byte position: the device's byte on LSDO, and then the host's byte taken by the framer (log 8). -/
def moveByte (b : Byte) (s : State) : State := takeByte b (sendByte s)

/-- R144: byte positions in order, with the host's bytes in them. -/
def moveBytes (bytes : List Byte) (s : State) : State := bytes.foldl (fun t b => moveByte b t) s

def execInboundFrame (bytes : List Byte) (s : State) : Outcome := whileReleased s (moveBytes bytes s)

/-! ### The end of a transfer (R146, R153) -/

/-- R146: a frame begun and not taken whole is discarded as TRUNCATED. -/
def truncate (s : State) : State :=
  match s.link.framer with
  | none => s
  | some got =>
    raise (.linkTruncated got[1]?)
      (s.modLink (fun k => { k with
        framer := none, counters := { k.counters with truncated := satInc k.counters.truncated } }))

/-- R153: the outbound frame in progress is interrupted; what it carried stays where it stands. -/
def interrupt (s : State) : State :=
  match s.link.outbound with
  | none => s
  | some _ =>
    s.modLink (fun k => { k with
      outbound := none, counters := { k.counters with interrupted := satInc k.counters.interrupted } })

/-- R146, R153: the rise of LCS_N. While RESET_N is asserted no transfer ends, and the pin alone goes high (R144, log 26). -/
def execLcsNRise (s : State) : Outcome :=
  let t := { s with lcsLow := false }
  .next (if s.resetAsserted ∨ s.lcsLow = false then t else interrupt (truncate t))

/-! ### The events of LSDO (R152)

Each is a run of byte positions, in which the host sends the idle byte (log 8); an INBOUND_FRAME of as many bytes does the same with
any bytes of the host. -/

/-- R152: a free byte position; there is none while a frame is in progress (log 5). -/
def outboundFrameStart (s : State) : State :=
  match s.link.outbound with
  | some _ => s
  | none => moveByte idleByte s

def execOutboundFrameStart (s : State) : Outcome := whileReleased s (outboundFrameStart s)

/-- R152: the positions up to that of the last byte of the frame in progress. -/
def finishFrame (o : Outbound) (s : State) : State := moveBytes (List.replicate (o.bytes.length - o.sent) idleByte) s

/-- R152: the reply in progress is shifted out to its last check byte. -/
def replyTransmitted (s : State) : State :=
  match s.link.outbound with
  | some ⟨.reply, bytes, sent⟩ => finishFrame ⟨.reply, bytes, sent⟩ s
  | _ => s

def execReplyTransmitted (s : State) : Outcome := whileReleased s (replyTransmitted s)

/-- R152, R163: the notice in progress is shifted out to its last check byte. -/
def noticeTransmitted (s : State) : State :=
  match s.link.outbound with
  | some ⟨.notice q, bytes, sent⟩ => finishFrame ⟨.notice q, bytes, sent⟩ s
  | some ⟨.orphan, bytes, sent⟩ => finishFrame ⟨.orphan, bytes, sent⟩ s
  | _ => s

def execNoticeTransmitted (s : State) : Outcome := whileReleased s (noticeTransmitted s)

end Sys2Proof.Machine
end

