-- ==== Sys2Proof/Machine/Reset.lean ====
section
/-! DEFINITION. The resets: the RESET request (R156) with every owner's teardown, and the two edges of RESET_N (R125, R143). -/

namespace Sys2Proof.Machine

open Sys2Proof

/-! ### The soft reset (R156) -/

/-- R156 step 3: each outstanding entry, in table order, is removed and answered ABORTED. -/
def abortOutstanding (s : State) : State :=
  s.modLink (fun k => { k with
    replies := k.replies ++ k.outstanding.map (fun e => ⟨replyKind e.op.kind.code, e.tag, .final, .aborted, []⟩)
    outstanding := [] })

/-- R133: what a soft reset makes of the store record; bring-up begins again at device time 0. -/
def softResetStore (st : Store) : Store :=
  match st.state with
  | .ready => { st with free := List.range st.count }
  | .offline => st
  | .bringup _ _ => ⟨.bringup .probe (BitVec.ofNat 32 Config.bringupMs), none, none, 0, []⟩
  | .fault _ => ⟨.bringup .probe (BitVec.ofNat 32 Config.bringupMs), none, none, 0, []⟩

/-- R156: an outbound reply goes on to its end; an outbound notice goes on as bytes of a notice that no longer exists. -/
def Outbound.afterReset (o : Outbound) : Outbound :=
  match o.kind with
  | .notice _ => { o with kind := .orphan }
  | _ => o

/-- R102: the abort marker on every lane whose frame has not ended, counted on its port. -/
def abortAll (s : State) : State := forAll (fun l u => abortFrame l countAborted u) s

/-- R156 step 4, R45, R48, R20, R79, R102, R114, R122, R142: the owners tear down, after the abort markers of the frames that
have not ended; device time becomes 0 and the link counters are cleared. -/
def teardown (s : State) : State :=
  { abortAll s with
    deviceTime := 0
    sources := Vector.replicate 16 Source.initial
    capturePorts := Vector.replicate 4 CapturePort.initial
    streams := Vector.replicate 20 Stream.initial
    rings := Vector.replicate 20 none
    lists := Vector.replicate 6 ListUnit.initial
    lanes := Vector.replicate 6 Lane.initial
    locks := Vector.replicate 6 Lock.initial
    outPorts := Vector.replicate 3 OutPort.initial
    trailers := Vector.replicate 6 none
    claims := []
    store := softResetStore s.store
    link := { s.link with counters := .zero, outbound := s.link.outbound.map Outbound.afterReset } }

/-- R156 step 6, R166: the notice queue is cleared and START enters as notice 0; the class mask is kept. -/
def restartNotices (cause : StartCause) (s : State) : State :=
  enterNotice (.start cause)
    { s with notices := { s.notices with transmitted := [], untransmitted := [], nextSeq := 0, lost := 0 } }

/-- R156: the six steps of a soft reset. -/
def softReset (tag : Tag) (s : State) : State :=
  restartNotices .soft
    (firstReply .reset tag .ok (listBytes (fun t => [t]) (s.link.inbound.map Request.tag))
      (teardown (abortOutstanding (s.modLink (fun k => { k with inbound := [] })))))

/-- R156: RESET. -/
def reset (tag : Tag) (body : List Byte) (s : State) : Verdict :=
  match body with
  | [] => .ok (softReset tag s)
  | _ => refuse .badRequest

def execReset (tag : Tag) (body : List Byte) (s : State) : Outcome := request .reset reset tag body s

/-! ### RESET_N -/

/-- R143, R124, R166: the assertion of RESET_N: every block takes the values of a hard reset. The DRAM's content stays (R124),
LCS_N is the host's (log 26), and the commands waiting outside stay. -/
def hardReset (s : State) : State :=
  { State.reset with dram := s.dram, lcsLow := s.lcsLow, freeCount := s.freeCount, pending := s.pending }

def execResetNAssert (s : State) : Outcome := .next (hardReset s)

/-- R125, R143, R166: the release: bring-up begins with its deadline at device time 40, every class is enabled and START (HARD)
enters as notice 0. -/
def release (s : State) : State :=
  restartNotices .hard { s with
    resetAsserted := false
    deviceTime := 0
    store := { s.store with state := .bringup .probe (BitVec.ofNat 32 Config.bringupMs) }
    notices := { s.notices with mask := 0x1F } }

/-- While RESET_N is not asserted it cannot be released (log 5). -/
def execResetNRelease (s : State) : Outcome := .next (if s.resetAsserted then release s else s)

end Sys2Proof.Machine
end

