-- ==== Sys2Proof/Machine/Dispatch.lean ====
section
/-! DEFINITION. One arm per command. -/

namespace Sys2Proof.Machine

open Sys2Proof

def exec (i : Instr) (s : State) : Host.Outcome State Fault Refusal :=
  match i with
  | .streamBind tag body => Sys2Proof.Machine.execStreamBind tag body s
  | .streamUnbind tag body => Sys2Proof.Machine.execStreamUnbind tag body s
  | .streamStart tag body => Sys2Proof.Machine.execStreamStart tag body s
  | .streamStop tag body => Sys2Proof.Machine.execStreamStop tag body s
  | .streamFreeze tag body => Sys2Proof.Machine.execStreamFreeze tag body s
  | .streamThaw tag body => Sys2Proof.Machine.execStreamThaw tag body s
  | .streamFill tag body => Sys2Proof.Machine.execStreamFill tag body s
  | .sourceSetup tag body => Sys2Proof.Machine.execSourceSetup tag body s
  | .listEdit tag body => Sys2Proof.Machine.execListEdit tag body s
  | .listRead tag body => Sys2Proof.Machine.execListRead tag body s
  | .listCommit tag body => Sys2Proof.Machine.execListCommit tag body s
  | .laneSetup tag body => Sys2Proof.Machine.execLaneSetup tag body s
  | .portSetup tag body => Sys2Proof.Machine.execPortSetup tag body s
  | .laneStart tag body => Sys2Proof.Machine.execLaneStart tag body s
  | .laneStop tag body => Sys2Proof.Machine.execLaneStop tag body s
  | .lockJoin tag body => Sys2Proof.Machine.execLockJoin tag body s
  | .lockLeave tag body => Sys2Proof.Machine.execLockLeave tag body s
  | .streamStamp tag body => Sys2Proof.Machine.execStreamStamp tag body s
  | .storeConfig tag body => Sys2Proof.Machine.execStoreConfig tag body s
  | .identify tag body => Sys2Proof.Machine.execIdentify tag body s
  | .status tag body => Sys2Proof.Machine.execStatus tag body s
  | .counters tag body => Sys2Proof.Machine.execCounters tag body s
  | .linkSet tag body => Sys2Proof.Machine.execLinkSet tag body s
  | .cancel tag body => Sys2Proof.Machine.execCancel tag body s
  | .reset tag body => Sys2Proof.Machine.execReset tag body s
  | .noticeAck tag body => Sys2Proof.Machine.execNoticeAck tag body s
  | .noticeResend tag body => Sys2Proof.Machine.execNoticeResend tag body s
  | .unknownRequest kind tag body => Sys2Proof.Machine.execUnknownRequest kind tag body s
  | .inboundFrame bytes => Sys2Proof.Machine.execInboundFrame bytes s
  | .lcsNRise => Sys2Proof.Machine.execLcsNRise s
  | .outboundFrameStart => Sys2Proof.Machine.execOutboundFrameStart s
  | .replyTransmitted => Sys2Proof.Machine.execReplyTransmitted s
  | .noticeTransmitted => Sys2Proof.Machine.execNoticeTransmitted s
  | .resetNAssert => Sys2Proof.Machine.execResetNAssert s
  | .resetNRelease => Sys2Proof.Machine.execResetNRelease s
  | .bringupProbeDone answered => Sys2Proof.Machine.execBringupProbeDone answered s
  | .bringupTrainingDone passed => Sys2Proof.Machine.execBringupTrainingDone passed s
  | .bringupSizingDone mib => Sys2Proof.Machine.execBringupSizingDone mib s
  | .bringupDeadlineExpiry => Sys2Proof.Machine.execBringupDeadlineExpiry s
  | .dramAccessFailure => Sys2Proof.Machine.execDramAccessFailure s
  | .captureFrameStart port index => Sys2Proof.Machine.execCaptureFrameStart port index s
  | .lineStart port index data => Sys2Proof.Machine.execLineStart port index data s
  | .frameEnd port index => Sys2Proof.Machine.execFrameEnd port index s
  | .sourceLossTimerExpiry source => Sys2Proof.Machine.execSourceLossTimerExpiry source s
  | .pacingTimerExpiry lane => Sys2Proof.Machine.execPacingTimerExpiry lane s
  | .outputTrailerStart lane => Sys2Proof.Machine.execOutputTrailerStart lane s
  | .outputFrameEnd lane => Sys2Proof.Machine.execOutputFrameEnd lane s

end Sys2Proof.Machine
end

