-- ==== Sys2Proof/Machine/Step.lean ====
section
/-! DEFINITION. The step: the command at the front of the queue, or one millisecond of device time on an empty queue. -/

namespace Sys2Proof.Machine

open Sys2Proof

/-- Log 4: one millisecond of device time, which stands at 0 while RESET_N is asserted (log 32). -/
def tick (s : State) : State :=
  if s.resetAsserted then s else { s with deviceTime := s.deviceTime + 1 }

/-- One step: exec of the command at the front on the queue's rest; with no command waiting, a tick. -/
def step (s : State) : Host.Outcome State Fault Refusal :=
  match s.pending with
  | [] => .next (tick s)
  | c :: rest => exec c { s with pending := rest }

/-- The command a table word spells, put at the front of the queue; no row of the table has bits. -/
def State.withFetchWord (s : State) (nbits w : Nat) : State :=
  match Sys2Proof.decodeTableWord nbits w with
  | none => s
  | some c => { s with pending := c :: s.pending }

end Sys2Proof.Machine
end

