-- ==== Sys2Proof/Safety.lean ====
section
/-! DEFINITION. The vocabulary of the statements: a request about to be dispatched and its answer, the table of body lengths,
and the laws the manual says the block keeps. -/

namespace Sys2Proof.Machine

open Sys2Proof

/-! ### Requests -/

/-- The request a command of a request row stands for; none for an event. -/
def requestOf : Instr → Option Request
  | .streamBind t b => some ⟨Kind.streamBind.code, t, b⟩
  | .streamUnbind t b => some ⟨Kind.streamUnbind.code, t, b⟩
  | .streamStart t b => some ⟨Kind.streamStart.code, t, b⟩
  | .streamStop t b => some ⟨Kind.streamStop.code, t, b⟩
  | .streamFreeze t b => some ⟨Kind.streamFreeze.code, t, b⟩
  | .streamThaw t b => some ⟨Kind.streamThaw.code, t, b⟩
  | .streamFill t b => some ⟨Kind.streamFill.code, t, b⟩
  | .sourceSetup t b => some ⟨Kind.sourceSetup.code, t, b⟩
  | .listEdit t b => some ⟨Kind.listEdit.code, t, b⟩
  | .listRead t b => some ⟨Kind.listRead.code, t, b⟩
  | .listCommit t b => some ⟨Kind.listCommit.code, t, b⟩
  | .laneSetup t b => some ⟨Kind.laneSetup.code, t, b⟩
  | .portSetup t b => some ⟨Kind.portSetup.code, t, b⟩
  | .laneStart t b => some ⟨Kind.laneStart.code, t, b⟩
  | .laneStop t b => some ⟨Kind.laneStop.code, t, b⟩
  | .lockJoin t b => some ⟨Kind.lockJoin.code, t, b⟩
  | .lockLeave t b => some ⟨Kind.lockLeave.code, t, b⟩
  | .streamStamp t b => some ⟨Kind.streamStamp.code, t, b⟩
  | .storeConfig t b => some ⟨Kind.storeConfig.code, t, b⟩
  | .identify t b => some ⟨Kind.identify.code, t, b⟩
  | .status t b => some ⟨Kind.status.code, t, b⟩
  | .counters t b => some ⟨Kind.counters.code, t, b⟩
  | .linkSet t b => some ⟨Kind.linkSet.code, t, b⟩
  | .cancel t b => some ⟨Kind.cancel.code, t, b⟩
  | .reset t b => some ⟨Kind.reset.code, t, b⟩
  | .noticeAck t b => some ⟨Kind.noticeAck.code, t, b⟩
  | .noticeResend t b => some ⟨Kind.noticeResend.code, t, b⟩
  | .unknownRequest k t b => some ⟨k, t, b⟩
  | _ => none

/-- R148: RESET_N is not asserted, the request stands at the head of the inbound queue, and the reply queue has room. -/
abbrev Waiting (s : State) (r : Request) : Prop :=
  s.resetAsserted = false ∧ s.link.inbound.head? = some r ∧ replyRoom s.link = true

/-- The same for a request of a known kind. -/
abbrev WaitingFor (s : State) (k : Kind) (tag : Tag) (body : List Byte) : Prop := Waiting s ⟨k.code, tag, body⟩

/-- R148, R149: the state in which nothing has changed but that the request at the head has been taken and its first reply
queued. -/
def State.answered (s : State) (k : Kind) (tag : Tag) (res : Result) (fields : List Byte) : State :=
  { s with link := { s.link with
      inbound := s.link.inbound.tail
      replies := s.link.replies ++ [⟨replyKind k.code, tag, .first, res, fields⟩] } }

/-- R150: `answered` with PENDING, the request entered at the end of the outstanding table. -/
def State.deferred (s : State) (tag : Tag) (op : Pending) : State :=
  { s with link := { s.link with
      inbound := s.link.inbound.tail
      outstanding := s.link.outstanding ++ [⟨tag, op⟩]
      replies := s.link.replies ++ [⟨replyKind op.kind.code, tag, .first, .pending, []⟩] } }

/-- R173: whether a body of n bytes is one the kind takes; `second` is the body's second byte, which counts the words of a
STREAM_STAMP. -/
def lengthTaken (k : Kind) (n second : Nat) : Bool :=
  match k with
  | .streamBind => n == 5
  | .streamUnbind => n == 1
  | .streamStart => n == 1
  | .streamFreeze => n == 1
  | .streamThaw => n == 1
  | .streamStop => n == 2
  | .streamFill => n == 4
  | .sourceSetup => n == 8
  | .listEdit => decide (4 ≤ n) && (n - 4) % 3 == 0
  | .listRead => n == 4
  | .listCommit => n == 2
  | .laneSetup => n == 13
  | .portSetup => n == 2
  | .laneStart => n == 1
  | .lockLeave => n == 1
  | .laneStop => n == 2
  | .lockJoin => n == 2
  | .streamStamp => decide (2 ≤ n) && n == 2 + 2 * second
  | .storeConfig => n == 5
  | .status => n == 2
  | .counters => n == 3
  | .linkSet => n == 1
  | .cancel => n == 1
  | .noticeAck => n == 2
  | .identify => n == 0
  | .reset => n == 0
  | .noticeResend => n == 0

/-- The command that dispatches a request of a kind. -/
def commandOf (k : Kind) (tag : Tag) (body : List Byte) : Instr :=
  match k with
  | .streamBind => .streamBind tag body
  | .streamUnbind => .streamUnbind tag body
  | .streamStart => .streamStart tag body
  | .streamStop => .streamStop tag body
  | .streamFreeze => .streamFreeze tag body
  | .streamThaw => .streamThaw tag body
  | .streamFill => .streamFill tag body
  | .sourceSetup => .sourceSetup tag body
  | .listEdit => .listEdit tag body
  | .listRead => .listRead tag body
  | .listCommit => .listCommit tag body
  | .laneSetup => .laneSetup tag body
  | .portSetup => .portSetup tag body
  | .laneStart => .laneStart tag body
  | .laneStop => .laneStop tag body
  | .lockJoin => .lockJoin tag body
  | .lockLeave => .lockLeave tag body
  | .streamStamp => .streamStamp tag body
  | .storeConfig => .storeConfig tag body
  | .identify => .identify tag body
  | .status => .status tag body
  | .counters => .counters tag body
  | .linkSet => .linkSet tag body
  | .cancel => .cancel tag body
  | .reset => .reset tag body
  | .noticeAck => .noticeAck tag body
  | .noticeResend => .noticeResend tag body

/-- 10_ Requests and their owners: the kinds whose first reply may be PENDING. -/
def Kind.deferrable : Kind → Bool
  | .streamStop => true
  | .streamFreeze => true
  | .listCommit => true
  | .laneStart => true
  | .laneStop => true
  | .lockJoin => true
  | _ => false

/-- The byte at an offset of a body, as a number. -/
def field (body : List Byte) (n : Nat) : Nat := (body.getD n 0).toNat

/-- The two-byte field at an offset of a body. -/
def field2 (body : List Byte) (n : Nat) : Nat := field body n + 256 * field body (n + 1)

/-- R172: list entries of three bytes each are in range: STREAM 0 with a stream 0 to 19, or BLANK 1 with a scale 0 to 2. -/
def entriesInRange : List Byte → Bool
  | k :: w :: _ :: rest =>
    ((k == 0 && decide (w.toNat < 20)) || (k == 1 && decide (w.toNat < 3))) && entriesInRange rest
  | _ => true

/-- The ranges of the fields of each request that its owner refuses with BAD_PARAM whatever the state: R28, R32, R36, R41, R49,
R65, R68, R69, R83, R85, R95, R97, R105, R110, R119, R132, R158, R159, R160, R172. -/
def fieldsInRange (k : Kind) (b : List Byte) : Bool :=
  match k with
  | .streamBind => decide (field b 0 < 20 ∧ field b 1 < 16 ∧ field b 2 < 3 ∧ 2 ≤ field b 3 ∧ field b 3 ≤ 6 ∧ field b 4 < 2)
  | .streamUnbind => decide (field b 0 < 20)
  | .streamStart => decide (field b 0 < 20)
  | .streamStop => decide (field b 0 < 20 ∧ field b 1 < 2)
  | .streamFreeze => decide (field b 0 < 20)
  | .streamThaw => decide (field b 0 < 20)
  | .streamFill => decide (field b 0 < 20)
  | .sourceSetup => decide (field b 0 < 16 ∧ 64 ≤ field2 b 1 ∧ field2 b 1 ≤ 1920 ∧ 32 ≤ field2 b 3 ∧ field2 b 3 ≤ 1088 ∧
      (field2 b 5 = 0 ∨ (10 ≤ field2 b 5 ∧ field2 b 5 ≤ 2000)) ∧ (field b 7 = 0 ∨ (2 ≤ field b 7 ∧ field b 7 ≤ 16)))
  | .listEdit => decide (field b 0 < 6 ∧ field b 1 < 5 ∧ (b.length - 4) / 3 ≤ 12) && entriesInRange (b.drop 4)
  | .listRead => decide (field b 0 < 6 ∧ field b 1 < 2 ∧ 1 ≤ field b 3 ∧ field b 3 ≤ 12)
  | .listCommit => decide (field b 0 < 6 ∧ field b 1 < 2)
  | .laneSetup => decide (field b 0 < 6 ∧ 96 ≤ field2 b 1 ∧ field2 b 1 ≤ 1920 ∧ field2 b 1 % 2 = 0 ∧ 64 ≤ field2 b 3 ∧
      field2 b 3 ≤ 1088 ∧ 10 ≤ field2 b 5 ∧ field2 b 5 ≤ 2000 ∧ field b 7 < 2 ∧ (field b 8 < 3 ∨ field b 8 = 255) ∧
      field b 9 < 2)
  | .portSetup => decide (field b 0 < 3 ∧ (field b 1 = 8 ∨ field b 1 = 16))
  | .laneStart => decide (field b 0 < 6)
  | .laneStop => decide (field b 0 < 6 ∧ field b 1 < 2)
  | .lockJoin => decide (field b 0 < 6 ∧ field b 1 < 6 ∧ field b 0 ≠ field b 1)
  | .lockLeave => decide (field b 0 < 6)
  | .streamStamp => decide (field b 0 < 20 ∧ field b 1 ≤ 4)
  | .storeConfig => decide (64 ≤ field2 b 0 ∧ field2 b 0 ≤ 1920 ∧ 32 ≤ field2 b 2 ∧ field2 b 2 ≤ 1088 ∧ 1 ≤ field b 4 ∧
      field b 4 ≤ 64)
  | .status => decide (field b 0 = 0 ∨ (field b 0 = 1 ∧ field b 1 < 16) ∨ (field b 0 = 2 ∧ field b 1 < 20) ∨
      (field b 0 = 3 ∧ field b 1 < 6) ∨ (field b 0 = 4 ∧ field b 1 < 3))
  | .counters => decide (((field b 0 = 0 ∧ field b 1 < 16) ∨ (field b 0 = 1 ∧ field b 1 < 20) ∨
      (field b 0 = 2 ∧ field b 1 < 6) ∨ (field b 0 = 3 ∧ field b 1 < 3) ∨ (field b 0 = 4 ∧ field b 1 = 0)) ∧ field b 2 < 2)
  | .linkSet => decide (field b 0 < 32)
  | .identify => true
  | .cancel => true
  | .reset => true
  | .noticeAck => true
  | .noticeResend => true

/-- R103: the leader a lock role names. -/
def LockRole.leaderNamed : LockRole → Option LaneIx
  | .follower x => some x
  | .joining x _ _ => some x
  | _ => none

/-- R47: one more marker of a local index of a port counted as unclaimed, and nothing else changed. -/
def State.oneUnclaimed (s : State) (port index : CaptureIx) : State :=
  let c := s.capturePort port
  { s with
    capturePorts :=
      wr s.capturePorts port { c with unclaimed := wr c.unclaimed index (satInc (rd c.unclaimed index)) } }

/-! ### The wire -/

/-- R168: the bytes the check of a frame covers. -/
def coveredBytes (kind tag aux : Byte) (body : List Byte) : List Byte := kind :: tag :: aux :: byte body.length :: body

/-- R145: one more CHECK error, with its notice. -/
def State.checkFailed (s : State) (tag : Tag) : State :=
  raise (.linkCheck (some tag))
    { s with link := { s.link with counters := { s.link.counters with checkErrors := satInc s.link.counters.checkErrors } } }

/-! ### The laws -/

/-- R147, R150, R151: waiting requests and untransmitted first replies are at most 4, outstanding entries and untransmitted
final replies at most 8, and no two entries share a tag. -/
abbrev LinkLaw (k : Link) : Prop :=
  k.inbound.length + firstReplies k ≤ Config.requestWindow ∧
    k.outstanding.length + finalReplies k ≤ Config.outstandingPlaces ∧ (k.outstanding.map Entry.tag).Nodup

/-- The notices have consecutive sequences from `q` on. -/
def consecutiveFrom : Half → List Notice → Bool
  | _, [] => true
  | q, n :: ns => decide (n.seq = q) && consecutiveFrom (q + 1) ns

/-- R163: at most 32 notices, their sequences consecutive in queue order and ending just before the next sequence. -/
abbrev NoticeLaw (u : NoticeUnit) : Prop :=
  noticeCount u ≤ Config.noticePlaces ∧
    consecutiveFrom (u.nextSeq - BitVec.ofNat 16 (noticeCount u)) (u.transmitted ++ u.untransmitted) = true

/-- R137: the admitted total never exceeds 1000 units. -/
abbrev BudgetLaw (cs : List Claim) : Prop := claimTotal cs ≤ Config.budgetUnits

/-- R138: an UNBOUND or STOPPED stream. -/
def StreamState.idle : StreamState → Bool
  | .unbound => true
  | .stopped => true
  | _ => false

/-- R139: an UNSET or READY lane. -/
def LaneState.idle : LaneState → Bool
  | .unset => true
  | .ready => true
  | _ => false

/-- R22, R81, R135: the admitted demand in the record of a holder. -/
def demandIn (s : State) : Holder → Option Nat
  | .stream i => (s.stream i).admitted
  | .lane l => (s.lane l).admitted

/-- R135, R138, R139: each holder has at most one claim, and it is the admitted demand in the holder's record; an idle holder has
none. -/
structure ClaimLaw (s : State) : Prop where
  once : (s.claims.map Claim.holder).Nodup
  recorded : ∀ h u, (⟨h, u⟩ : Claim) ∈ s.claims ↔ demandIn s h = some u
  idleStream : ∀ i, (s.stream i).state.idle = true → (s.stream i).admitted = none
  idleLane : ∀ l, (s.lane l).state.idle = true → (s.lane l).admitted = none

/-- R92, R118: what the store's entry into FAULT does to the output frames: for a lane whose frame is being composed, the line from
which its STREAM tiles are filled is set, at most the height of the frame, unless an earlier fault has set it, and the store-fault flag
of its trailer is set; the other lanes' frames and trailers do not change. -/
def FaultReachesFrames (s t : State) : Prop :=
  ∀ l,
    ((∀ fl, (s.out l).frame ≠ some ⟨.lines, fl⟩) → t.out l = s.out l ∧ t.trailer l = s.trailer l) ∧
    ∀ fl, (s.out l).frame = some ⟨.lines, fl⟩ →
      t.trailer l = (s.trailer l).map (fun c => { c with storeFault := true }) ∧
        ∃ n, (∀ g, (s.lane l).setup = some g → n ≤ g.height) ∧
          t.out l = { s.out l with frame := some ⟨.lines, some (fl.getD n)⟩ }

/-- A fill state that holds a frame available to lanes. -/
def Fill.isReady : Fill → Bool
  | .ready _ _ => true
  | _ => false

/-- R2, R11: only READY and RETIRED positions hold pins, and a RETIRED one holds at least one. -/
def Slot.pinsLawful (x : Slot) : Bool :=
  match x.fill with
  | .empty => decide (x.pins = 0)
  | .filling _ => decide (x.pins = 0)
  | .ready _ _ => true
  | .retired _ _ => decide (0 < x.pins)

/-- 00_ Conventions: a captured frame's sequence number is never 0. -/
def Slot.seqLawful (x : Slot) : Bool := decide (x.fill.seq ≠ some 0)

/-- R2, R3, R11: the ready order lists exactly the READY positions, each once; pins stand only on READY and RETIRED positions;
no sequence number is 0. -/
def RingLaw (r : Ring) : Prop :=
  r.ready.Nodup ∧ (∀ p : Nat, p ∈ r.ready ↔ (r.slots[p]?.any (fun x => x.fill.isReady)) = true) ∧
    (∀ x ∈ r.slots, x.pinsLawful = true ∧ x.seqLawful = true) ∧ r.nextSeq ≠ 0

/-- The lane may hold tile records: it is RUNNING or STOPPING. -/
def LaneState.holdsTiles : LaneState → Bool
  | .running => true
  | .stopping => true
  | _ => false

/-- R103: the role is JOINING. -/
def LockRole.joins : LockRole → Bool
  | .joining _ _ _ => true
  | _ => false

/-- R103: the role is JOINING in join phase WAITING. -/
def LockRole.waits : LockRole → Bool
  | .joining _ .waiting _ => true
  | _ => false

/-- R10: the stream and position a tile record names. -/
def Tile.names (x : Tile) : Option (StreamIx × Nat) :=
  match x.body with
  | .shown i p _ _ _ _ _ _ _ => some (i, p)
  | _ => none

/-- R2: the pin count of a position of a stream's ring; 0 where there is no such position. -/
def pinsAt (s : State) (i : StreamIx) (p : Nat) : Nat :=
  (((s.ring i).bind (fun r => r.slots[p]?)).map Slot.pins).getD 0

/-- R10: how many tile records of all lanes name a position. -/
def tilesNaming (s : State) (i : StreamIx) (p : Nat) : Nat :=
  ((List.finRange 6).map (fun l => (s.lane l).tiles.countP (fun x => x.names = some (i, p)))).sum

/-- R10: the pin count of every position is the number of tile records that name it. What rests on it: only a lane that is
RUNNING or STOPPING, and is not WAITING to join, holds tile records; a tile record names a stream of the active list, which
therefore stays bound; an UNBOUND stream has no ring; a JOINING lane is RUNNING or STOPPING. -/
structure PinLaw (s : State) : Prop where
  counted : ∀ i p, pinsAt s i p = tilesNaming s i p
  running : ∀ l, (s.lane l).state.holdsTiles = false → (s.lane l).tiles = []
  waiting : ∀ l, (s.lock l).role.waits = true → (s.lane l).tiles = []
  listed : ∀ l, ∀ x ∈ (s.lane l).tiles, ∀ i p, x.names = some (i, p) → namedBy i (s.list l).active = true
  unbound : ∀ i, (s.stream i).state = .unbound → s.ring i = none
  joining : ∀ l, (s.lock l).role.joins = true → (s.lane l).state.holdsTiles = true

/-- The pool slots of a stream's ring. -/
def poolsOf (r : Option Ring) : List Nat :=
  match r with
  | none => []
  | some x => x.slots.map Slot.pool

/-- How many times a pool slot stands in the free set and the rings together. -/
def slotUses (s : State) (n : Nat) : Nat :=
  s.store.free.count n + ((List.finRange 20).map (fun i => (poolsOf (s.ring i)).count n)).sum

/-- R124: the store is OFFLINE, in BRINGUP, or in FAULT from a failed bring-up. -/
def Store.unformatted (st : Store) : Bool :=
  match st.state with
  | .offline => true
  | .bringup _ _ => true
  | .ready => false
  | .fault c => decide (c ≠ .access)

/-- R1, R124, R128: every slot below the configured count is free or in exactly one ring, once, and no other slot is; the free
set is held in rising order, so that its first slots are its lowest; an UNBOUND stream has no ring; a store without a format has
no slots; while RESET_N is asserted the store is OFFLINE. -/
def PoolLaw (s : State) : Prop :=
  (∀ n, slotUses s n = if n < s.store.count then 1 else 0) ∧
    s.store.free.Pairwise (· < ·) ∧
    (∀ i, (s.stream i).state = .unbound → s.ring i = none) ∧
    (s.store.unformatted = true → s.store.count = 0) ∧
    (s.resetAsserted = true → s.store.state = .offline)

/-- R2: the position of the ring is FILLING. -/
def Ring.fills (r : Ring) (p : Nat) : Bool := r.slots[p]?.any (fun x => x.fill.isFilling)

/-- R46: a line of the source is being collected on the source's capture port. -/
def collecting (s : State) (n : SourceIx) : Bool :=
  (s.capturePort (portOf n)).line.any (fun x => decide (x.1 = localOf n))

/-- R5, R6, R24, R54, R129: what confines the writer to the slot of its FILLING position. A ring has at most one; its stream is
bound and its source is IN_FRAME, and the lines stored and accumulated, with the one being collected, are no more than the lines
begun; those are at most the height of the source, and a source that is not UNSET has one. The stored geometry of a bound stream
is its source's at its scale and fits the slot format. Streams are bound only while there is a slot format; while RESET_N is
asserted the store is OFFLINE. -/
structure WriterLaw (s : State) : Prop where
  one : ∀ i r p q, s.ring i = some r → r.fills p = true → r.fills q = true → p = q
  filling : ∀ i r p, s.ring i = some r → r.fills p = true → ∃ b c, (s.stream i).binding = some b ∧
    (s.source b.source).phase = .inFrame c ∧
    b.scale.k * (s.stream i).writer.stored + (s.stream i).writer.group.length +
      (if collecting s b.source then 1 else 0) ≤ c
  known : ∀ n, (s.source n).state ≠ .unset → (s.source n).setup ≠ none
  counted : ∀ n c, (s.source n).phase = .inFrame c → ∃ g, (s.source n).setup = some g ∧ c ≤ g.height
  fits : ∀ i b, (s.stream i).binding = some b → (s.stream i).state ≠ .unbound ∧ s.store.unformatted = false ∧
    ∃ g f, (s.source b.source).setup = some g ∧ s.store.format = some f ∧ b.storedWidth = g.width / b.scale.k ∧
      b.storedHeight = g.height / b.scale.k ∧ b.storedWidth ≤ f.width ∧ b.storedHeight ≤ f.height
  formatted : s.store.unformatted = false → s.store.format ≠ none
  asserted : s.resetAsserted = true → s.store.state = .offline

end Sys2Proof.Machine
end

