-- ==== Sys2Proof/WellFormed.lean ====
section
/-! DEFINITION. Which commands the outside can send: the limits the wire itself sets. A field value out of its range is not
ill formed, since the block answers it BAD_PARAM; a body no frame can carry is. -/

namespace Sys2Proof

/-- R168: 0x01 to 0x1B are request kinds. -/
def isRequestKind (kind : Byte) : Bool := 1 ≤ kind.toNat && kind.toNat ≤ 0x1B

/-- R168: a frame's body is 0 to 240 bytes. -/
def bodyFits (body : List Byte) : Bool := decide (body.length ≤ 240)

/-- R175: pixel bytes lie in 0x0C to 0xFF; a lower byte is a marker and ends the line. -/
def isPixelByte (b : Byte) : Bool := decide (0x0C ≤ b.toNat)

/-- The checks on a command: a request's body fits a frame, an unknown request's type is no request kind, and a line's data
holds no marker. -/
def Instr.wellFormed : Instr → Bool
  | .streamBind _ b => bodyFits b
  | .streamUnbind _ b => bodyFits b
  | .streamStart _ b => bodyFits b
  | .streamStop _ b => bodyFits b
  | .streamFreeze _ b => bodyFits b
  | .streamThaw _ b => bodyFits b
  | .streamFill _ b => bodyFits b
  | .sourceSetup _ b => bodyFits b
  | .listEdit _ b => bodyFits b
  | .listRead _ b => bodyFits b
  | .listCommit _ b => bodyFits b
  | .laneSetup _ b => bodyFits b
  | .portSetup _ b => bodyFits b
  | .laneStart _ b => bodyFits b
  | .laneStop _ b => bodyFits b
  | .lockJoin _ b => bodyFits b
  | .lockLeave _ b => bodyFits b
  | .streamStamp _ b => bodyFits b
  | .storeConfig _ b => bodyFits b
  | .identify _ b => bodyFits b
  | .status _ b => bodyFits b
  | .counters _ b => bodyFits b
  | .linkSet _ b => bodyFits b
  | .cancel _ b => bodyFits b
  | .reset _ b => bodyFits b
  | .noticeAck _ b => bodyFits b
  | .noticeResend _ b => bodyFits b
  | .unknownRequest k _ b => bodyFits b && !isRequestKind k
  | .inboundFrame _ => true
  | .lcsNRise => true
  | .outboundFrameStart => true
  | .replyTransmitted => true
  | .noticeTransmitted => true
  | .resetNAssert => true
  | .resetNRelease => true
  | .bringupProbeDone _ => true
  | .bringupTrainingDone _ => true
  | .bringupSizingDone _ => true
  | .bringupDeadlineExpiry => true
  | .dramAccessFailure => true
  | .captureFrameStart _ _ => true
  | .lineStart _ _ d => d.all isPixelByte
  | .frameEnd _ _ => true
  | .sourceLossTimerExpiry _ => true
  | .pacingTimerExpiry _ => true
  | .outputTrailerStart _ => true
  | .outputFrameEnd _ => true

end Sys2Proof
end

