-- ==== Sys2Proof/Certificates/Slice0/Obligations.lean ====
section
/-! DEFINITION. The statements for the provers. Where a statement says what a command does, its conclusion is the state exec
answers, written out: what it does not name is unchanged. -/

open Sys2Proof Sys2Proof.Machine

/-! ### The machine -/

/-- Every command c at the front of the queue: step is exec of c on the queue's rest. On an empty queue one millisecond passes
(the model's choice, log 4), and device time stands at 0 while RESET_N is asserted (log 32). -/
def Obligations.StepRunsFrontCommand : Prop :=
  (∀ (c : Instr) (rest : List Instr) (s : State), s.pending = c :: rest → step s = exec c { s with pending := rest }) ∧
  (∀ s : State, s.pending = [] →
    step s = .next (if s.resetAsserted then s else { s with deviceTime := s.deviceTime + 1 }))

/-- R22, R48, R62, R81, R85, R103, R124, R135, R143, R166, R168: the values the records hold after a hard reset, and the idle byte
on LSDO. -/
def Obligations.ResetLeavesInitialRecords : Prop :=
  State.reset.resetAsserted = true ∧ State.reset.deviceTime = 0 ∧
  (∀ n, State.reset.source n = ⟨.unset, none, none, .out, none, false, ⟨0, 0, 0, 0, 0, 0, 0⟩⟩) ∧
  (∀ p j, rd (State.reset.capturePort p).unclaimed j = 0) ∧
  (∀ i, State.reset.stream i =
    ⟨.unbound, none, .live, ⟨16, 128, 128⟩, [], none, false, none, none, ⟨0, 0, 0, 0, 0⟩, ⟨[], 0⟩⟩) ∧
  (∀ i, State.reset.ring i = none) ∧
  (∀ l, State.reset.list l = ⟨[], [], none, 0⟩) ∧
  (∀ l, State.reset.lane l =
    ⟨.unset, false, none, none, 0, 0, 0, [], [], 0, none, none, none, none, ⟨0, 0, 0, 0⟩⟩) ∧
  (∀ l, State.reset.lock l = ⟨.free, none⟩) ∧
  (∀ p, State.reset.outPort p = ⟨.w8, [], 0, 0, 0⟩) ∧
  (∀ l, (State.reset.out l).frame = none ∧ State.reset.trailer l = none) ∧
  State.reset.store = ⟨.offline, none, none, 0, []⟩ ∧ State.reset.claims = [] ∧
  State.reset.link = ⟨none, [], [], [], none, ⟨0, 0, 0, 0, 0, 0, 0⟩, 0xFF⟩ ∧ State.reset.lsdo = some 0xFF ∧
  State.reset.notices.transmitted = [] ∧ State.reset.notices.untransmitted = [] ∧ State.reset.notices.nextSeq = 0 ∧
  State.reset.notices.lost = 0

/-- Every law of this file's invariants holds of the state after a hard reset. -/
def Obligations.ResetStateKeepsEveryLaw : Prop :=
  Memory.wf State.reset.dram = true ∧ BudgetLaw State.reset.claims ∧ LinkLaw State.reset.link ∧
  NoticeLaw State.reset.notices ∧ (∀ i r, State.reset.ring i = some r → RingLaw r) ∧ PoolLaw State.reset ∧
  ClaimLaw State.reset ∧ PinLaw State.reset ∧ WriterLaw State.reset

/-- R125, R143, R166: the two edges of RESET_N, and between them no other command changes the block (log 2), but that LCS_N, the
host's pin, still rises (log 26). The DRAM's content stays (R124). That a release while RESET_N is not asserted changes nothing is
the model's choice (log 5). -/
def Obligations.ResetEdgesClearAndBegin : Prop :=
  (∀ (c : Instr) (s : State), s.resetAsserted = true → c ≠ .resetNAssert → c ≠ .resetNRelease → c ≠ .lcsNRise →
    exec c s = .next s) ∧
  (∀ s : State, s.resetAsserted = true → exec .lcsNRise s = .next { s with lcsLow := false }) ∧
  (∀ s : State, exec .resetNAssert s = .next { State.reset with
    dram := s.dram, lcsLow := s.lcsLow, freeCount := s.freeCount, pending := s.pending }) ∧
  (∀ s : State, s.resetAsserted = true → exec .resetNRelease s = .next { s with
    resetAsserted := false, deviceTime := 0, store := { s.store with state := .bringup .probe 40 },
    notices := ⟨0x1F, [], [⟨0, 0, .start .hard⟩], 1, 0⟩ }) ∧
  (∀ s : State, s.resetAsserted = false → exec .resetNRelease s = .next s)

/-- R156 with R20, R45, R48, R79, R85, R102, R114, R122, R133, R142, R166: RESET. R87, R102: the port of every lane whose frame
has not ended sends the abort marker, after the words that had gone out, how many is a free value (log 13), never the whole of a
trailer packet (R122). The pin LCS_N, which is the host's (log 26), the byte on LSDO (log 35) and the content of the DRAM (R124,
log 23) are kept. That a line being collected on a capture port is dropped with the port's record, and counted nowhere, is the
model's choice (log 36). -/
def Obligations.SoftResetTearsDown : Prop :=
  ∀ (s : State) (tag : Tag), WaitingFor s .reset tag [] → ∃ t : State, exec (.reset tag []) s = .next t ∧
    t.link.inbound = [] ∧ t.link.outstanding = [] ∧
    t.link.replies = s.link.replies ++
      s.link.outstanding.map (fun e => ⟨replyKind e.op.kind.code, e.tag, .final, .aborted, []⟩) ++
      [⟨0x99, tag, .first, .ok, listBytes (fun x => [x]) (s.link.inbound.tail.map Request.tag)⟩] ∧
    t.link.framer = s.link.framer ∧ t.link.lsdo = s.link.lsdo ∧ t.link.counters = ⟨0, 0, 0, 0, 0, 0, 0⟩ ∧
    t.link.outbound = s.link.outbound.map (fun o => match o.kind with | .notice _ => { o with kind := .orphan } | _ => o) ∧
    t.deviceTime = 0 ∧ t.resetAsserted = false ∧ t.lcsLow = s.lcsLow ∧ t.pending = s.pending ∧ t.dram = s.dram ∧
    (∀ n, t.source n = Source.initial) ∧ (∀ p, t.capturePort p = CapturePort.initial) ∧
    (∀ i, t.stream i = Stream.initial ∧ t.ring i = none) ∧
    (∀ l, t.list l = ListUnit.initial ∧ t.lane l = Lane.initial ∧ t.lock l = Lock.initial ∧ (t.out l).frame = none ∧
      t.trailer l = none) ∧
    (∀ l, (s.out l).frame = none → t.out l = s.out l) ∧
    (∀ l fr, (s.out l).frame = some fr →
      let words := match fr.stage with | .lines => frameLines s l fr.faultLine | .trailer rest => rest
      ∃ n : Nat, (∀ rest, fr.stage = .trailer rest → rest ≠ [] → n < rest.length) ∧ t.out l = { s.out l with
        frame := none, sent := (s.out l).sent ++ words.take n ++ [markerWord (laneWidth s l) 0x05] }) ∧
    (∀ p, t.outPort p = OutPort.initial) ∧ t.claims = [] ∧
    t.notices = ⟨s.notices.mask, [], [⟨0, 0, .start .soft⟩], 1, 0⟩ ∧
    (s.store.state = .ready → t.store = { s.store with free := List.range s.store.count }) ∧
    ((∀ stage d, s.store.state = .bringup stage d → t.store = ⟨.bringup .probe 40, none, none, 0, []⟩) ∧
      (∀ c, s.store.state = .fault c → t.store = ⟨.bringup .probe 40, none, none, 0, []⟩))

/-- R154: ATTN_N is low while the reply queue is not empty or a notice is untransmitted; it is high at an assertion of RESET_N and
low at its release. -/
def Obligations.AttentionFollowsTheQueues : Prop :=
  (∀ s : State, s.attnLow = true ↔ (s.link.replies ≠ [] ∨ s.notices.untransmitted ≠ [])) ∧
  (∀ s : State, ∃ t, exec .resetNAssert s = .next t ∧ t.attnLow = false) ∧
  (∀ s : State, s.resetAsserted = true → ∃ t, exec .resetNRelease s = .next t ∧ t.attnLow = true)

/-! ### The wire -/

/-- R169: the check starts at 0xFFFF and takes each bit, most significant first, by the polynomial 0x1021, neither reflected nor
inverted; over the nine ASCII digits "123456789" it is 0x29B1. -/
def Obligations.CheckOfTheStandardDigits : Prop :=
  crc16 [] = 0xFFFF ∧
  (∀ (bs : List Byte) (b : Byte), crc16 (bs ++ [b]) =
    [b[7], b[6], b[5], b[4], b[3], b[2], b[1], b[0]].foldl
      (fun (crc : Half) (bit : Bool) => if crc[15] = bit then crc <<< 1 else (crc <<< 1) ^^^ 0x1021) (crc16 bs)) ∧
  crc16 [0x31, 0x32, 0x33, 0x34, 0x35, 0x36, 0x37, 0x38, 0x39] = 0x29B1

/-- R145, R168, R169: a whole frame as the wire format lays it out, with any type, tag, aux and body a frame can carry, is read
back byte for byte and offered to the inbound queue. Moving its bytes makes LCS_N low (the model's choice, log 6) and moves as
many bytes out (log 8). A frame that arrives in two INBOUND_FRAME commands (log 7) is held in part between them. R168: the layout:
sync, type, tag, aux, body length, body, and the check low byte first. R171, R172, R174: the codes of requests and results, the
frame of a reply with its phase in aux and its result before its fields, and the frame of a notice with its sequence in tag and
aux and its device time before its fields. -/
def Obligations.InboundFrameRoundTrip : Prop :=
  (∀ (s : State) (kind tag aux : Byte) (body : List Byte), s.resetAsserted = false → s.link.framer = none →
    body.length ≤ 240 →
    exec (.inboundFrame (frameBytes kind tag aux body)) s =
      .next (offer ⟨kind, tag, body⟩ (s.shifted (7 + body.length)))) ∧
  (∀ (s : State) (kind tag aux : Byte) (body before after : List Byte), s.resetAsserted = false → s.link.framer = none →
    body.length ≤ 240 → before ++ after = frameBytes kind tag aux body → before ≠ [] → after ≠ [] →
    ∃ t : State, exec (.inboundFrame before) s = .next t ∧
      t = (let u := s.shifted before.length
        { u with link := { u.link with framer := some before.tail } }) ∧
      exec (.inboundFrame after) t = .next (offer ⟨kind, tag, body⟩ (s.shifted (7 + body.length)))) ∧
  (∀ (kind tag aux : Byte) (body : List Byte), frameBytes kind tag aux body =
    0xA5 :: kind :: tag :: aux :: byte body.length :: body ++
      u16 (crc16 (kind :: tag :: aux :: byte body.length :: body)).toNat) ∧
  (∀ n : Nat, u16 n = [byte n, byte (n / 256)] ∧
    u32 n = [byte n, byte (n / 256), byte (n / 65536), byte (n / 16777216)]) ∧
  ([Kind.streamBind, .streamUnbind, .streamStart, .streamStop, .streamFreeze, .streamThaw, .streamFill, .sourceSetup,
      .listEdit, .listRead, .listCommit, .laneSetup, .portSetup, .laneStart, .laneStop, .lockJoin, .lockLeave, .streamStamp,
      .storeConfig, .identify, .status, .counters, .linkSet, .cancel, .reset, .noticeAck, .noticeResend].map Kind.code =
    (List.range 27).map (fun n => byte (n + 1))) ∧
  ([Result.ok, .pending, .cancelled, .aborted].map Result.code = [0x00, 0x01, 0x02, 0x03] ∧
    [Result.badRequest, .badParam, .badState, .inUse, .notReady, .noSlots, .noBandwidth, .busy, .tagInUse, .notPending,
      .listInvalid, .commitPending, .leaderStopped].map Result.code = (List.range 13).map (fun n => byte (n + 16))) ∧
  (∀ r : Reply, r.bytes = frameBytes r.kind r.tag (if r.phase = .first then 1 else 2) (r.result.code :: r.fields)) ∧
  ([Cause.short, .long, .badLine, .broken, .lostMidFrame, .access, .stopDiscard, .overRate].map Cause.code =
    [1, 2, 3, 4, 5, 6, 7, 8]) ∧
  ∀ n : Notice,
    let frame := fun (kind : Byte) (fields : List Byte) =>
      frameBytes kind (byte n.seq.toNat) (byte (n.seq.toNat / 256)) (u32 n.time.toNat ++ fields)
    n.bytes = match n.body with
      | .start c =>
        frame 0x40 ([match c with | .hard => 0 | .soft => 1, 0x6C, 0x02, 1] ++ [16, 20, 6, 3, 48, 64, 8, 32])
      | .noticesLost k => frame 0x41 (u16 k.toNat)
      | .linkCheck none => frame 0x42 [0, 0]
      | .linkCheck (some t) => frame 0x42 [0, 1, t]
      | .linkTruncated none => frame 0x42 [1, 0]
      | .linkTruncated (some t) => frame 0x42 [1, 1, t]
      | .linkOverrun t => frame 0x43 [t]
      | .storeReady mib k => frame 0x44 (u16 mib ++ [byte k])
      | .storeFault c => frame 0x45 [c.code]
      | .sourcePresent k => frame 0x46 [byte k.val]
      | .sourceLost k => frame 0x47 [byte k.val]
      | .frameError k c => frame 0x48 [byte k.val, c.code]
      | .captureDrop i r => frame 0x49 [byte i.val, match r with | .stall => 0 | .store => 1]
      | .listDone l g => frame 0x4A (byte l.val :: u16 g.toNat)
      | .lockLost l ld => frame 0x4B [byte l.val, byte ld.val]

/-- R147: a good frame is appended to the inbound queue and counted while waiting requests and untransmitted first replies are
fewer than 4, and else discarded, counted and reported, with no reply. -/
def Obligations.OfferedFrameIsAcceptedOrOverruns : Prop :=
  ∀ (r : Request) (s : State),
    (s.link.inbound.length + firstReplies s.link < 4 → offer r s = { s with link := { s.link with
      inbound := s.link.inbound ++ [r]
      counters := { s.link.counters with accepted := satInc s.link.counters.accepted } } }) ∧
    (4 ≤ s.link.inbound.length + firstReplies s.link → offer r s = raise (.linkOverrun r.tag) { s with link := { s.link with
      counters := { s.link.counters with overruns := satInc s.link.counters.overruns } } })

/-- R145: a frame whose check disagrees, and a frame whose length byte exceeds 240, is discarded as a CHECK error with the tag as
received, and the framer hunts again. Moving the bytes makes LCS_N low (the model's choice, log 6) and moves as many bytes out
(log 8). -/
def Obligations.DamagedFramesAreDiscarded : Prop :=
  (∀ (s : State) (kind tag aux : Byte) (body : List Byte) (lo hi : Byte), s.resetAsserted = false →
    s.link.framer = none → body.length ≤ 240 →
    [lo, hi] ≠ u16 (crc16 (coveredBytes kind tag aux body)).toNat →
    exec (.inboundFrame (0xA5 :: coveredBytes kind tag aux body ++ [lo, hi])) s =
      .next ((s.shifted (7 + body.length)).checkFailed tag)) ∧
  (∀ (s : State) (kind tag aux len : Byte), s.resetAsserted = false → s.link.framer = none → 240 < len.toNat →
    exec (.inboundFrame [0xA5, kind, tag, aux, len]) s = .next ((s.shifted 5).checkFailed tag))

/-- R146, R153: the rise of LCS_N discards a frame begun as TRUNCATED, with its tag if that byte was received, and interrupts the
outbound frame in progress, leaving the queues as they stand. That the frame of a notice a resend or a soft reset has taken out of
its place counts as interrupted too is log 21 (DEDUCED). -/
def Obligations.LcsRiseEndsTheTransfer : Prop :=
  ∀ s : State, s.resetAsserted = false → s.lcsLow = true →
    exec .lcsNRise s = .next (
      let u : State := { s with
        lcsLow := false
        link := { s.link with
          framer := none
          outbound := none
          counters := { s.link.counters with
            truncated := if s.link.framer.isSome then satInc s.link.counters.truncated else s.link.counters.truncated
            interrupted :=
              if s.link.outbound.isSome then satInc s.link.counters.interrupted else s.link.counters.interrupted } } }
      match s.link.framer with
      | none => u
      | some got => raise (.linkTruncated got[1]?) u)

/-- R144, R152: what one byte position sends on LSDO, whatever command it stands in. With no outbound frame in progress the head
of the reply queue starts with its sync byte, or else the first untransmitted notice; where nothing waits the idle byte goes out
(R168). A frame in progress goes on with its next byte; what its last byte does is the next statement's. Byte positions follow one
another; in each the host's byte comes in as well, which the framer ignores while it hunts and the byte is not the sync byte
(R145). OUTBOUND_FRAME_START is one such position with no frame in progress, in which the host sends the idle byte (the model's
choice, log 8); with one in progress it has no effect (log 5). A position makes LCS_N low (log 6), and the byte stays on LSDO
until the next (log 35). LSDO is not driven while LCS_N is high (R144), and carries the idle byte while RESET_N is asserted
(R143). -/
def Obligations.ArbiterPrefersReplies : Prop :=
  (∀ (s : State) (r : Reply) (rest : List Reply), s.link.outbound = none → s.link.replies = r :: rest →
    s.shifted 1 = { s with lcsLow := true, link := { s.link with outbound := some ⟨.reply, r.bytes, 1⟩, lsdo := 0xA5 } }) ∧
  (∀ (s : State) (n : Notice) (rest : List Notice), s.link.outbound = none → s.link.replies = [] →
    s.notices.untransmitted = n :: rest →
    s.shifted 1 =
      { s with lcsLow := true, link := { s.link with outbound := some ⟨.notice n.seq, n.bytes, 1⟩, lsdo := 0xA5 } }) ∧
  (∀ s : State, s.link.outbound = none → s.link.replies = [] → s.notices.untransmitted = [] →
    s.shifted 1 = { s with lcsLow := true, link := { s.link with lsdo := 0xFF } }) ∧
  (∀ (s : State) (k : OutboundKind) (bytes : List Byte) (sent : Nat) (b : Byte),
    s.link.outbound = some ⟨k, bytes, sent⟩ → sent + 1 < bytes.length → bytes[sent]? = some b →
    s.shifted 1 = { s with lcsLow := true, link := { s.link with outbound := some ⟨k, bytes, sent + 1⟩, lsdo := b } }) ∧
  (∀ (s : State) (n : Nat), s.shifted 0 = s ∧ s.shifted (n + 1) = (s.shifted 1).shifted n) ∧
  (∀ (s : State) (bytes : List Byte), s.resetAsserted = false → s.link.framer = none → 0xA5 ∉ bytes →
    exec (.inboundFrame bytes) s = .next (s.shifted bytes.length)) ∧
  (∀ s : State, s.resetAsserted = false →
    (s.link.outbound = none → exec .outboundFrameStart s = exec (.inboundFrame [0xFF]) s) ∧
    (s.link.outbound = none → s.link.framer = none → exec .outboundFrameStart s = .next (s.shifted 1)) ∧
    (s.link.outbound ≠ none → exec .outboundFrameStart s = .next s)) ∧
  (∀ s : State, s.lsdo = if s.resetAsserted then some 0xFF else if s.lcsLow then some s.link.lsdo else none)

/-- R149, R152, R163, R165: the byte position that sends the last byte of a frame: a reply leaves the head of the reply queue; a
notice joins the transmitted prefix if it is still the first untransmitted one, and else its end moves and counts nothing.
REPLY_TRANSMITTED and NOTICE_TRANSMITTED are the byte positions up to that last byte of a frame in progress of their kind, in
which the host sends the idle byte (the model's choice, log 8); with no such frame in progress they have no effect (log 5). The
last byte of the frame stays on LSDO (log 35), with LCS_N low (log 6). -/
def Obligations.TransmittedFramesLeaveTheirQueue : Prop :=
  let replySent := fun (s : State) (last : Byte) => { s with
    lcsLow := true
    link := { s.link with
      replies := s.link.replies.tail
      outbound := none
      lsdo := last
      counters := { s.link.counters with repliesSent := satInc s.link.counters.repliesSent } } }
  let noticeSent := fun (s : State) (n : Notice) (rest : List Notice) (last : Byte) => { s with
    lcsLow := true
    link := { s.link with
      outbound := none
      lsdo := last
      counters := { s.link.counters with noticesSent := satInc s.link.counters.noticesSent } }
    notices := { s.notices with transmitted := s.notices.transmitted ++ [n], untransmitted := rest } }
  let endSent := fun (s : State) (last : Byte) =>
    { s with lcsLow := true, link := { s.link with outbound := none, lsdo := last } }
  (∀ (s : State) (bytes : List Byte) (last : Byte) (sent : Nat), bytes.getLast? = some last → sent + 1 = bytes.length →
    (s.link.outbound = some ⟨.reply, bytes, sent⟩ → s.shifted 1 = replySent s last) ∧
    (∀ n rest, s.link.outbound = some ⟨.notice n.seq, bytes, sent⟩ → s.notices.untransmitted = n :: rest →
      s.shifted 1 = noticeSent s n rest last) ∧
    (∀ k, k ≠ .reply → s.link.outbound = some ⟨k, bytes, sent⟩ →
      (∀ n ∈ s.notices.untransmitted.head?, k ≠ .notice n.seq) → s.shifted 1 = endSent s last)) ∧
  (∀ (s : State) (bytes : List Byte) (sent : Nat) (k : OutboundKind), s.resetAsserted = false →
    s.link.outbound = some ⟨k, bytes, sent⟩ →
    let moved := exec (.inboundFrame (List.replicate (bytes.length - sent) 0xFF)) s
    exec .replyTransmitted s = (if k = .reply then moved else .next s) ∧
    exec .noticeTransmitted s = (if k = .reply then .next s else moved)) ∧
  (∀ s : State, s.resetAsserted = false → s.link.outbound = none →
    exec .replyTransmitted s = .next s ∧ exec .noticeTransmitted s = .next s) ∧
  (∀ (s : State) (bytes : List Byte) (last : Byte) (sent : Nat), s.resetAsserted = false → s.link.framer = none →
    sent < bytes.length → bytes.getLast? = some last →
    (s.link.outbound = some ⟨.reply, bytes, sent⟩ → exec .replyTransmitted s = .next (replySent s last)) ∧
    (∀ n rest, s.link.outbound = some ⟨.notice n.seq, bytes, sent⟩ → s.notices.untransmitted = n :: rest →
      exec .noticeTransmitted s = .next (noticeSent s n rest last)) ∧
    (∀ k, k ≠ .reply → s.link.outbound = some ⟨k, bytes, sent⟩ →
      (∀ n ∈ s.notices.untransmitted.head?, k ≠ .notice n.seq) →
      exec .noticeTransmitted s = .next (endSent s last)))

/-! ### Requests -/

/-- A request command whose request does not stand at the head of the inbound queue is the arrival of its frame (the model's
choice, log 3): its bytes move (R144, logs 6 and 8), the frame is offered (R147), and the request is dispatched when it then stands
at the head and the reply queue has room (R148). R151: one that stands at the head while there is no room goes on waiting, and the
block is as it was; there is no room exactly while the outstanding entries and the final replies queued number 8 and one of them is
a final reply. -/
def Obligations.ArrivingRequestIsOffered : Prop :=
  (∀ (c : Instr) (r : Request) (s : State), requestOf c = some r → c.wellFormed = true → s.resetAsserted = false →
    s.link.inbound.head? ≠ some r →
    exec c s = (let u := offer r (s.shifted (7 + r.body.length))
                if u.link.inbound.head? = some r ∧ replyRoom u.link = true then exec c u else .next u)) ∧
  (∀ (c : Instr) (r : Request) (s : State), requestOf c = some r → c.wellFormed = true → s.resetAsserted = false →
    s.link.inbound.head? = some r → replyRoom s.link = false → exec c s = .next s) ∧
  (∀ k : Link, let final := k.replies.countP (fun x => x.phase = .final)
    (replyRoom k = false ↔ 8 ≤ k.outstanding.length + final ∧ 0 < final)) ∧
  ∀ k : Link, firstReplies k = k.replies.countP (fun x => x.phase = .first)

/-- R148, R149: every request taken from the inbound queue receives exactly one first reply, with its tag and the reply kind that
answers its type; a refused request changes nothing in any block. -/
def Obligations.EveryRequestGetsOneFirstReply : Prop :=
  ∀ (c : Instr) (r : Request) (s : State), requestOf c = some r → c.wellFormed = true → Waiting s r →
    ∃ (t : State) (rep : Reply), exec c s = .next t ∧ rep.kind = r.kind ^^^ 0x80 ∧ rep.tag = r.tag ∧ rep.phase = .first ∧
      t.link.replies.filter (fun x => x.phase = .first) = s.link.replies.filter (fun x => x.phase = .first) ++ [rep] ∧
      (rep.result ≠ .ok → rep.result ≠ .pending → t = { s with link := { s.link with
        inbound := s.link.inbound.tail, replies := s.link.replies ++ [rep] } })

/-- R148, R170, R173: the first two checks of the dispatcher, for every kind: a body length the kind does not take is BAD_REQUEST,
then a deferrable request with the tag of an outstanding entry is TAG_IN_USE. A request of unknown kind is answered BAD_REQUEST
under the received type with its top bit inverted. -/
def Obligations.KindLengthAndTagAreChecked : Prop :=
  (∀ (k : Kind) (tag : Tag) (body : List Byte) (s : State), WaitingFor s k tag body →
    (lengthTaken k body.length (field body 1) = false →
      exec (commandOf k tag body) s = .next (s.answered k tag .badRequest [])) ∧
    (lengthTaken k body.length (field body 1) = true → k.deferrable = true → tagHeld s.link tag = true →
      exec (commandOf k tag body) s = .next (s.answered k tag .tagInUse []))) ∧
  (∀ (k : Link) (tag : Tag), tagHeld k tag = true ↔ ∃ e ∈ k.outstanding, e.tag = tag) ∧
  (∀ (kind tag : Byte) (body : List Byte) (s : State), isRequestKind kind = false → Waiting s ⟨kind, tag, body⟩ →
    exec (.unknownRequest kind tag body) s = .next { s with link := { s.link with
      inbound := s.link.inbound.tail
      replies := s.link.replies ++ [⟨kind ^^^ 0x80, tag, .first, .badRequest, []⟩] } })

/-- R28, R32, R36, R41, R49, R65, R68, R69, R83, R85, R95, R97, R105, R110, R119, R132, R158, R159, R160, R172: for every kind, a
field out of its range is BAD_PARAM. -/
def Obligations.FieldsOutOfRangeAreBadParam : Prop :=
  ∀ (k : Kind) (tag : Tag) (body : List Byte) (s : State), WaitingFor s k tag body →
    lengthTaken k body.length (field body 1) = true → (k.deferrable = true → tagHeld s.link tag = false) →
    fieldsInRange k body = false → exec (commandOf k tag body) s = .next (s.answered k tag .badParam [])

/-- R30, R31, R32, R36, R39, R41, R119: a request of the seven stream kinds listed that names an UNBOUND stream is BAD_STATE. R65,
R69, R95, R97, R105: a LIST_EDIT of any operation its table takes, a LIST_COMMIT, a LANE_START and a LANE_STOP of an UNSET lane,
and a LOCK_JOIN whose follower or leader is UNSET, are BAD_STATE. -/
def Obligations.UnboundOrUnsetTargetIsBadState : Prop :=
  (∀ (k : Kind) (tag : Tag) (body : List Byte) (i : StreamIx) (s : State), WaitingFor s k tag body →
    k ∈ [Kind.streamUnbind, .streamStart, .streamStop, .streamFreeze, .streamThaw, .streamFill, .streamStamp] →
    lengthTaken k body.length (field body 1) = true → fieldsInRange k body = true →
    (k.deferrable = true → tagHeld s.link tag = false) → field body 0 = i.val → (s.stream i).state = .unbound →
    exec (commandOf k tag body) s = .next (s.answered k tag .badState [])) ∧
  (∀ (k : Kind) (tag : Tag) (body : List Byte) (l : LaneIx) (s : State), WaitingFor s k tag body →
    k ∈ [Kind.listCommit, .laneStart, .laneStop, .lockJoin] →
    lengthTaken k body.length (field body 1) = true → fieldsInRange k body = true → tagHeld s.link tag = false →
    field body 0 = l.val → (s.lane l).state = .unset →
    exec (commandOf k tag body) s = .next (s.answered k tag .badState [])) ∧
  (∀ (tag : Tag) (bf bl : Byte) (l ld : LaneIx) (s : State), WaitingFor s .lockJoin tag [bf, bl] →
    tagHeld s.link tag = false → bf.toNat = l.val → bl.toNat = ld.val → l ≠ ld → (s.lane ld).state = .unset →
    exec (.lockJoin tag [bf, bl]) s = .next (s.answered .lockJoin tag .badState [])) ∧
  (∀ (tag : Tag) (bl op index count : Byte) (l : LaneIx) (new es : List ListEntry) (s : State),
    WaitingFor s .listEdit tag ([bl, op, index, count] ++ new.flatMap ListEntry.bytes) → bl.toNat = l.val →
    new.length ≤ 12 → (∀ e ∈ new, ∀ d ∈ e.dwell, 1 ≤ d ∧ d ≤ 255) →
    edited op.toNat index.toNat count.toNat new (s.list l).staged = some es → (s.lane l).state = .unset →
    exec (.listEdit tag ([bl, op, index, count] ++ new.flatMap ListEntry.bytes)) s =
      .next (s.answered .listEdit tag .badState []))

/-! ### Streams -/

/-- R1, R29: STREAM_BIND: the lowest free slots back positions 0 upward, all EMPTY and unpinned, numbering from 1; the record is
STOPPED and LIVE with every other field at its value for a new binding; the reply carries the depth and the slots. R28, R129: a
stored geometry wider or taller than the slot format is BAD_PARAM; then a store that is not READY is NOT_READY; then a stream that
is not UNBOUND, or a source that is UNSET, is BAD_STATE. -/
def Obligations.BindTakesTheLowestSlots : Prop :=
  (∀ (s : State) (tag : Tag) (bi bn bd : Byte) (sc : Scale) (pol : LossPolicy) (i : StreamIx) (n : SourceIx),
    WaitingFor s .streamBind tag [bi, bn, sc.code, bd, pol.code] → bi.toNat = i.val → bn.toNat = n.val →
    2 ≤ bd.toNat → bd.toNat ≤ 6 →
    let refused := fun (r : Result) =>
      exec (.streamBind tag [bi, bn, sc.code, bd, pol.code]) s = .next (s.answered .streamBind tag r [])
    let tooLarge := ∃ g f, (s.source n).setup = some g ∧ s.store.format = some f ∧
      (f.width < g.width / sc.k ∨ f.height < g.height / sc.k)
    (tooLarge → refused .badParam) ∧
    (¬ tooLarge → s.store.state ≠ .ready → refused .notReady) ∧
    (¬ tooLarge → s.store.state = .ready → ((s.stream i).state ≠ .unbound ∨ (s.source n).setup = none) →
      refused .badState)) ∧
  ∀ (s : State) (tag : Tag) (bi bn bd : Byte) (sc : Scale) (pol : LossPolicy) (i : StreamIx) (n : SourceIx)
    (g : SourceSetup), WaitingFor s .streamBind tag [bi, bn, sc.code, bd, pol.code] → bi.toNat = i.val → bn.toNat = n.val →
    2 ≤ bd.toNat → bd.toNat ≤ 6 → s.store.state = .ready → (s.stream i).state = .unbound → (s.source n).setup = some g →
    (∀ f, s.store.format = some f → g.width / sc.k ≤ f.width ∧ g.height / sc.k ≤ f.height) →
    exec (.streamBind tag [bi, bn, sc.code, bd, pol.code]) s = .next (
      if s.store.free.length < bd.toNat then s.answered .streamBind tag .noSlots []
      else { s.answered .streamBind tag .ok (byte bd.toNat :: (s.store.free.take bd.toNat).map byte) with
        streams := wr s.streams i ⟨.stopped, some ⟨n, sc, g.width / sc.k, g.height / sc.k, bd.toNat, pol⟩, .live,
          ⟨16, 128, 128⟩, [], none, false, none, none, ⟨0, 0, 0, 0, 0⟩, ⟨[], 0⟩⟩
        rings := wr s.rings i (some ⟨(s.store.free.take bd.toNat).map (fun p => ⟨p, .empty, 0⟩), [], 1⟩)
        store := { s.store with free := s.store.free.drop bd.toNat } })

/-- R19, R30: STREAM_UNBIND: IN_USE while an active list, or the staged list of a pending commit, names the stream; else the ring
is gone, its slots join the free set, and the record is UNBOUND with its counters and drop-notice flag kept. A stream that is not
STOPPED is BAD_STATE, whatever names it. -/
def Obligations.UnbindReturnsTheSlots : Prop :=
  (∀ (s : State) (tag : Tag) (bi : Byte) (i : StreamIx), WaitingFor s .streamUnbind tag [bi] → bi.toNat = i.val →
    (s.stream i).state ≠ .stopped → exec (.streamUnbind tag [bi]) s = .next (s.answered .streamUnbind tag .badState [])) ∧
  ∀ (s : State) (tag : Tag) (bi : Byte) (i : StreamIx), WaitingFor s .streamUnbind tag [bi] → bi.toNat = i.val →
    (s.stream i).state = .stopped →
    ((∃ l, (∃ e ∈ (s.list l).active, e.kind = .stream i) ∨
        ((s.list l).commit ≠ none ∧ ∃ e ∈ (s.list l).staged, e.kind = .stream i)) →
      exec (.streamUnbind tag [bi]) s = .next (s.answered .streamUnbind tag .inUse [])) ∧
    ((∀ l, (∀ e ∈ (s.list l).active, e.kind ≠ .stream i) ∧
        ((s.list l).commit ≠ none → ∀ e ∈ (s.list l).staged, e.kind ≠ .stream i)) →
      ∃ free : List Nat, (∀ n, n ∈ free ↔ n ∈ s.store.free ∨ n ∈ poolsOf (s.ring i)) ∧
        exec (.streamUnbind tag [bi]) s = .next { s.answered .streamUnbind tag .ok [] with
          streams := wr s.streams i { Stream.initial with
            counters := (s.stream i).counters, dropFlag := (s.stream i).dropFlag }
          rings := wr s.rings i none
          store := { s.store with free := free } })

/-- R31, R136, R137: STREAM_START: the demand is ceil(3600 / (period × k²)), with k = 1, 2, 3 for FULL, HALF, THIRD; it is
admitted if the total of the claims with it is 1000 or less, and refused with NO_BANDWIDTH otherwise. A stream that is not STOPPED
is BAD_STATE. -/
def Obligations.StreamStartClaimsItsDemand : Prop :=
  (∀ p k : Nat, 0 < p → 0 < k → 3600 ≤ demand p k * (p * (k * k)) ∧ (demand p k - 1) * (p * (k * k)) < 3600) ∧
  [Scale.full, .half, .third].map Scale.k = [1, 2, 3] ∧
  (∀ cs : List Claim, claimTotal cs = (cs.map Claim.units).sum) ∧
  (∀ (s : State) (tag : Tag) (bi : Byte) (i : StreamIx), WaitingFor s .streamStart tag [bi] → bi.toNat = i.val →
    (s.stream i).state ≠ .stopped → exec (.streamStart tag [bi]) s = .next (s.answered .streamStart tag .badState [])) ∧
  (∀ (s : State) (tag : Tag) (bi : Byte) (i : StreamIx) (b : Binding) (g : SourceSetup),
    WaitingFor s .streamStart tag [bi] → bi.toNat = i.val → (s.stream i).state = .stopped →
    (s.stream i).binding = some b → (s.source b.source).setup = some g →
    exec (.streamStart tag [bi]) s = .next (
      if claimTotal s.claims + demand g.period b.scale.k ≤ 1000 then
        { s.answered .streamStart tag .ok [] with
          streams := wr s.streams i { s.stream i with state := .armed, admitted := some (demand g.period b.scale.k) }
          claims := s.claims ++ [⟨.stream i, demand g.period b.scale.k⟩] }
      else s.answered .streamStart tag .noBandwidth []))

/-- R32, R34, R40, R138, R174: STREAM_STOP at once: a STOPPED stream does not change; an ARMED one, or a CAPTURING one with no
FILLING position, becomes STOPPED and its claim is released; with DISCARD a fill ends first. What waited on that fill is settled,
its entry leaving the outstanding table: the final OK of a freeze, then that of the earlier stop, both with settle cause DISCARDED
and cause STOP_DISCARD, then the first OK of the DISCARD request; nothing else changes. R35: a NORMAL stop of a STOPPING stream is
BAD_STATE. -/
def Obligations.StreamStopAtOnce : Prop :=
  (∀ (s : State) (tag : Tag) (bi : Byte) (i : StreamIx), WaitingFor s .streamStop tag [bi, 0] →
    tagHeld s.link tag = false → bi.toNat = i.val → (s.stream i).state = .stopping →
    exec (.streamStop tag [bi, 0]) s = .next (s.answered .streamStop tag .badState [])) ∧
  (∀ (s : State) (tag : Tag) (bi : Byte) (i : StreamIx) (discard : Bool),
    WaitingFor s .streamStop tag [bi, if discard then 1 else 0] → tagHeld s.link tag = false → bi.toNat = i.val →
    ((s.stream i).state = .stopped → exec (.streamStop tag [bi, if discard then 1 else 0]) s =
      .next (s.answered .streamStop tag .ok [0, 0, 0, 0, 0, 0])) ∧
    ((s.stream i).state = .armed ∨ ((s.stream i).state = .capturing ∧ fillingAt s i = none) →
      exec (.streamStop tag [bi, if discard then 1 else 0]) s =
        .next { s.answered .streamStop tag .ok [0, 0, 0, 0, 0, 0] with
          streams := wr s.streams i { s.stream i with state := .stopped, admitted := none, pendingStop := none }
          claims := s.claims.filter (fun c => c.holder ≠ .stream i) })) ∧
  (∀ (s : State) (tag : Tag) (bi : Byte) (i : StreamIx) (r : Ring) (p : Nat), WaitingFor s .streamStop tag [bi, 1] →
    tagHeld s.link tag = false → bi.toNat = i.val → s.ring i = some r → r.filling = some p →
    (s.stream i).state = .capturing ∨ (s.stream i).state = .stopping →
    ∃ k : Link, exec (.streamStop tag [bi, 1]) s = .next { s with
        rings := wr s.rings i (some (r.setFill p .empty))
        streams := wr s.streams i { s.stream i with
          state := .stopped, admitted := none, pendingStop := none, pendingFreeze := none
          freeze := if (s.stream i).pendingFreeze.isSome then .frozen else (s.stream i).freeze
          counters := { (s.stream i).counters with discarded := satInc (s.stream i).counters.discarded } }
        claims := s.claims.filter (fun c => c.holder ≠ .stream i)
        link := k } ∧
      k.replies.getLast? = some ⟨0x84, tag, .first, .ok, [0, 0, 0, 0, 0, 0]⟩ ∧
      ((s.link.outstanding.map Entry.tag).Nodup →
        (∀ old, (s.stream i).pendingFreeze = some old → ⟨old, .streamFreeze i⟩ ∈ s.link.outstanding) →
        (∀ old, (s.stream i).pendingStop = some old → ⟨old, .streamStop i⟩ ∈ s.link.outstanding) →
        k = { s.link with
          inbound := s.link.inbound.tail
          outstanding := s.link.outstanding.filter (fun e =>
            decide ((s.stream i).pendingFreeze ≠ some e.tag ∧ (s.stream i).pendingStop ≠ some e.tag))
          replies := s.link.replies ++
            (s.stream i).pendingFreeze.toList.map (fun old =>
              ⟨0x85, old, .final, .ok, [2, 7] ++ u32 ((newestSeq s i).getD 0).toNat⟩) ++
            (s.stream i).pendingStop.toList.map (fun old => ⟨0x84, old, .final, .ok, [2, 7, 0, 0, 0, 0]⟩) ++
            [⟨0x84, tag, .first, .ok, [0, 0, 0, 0, 0, 0]⟩] }))

/-- R33, R37, R69, R95, R97, R106, R150: the six requests whose outcome is still to come: the entry joins the table with the
PENDING reply in one action, or BUSY when the table holds 8 entries. -/
def Obligations.DeferredRequestsEnterTheTable : Prop :=
  (∀ (s : State) (tag : Tag) (bi : Byte) (i : StreamIx), WaitingFor s .streamStop tag [bi, 0] →
    tagHeld s.link tag = false → bi.toNat = i.val → (s.stream i).state = .capturing → fillingAt s i ≠ none →
    exec (.streamStop tag [bi, 0]) s = .next (
      if 8 ≤ s.link.outstanding.length then s.answered .streamStop tag .busy []
      else { s.deferred tag (.streamStop i) with
        streams := wr s.streams i { s.stream i with state := .stopping, pendingStop := some tag } })) ∧
  (∀ (s : State) (tag : Tag) (bi : Byte) (i : StreamIx), WaitingFor s .streamFreeze tag [bi] →
    tagHeld s.link tag = false → bi.toNat = i.val → (s.stream i).state ≠ .unbound → (s.stream i).freeze = .live →
    fillingAt s i ≠ none →
    exec (.streamFreeze tag [bi]) s = .next (
      if 8 ≤ s.link.outstanding.length then s.answered .streamFreeze tag .busy []
      else { s.deferred tag (.streamFreeze i) with
        streams := wr s.streams i { s.stream i with freeze := .freezePending, pendingFreeze := some tag } })) ∧
  (∀ (s : State) (tag : Tag) (bl : Byte) (l : LaneIx) (tm : Timing), WaitingFor s .listCommit tag [bl, tm.code] →
    tagHeld s.link tag = false → bl.toNat = l.val →
    (s.lane l).state ∈ [LaneState.starting, .running, .stopping] → (s.list l).commit = none →
    listFailure s (s.list l).staged = none →
    exec (.listCommit tag [bl, tm.code]) s = .next (
      if 8 ≤ s.link.outstanding.length then s.answered .listCommit tag .busy []
      else { s.deferred tag (.listCommit l) with
        lists := wr s.lists l { s.list l with commit := some (tag, tm) } })) ∧
  (∀ (s : State) (tag : Tag) (bl : Byte) (l ld : LaneIx) (g : LaneSetup), WaitingFor s .laneStart tag [bl] →
    tagHeld s.link tag = false → bl.toNat = l.val → (s.lane l).state = .ready → (s.lane l).port ≠ none →
    (s.lane l).setup = some g → (s.lock l).role = .follower ld → claimTotal s.claims + demand g.period 1 ≤ 1000 →
    exec (.laneStart tag [bl]) s = .next (
      if 8 ≤ s.link.outstanding.length then s.answered .laneStart tag .busy []
      else { s.deferred tag (.laneStart l) with
        lanes := wr s.lanes l { s.lane l with
          state := .starting, admitted := some (demand g.period 1), pendingStart := some tag }
        claims := s.claims ++ [⟨.lane l, demand g.period 1⟩] })) ∧
  (∀ (s : State) (tag : Tag) (bl : Byte) (l : LaneIx), WaitingFor s .laneStop tag [bl, 0] →
    tagHeld s.link tag = false → bl.toNat = l.val → (s.lane l).state = .running →
    (∀ ld t, (s.lock l).role ≠ .joining ld .waiting t) →
    exec (.laneStop tag [bl, 0]) s = .next (
      if 8 ≤ s.link.outstanding.length then s.answered .laneStop tag .busy []
      else { s.deferred tag (.laneStop l) with
        lanes := wr s.lanes l { s.lane l with state := .stopping, pendingStop := some tag } })) ∧
  (∀ (s : State) (tag : Tag) (bf bl : Byte) (l ld : LaneIx), WaitingFor s .lockJoin tag [bf, bl] →
    tagHeld s.link tag = false → bf.toNat = l.val → bl.toNat = ld.val → l ≠ ld →
    (s.lane l).state ∈ [LaneState.running, .stopping] → (s.lane ld).state ≠ .unset →
    (s.lock ld).role ∈ [LockRole.free, .leader] → (s.lock l).role = .free →
    (s.lane l).setup.map LaneSetup.period = (s.lane ld).setup.map LaneSetup.period →
    exec (.lockJoin tag [bf, bl]) s = .next (
      if 8 ≤ s.link.outstanding.length then s.answered .lockJoin tag .busy []
      else { s.deferred tag (.lockJoin l) with
        locks := wr (wr s.locks l ⟨.joining ld .finishing tag, none⟩) ld { s.lock ld with role := .leader } }))

/-- R36, R38, R39: STREAM_FREEZE at once and STREAM_THAW. R14, R17: a thaw of a FROZEN stream under BLANK whose source is LOST
retires its ring: every READY position becomes EMPTY where no pin stands on it, and else RETIRED with its sequence number and
captured-at time, and the ready order becomes empty. -/
def Obligations.FreezeAndThawAtOnce : Prop :=
  (∀ (s : State) (tag : Tag) (bi : Byte) (i : StreamIx), WaitingFor s .streamFreeze tag [bi] →
    tagHeld s.link tag = false → bi.toNat = i.val → (s.stream i).state ≠ .unbound →
    ((s.stream i).freeze = .frozen → exec (.streamFreeze tag [bi]) s =
      .next (s.answered .streamFreeze tag .ok ([0, 0] ++ seqBytes (newestSeq s i)))) ∧
    ((s.stream i).freeze = .freezePending → exec (.streamFreeze tag [bi]) s =
      .next (s.answered .streamFreeze tag .badState [])) ∧
    ((s.stream i).freeze = .live → fillingAt s i = none → exec (.streamFreeze tag [bi]) s =
      .next { s.answered .streamFreeze tag .ok ([0, 0] ++ seqBytes (newestSeq s i)) with
        streams := wr s.streams i { s.stream i with freeze := .frozen } })) ∧
  (∀ (s : State) (tag : Tag) (bi : Byte) (i : StreamIx) (b : Binding), WaitingFor s .streamThaw tag [bi] →
    bi.toNat = i.val → (s.stream i).state ≠ .unbound → (s.stream i).binding = some b →
    ((s.stream i).freeze = .live → exec (.streamThaw tag [bi]) s = .next (s.answered .streamThaw tag .ok [])) ∧
    ((s.stream i).freeze = .frozen → ((s.source b.source).state ≠ .lost ∨ b.policy = .hold) →
      exec (.streamThaw tag [bi]) s = .next { s.answered .streamThaw tag .ok [] with
        streams := wr s.streams i { s.stream i with freeze := .live } }) ∧
    (∀ r, (s.stream i).freeze = .frozen → (s.source b.source).state = .lost → b.policy = .blank → s.ring i = some r →
      exec (.streamThaw tag [bi]) s = .next { s.answered .streamThaw tag .ok [] with
        streams := wr s.streams i { s.stream i with freeze := .live }
        rings := wr s.rings i (some ⟨r.slots.map (fun x => match x.fill with
          | .ready q c => { x with fill := if x.pins = 0 then .empty else .retired q c }
          | _ => x), [], r.nextSeq⟩) }) ∧
    (∀ t e, (s.stream i).freeze = .freezePending → (s.stream i).pendingFreeze = some t →
      s.link.outstanding.find? (fun x => x.tag = t) = some e →
      exec (.streamThaw tag [bi]) s = .next { s with
        streams := wr s.streams i { s.stream i with freeze := .live, pendingFreeze := none }
        link := { s.link with
          inbound := s.link.inbound.tail
          outstanding := s.link.outstanding.eraseP (fun x => x.tag = t)
          replies := s.link.replies ++ [⟨replyKind e.op.kind.code, t, .final, .cancelled, []⟩,
            ⟨replyKind Kind.streamThaw.code, tag, .first, .ok, []⟩] } }))

/-! ### The slot ring protocol -/

/-- R5: the writer's choice: never a FILLING, pinned or newest position; the lowest eligible EMPTY one where there is one; else
the eligible READY one that stands earliest in the ready order; none only where no position is eligible. R2, R3, R5: what
eligible, the FILLING position and the newest sequence number are. -/
def Obligations.WriterSparesPinnedAndNewest : Prop :=
  (∀ (r : Ring) (p : Nat), r.eligible p = true ↔
    ∃ x, r.slots[p]? = some x ∧ (∀ t, x.fill ≠ .filling t) ∧ x.pins = 0 ∧ r.ready.getLast? ≠ some p) ∧
  (∀ r : Ring, (∀ p, r.filling = some p → ∃ x t, r.slots[p]? = some x ∧ x.fill = .filling t) ∧
    (r.filling = none → ∀ x ∈ r.slots, ∀ t, x.fill ≠ .filling t)) ∧
  (∀ (s : State) (i : StreamIx), (s.ring i = none → fillingAt s i = none ∧ newestSeq s i = none) ∧
    ∀ r, s.ring i = some r → fillingAt s i = r.filling ∧ (r.ready = [] → newestSeq s i = none) ∧
      ∀ p x q t, r.ready.getLast? = some p → r.slots[p]? = some x → x.fill = .ready q t → newestSeq s i = some q) ∧
  ∀ r : Ring, RingLaw r →
    (∀ p, r.choose = some p → r.eligible p = true) ∧
    (∀ p q x y, r.choose = some p → r.slots[p]? = some x → r.slots[q]? = some y → r.eligible q = true →
      y.fill.isEmpty = true → x.fill.isEmpty = true ∧ p ≤ q) ∧
    (∀ p x, r.choose = some p → r.slots[p]? = some x → x.fill.isEmpty = false →
      r.ready.find? (fun q => r.eligible q) = some p) ∧
    (r.choose = none → ∀ p, r.eligible p = false)

/-- R4, R5, R7, R8: a frame start, a frame completion and a frame discard reaching a stream: the position chosen becomes FILLING,
or the frame is dropped and counted as FROZEN, STORE or STALL, with CAPTURE_DROP for the last two when the drop-notice flag is
clear (R27); that a store OFFLINE or in BRINGUP drops as STORE, as one in FAULT does, is the model's choice (log 22). A completed
position becomes READY and newest with the next sequence number, an abandoned one EMPTY, and then what waited on the fill is
settled: the freeze first, FROZEN, and the stop second, STOPPED with its claim released, each with its final OK (R33, R37, R40,
R174). A stream with no FILLING position does not change at a completion or a discard. -/
def Obligations.FillFollowsTheFrame : Prop :=
  (∀ (s : State) (i : StreamIx) (t : Time), (s.stream i).state ∈ [StreamState.armed, .capturing] →
    let dropped := fun (c : StreamCounters) (flag : Bool) => { s with streams := wr s.streams i { s.stream i with
      state := .capturing, dropFlag := flag, counters := c } }
    let c := (s.stream i).counters
    let noted := fun (reason : DropReason) (u : State) =>
      if (s.stream i).dropFlag then u else raise (.captureDrop i reason) u
    ((s.stream i).freeze = .frozen → streamFrameStart t i s =
      dropped { c with dropsFrozen := satInc c.dropsFrozen } (s.stream i).dropFlag) ∧
    ((s.stream i).freeze ≠ .frozen → s.store.state ≠ .ready → streamFrameStart t i s =
      noted .store (dropped { c with dropsStore := satInc c.dropsStore } true)) ∧
    (∀ r, (s.stream i).freeze ≠ .frozen → s.store.state = .ready → s.ring i = some r → r.choose = none →
      streamFrameStart t i s = noted .stall (dropped { c with dropsStall := satInc c.dropsStall } true)) ∧
    (∀ r p, (s.stream i).freeze ≠ .frozen → s.store.state = .ready → s.ring i = some r → r.choose = some p →
      streamFrameStart t i s = { s with
        streams := wr s.streams i { s.stream i with state := .capturing, writer := ⟨[], 0⟩ }
        rings := wr s.rings i (some { r with
          slots := r.slots.modify p (fun x => { x with fill := .filling t }), ready := r.ready.filter (fun q => q ≠ p) }) })) ∧
  (∀ (s : State) (i : StreamIx) (t : Time), (s.stream i).state ∈ [StreamState.unbound, .stopped, .stopping] →
    streamFrameStart t i s = s) ∧
  (∀ (s : State) (i : StreamIx) (r : Ring) (p : Nat) (x : Slot) (t : Time), s.ring i = some r → r.filling = some p →
    r.slots[p]? = some x → x.fill = .filling t →
    streamComplete i s = settle (.completed r.nextSeq) i { s with
      streams := wr s.streams i { s.stream i with
        counters := { (s.stream i).counters with captured := satInc (s.stream i).counters.captured } }
      rings := wr s.rings i (some ⟨r.slots.modify p (fun x => { x with fill := .ready r.nextSeq t }), r.ready ++ [p],
        if r.nextSeq = 4294967295 then 1 else r.nextSeq + 1⟩) }) ∧
  (∀ (s : State) (i : StreamIx) (r : Ring) (p : Nat) (c : Cause), s.ring i = some r → r.filling = some p →
    streamDiscard c i s = settle (.discarded c) i { s with
      streams := wr s.streams i { s.stream i with
        counters := { (s.stream i).counters with discarded := satInc (s.stream i).counters.discarded } }
      rings := wr s.rings i (some { r with slots := r.slots.modify p (fun x => { x with fill := .empty }) }) }) ∧
  (∀ (s : State) (i : StreamIx) (c : Cause), fillingAt s i = none → streamComplete i s = s ∧ streamDiscard c i s = s) ∧
  (∀ (s : State) (i : StreamIx) (x : Settle),
    let cause := match x with | .completed _ => [1, 0] | .discarded c => [2, c.code]
    let held : Byte × Tag → Reply := fun a => ⟨a.1, a.2, .final, .ok, cause ++ u32 ((newestSeq s i).getD 0).toNat⟩
    let stopped : Byte × Tag → Reply := fun a => ⟨a.1, a.2, .final, .ok,
      cause ++ (match x with | .completed q => u32 q.toNat | .discarded _ => [0, 0, 0, 0])⟩
    let without := fun (t : Tag) (es : List Entry) => es.eraseP (fun e => e.tag = t)
    let entry := fun (t : Tag) (es : List Entry) => es.find? (fun e => e.tag = t)
    ((s.stream i).pendingFreeze = none → (s.stream i).pendingStop = none → settle x i s = s) ∧
    (∀ tf ef, (s.stream i).pendingFreeze = some tf → (s.stream i).pendingStop = none →
      entry tf s.link.outstanding = some ef → settle x i s = { s with
        streams := wr s.streams i { s.stream i with freeze := .frozen, pendingFreeze := none }
        link := { s.link with
          outstanding := without tf s.link.outstanding
          replies := s.link.replies ++ [held (replyKind ef.op.kind.code, tf)] } }) ∧
    (∀ ts es, (s.stream i).pendingFreeze = none → (s.stream i).pendingStop = some ts →
      entry ts s.link.outstanding = some es → settle x i s = { s with
        streams := wr s.streams i { s.stream i with state := .stopped, admitted := none, pendingStop := none }
        claims := s.claims.filter (fun c => c.holder ≠ .stream i)
        link := { s.link with
          outstanding := without ts s.link.outstanding
          replies := s.link.replies ++ [stopped (replyKind es.op.kind.code, ts)] } }) ∧
    (∀ tf ef ts es, (s.stream i).pendingFreeze = some tf → (s.stream i).pendingStop = some ts →
      entry tf s.link.outstanding = some ef → entry ts (without tf s.link.outstanding) = some es →
      settle x i s = { s with
        streams := wr s.streams i { s.stream i with
          freeze := .frozen, pendingFreeze := none, state := .stopped, admitted := none, pendingStop := none }
        claims := s.claims.filter (fun c => c.holder ≠ .stream i)
        link := { s.link with
          outstanding := without ts (without tf s.link.outstanding)
          replies := s.link.replies ++ [held (replyKind ef.op.kind.code, tf), stopped (replyKind es.op.kind.code, ts)] } }))

/-! ### Sources -/

/-- R49: SOURCE_SETUP: IN_USE while a stream record names the source; else the source becomes SILENT with the given setup, a 0
period standing for 40 ms and a 0 loss factor for 4, its counters and error-notice flag kept. -/
def Obligations.SourceSetupMakesSilent : Prop :=
  ∀ (s : State) (tag : Tag) (body : List Byte) (n : SourceIx), WaitingFor s .sourceSetup tag body → body.length = 8 →
    fieldsInRange .sourceSetup body = true → field body 0 = n.val →
    exec (.sourceSetup tag body) s = .next (
      if boundStreams s n = [] then
        { s.answered .sourceSetup tag .ok [] with
          sources := wr s.sources n { s.source n with
            state := .silent
            setup := some ⟨field2 body 1, field2 body 3, if field2 body 5 = 0 then 40 else field2 body 5,
              if field body 7 = 0 then 4 else field body 7⟩
            lastStart := none
            lossTimer := none
            phase := if (s.source n).phase = .out then .out else .skipping } }
      else s.answered .sourceSetup tag .inUse [])

/-- R47, R50, R51, R52, R59, R60: CAPTURE_FRAME_START with no line being collected on the port. An UNSET source counts it as
unclaimed. In a skip the source is out of frame first; in a frame the frame is first discarded as BROKEN, counted, and reported
when the error-notice flag is clear. Out of frame, a SILENT or LOST source becomes PRESENT with its notice and the start is
accepted; a PRESENT one accepts it when half a period or more has passed since the last accepted start, or there was none: the
record is set, the loss timer armed and the frame start handed to every bound stream. A PRESENT source rejects an earlier one as
OVER_RATE: the timer is re-armed, the frame skipped, and FRAME_ERROR raised when the flag is clear. The streams are taken in
increasing number, which is the model's choice (log 17). -/
def Obligations.FrameStartIsJudged : Prop :=
  ∀ (s : State) (port index : CaptureIx), s.resetAsserted = false → (s.capturePort port).line = none →
    let n := sourceOf port index
    let src := s.source n
    let handed := fun (f : StreamIx → State → State) (u : State) => (boundStreams s n).foldl (fun t i => f i t) u
    (src.state = .unset → exec (.captureFrameStart port index) s = .next (s.oneUnclaimed port index)) ∧
    (src.state ≠ .unset → src.phase = .skipping → exec (.captureFrameStart port index) s =
      exec (.captureFrameStart port index) { s with sources := wr s.sources n { src with phase := .out } }) ∧
    (∀ c, src.state ≠ .unset → src.phase = .inFrame c → exec (.captureFrameStart port index) s =
      (let u : State := { handed (streamDiscard .broken) s with sources := wr s.sources n { src with
        phase := .out, errorFlag := true
        counters := { src.counters with broken := satInc src.counters.broken } } }
      exec (.captureFrameStart port index) (if src.errorFlag then u else raise (.frameError n .broken) u))) ∧
    (∀ g, src.setup = some g → src.phase = .out →
      let started : State := { s with sources := wr s.sources n { src with
        state := .present, lastStart := some s.deviceTime, phase := .inFrame 0
        lossTimer := some (s.deviceTime + BitVec.ofNat 32 (g.period * g.factor))
        counters := { src.counters with accepted := satInc src.counters.accepted } } }
      (src.state ∈ [SourceState.silent, .lost] → exec (.captureFrameStart port index) s =
        .next (handed (streamFrameStart s.deviceTime) (raise (.sourcePresent n) started))) ∧
      (src.state = .present → (∀ t, src.lastStart = some t → g.period ≤ 2 * (s.deviceTime - t).toNat) →
        exec (.captureFrameStart port index) s = .next (handed (streamFrameStart s.deviceTime) started)) ∧
      (∀ t, src.state = .present → src.lastStart = some t → 2 * (s.deviceTime - t).toNat < g.period →
        exec (.captureFrameStart port index) s = .next (
          let u : State := { s with sources := wr s.sources n { src with
            phase := .skipping, errorFlag := true
            lossTimer := some (s.deviceTime + BitVec.ofNat 32 (g.period * g.factor))
            counters := { src.counters with overRate := satInc src.counters.overRate } } }
          if src.errorFlag then u else raise (.frameError n .overRate) u)))

/-- R46, R47, R53, R59: LINE_START with no line being collected on the port: unclaimed out of frame, ignored in a skip, in frame below
the height the line is begun and collected, and at the height the frame is discarded as LONG, counted, skipped, and reported when
the error-notice flag is clear. R46, R175: the bytes of a capture port are its markers, 4 × kind + local index, with the data
bytes that follow each. -/
def Obligations.LineStartBeginsALine : Prop :=
  (∀ (s : State) (port index : CaptureIx) (data : List Byte), s.resetAsserted = false →
    (s.capturePort port).line = none →
    let n := sourceOf port index
    let src := s.source n
    (src.setup = none ∨ src.phase = .out → exec (.lineStart port index data) s = .next (s.oneUnclaimed port index)) ∧
    (src.setup ≠ none → src.phase = .skipping → exec (.lineStart port index data) s = .next s) ∧
    (∀ g c, src.setup = some g → src.phase = .inFrame c → c < g.height →
      exec (.lineStart port index data) s = .next { s with
        sources := wr s.sources n { src with phase := .inFrame (c + 1) }
        capturePorts := wr s.capturePorts port { s.capturePort port with line := some (index, data) } }) ∧
    (∀ g c, src.setup = some g → src.phase = .inFrame c → g.height ≤ c →
      exec (.lineStart port index data) s = .next (
        let u : State := { (boundStreams s n).foldl (fun t i => streamDiscard .long i t) s with
          sources := wr s.sources n { src with
            phase := .skipping, errorFlag := true
            counters := { src.counters with long := satInc src.counters.long } } }
        if src.errorFlag then u else raise (.frameError n .long) u))) ∧
  (∀ (port index : CaptureIx) (data : List Byte),
    markerCommand port (byte index.val) data = some (.captureFrameStart port index) ∧
    markerCommand port (byte (4 + index.val)) data = some (.lineStart port index data) ∧
    markerCommand port (byte (8 + index.val)) data = some (.frameEnd port index) ∧
    ∀ b, isPixelByte b = true → markerCommand port b data = none) ∧
  (∀ (port : CaptureIx) (b : Byte) (bs : List Byte),
    let rest := captureCommands port bs
    (isPixelByte b = true → captureCommands port (b :: bs) = (b :: rest.1, rest.2)) ∧
    ∀ c, markerCommand port b rest.1 = some c → captureCommands port (b :: bs) = ([], c :: rest.2))

/-- R46, R54, R59: the line being collected on a port is judged at its next marker, of any kind and index, before that marker
acts: 2 × width bytes make it good, and it is handed to every bound stream in increasing number (log 17), or, where a line it
completes would stand beyond the detected capacity, the command faults (log 12); any other length discards the frame as BAD_LINE;
outside its source's frame it is dropped. R24: a stream with a FILLING position accumulates the lines of a group of k and stores
one line with the k-th, at the next line of the slot (pitch: log 11): at FULL the line itself, at HALF and THIRD the means of the
blocks, rounded to nearest, a half up. Every byte outside the stored line reads as before. -/
def Obligations.GoodLineIsStoredWhole : Prop :=
  (∀ (s : State) (port index at_ : CaptureIx) (line more : List Byte) (cmd : Instr), s.resetAsserted = false →
    (s.capturePort port).line = some (index, line) →
    cmd ∈ [Instr.captureFrameStart port at_, .lineStart port at_ more, .frameEnd port at_] →
    let n := sourceOf port index
    let src := s.source n
    let t : State := { s with capturePorts := wr s.capturePorts port { s.capturePort port with line := none } }
    (∀ g c, src.setup = some g → src.phase = .inFrame c → line.length = 2 * g.width → lineInRange line n s = true →
      exec cmd s = exec cmd ((boundStreams s n).foldl (fun v i => streamLine line i v) t)) ∧
    (∀ g c, src.setup = some g → src.phase = .inFrame c → line.length = 2 * g.width → lineInRange line n s = false →
      exec cmd s = .fault .dramRange) ∧
    (∀ g c, src.setup = some g → src.phase = .inFrame c → line.length ≠ 2 * g.width →
      exec cmd s = exec cmd (
        let u : State := { (boundStreams s n).foldl (fun v i => streamDiscard .badLine i v) t with
          sources := wr s.sources n { src with
            phase := .skipping, errorFlag := true
            counters := { src.counters with badLine := satInc src.counters.badLine } } }
        if src.errorFlag then u else raise (.frameError n .badLine) u)) ∧
    (src.setup = none ∨ src.phase ∈ [FramePhase.out, .skipping] → exec cmd s = exec cmd t)) ∧
  (∀ (s : State) (i : StreamIx) (line : List Byte) (b : Binding) (r : Ring) (p : Nat) (x : Slot) (f : SlotFormat),
    (s.stream i).binding = some b → s.ring i = some r → r.filling = some p → r.slots[p]? = some x →
    s.store.format = some f → Memory.wf s.dram = true →
    let group := (s.stream i).writer.group ++ [line]
    let stored := (s.stream i).writer.stored
    (group.length < b.scale.k → streamLine line i s = { s with
      streams := wr s.streams i { s.stream i with writer := ⟨group, stored⟩ } }) ∧
    (group.length = b.scale.k →
      lineStore line i s = some (x.pool * (f.width * f.height * 2) + stored * (f.width * 2),
        if b.scale = .full then line else storedLine b.scale b.storedWidth group) ∧
      (∀ a bytes, lineStore line i s = some (a, bytes) →
        (∀ j, (h : j < bytes.length) → Memory.read (streamLine line i s).dram (a + j) = bytes[j]) ∧
        (∀ c, (c < a ∨ a + bytes.length ≤ c) → Memory.read (streamLine line i s).dram c = Memory.read s.dram c)) ∧
      streamLine line i s = { s with
        streams := wr s.streams i { s.stream i with writer := ⟨[], stored + 1⟩ }
        dram := (streamLine line i s).dram })) ∧
  (∀ (s : State) (i : StreamIx) (line : List Byte), fillingAt s i = none → streamLine line i s = s) ∧
  (∀ (sc : Scale) (w : Nat) (group : List (List Byte)), sc ≠ .full →
    let k := sc.k
    let mean := fun (offset : Nat → Nat) (cols : List Nat) =>
      roundedMean (group.flatMap (fun line => cols.map (fun c => (line.getD (offset c) 0).toNat)))
    (storedLine sc w group).length = 2 * w ∧
    (∀ x, x < w → (storedLine sc w group)[2 * x + 1]? =
      some (mean (fun c => 2 * c + 1) ((List.range k).map (fun j => k * x + j)))) ∧
    (∀ q, 2 * q + 1 < w →
      (storedLine sc w group)[4 * q]? = some (mean (fun c => 4 * c) ((List.range k).map (fun j => k * q + j))) ∧
      (storedLine sc w group)[4 * q + 2]? = some (mean (fun c => 4 * c + 2) ((List.range k).map (fun j => k * q + j)))) ∧
    (w % 2 = 1 → (storedLine sc w group)[2 * (w - 1)]? = some (mean (fun c => 4 * c)
      ((List.range (k * w)).filter (fun c => decide (k * (w - 1) < 2 * c + 2 ∧ 2 * c < k * w)))))) ∧
  (∀ xs : List Nat, xs ≠ [] → (∀ x ∈ xs, x ≤ 255) →
    2 * (roundedMean xs).toNat * xs.length ≤ 2 * xs.sum + xs.length ∧
      2 * xs.sum + xs.length < 2 * ((roundedMean xs).toNat + 1) * xs.length)

/-- R47, R55, R59: FRAME_END with no line being collected on the port: unclaimed out of frame, the end of a skip, and in frame
either a completion handed to every bound stream or, below the height, a SHORT discard with its count and its frame error,
reported when the error-notice flag is clear. The streams are taken in increasing number (log 17): those bound to the source of
the port and local index (section 3.1, R58). -/
def Obligations.FrameEndCompletesOrIsShort : Prop :=
  (∀ port index : CaptureIx, (sourceOf port index).val = 4 * port.val + index.val) ∧
  (∀ (s : State) (n : SourceIx), (boundStreams s n).Pairwise (· < ·) ∧
    ∀ i, i ∈ boundStreams s n ↔ ∃ b, (s.stream i).binding = some b ∧ b.source = n) ∧
  ∀ (s : State) (port index : CaptureIx), s.resetAsserted = false → (s.capturePort port).line = none →
    let n := sourceOf port index
    let src := s.source n
    (src.setup = none ∨ src.phase = .out → exec (.frameEnd port index) s = .next (s.oneUnclaimed port index)) ∧
    (src.setup ≠ none → src.phase = .skipping →
      exec (.frameEnd port index) s = .next { s with sources := wr s.sources n { src with phase := .out } }) ∧
    (∀ g, src.setup = some g → src.phase = .inFrame g.height →
      exec (.frameEnd port index) s = .next { (boundStreams s n).foldl (fun u i => streamComplete i u) s with
        sources := wr s.sources n { src with phase := .out } }) ∧
    (∀ g c, src.setup = some g → src.phase = .inFrame c → c < g.height →
      exec (.frameEnd port index) s = .next (
        let u : State := { (boundStreams s n).foldl (fun u i => streamDiscard .short i u) s with
          sources := wr s.sources n { src with
            phase := .out, errorFlag := true
            counters := { src.counters with short := satInc src.counters.short } } }
        if src.errorFlag then u else raise (.frameError n .short) u))

/-- R14, R15, R17, R56, R60: SOURCE_LOSS_TIMER_EXPIRY of a PRESENT source whose timer is due: a frame in progress is first
discarded as LOST_MID_FRAME, counted and skipped, with no FRAME_ERROR; then LOST, the timer off, retirement for each bound stream,
and SOURCE_LOST. A timer that is off does not expire. The streams are taken in increasing number (log 17). Retirement is of a
stream under BLANK that is not FROZEN: every READY position becomes EMPTY where no pin stands on it, and else RETIRED with its
sequence number and captured-at time, FILLING and EMPTY positions are untouched, and the ready order becomes empty; under HOLD and
while FROZEN the ring does not change. -/
def Obligations.LossTimerMakesTheSourceLost : Prop :=
  (∀ (s : State) (n : SourceIx) (e : Time), s.resetAsserted = false → (s.source n).state = .present →
    (s.source n).lossTimer = some e → (s.deviceTime - e).toNat < 2147483648 →
    let lost := fun (u : State) (src : Source) => raise (.sourceLost n)
      ((boundStreams s n).foldl (fun t i => retireOnLoss i t)
        { u with sources := wr s.sources n { src with state := .lost, lossTimer := none } })
    ((s.source n).phase ∈ [FramePhase.out, .skipping] →
      exec (.sourceLossTimerExpiry n) s = .next (lost s (s.source n))) ∧
    (∀ c, (s.source n).phase = .inFrame c →
      exec (.sourceLossTimerExpiry n) s = .next (lost
        ((boundStreams s n).foldl (fun t i => streamDiscard .lostMidFrame i t) s)
        { s.source n with
          phase := .skipping
          counters := { (s.source n).counters with lostMidFrame := satInc (s.source n).counters.lostMidFrame } }))) ∧
  (∀ (s : State) (n : SourceIx), s.resetAsserted = false → (s.source n).lossTimer = none →
    exec (.sourceLossTimerExpiry n) s = .next s) ∧
  (∀ (s : State) (i : StreamIx) (b : Binding), (s.stream i).binding = some b →
    (b.policy = .hold ∨ (s.stream i).freeze = .frozen → retireOnLoss i s = s) ∧
    ∀ r, b.policy = .blank → (s.stream i).freeze ≠ .frozen → s.ring i = some r →
      retireOnLoss i s = { s with rings := wr s.rings i (some ⟨r.slots.map (fun x => match x.fill with
        | .ready q c => { x with fill := if x.pins = 0 then .empty else .retired q c }
        | _ => x), [], r.nextSeq⟩) })

/-! ### Sequence lists -/

/-- R65, R66, R78: LIST_EDIT: BAD_PARAM where the operation's row of R66 refuses it; else BAD_STATE for an UNSET lane and
COMMIT_PENDING while a commit is pending; else the staged list becomes what the row gives, and the reply carries its length. -/
def Obligations.ListEditFollowsItsTable : Prop :=
  (∀ (s : State) (tag : Tag) (bl op index count : Byte) (l : LaneIx) (new : List ListEntry),
    WaitingFor s .listEdit tag ([bl, op, index, count] ++ new.flatMap ListEntry.bytes) → bl.toNat = l.val →
    new.length ≤ 12 → (∀ e ∈ new, ∀ d ∈ e.dwell, 1 ≤ d ∧ d ≤ 255) →
    exec (.listEdit tag ([bl, op, index, count] ++ new.flatMap ListEntry.bytes)) s = .next (
      match edited op.toNat index.toNat count.toNat new (s.list l).staged with
      | none => s.answered .listEdit tag .badParam []
      | some es =>
        if (s.lane l).state = .unset then s.answered .listEdit tag .badState []
        else if (s.list l).commit = none then
          { s.answered .listEdit tag .ok [byte es.length] with lists := wr s.lists l { s.list l with staged := es } }
        else s.answered .listEdit tag .commitPending [])) ∧
  (∀ (i c : Nat) (new old : List ListEntry),
    (new = [] → edited 0 i c new old = some []) ∧
    (new ≠ [] → old.length + new.length ≤ 48 → edited 1 i c new old = some (old ++ new)) ∧
    (new ≠ [] → i ≤ old.length → old.length + new.length ≤ 48 →
      edited 2 i c new old = some (old.take i ++ new ++ old.drop i)) ∧
    (new ≠ [] → i + new.length ≤ old.length →
      edited 3 i c new old = some (old.take i ++ new ++ old.drop (i + new.length))) ∧
    (new = [] → 1 ≤ c → c ≤ 48 → i + c ≤ old.length → edited 4 i c new old = some (old.take i ++ old.drop (i + c))) ∧
    (edited 0 i c new old = none ↔ new ≠ []) ∧
    (edited 1 i c new old = none ↔ new = [] ∨ 48 < old.length + new.length) ∧
    (edited 2 i c new old = none ↔ new = [] ∨ old.length < i ∨ 48 < old.length + new.length) ∧
    (edited 3 i c new old = none ↔ new = [] ∨ old.length < i + new.length) ∧
    (edited 4 i c new old = none ↔ new ≠ [] ∨ c = 0 ∨ 48 < c ∨ old.length < i + c) ∧
    ∀ op, 4 < op → edited op i c new old = none)

/-- R69, R75: LIST_COMMIT of a READY lane: LIST_INVALID with the walk's first failure, or the staged list becomes active at once
with the next generation and the lane starts it from group 0. R69, R78: while a commit is pending on the lane, in any state of the
lane, a further one is COMMIT_PENDING; a staged list that fails the walk is LIST_INVALID, with the first failure, in every state
of the lane but UNSET. -/
def Obligations.CommitOfReadyLaneApplies : Prop :=
  (∀ (s : State) (tag : Tag) (bl : Byte) (l : LaneIx) (tm : Timing), WaitingFor s .listCommit tag [bl, tm.code] →
    tagHeld s.link tag = false → bl.toNat = l.val → (s.lane l).state ≠ .unset → (s.list l).commit ≠ none →
    exec (.listCommit tag [bl, tm.code]) s = .next (s.answered .listCommit tag .commitPending [])) ∧
  (∀ (s : State) (tag : Tag) (bl : Byte) (l : LaneIx) (tm : Timing) (i : Nat) (why : InvalidReason),
    WaitingFor s .listCommit tag [bl, tm.code] → tagHeld s.link tag = false → bl.toNat = l.val →
    (s.lane l).state ≠ .unset → (s.list l).commit = none → listFailure s (s.list l).staged = some (i, why) →
    exec (.listCommit tag [bl, tm.code]) s = .next (s.answered .listCommit tag .listInvalid [byte i, why.code])) ∧
  ∀ (s : State) (tag : Tag) (bl : Byte) (l : LaneIx) (tm : Timing), WaitingFor s .listCommit tag [bl, tm.code] →
    tagHeld s.link tag = false → bl.toNat = l.val → (s.lane l).state = .ready → (s.list l).commit = none →
    exec (.listCommit tag [bl, tm.code]) s = .next (
      match listFailure s (s.list l).staged with
      | some (i, why) => s.answered .listCommit tag .listInvalid [byte i, why.code]
      | none =>
        { s.answered .listCommit tag .ok (u16 ((s.list l).generation + 1).toNat) with
          lists := wr s.lists l { s.list l with
            active := (s.list l).staged, generation := (s.list l).generation + 1, commit := none }
          lanes := wr s.lanes l { s.lane l with
            groupStart := 0, framesShown := 0, passCount := 0, drained := false
            lastShown := List.replicate (s.list l).staged.length none
            counters := { (s.lane l).counters with commits := satInc (s.lane l).counters.commits } } })

/-- R63, R64, R70: the walk passes exactly the lists that are whole groups of one scale each, with a dwell on the first entry only,
and no STREAM entry naming an UNBOUND stream. After any number of such groups it fails at the first entry of the next one with
UNBOUND_STREAM, DWELL_MISSING or INCOMPLETE_GROUP, in that order, or at the first later entry of it that does not pass, with
UNBOUND_STREAM, SCALE_MISMATCH or DWELL_MISPLACED. -/
def Obligations.PassedListIsWholeGroups : Prop :=
  (∀ (s : State) (sc : Scale) (i : StreamIx) (d : Option Nat),
    entryScale s ⟨.blank sc, d⟩ = some sc ∧
    ((s.stream i).state = .unbound → entryScale s ⟨.stream i, d⟩ = none) ∧
    ((s.stream i).state ≠ .unbound → entryScale s ⟨.stream i, d⟩ = (s.stream i).binding.map Binding.scale)) ∧
  (∀ s : State,
    let follows := fun (sc : Scale) (x : ListEntry) => entryScale s x = some sc ∧ x.dwell = none
    let whole := fun (g : List ListEntry) => ∃ (sc : Scale) (e : ListEntry) (rest : List ListEntry), g = e :: rest ∧
      g.length = sc.groupSize ∧ entryScale s e = some sc ∧ e.dwell ≠ none ∧ ∀ x ∈ rest, follows sc x
    (∀ es, listFailure s es = none ↔ ∃ groups : List (List ListEntry), es = groups.flatten ∧ ∀ g ∈ groups, whole g) ∧
    ∀ (groups : List (List ListEntry)) (e : ListEntry) (rest : List ListEntry), (∀ g ∈ groups, whole g) →
      let i := groups.flatten.length
      let result := listFailure s (groups.flatten ++ e :: rest)
      (entryScale s e = none → result = some (i, .unboundStream)) ∧
      ∀ sc, entryScale s e = some sc →
        (e.dwell = none → result = some (i, .dwellMissing)) ∧
        (e.dwell ≠ none → rest.length + 1 < sc.groupSize → result = some (i, .incompleteGroup)) ∧
        ∀ (passed : List ListEntry) (x : ListEntry) (later : List ListEntry), e.dwell ≠ none →
          rest = passed ++ x :: later → sc.groupSize ≤ rest.length + 1 → passed.length + 2 ≤ sc.groupSize →
          (∀ y ∈ passed, follows sc y) →
          let j := i + 1 + passed.length
          (entryScale s x = none → result = some (j, .unboundStream)) ∧
          ∀ sc', entryScale s x = some sc' →
            (sc' ≠ sc → result = some (j, .scaleMismatch)) ∧
            (sc' = sc → x.dwell ≠ none → result = some (j, .dwellMisplaced))) ∧
  [Scale.full, .half, .third].map Scale.groupSize = [1, 4, 9] ∧
  [InvalidReason.unboundStream, .scaleMismatch, .incompleteGroup, .dwellMissing, .dwellMisplaced].map InvalidReason.code =
    [1, 2, 3, 4, 5]

/-- R68, R157, R158: LIST_READ, IDENTIFY and STATUS change nothing but the link, which carries what they read; STATUS reads the
state its own request has left the inbound queue in (log 29). The five views carry the fields of R134, R141, R158 and R167
(DEVICE), R61 (SOURCE), R42 and R21 (STREAM), R101, R113 and R80 (LANE) and R101 (PORT), in that order, a field that may be absent
behind a presence byte and a list behind its count (R170), an enumerated value by its code (R170, R172); the sizes of fields the
spec does not lay out, the two counts of queued replies in the link part, and the order of the flags of a tile record with their
values where the tile has none, are the model's choice (log 15), as is the dwell where no group is shown (log 33, DEDUCED). -/
def Obligations.ReadsChangeNothing : Prop :=
  (∀ (s : State) (tag : Tag) (bl bi bc : Byte) (active : Bool) (l : LaneIx),
    WaitingFor s .listRead tag [bl, if active then 1 else 0, bi, bc] → bl.toNat = l.val → 1 ≤ bc.toNat → bc.toNat ≤ 12 →
    exec (.listRead tag [bl, if active then 1 else 0, bi, bc]) s = .next (
      let es := if active then (s.list l).active else (s.list l).staged
      if es.length < bi.toNat then s.answered .listRead tag .badParam []
      else s.answered .listRead tag .ok (byte es.length :: u16 (s.list l).generation.toNat ++
        (match (s.list l).commit with | none => [0, 0, 0] | some (t, tm) => [1, t, tm.code]) ++
        ((es.drop bi.toNat).take bc.toNat).flatMap ListEntry.bytes))) ∧
  (∀ (s : State) (tag : Tag), WaitingFor s .identify tag [] → exec (.identify tag []) s = .next (s.answered .identify tag .ok
    ([0x39, 0x01, 0x6C, 0x02, 1] ++ u16 (s.store.capacity.getD 0) ++ [16, 20, 6, 3, 48, 64, 8, 32]))) ∧
  (∀ (s : State) (tag : Tag) (view index : Byte), WaitingFor s .status tag [view, index] →
    let opt := fun (x : Option (List Byte)) => match x with | none => [(0 : Byte)] | some bs => 1 :: bs
    let flag := fun (b : Bool) => (if b then 1 else 0 : Byte)
    let list := fun (xs : List (List Byte)) => byte xs.length :: xs.flatten
    let time := fun (t : Time) => u32 t.toNat
    let answers := fun (fields : List Byte) =>
      exec (.status tag [view, index]) s = .next (s.answered .status tag .ok (view :: index :: fields))
    (view = 0 → answers (
      (s.store.state.code ::
        opt (match s.store.state with | .fault c => some [c.code] | _ => none) ++
        opt (s.store.capacity.map u16) ++ opt (s.store.format.map (fun f => u16 f.width)) ++
        opt (s.store.format.map (fun f => u16 f.height)) ++
        opt (s.store.format.map (fun f => u32 (f.width * f.height * 2))) ++ [byte s.store.count, byte s.store.free.length] ++
        list ((List.range s.store.count).map (fun n => [slotHolder s n]))) ++
      (u16 1000 ++ u16 (s.claims.map Claim.units).sum ++ u16 (1000 - (s.claims.map Claim.units).sum) ++
        list (s.claims.map (fun c =>
          (match c.holder with | .stream i => byte i.val | .lane l => byte (128 + l.val)) :: u16 c.units))) ++
      time s.deviceTime ++
      ([byte (s.link.inbound.length - 1), byte (s.link.replies.countP (fun r => r.phase = .first)),
          byte (s.link.replies.countP (fun r => r.phase = .final))] ++
        list (s.link.outstanding.map (fun e => [e.tag, e.op.kind.code, byte e.op.target]))) ++
      (s.notices.mask.setWidth 8 :: u16 s.notices.nextSeq.toNat ++
        [byte (s.notices.transmitted.length + s.notices.untransmitted.length), byte s.notices.transmitted.length] ++
        opt ((s.notices.transmitted ++ s.notices.untransmitted).head?.map (fun n => u16 n.seq.toNat)) ++
        u16 s.notices.lost.toNat))) ∧
    (∀ n : SourceIx, view = 1 → index.toNat = n.val → answers (
      let r := s.source n
      r.state.code :: opt (r.setup.map (fun g => u16 g.width)) ++ opt (r.setup.map (fun g => u16 g.height)) ++
        opt (r.setup.map (fun g => u16 g.period)) ++ opt (r.setup.map (fun g => [byte g.factor])) ++
        opt (r.lastStart.map time) ++ [r.phase.code] ++
        opt (match r.phase with | .inFrame c => some (u16 c) | _ => none) ++ opt (r.lossTimer.map time) ++
        [flag r.errorFlag] ++ list ((boundStreams s n).map (fun i => [byte i.val])))) ∧
    (∀ i : StreamIx, view = 2 → index.toNat = i.val → answers (
      let r := s.stream i
      [r.state.code, r.freeze.code, match r.binding with | none => 0xFF | some b => byte b.source.val] ++
        opt (r.binding.map (fun b => [b.scale.code])) ++
        opt (r.binding.map (fun b => u16 b.storedWidth ++ u16 b.storedHeight)) ++
        opt (r.binding.map (fun b => [b.policy.code])) ++
        opt (r.binding.map (fun _ => [r.fill.y, r.fill.cb, r.fill.cr])) ++
        opt (r.binding.map (fun _ => list (r.words.map (fun w => u16 w.toNat)))) ++ opt (r.admitted.map u16) ++
        opt (r.binding.map (fun _ => [flag r.dropFlag])) ++ opt (r.pendingStop.map (fun t => [t])) ++
        opt (r.pendingFreeze.map (fun t => [t])) ++
        match s.ring i with
        | none => [0, 0, 0, 0, 0, 0, 0]
        | some g => byte g.slots.length :: u32 g.nextSeq.toNat ++
            list (g.slots.zipIdx.map (fun x =>
              [byte x.2, byte x.1.pool, x.1.fill.code] ++ u32 (x.1.fill.seq.getD 0).toNat ++
                opt (x.1.fill.captured.map time) ++ [byte x.1.pins])) ++
            list (g.ready.map (fun p => [byte p])))) ∧
    (∀ l : LaneIx, view = 3 → index.toNat = l.val → answers (
      let r := s.lane l
      let u := s.list l
      let role := (s.lock l).role
      let group := (u.active.drop r.groupStart).head?
      [r.state.code, flag r.drained] ++ opt (r.setup.map (fun g => u16 g.width ++ u16 g.height)) ++
        opt (r.setup.map (fun g => u16 g.period)) ++ opt (r.setup.map (fun g => [g.mode.code])) ++
        opt (r.setup.map (fun g => [flag g.stamp])) ++ opt (r.setup.map (fun g => [g.fill.y, g.fill.cb, g.fill.cr])) ++
        [match r.port with | none => 0xFF | some p => byte p.val] ++
        opt (r.port.bind (fun p => ((s.outPort p).carried.findIdx? (fun x => x = l)).map (fun n => [byte n]))) ++
        [byte r.groupStart, byte r.framesShown, byte ((group.bind ListEntry.dwell).getD 0)] ++ u16 r.passCount.toNat ++
        u32 r.frameNumber.toNat ++ opt (r.admitted.map u16) ++ opt (r.timer.map time) ++
        opt (r.pendingStart.map (fun t => [t])) ++ opt (r.pendingStop.map (fun t => [t])) ++
        list (r.tiles.map (fun x => match x.body with
          | .shown i p q _ age rep fz lost _ =>
            [0, byte x.index, byte i.val, byte p] ++ u32 q.toNat ++ (1 :: u16 age) ++ [flag rep, flag fz, flag lost]
          | .blank => [1, byte x.index, 0xFF, 0xFF, 0, 0, 0, 0, 0, 0, 0, 0]
          | .fill i fz lost => [2, byte x.index, byte i.val, 0xFF, 0, 0, 0, 0, 0, 0, flag fz, flag lost])) ++
        ([role.code, match role.leaderNamed with | none => 0xFF | some ld => byte ld.val] ++
          opt (match role with | .joining _ ph _ => some [ph.code] | _ => none) ++
          opt (match role with | .joining _ _ t => some [t] | _ => none) ++ opt ((s.lock l).lastRelayed.map time) ++
          opt (if role = .leader then
            some (list (((List.finRange 6).filter (fun x => (s.lock x).role.leaderNamed = some l)).map (fun x =>
              [byte x.val, (s.lock x).role.code]))) else none)) ++
        ([byte u.staged.length, byte u.active.length] ++ u16 u.generation.toNat ++
          opt (u.commit.map (fun c => [c.1, c.2.code])) ++ [byte (u.active.countP (fun e => e.dwell ≠ none))] ++
          u16 (u.active.map (fun e => e.dwell.getD 0)).sum))) ∧
    (∀ p : PortIx, view = 4 → index.toNat = p.val → answers ((s.outPort p).width.code ::
      list ((s.outPort p).carried.zipIdx.map (fun x => [byte x.1.val, byte x.2, (s.lane x.1).state.code]))))) ∧
  (∀ (s : State) (n : Nat),
    (∀ i r p x, PoolLaw s → s.ring i = some r → r.slots[p]? = some x → x.pool = n →
      slotHolder s n = byte (8 * i.val + p)) ∧
    ((∀ i, n ∉ poolsOf (s.ring i)) → slotHolder s n = 0xFF)) ∧
  ([SourceState.unset, .silent, .present, .lost].map SourceState.code = [0, 1, 2, 3] ∧
    (∀ c, [FramePhase.out, .inFrame c, .skipping].map FramePhase.code = [0, 1, 2]) ∧
    [StreamState.unbound, .stopped, .armed, .capturing, .stopping].map StreamState.code = [0, 1, 2, 3, 4] ∧
    [FreezeState.live, .freezePending, .frozen].map FreezeState.code = [0, 1, 2] ∧
    (∀ q t, [Fill.empty, .filling t, .ready q t, .retired q t].map Fill.code = [0, 1, 2, 3]) ∧
    [LaneState.unset, .ready, .starting, .running, .stopping].map LaneState.code = [0, 1, 2, 3, 4] ∧
    (∀ l ph t, [LockRole.free, .leader, .follower l, .joining l ph t].map LockRole.code = [0, 1, 2, 3]) ∧
    [JoinPhase.finishing, .waiting].map JoinPhase.code = [0, 1] ∧
    (∀ st d c, [StoreState.offline, .bringup st d, .ready, .fault c].map StoreState.code = [0, 1, 2, 3]) ∧
    [StoreCause.noResponse, .training, .unsupported, .access].map StoreCause.code = [0, 1, 2, 3] ∧
    [Scale.full, .half, .third].map Scale.code = [0, 1, 2] ∧ [LossPolicy.hold, .blank].map LossPolicy.code = [0, 1] ∧
    [Timing.atFrame, .atCycle].map Timing.code = [0, 1] ∧ [ListMode.cycle, .once].map ListMode.code = [0, 1] ∧
    [WidthMode.w8, .w16].map WidthMode.code = [8, 16] ∧
    (∀ (i : StreamIx) (sc : Scale) (d : Option Nat),
      ListEntry.bytes ⟨.stream i, d⟩ = [0, byte i.val, byte (d.getD 0)] ∧
      ListEntry.bytes ⟨.blank sc, d⟩ = [1, sc.code, byte (d.getD 0)]))

/-! ### Lanes and ports -/

/-- R83, R84: LANE_SETUP that passes its checks: the lane takes the setup and becomes READY, keeping its run's values unless it
was UNSET; its place on its port is kept, or it leaves the old port's list and is appended to the new one's. R83: a period other than
that of another lane on the chosen port is BAD_PARAM, in every state of the lane; a chosen port that carries two other lanes is
IN_USE. -/
def Obligations.LaneSetupMakesReady : Prop :=
  (∀ (s : State) (tag : Tag) (body : List Byte) (l : LaneIx) (p : PortIx), WaitingFor s .laneSetup tag body →
    body.length = 13 → fieldsInRange .laneSetup body = true → field body 0 = l.val → field body 8 = p.val →
    (∀ x o, x ∈ (s.outPort p).carried → x ≠ l → (s.lane x).setup = some o → o.period ≠ field2 body 5 →
      exec (.laneSetup tag body) s = .next (s.answered .laneSetup tag .badParam [])) ∧
    ((∀ x o, x ∈ (s.outPort p).carried → x ≠ l → (s.lane x).setup = some o → o.period = field2 body 5) →
      (s.lane l).state ∈ [LaneState.unset, .ready] → (s.lock l).role = .free →
      2 ≤ ((s.outPort p).carried.filter (fun x => x ≠ l)).length →
      exec (.laneSetup tag body) s = .next (s.answered .laneSetup tag .inUse []))) ∧
  ∀ (s : State) (tag : Tag) (body : List Byte) (l : LaneIx) (port : Option PortIx) (y cb cr : Byte),
    WaitingFor s .laneSetup tag body → body.length = 13 → fieldsInRange .laneSetup body = true → field body 0 = l.val →
    field body 8 = (match port with | none => 255 | some p => p.val) → body.drop 10 = [y, cb, cr] →
    (∀ p, port = some p → ∀ x ∈ (s.outPort p).carried, x ≠ l → ∀ o, (s.lane x).setup = some o →
      o.period = field2 body 5) →
    ((s.lane l).state ∈ [LaneState.starting, .running, .stopping] →
      exec (.laneSetup tag body) s = .next (s.answered .laneSetup tag .badState [])) ∧
    ((s.lane l).state ∈ [LaneState.unset, .ready] → (s.lock l).role ≠ .free →
      exec (.laneSetup tag body) s = .next (s.answered .laneSetup tag .inUse [])) ∧
    ((s.lane l).state ∈ [LaneState.unset, .ready] → (s.lock l).role = .free →
      (∀ p, port = some p → ((s.outPort p).carried.filter (fun x => x ≠ l)).length ≤ 1) →
      ∃ t : State, exec (.laneSetup tag body) s = .next t ∧
        t = { s.answered .laneSetup tag .ok [] with lanes := t.lanes, outPorts := t.outPorts } ∧
        (∀ x, x ≠ l → t.lane x = s.lane x) ∧
        t.lane l =
          (let g : LaneSetup := ⟨field2 body 1, field2 body 3, field2 body 5, if field body 7 = 0 then .cycle else .once,
            decide (field body 9 = 1), ⟨y, cb, cr⟩⟩
          if (s.lane l).state = .unset then
            { s.lane l with state := .ready, setup := some g, port := port, groupStart := 0, framesShown := 0,
                            passCount := 0, lastShown := [], frameNumber := 0, drained := false }
          else { s.lane l with state := .ready, setup := some g, port := port }) ∧
        ∀ p, t.outPort p =
          if (s.lane l).port = port then s.outPort p
          else { s.outPort p with carried :=
            (if (s.lane l).port = some p then (s.outPort p).carried.filter (fun x => x ≠ l) else (s.outPort p).carried) ++
              (if port = some p then [l] else []) })

/-- R41, R85, R119, R160: STREAM_FILL and STREAM_STAMP set one field of the record, in every bound and freeze state; PORT_SETUP
sets the width mode, BAD_STATE while a carried lane is STARTING, RUNNING or STOPPING; LINK_SET sets the class mask and leaves the
notices in the queue. -/
def Obligations.SettersWriteTheirField : Prop :=
  (∀ (s : State) (tag : Tag) (bi y cb cr : Byte) (i : StreamIx), WaitingFor s .streamFill tag [bi, y, cb, cr] →
    bi.toNat = i.val → (s.stream i).state ≠ .unbound →
    exec (.streamFill tag [bi, y, cb, cr]) s = .next { s.answered .streamFill tag .ok [] with
      streams := wr s.streams i { s.stream i with fill := ⟨y, cb, cr⟩ } }) ∧
  (∀ (s : State) (tag : Tag) (bi : Byte) (ws : List Half) (i : StreamIx),
    WaitingFor s .streamStamp tag (bi :: byte ws.length :: ws.flatMap (fun w => u16 w.toNat)) → ws.length ≤ 4 →
    bi.toNat = i.val → (s.stream i).state ≠ .unbound →
    exec (.streamStamp tag (bi :: byte ws.length :: ws.flatMap (fun w => u16 w.toNat))) s =
      .next { s.answered .streamStamp tag .ok [] with
        streams := wr s.streams i { s.stream i with words := ws } }) ∧
  (∀ (s : State) (tag : Tag) (bp : Byte) (p : PortIx) (w : WidthMode), WaitingFor s .portSetup tag [bp, w.code] →
    bp.toNat = p.val →
    exec (.portSetup tag [bp, w.code]) s = .next (
      if ∃ l ∈ (s.outPort p).carried, (s.lane l).state ∈ [LaneState.starting, .running, .stopping] then
        s.answered .portSetup tag .badState []
      else { s.answered .portSetup tag .ok [] with outPorts := wr s.outPorts p { s.outPort p with width := w } })) ∧
  (∀ (s : State) (tag : Tag) (mask : BitVec 5), WaitingFor s .linkSet tag [mask.setWidth 8] →
    exec (.linkSet tag [mask.setWidth 8]) s = .next { s.answered .linkSet tag .ok [mask.setWidth 8] with
      notices := { s.notices with mask := mask } })

/-- R93, R94, R95, R108, R137: LANE_START of a lane that is READY and routed, FREE or a LEADER: the claim is admitted and the lane
takes the first boundary of its run at once (R94 steps 3 to 6, its own OK after the replies of these): a frame starts with the
next output frame number and the timer is armed. The boundary of a LEADER is then relayed; that its own OK precedes the replies of
the lanes relayed to is the model's choice (log 16). A lane that is not READY, or is routed to no port, is BAD_STATE, and a claim
that does not fit is NO_BANDWIDTH, whatever the lane's lock role. -/
def Obligations.LaneStartTakesTheFirstBoundary : Prop :=
  (∀ (s : State) (tag : Tag) (bl : Byte) (l : LaneIx), WaitingFor s .laneStart tag [bl] → tagHeld s.link tag = false →
    bl.toNat = l.val → ((s.lane l).state ≠ .ready ∨ (s.lane l).port = none) →
    exec (.laneStart tag [bl]) s = .next (s.answered .laneStart tag .badState [])) ∧
  (∀ (s : State) (tag : Tag) (bl : Byte) (l : LaneIx) (g : LaneSetup), WaitingFor s .laneStart tag [bl] →
    tagHeld s.link tag = false → bl.toNat = l.val → (s.lane l).state = .ready → (s.lane l).port ≠ none →
    (s.lane l).setup = some g → 1000 < claimTotal s.claims + demand g.period 1 →
    exec (.laneStart tag [bl]) s = .next (s.answered .laneStart tag .noBandwidth [])) ∧
  ∀ (s : State) (tag : Tag) (bl : Byte) (l : LaneIx) (g : LaneSetup), WaitingFor s .laneStart tag [bl] →
    tagHeld s.link tag = false → bl.toNat = l.val → (s.lane l).state = .ready → (s.lane l).port ≠ none →
    (s.lane l).setup = some g → (s.lock l).role ∈ [LockRole.free, .leader] →
    claimTotal s.claims + demand g.period 1 ≤ 1000 →
    let claimed : State := { s with
      lanes := wr s.lanes l { s.lane l with admitted := some (demand g.period 1) }
      claims := s.claims ++ [⟨.lane l, demand g.period 1⟩]
      link := { s.link with inbound := s.link.inbound.tail } }
    let u := firstBoundary l s.deviceTime claimed
    let t : State := { u with link := { u.link with
      replies := u.link.replies ++ [⟨replyKind Kind.laneStart.code, tag, .first, .ok, []⟩] } }
    exec (.laneStart tag [bl]) s = .next (if (s.lock l).role = .leader then relay l s.deviceTime t else t) ∧
    (t.lane l).state = .running ∧ (t.lane l).admitted = some (demand g.period 1) ∧
    (t.lane l).groupStart = 0 ∧ (t.lane l).framesShown = 0 ∧ (t.lane l).passCount = 0 ∧
    (t.lane l).drained = false ∧ (t.lane l).frameNumber = (s.lane l).frameNumber + 1 ∧
    (t.lane l).timer = some (s.deviceTime + BitVec.ofNat 32 g.period) ∧
    (t.out l).frame = some ⟨.lines, none⟩ ∧ (t.trailer l).isSome = g.stamp ∧
    t.claims = s.claims ++ [⟨.lane l, demand g.period 1⟩] ∧
    t.link.replies.getLast? = some ⟨0x8E, tag, .first, .ok, []⟩ ∧
    (∀ x, x ≠ l → t.lane x = s.lane x ∧ t.list x = s.list x ∧ t.out x = s.out x) ∧
    t.streams = s.streams ∧ t.sources = s.sources ∧ t.locks = s.locks ∧ t.outPorts = s.outPorts ∧
    t.store = s.store ∧ t.dram = s.dram ∧ t.notices = s.notices

/-- R97 to R99, R139: LANE_STOP at once: a READY lane does not change; a STARTING lane returns to READY with its claim released
and its start withdrawn; an IMMEDIATE stop of a RUNNING or STOPPING lane aborts an unfinished frame, unpins the position of every
tile record (R11) and makes the lane READY with its timer and claim gone, and a LEADER's group is then dissolved (R109; after the
stop's own OK: log 30). R112: a stop of a JOINING lane completes the join first, and then an earlier stop: in WAITING with either
option, in FINISHING with IMMEDIATE. R97: a NORMAL stop of a STOPPING lane that is not WAITING is BAD_STATE. R74, R76: a pending
commit is applied before the lane becomes READY, its final OK before every other reply but that of a join. An unpin takes one pin
from the position a tile record names, and empties it where it is RETIRED and that was its last. -/
def Obligations.LaneStopEndsTheRun : Prop :=
  (∀ (s : State) (tag : Tag) (bl : Byte) (l : LaneIx), WaitingFor s .laneStop tag [bl, 0] → tagHeld s.link tag = false →
    bl.toNat = l.val → (s.lane l).state = .stopping → (∀ ld t, (s.lock l).role ≠ .joining ld .waiting t) →
    exec (.laneStop tag [bl, 0]) s = .next (s.answered .laneStop tag .badState [])) ∧
  (∀ (s : State) (tag : Tag) (bl : Byte) (l : LaneIx) (immediate : Bool),
    WaitingFor s .laneStop tag [bl, if immediate then 1 else 0] → tagHeld s.link tag = false → bl.toNat = l.val →
    ((s.lane l).state = .ready → exec (.laneStop tag [bl, if immediate then 1 else 0]) s =
      .next (s.answered .laneStop tag .ok [])) ∧
    ((s.lane l).state = .starting → ∃ t : State, exec (.laneStop tag [bl, if immediate then 1 else 0]) s = .next t ∧
      (t.lane l).state = .ready ∧ (t.lane l).pendingStart = none ∧ (t.lane l).admitted = none ∧
      (t.list l).commit = none ∧ t.claims = s.claims.filter (fun c => c.holder ≠ .lane l) ∧
      t.link.replies.getLast? = some ⟨0x8F, tag, .first, .ok, []⟩ ∧ (∀ x, x ≠ l → t.lane x = s.lane x) ∧
      (let u := applyPending l { s with link := { s.link with inbound := s.link.inbound.tail } }
       t.lists = u.lists ∧
       t.lane l = { u.lane l with
         state := .ready, drained := false, admitted := none, timer := none, pendingStart := none, pendingStop := none } ∧
       ∀ old x, (s.lane l).pendingStart = some old → u.link.outstanding.find? (fun y => y.tag = old) = some x →
         t.link = { u.link with
           outstanding := u.link.outstanding.eraseP (fun y => y.tag = old)
           replies := u.link.replies ++ [⟨replyKind x.op.kind.code, old, .final, .cancelled, []⟩,
             ⟨replyKind Kind.laneStop.code, tag, .first, .ok, []⟩] }) ∧
      t = { s with lanes := t.lanes, lists := t.lists, claims := t.claims, link := t.link })) ∧
  (∀ (s : State) (tag : Tag) (bl : Byte) (l : LaneIx), WaitingFor s .laneStop tag [bl, 1] →
    tagHeld s.link tag = false → bl.toNat = l.val → (s.lane l).state ∈ [LaneState.running, .stopping] →
    (s.lock l).role.joins = false →
    ∃ t : State, exec (.laneStop tag [bl, 1]) s = .next (
        if (s.lock l).role = .leader then dissolve (dissolveImmediate l s.deviceTime) l t else t) ∧
      (t.lane l).state = .ready ∧ (t.lane l).tiles = [] ∧ (t.lane l).timer = none ∧ (t.lane l).admitted = none ∧
      (t.lane l).drained = false ∧ (t.lane l).pendingStop = none ∧ (t.list l).commit = none ∧ (t.out l).frame = none ∧
      t.claims = s.claims.filter (fun c => c.holder ≠ .lane l) ∧
      t.link.replies.getLast? = some ⟨0x8F, tag, .first, .ok, []⟩ ∧
      (∀ p, (s.lane l).port = some p → t.outPort p =
        if (s.out l).frame = none then s.outPort p
        else { s.outPort p with aborted := satInc (s.outPort p).aborted }) ∧
      t.rings = ((s.lane l).tiles.foldl (fun u x => unpinTile x u) s).rings ∧
      (let cut := abortFrame l countAborted s
       t.outs = cut.outs ∧ t.trailers = cut.trailers ∧ t.outPorts = cut.outPorts) ∧
      (let u := applyPending l { s with link := { s.link with inbound := s.link.inbound.tail } }
       t.lists = u.lists ∧
       t.lane l = { u.lane l with
         state := .ready, drained := false, admitted := none, timer := none, tiles := [], pendingStart := none
         pendingStop := none } ∧
       ((s.lane l).pendingStop = none → t.link = { u.link with
         replies := u.link.replies ++ [⟨replyKind Kind.laneStop.code, tag, .first, .ok, []⟩] }) ∧
       ∀ old x, (s.lane l).pendingStop = some old → u.link.outstanding.find? (fun y => y.tag = old) = some x →
         t.link = { u.link with
           outstanding := u.link.outstanding.eraseP (fun y => y.tag = old)
           replies := u.link.replies ++ [⟨replyKind x.op.kind.code, old, .final, .ok, []⟩,
             ⟨replyKind Kind.laneStop.code, tag, .first, .ok, []⟩] }) ∧
      (∀ x, x ≠ l → t.lane x = s.lane x) ∧
      t = { s with
        lanes := t.lanes, lists := t.lists, rings := t.rings, outs := t.outs, trailers := t.trailers, outPorts := t.outPorts
        claims := t.claims, link := t.link, freeCount := t.freeCount }) ∧
  (∀ (s : State) (tag old : Tag) (bl : Byte) (l ld : LaneIx) (immediate : Bool) (phase : JoinPhase) (x : Entry),
    WaitingFor s .laneStop tag [bl, if immediate then 1 else 0] → tagHeld s.link tag = false → bl.toNat = l.val →
    (s.lane l).state ∈ [LaneState.running, .stopping] → (s.lock l).role = .joining ld phase old →
    (phase = .waiting ∨ immediate = true) →
    s.link.outstanding.find? (fun y => y.tag = old) = some x →
    (s.link.outstanding.map Entry.tag).Nodup →
    let u := applyPending l { s with link := { s.link with
      inbound := s.link.inbound.tail
      outstanding := s.link.outstanding.eraseP (fun y => y.tag = old)
      replies := s.link.replies ++ [⟨replyKind x.op.kind.code, old, .final, .ok, []⟩] } }
    let earlier := u.link.outstanding.filter (fun y => (s.lane l).pendingStop = some y.tag)
    ∃ t : State, exec (.laneStop tag [bl, if immediate then 1 else 0]) s = .next t ∧
      (t.lane l).state = .ready ∧ (t.lane l).timer = none ∧ (t.lane l).admitted = none ∧ (t.lane l).drained = false ∧
      (t.lock l).role = .follower ld ∧ t.claims = s.claims.filter (fun c => c.holder ≠ .lane l) ∧
      (phase = .finishing → (t.lane l).tiles = [] ∧ (t.out l).frame = none ∧
        (let cut := abortFrame l countAborted s
         t.outs = cut.outs ∧ t.trailers = cut.trailers ∧ t.outPorts = cut.outPorts) ∧
        t.rings = ((s.lane l).tiles.foldl (fun u y => unpinTile y u) s).rings) ∧
      (phase = .waiting → (t.lane l).tiles = (s.lane l).tiles ∧ t.rings = s.rings ∧ t.outs = s.outs ∧
        t.trailers = s.trailers ∧ t.outPorts = s.outPorts) ∧
      t.lists = u.lists ∧ (t.lane l).counters = (u.lane l).counters ∧ (t.lane l).lastShown = (u.lane l).lastShown ∧
      t.link = { u.link with
        outstanding := u.link.outstanding.filter (fun y => (s.lane l).pendingStop ≠ some y.tag)
        replies := u.link.replies ++ earlier.map (fun y => ⟨replyKind y.op.kind.code, y.tag, .final, .ok, []⟩) ++
          [⟨replyKind Kind.laneStop.code, tag, .first, .ok, []⟩] } ∧
      (∀ y, y ≠ l → t.lane y = s.lane y ∧ t.lock y = s.lock y) ∧
      t = { s with
        lanes := t.lanes, lists := t.lists, locks := t.locks, rings := t.rings, outs := t.outs, trailers := t.trailers
        outPorts := t.outPorts, claims := t.claims, link := t.link, freeCount := t.freeCount }) ∧
  (∀ (s : State) (x : Tile), x.names = none → unpinTile x s = s) ∧
  (∀ (s : State) (x : Tile) (i : StreamIx) (p : Nat) (r : Ring) (y : Slot), x.names = some (i, p) → s.ring i = some r →
    r.slots[p]? = some y →
    unpinTile x s = { s with rings := wr s.rings i (some { r with slots := r.slots.modify p (fun _ => { y with
      pins := y.pins - 1
      fill := match y.fill with
        | .retired q c => if y.pins ≤ 1 then .empty else .retired q c
        | f => f }) }) })

/-- R93, R94: PACING_TIMER_EXPIRY of a FREE or LEADER lane whose timer is due. A RUNNING lane takes the steps of a boundary in
their order, and a LEADER then relays it (R94 step 6, R108). A STOPPING lane ends its run at step 2: a frame not ended is cut
(R87, R100, R122), its tiles are unpinned, it becomes READY, and the stop's final OK is last, a pending commit having been applied
before (R74, R76); a LEADER's group is then dissolved (R109). The first boundary of a run has the same steps 3 to 6, from the
start of the list. Releasing the tiles unpins the position of each tile record and leaves none (R94 step 1). A timer that is off
does not expire; that one expires only when due is the model's choice (log 5). -/
def Obligations.BoundaryTakesItsSteps : Prop :=
  (∀ (s : State) (l : LaneIx) (e : Time), s.resetAsserted = false → (s.lane l).timer = some e →
    (s.deviceTime - e).toNat < 2147483648 → (s.lane l).state = .running →
    let steps := outputStep l s.deviceTime (tileStep l s.deviceTime (commitStep false l
      (releaseTiles l (abortFrame l countCut s))))
    ((s.lock l).role = .free → exec (.pacingTimerExpiry l) s = .next steps) ∧
    ((s.lock l).role = .leader → exec (.pacingTimerExpiry l) s = .next (relay l s.deviceTime steps))) ∧
  (∀ (s : State) (l : LaneIx) (e : Time) (tag : Tag) (x : Entry), s.resetAsserted = false →
    (s.lane l).timer = some e → (s.deviceTime - e).toNat < 2147483648 → (s.lane l).state = .stopping →
    (s.lock l).role ∈ [LockRole.free, .leader] → (s.lane l).pendingStop = some tag →
    let u := applyPending l s
    u.link.outstanding.find? (fun y => y.tag = tag) = some x →
    let t := finishStop l (releaseTiles l (abortFrame l countCut s))
    exec (.pacingTimerExpiry l) s = .next (
      if (s.lock l).role = .leader then dissolve (dissolveStopped l s.deviceTime) l t else t) ∧
    t.rings = ((s.lane l).tiles.foldl (fun u y => unpinTile y u) s).rings ∧ t.locks = s.locks ∧
    (let cut := abortFrame l countCut s
     t.outs = cut.outs ∧ t.trailers = cut.trailers ∧ t.outPorts = cut.outPorts) ∧
    (t.lane l).state = .ready ∧ (t.lane l).tiles = [] ∧ (t.lane l).timer = none ∧ (t.lane l).admitted = none ∧
    (t.lane l).drained = false ∧ (t.lane l).pendingStop = none ∧ (t.out l).frame = none ∧
    (t.lane l).frameNumber = (s.lane l).frameNumber ∧
    t.claims = s.claims.filter (fun c => c.holder ≠ .lane l) ∧ t.lists = u.lists ∧
    t.lane l = { u.lane l with
      state := .ready, drained := false, admitted := none, timer := none, tiles := [], pendingStart := none
      pendingStop := none } ∧
    t.link = { u.link with
      outstanding := u.link.outstanding.eraseP (fun y => y.tag = tag)
      replies := u.link.replies ++ [⟨replyKind x.op.kind.code, tag, .final, .ok, []⟩] } ∧
    (∀ y, y ≠ l → t.lane y = s.lane y) ∧ t.streams = s.streams ∧ t.dram = s.dram ∧ t.notices = s.notices) ∧
  (∀ (s : State) (l : LaneIx), s.resetAsserted = false → (s.lane l).timer = none →
    exec (.pacingTimerExpiry l) s = .next s) ∧
  (∀ (s : State) (l : LaneIx) (t : Time), firstBoundary l t s =
    outputStep l t (tileStep l t (commitStep true l { s with lanes := wr s.lanes l { s.lane l with
      state := .running, groupStart := 0, framesShown := 0, passCount := 0
      lastShown := List.replicate (s.list l).active.length none, drained := false } }))) ∧
  (∀ (s : State) (l : LaneIx), releaseTiles l s =
    { (s.lane l).tiles.foldl (fun u y => unpinTile y u) s with lanes := wr s.lanes l { s.lane l with tiles := [] } }) ∧
  ∀ (s : State) (l : LaneIx) (tag : Tag) (x : Entry), (s.lane l).pendingStop = some tag →
    let u := applyPending l s
    u.link.outstanding.find? (fun y => y.tag = tag) = some x →
    finishStop l s = { u with
      lanes := wr u.lanes l { u.lane l with
        state := .ready, drained := false, admitted := none, timer := none, pendingStart := none, pendingStop := none }
      claims := u.claims.filter (fun c => c.holder ≠ .lane l)
      link := { u.link with
        outstanding := u.link.outstanding.eraseP (fun y => y.tag = tag)
        replies := u.link.replies ++ [⟨replyKind x.op.kind.code, tag, .final, .ok, []⟩] } }

/-- R93, R94 step 6, R116: the output step: the frame number and count rise, the frame start marker is sent, the words of the
frame before it are kept beside the new frame's (log 14), the stamp unit takes its copy where stamp enable is on, and the timer of
a FREE lane or a LEADER is armed one period after the boundary; a FOLLOWER's or JOINING lane's is not. R116 to R118: the copy is of
the frame number, the generation, the pass count, the position, the dwell of the current group (0 for a drained lane and an empty
list), the device time of the boundary, the drained, empty-list and store-fault flags, and the tile records. -/
def Obligations.OutputStepStartsAFrame : Prop :=
  (∀ (s : State) (l : LaneIx) (t : Time), takeTrailer l t s =
    { frameNumber := (s.lane l).frameNumber
      generation := (s.list l).generation
      passCount := (s.lane l).passCount
      groupStart := (s.lane l).groupStart
      framesShown := (s.lane l).framesShown
      dwell := if (s.lane l).drained then 0
        else ((((s.list l).active.drop (s.lane l).groupStart).head?).bind ListEntry.dwell).getD 0
      time := t
      drained := (s.lane l).drained
      emptyList := decide ((s.list l).active = [])
      storeFault := match s.store.state with | .fault _ => true | _ => false
      tiles := (s.lane l).tiles }) ∧
  ∀ (s : State) (l : LaneIx) (t : Time) (g : LaneSetup), (s.lane l).setup = some g →
    let started := { s.lane l with
      frameNumber := (s.lane l).frameNumber + 1
      counters := { (s.lane l).counters with frames := satInc (s.lane l).counters.frames } }
    outputStep l t s = { s with
      lanes := wr s.lanes l { started with timer :=
        if (s.lock l).role ∈ [LockRole.free, .leader] then some (t + BitVec.ofNat 32 g.period) else (s.lane l).timer }
      trailers := wr s.trailers l (if g.stamp then some (takeTrailer l t { s with lanes := wr s.lanes l started }) else none)
      outs := wr s.outs l ⟨some ⟨.lines, none⟩, [markerWord (laneWidth s l) 0x01], (s.out l).sent⟩ }

/-- R88: the position at a boundary where the lane advances: the same group below its dwell, then the next group, then a wrap with
the pass count raised (CYCLE) or a drain with LIST_DONE (ONCE); a drained lane or an empty list does not move. The lane does not
advance where a commit is applied, where it stops, or where a run begins. R71 to R73: a pending commit is due AT_FRAME at every
boundary, AT_CYCLE where the lane would wrap or drain, is drained, or has an empty list, and either at the first boundary of a run.
R75: applying it makes the staged list active under the next generation, from group 0 with nothing last shown, counts it, and
answers it OK with that generation. -/
def Obligations.PositionAdvancesByTheDwell : Prop :=
  (∀ (s : State) (l : LaneIx), ((s.list l).active = [] ∨ (s.lane l).drained = true) → advance l s = s) ∧
  (∀ (s : State) (l : LaneIx), (commitDue false l s = true → commitStep false l s = applyPending l s) ∧
    (commitDue false l s = false → commitStep false l s = advance l s) ∧
    commitStep true l s = applyPending l s ∧
    ∀ t, laneBoundary l t s =
      (let u := releaseTiles l (abortFrame l countCut s)
      if (s.lane l).state = .stopping then finishStop l u
      else outputStep l t (tileStep l t (commitStep false l u)))) ∧
  (∀ (s : State) (l : LaneIx) (t : Tag) (first : Bool),
    ((s.list l).commit = none → commitDue first l s = false ∧ applyPending l s = s) ∧
    ((s.list l).commit = some (t, .atFrame) → commitDue first l s = true) ∧
    ((s.list l).commit = some (t, .atCycle) →
      (first = true ∨ (s.lane l).drained = true ∨ (s.list l).active = [] → commitDue first l s = true) ∧
      ∀ e d sc, ((s.list l).active.drop (s.lane l).groupStart).head? = some e → e.dwell = some d →
        entryScale s e = some sc → first = false → (s.lane l).drained = false →
        (commitDue first l s = true ↔
          (s.list l).active.length ≤ (s.lane l).groupStart + sc.groupSize ∧ (s.lane l).framesShown + 1 = d)) ∧
    ∀ tm x, (s.list l).commit = some (t, tm) → s.link.outstanding.find? (fun y => y.tag = t) = some x →
      applyPending l s = { s with
        lists := wr s.lists l { s.list l with
          active := (s.list l).staged, generation := (s.list l).generation + 1, commit := none }
        lanes := wr s.lanes l { s.lane l with
          groupStart := 0, framesShown := 0, passCount := 0, drained := false
          lastShown := List.replicate (s.list l).staged.length none
          counters := { (s.lane l).counters with commits := satInc (s.lane l).counters.commits } }
        link := { s.link with
          outstanding := s.link.outstanding.eraseP (fun y => y.tag = t)
          replies := s.link.replies ++
            [⟨replyKind x.op.kind.code, t, .final, .ok, u16 ((s.list l).generation + 1).toNat⟩] } }) ∧
  ∀ (s : State) (l : LaneIx) (g : LaneSetup) (e : ListEntry) (d : Nat) (sc : Scale),
    (s.lane l).setup = some g → ((s.list l).active.drop (s.lane l).groupStart).head? = some e → e.dwell = some d →
    entryScale s e = some sc → (s.lane l).drained = false →
    (((s.lane l).framesShown + 1 < d) →
      advance l s = { s with lanes := wr s.lanes l { s.lane l with framesShown := (s.lane l).framesShown + 1 } }) ∧
    (d ≤ (s.lane l).framesShown + 1 → (s.lane l).groupStart + sc.groupSize < (s.list l).active.length →
      advance l s = { s with lanes := wr s.lanes l { s.lane l with
        groupStart := (s.lane l).groupStart + sc.groupSize, framesShown := 0 } }) ∧
    (d ≤ (s.lane l).framesShown + 1 → (s.list l).active.length ≤ (s.lane l).groupStart + sc.groupSize →
      g.mode = .cycle → advance l s = { s with lanes := wr s.lanes l { s.lane l with
        groupStart := 0, framesShown := 0, passCount := (s.lane l).passCount + 1 } }) ∧
    (d ≤ (s.lane l).framesShown + 1 → (s.list l).active.length ≤ (s.lane l).groupStart + sc.groupSize →
      g.mode = .once → advance l s = raise (.listDone l (s.list l).generation) { s with lanes := wr s.lanes l { s.lane l with
        drained := true, groupStart := (s.list l).active.length, framesShown := 0 } })

/-- R89, R92: the tiles of a boundary are those of the entries of the current group, in increasing index; a drained lane and an
empty list have none. R10, R89, R90: a STREAM entry's tile: the newest position is pinned and shown with its sequence number,
captured-at time, age and repeat flag while the store is READY; with nothing to show it is a FILL tile and counts as one; a BLANK
entry's tile has the lane fill colour. R91, R92: the picture of k × k tiles: line y holds the k tiles of row y / Th from left to
right, each 2 × floor(W / 2k) pixels wide, and lane fill colour to the right of them and below; a frame without tiles is lane fill
colour throughout. A FILL or BLANK tile is of its colour; a STREAM tile is the stored line of its position (its address in the
slot: the pitch is the model's choice, log 11), cut at the tile's width or followed by its colour, which also stands below the
stored frame, in the second half of the pair an odd stored width leaves, from the line on which the store failed, and for a line
outside the detected capacity (the last is the model's choice, log 12). -/
def Obligations.StreamTileShowsTheNewest : Prop :=
  (∀ (s : State) (l : LaneIx) (t : Time),
    ((s.lane l).drained = true ∨ (s.list l).active = [] → tileStep l t s = s) ∧
    ∀ e sc, (s.lane l).drained = false → ((s.list l).active.drop (s.lane l).groupStart).head? = some e →
      entryScale s e = some sc →
      tileStep l t s = ((((s.list l).active.drop (s.lane l).groupStart).take sc.groupSize).zipIdx
        (s.lane l).groupStart).foldl (fun u x => selectTile l t x.2 x.1 u) s) ∧
  (∀ (s : State) (l : LaneIx) (t : Time) (j : Nat) (e : ListEntry) (i : StreamIx) (r : Ring) (p : Nat) (x : Slot)
    (q : Word) (c : Time), e.kind = .stream i → s.store.state = .ready → s.ring i = some r → r.ready.getLast? = some p →
    r.slots[p]? = some x → x.fill = .ready q c →
    let rep := decide (((s.lane l).lastShown[j]?).getD none = some q)
    selectTile l t j e s = { s with
      rings := wr s.rings i (some { r with slots := r.slots.modify p (fun y => { y with pins := y.pins + 1 }) })
      lanes := wr s.lanes l { s.lane l with
        tiles := (s.lane l).tiles ++ [⟨j, (s.stream i).fill, .shown i p q c (min (t - c).toNat 65535) rep
          (decide ((s.stream i).freeze = .frozen)) (streamLost s i) (s.stream i).words⟩]
        lastShown := (s.lane l).lastShown.set j (some q)
        counters := if rep then { (s.lane l).counters with repeats := satInc (s.lane l).counters.repeats }
                    else (s.lane l).counters } }) ∧
  (∀ (s : State) (l : LaneIx) (t : Time) (j : Nat) (e : ListEntry) (i : StreamIx), e.kind = .stream i →
    (s.store.state ≠ .ready ∨ ∀ r, s.ring i = some r → r.ready = []) →
    selectTile l t j e s = { s with lanes := wr s.lanes l { s.lane l with
      tiles := (s.lane l).tiles ++ [⟨j, (s.stream i).fill, .fill i (decide ((s.stream i).freeze = .frozen))
        (streamLost s i)⟩]
      counters := { (s.lane l).counters with fills := satInc (s.lane l).counters.fills } } }) ∧
  (∀ (s : State) (l : LaneIx) (t : Time) (j : Nat) (sc : Scale) (d : Option Nat) (g : LaneSetup),
    (s.lane l).setup = some g → selectTile l t j ⟨.blank sc, d⟩ s = { s with
      lanes := wr s.lanes l { s.lane l with tiles := (s.lane l).tiles ++ [⟨j, g.fill, .blank⟩] } }) ∧
  (∀ (s : State) (i : StreamIx),
    streamLost s i = true ↔ ∃ b, (s.stream i).binding = some b ∧ (s.source b.source).state = .lost) ∧
  let area := fun (c : Colour) (n : Nat) => (List.replicate (n / 2) [c.cb, c.y, c.cr, c.y]).flatten
  (∀ (s : State) (g : LaneSetup) (tiles : List Tile) (fl : Option Nat) (y k : Nat),
    let tw := 2 * (g.width / (2 * k))
    let th := g.height / k
    (tiles = [] → composedLine s g tiles fl y = area g.fill g.width) ∧
    (k ∈ [1, 2, 3] → tiles.length = k * k →
      (k * th ≤ y → composedLine s g tiles fl y = area g.fill g.width) ∧
      (y < k * th → composedLine s g tiles fl y =
        ((List.range k).flatMap (fun j => match tiles[y / th * k + j]? with
          | none => []
          | some x => tileLine s (decide (∃ n ∈ fl, n ≤ y)) x (y % th) tw)) ++ area g.fill (g.width - k * tw)))) ∧
  (∀ (s : State) (failed : Bool) (j y tw : Nat) (c : Colour) (i : StreamIx) (fz lost : Bool),
    tileLine s failed ⟨j, c, .blank⟩ y tw = area c tw ∧ tileLine s failed ⟨j, c, .fill i fz lost⟩ y tw = area c tw) ∧
  (∀ (s : State) (j y tw p age : Nat) (c : Colour) (i : StreamIx) (q : Word) (at_ : Time) (rep fz lost : Bool)
    (ws : List Half) (b : Binding) (r : Ring) (x : Slot) (f : SlotFormat), (s.stream i).binding = some b →
    s.ring i = some r → r.slots[p]? = some x → s.store.format = some f →
    let line := fun (failed : Bool) => tileLine s failed ⟨j, c, .shown i p q at_ age rep fz lost ws⟩ y tw
    let a := x.pool * (f.width * f.height * 2) + y * (f.width * 2)
    let w := b.storedWidth
    let inside := ∃ mib, s.store.capacity = some mib ∧ a + 2 * w ≤ mib * 1048576
    let stored := (List.range (2 * w)).map (fun n => Memory.read s.dram (a + n))
    line true = area c tw ∧
    (b.storedHeight ≤ y ∨ ¬ inside → line false = area c tw) ∧
    (y < b.storedHeight → inside → line false =
      if tw ≤ w then stored.take (2 * tw)
      else if w % 2 = 0 then stored ++ area c (tw - w)
      else stored ++ [c.cr, c.y] ++ area c (tw - w - 1)))

/-- R87, R100, R121, R122: the port reaches the trailer of a stamped frame, and the end of a frame: the frame is counted as ended
and the stamp unit's copy discarded. A frame cut or aborted loses whatever remained of it: the words that had gone out, how many
is a free value (log 13), never the whole of a trailer packet (R122), stand before the abort marker, the count rises and the copy
is discarded; nothing happens where no frame is in progress. R86: a phase carries idle code where no lane stands in its place, and
where its lane has no frame in progress. R87: the lines of a frame are each a line start marker and the composed line's bytes,
those below 0x06 sent as 0x06; a marker's code stands on both bytes of a phase in width mode 16, whose other phases carry two
bytes, the earlier low, and a pad byte after an odd run (log 20). R117, R121, R175: the packet is its length, the head, the tile
entries and the check over all of these; each of its bytes is sent as two code bytes. -/
def Obligations.OutputFrameReachesItsEnd : Prop :=
  (∀ (s : State) (l : LaneIx) (g : LaneSetup) (c : Trailer) (fl : Option Nat), s.resetAsserted = false →
    (s.out l).frame = some ⟨.lines, fl⟩ → s.trailer l = some c → (s.lane l).setup = some g → g.stamp = true →
    exec (.outputTrailerStart l) s = .next { s with
      outs := wr s.outs l { s.out l with
        frame := some ⟨.trailer (dataWords (laneWidth s l) ((c.packet l).flatMap codeBytes)), fl⟩
        sent := (s.out l).sent ++ frameLines s l fl ++ [markerWord (laneWidth s l) 0x03] } }) ∧
  (∀ (s : State) (l : LaneIx) (g : LaneSetup) (p : PortIx) (rest : List Half) (fl : Option Nat),
    s.resetAsserted = false → (s.out l).frame = some ⟨.trailer rest, fl⟩ → (s.lane l).setup = some g → g.stamp = true →
    (s.lane l).port = some p →
    exec (.outputFrameEnd l) s = .next { s with
      outPorts := wr s.outPorts p { s.outPort p with ended := satInc (s.outPort p).ended }
      outs := wr s.outs l { s.out l with
        frame := none, sent := (s.out l).sent ++ rest ++ [markerWord (laneWidth s l) 0x04] }
      trailers := wr s.trailers l none }) ∧
  (∀ (s : State) (l : LaneIx) (g : LaneSetup) (p : PortIx) (fl : Option Nat), s.resetAsserted = false →
    (s.out l).frame = some ⟨.lines, fl⟩ → (s.lane l).setup = some g → g.stamp = false → (s.lane l).port = some p →
    exec (.outputFrameEnd l) s = .next { s with
      outPorts := wr s.outPorts p { s.outPort p with ended := satInc (s.outPort p).ended }
      outs := wr s.outs l { s.out l with
        frame := none, sent := (s.out l).sent ++ frameLines s l fl ++ [markerWord (laneWidth s l) 0x04] }
      trailers := wr s.trailers l none }) ∧
  (∀ (s : State) (l : LaneIx) (count : OutPort → OutPort), (s.out l).frame = none → abortFrame l count s = s) ∧
  (∀ (s : State) (l : LaneIx) (p : PortIx) (fr : OutFrame) (count : OutPort → OutPort), (s.out l).frame = some fr →
    (s.lane l).port = some p →
    let words := match fr.stage with | .lines => frameLines s l fr.faultLine | .trailer rest => rest
    ∃ n : Nat, (∀ rest, fr.stage = .trailer rest → rest ≠ [] → n < rest.length) ∧ abortFrame l count s = { s with
      outPorts := wr s.outPorts p (count (s.outPort p))
      outs := wr s.outs l { s.out l with
        frame := none, sent := (s.out l).sent ++ words.take n ++ [markerWord (laneWidth s l) 0x05] }
      trailers := wr s.trailers l none
      freeCount := s.freeCount + 1 }) ∧
  (∀ r : OutPort, countCut r = { r with cut := satInc r.cut } ∧ countAborted r = { r with aborted := satInc r.aborted }) ∧
  (∀ (s : State) (l : LaneIx) (p : PortIx) (g : LaneSetup) (fl : Option Nat), (s.lane l).port = some p →
    (s.lane l).setup = some g →
    laneWidth s l = (s.outPort p).width ∧
    frameLines s l fl = (List.range g.height).flatMap (fun y =>
      markerWord (laneWidth s l) 0x02 :: dataWords (laneWidth s l)
        ((composedLine s g (s.lane l).tiles fl y).map (fun b => if b.toNat < 6 then 6 else b)))) ∧
  (∀ (a b : Byte) (bs : List Byte),
    markerWord .w8 a = a.setWidth 16 ∧ markerWord .w16 a = a ++ a ∧
    dataWords .w8 bs = bs.map (fun x => x.setWidth 16) ∧
    dataWords .w16 [] = [] ∧ dataWords .w16 [a] = [(0 : Byte) ++ a] ∧
    dataWords .w16 (a :: b :: bs) = (b ++ a) :: dataWords .w16 bs) ∧
  (∀ (l : LaneIx) (c : Trailer),
    let content := [byte l.val] ++ u32 c.frameNumber.toNat ++ u16 c.generation.toNat ++ u16 c.passCount.toNat ++
      [byte c.groupStart, byte c.framesShown, byte c.dwell] ++ u32 c.time.toNat ++
      [byte ((if c.drained then 1 else 0) + (if c.emptyList then 2 else 0) + (if c.storeFault then 4 else 0)),
        byte c.tiles.length] ++ c.tiles.flatMap Tile.bytes
    let covered := u16 (content.length + 4) ++ content
    c.packet l = covered ++ u16 (crc16 covered).toNat) ∧
  (∀ (j p age : Nat) (col : Colour) (i : StreamIx) (q : Word) (at_ : Time) (rep fz lost : Bool) (ws : List Half),
    let flags := (if fz then 2 else 0) + (if lost then 4 else 0)
    Tile.bytes ⟨j, col, .blank⟩ = [1, 0xFF, 0, 0] ∧
    Tile.bytes ⟨j, col, .fill i fz lost⟩ = [2, byte i.val, byte flags, 0] ∧
    Tile.bytes ⟨j, col, .shown i p q at_ age rep fz lost ws⟩ =
      [0, byte i.val, byte ((if rep then 1 else 0) + flags), byte ws.length] ++ u32 q.toNat ++ u16 age ++
        ws.flatMap (fun w => u16 w.toNat)) ∧
  (∀ b : Byte, codeBytes b = [byte (16 + b.toNat / 16), byte (16 + b.toNat % 16)]) ∧
  (∀ (s : State) (p : PortIx) (place : Nat),
    ((s.outPort p).carried[place]? = none → phaseWord s p place = 0) ∧
    ∀ l, (s.outPort p).carried[place]? = some l → (s.out l).frame = none → phaseWord s p place = 0)

/-! ### Lock groups -/

/-- R105, R110: LOCK_JOIN of a READY lane, and LOCK_LEAVE: roles change, the leader becomes LEADER, and FREE again when no other
lane names it. A RUNNING or STOPPING lane that leaves paces itself from its last relayed boundary; a STARTING one takes the first
boundary of its run, its start's final OK before the leave's OK. R111: a leave of a JOINING lane withdraws the join, CANCELLED
before the leave's OK: in FINISHING its timer and frame go on, in WAITING it takes a boundary of its own at once. R105: a join
with unequal periods, of a lane that is not FREE, or to a leader that is FOLLOWER or JOINING, is BAD_STATE. -/
def Obligations.JoinAndLeaveAGroup : Prop :=
  (∀ (s : State) (tag : Tag) (bf bl : Byte) (l ld : LaneIx), WaitingFor s .lockJoin tag [bf, bl] →
    tagHeld s.link tag = false → bf.toNat = l.val → bl.toNat = ld.val → l ≠ ld → (s.lane l).state = .ready →
    (s.lane ld).state ≠ .unset → (s.lock l).role = .free →
    (s.lane l).setup.map LaneSetup.period = (s.lane ld).setup.map LaneSetup.period →
    ((s.lock ld).role ∈ [LockRole.free, .leader] → exec (.lockJoin tag [bf, bl]) s =
      .next { s.answered .lockJoin tag .ok [] with
        locks := wr (wr s.locks l ⟨.follower ld, none⟩) ld { s.lock ld with role := .leader } }) ∧
    ((s.lock ld).role ∉ [LockRole.free, .leader] → exec (.lockJoin tag [bf, bl]) s =
      .next (s.answered .lockJoin tag .badState []))) ∧
  (∀ (s : State) (tag : Tag) (bf bl : Byte) (l ld : LaneIx), WaitingFor s .lockJoin tag [bf, bl] →
    tagHeld s.link tag = false → bf.toNat = l.val → bl.toNat = ld.val → l ≠ ld →
    ((s.lock l).role ≠ .free ∨ (s.lock ld).role ∉ [LockRole.free, .leader] ∨
      (s.lane l).setup.map LaneSetup.period ≠ (s.lane ld).setup.map LaneSetup.period) →
    exec (.lockJoin tag [bf, bl]) s = .next (s.answered .lockJoin tag .badState [])) ∧
  (∀ (s : State) (tag : Tag) (bl : Byte) (l ld : LaneIx), WaitingFor s .lockLeave tag [bl] → bl.toNat = l.val →
    (s.lock l).role.leaderNamed = some ld →
    let freed := wr s.locks l ⟨.free, none⟩
    let locks := if ∀ x, x ≠ l → (s.lock x).role.leaderNamed ≠ some ld then
      wr freed ld ⟨.free, none⟩ else freed
    let left := fun u : State => { u with link := { u.link with
      replies := u.link.replies ++ [⟨replyKind Kind.lockLeave.code, tag, .first, .ok, []⟩] } }
    let taken := { s.link with inbound := s.link.inbound.tail }
    ((s.lock l).role = .follower ld →
      ((s.lane l).state ∈ [LaneState.unset, .ready] →
        exec (.lockLeave tag [bl]) s = .next { s.answered .lockLeave tag .ok [] with locks := locks }) ∧
      (∀ g t, (s.lane l).state ∈ [LaneState.running, .stopping] → (s.lane l).setup = some g →
        (s.lock l).lastRelayed = some t →
        exec (.lockLeave tag [bl]) s = .next { s.answered .lockLeave tag .ok [] with
          locks := locks
          lanes := wr s.lanes l { s.lane l with timer := some (t + BitVec.ofNat 32 g.period) } }) ∧
      ((s.lane l).state = .starting → exec (.lockLeave tag [bl]) s =
        .next (left { startRun l s.deviceTime { s with link := taken, locks := freed } with locks := locks }))) ∧
    (∀ (phase : JoinPhase) (old : Tag) (x : Entry), (s.lock l).role = .joining ld phase old →
      s.link.outstanding.find? (fun y => y.tag = old) = some x →
      let dropped := { s with locks := locks, link := { taken with
        outstanding := s.link.outstanding.eraseP (fun y => y.tag = old)
        replies := s.link.replies ++ [⟨replyKind x.op.kind.code, old, .final, .cancelled, []⟩] } }
      exec (.lockLeave tag [bl]) s = .next (left (match phase with
        | .finishing => dropped
        | .waiting => laneBoundary l s.deviceTime dropped)))) ∧
  (∀ (s : State) (tag : Tag) (bl : Byte) (l : LaneIx), WaitingFor s .lockLeave tag [bl] → bl.toNat = l.val →
    (s.lock l).role ∈ [LockRole.free, .leader] →
    exec (.lockLeave tag [bl]) s = .next (s.answered .lockLeave tag .badState []))

/-- R107, R108: what a relayed boundary does to each receiving lane, and the timer expiry of a lane JOINING in FINISHING: an
unfinished frame is cut and its tiles unpinned, and then, its timer off, a RUNNING lane waits, and a STOPPING one completes the
join and then the stop. A relay and the end of a group (R109) reach the lanes that name the leader in increasing lane number, and
at the end of the group the leader becomes FREE after the last of them. R109: what the end of the leader's run does to each of
them, in the column for a stop completed at a boundary and in that for an IMMEDIATE stop. R96: a STARTING lane's start receives
its final OK with the number of its first frame, after that of a commit the first boundary applies (R73). R150: completing an
outstanding entry removes it and queues its final reply. -/
def Obligations.RelayActsByRoleAndState : Prop :=
  (∀ (s : State) (t : Time) (l ld : LaneIx), (s.lock l).role = .follower ld →
    let noted := fun u : State => { u with locks := wr u.locks l { u.lock l with lastRelayed := some t } }
    ((s.lane l).state ∈ [LaneState.unset, .ready] → relayTo t l s = s) ∧
    ((s.lane l).state = .starting → relayTo t l s = noted (startRun l t s)) ∧
    ((s.lane l).state ∈ [LaneState.running, .stopping] → relayTo t l s = noted (laneBoundary l t s))) ∧
  (∀ (s : State) (t : Time) (l ld : LaneIx) (tag : Tag),
    ((s.lock l).role = .joining ld .finishing tag → relayTo t l s = s) ∧
    ((s.lock l).role = .joining ld .waiting tag →
      relayTo t l s = (
        let u := laneBoundary l t (complete tag .ok [] { s with
          locks := wr s.locks l { s.lock l with role := .follower ld } })
        { u with locks := wr u.locks l { u.lock l with lastRelayed := some t } }))) ∧
  (∀ (s : State) (tag : Tag) (res : Result) (fields : List Byte) (x : Entry),
    s.link.outstanding.find? (fun y => y.tag = tag) = some x →
    complete tag res fields s = { s with link := { s.link with
      outstanding := s.link.outstanding.eraseP (fun y => y.tag = tag)
      replies := s.link.replies ++ [⟨replyKind x.op.kind.code, tag, .final, res, fields⟩] } }) ∧
  (∀ (s : State) (l ld : LaneIx) (tag : Tag) (e : Time), s.resetAsserted = false → (s.lane l).timer = some e →
    (s.deviceTime - e).toNat < 2147483648 → (s.lock l).role = .joining ld .finishing tag →
    let u := releaseTiles l (abortFrame l countCut s)
    let ended := fun role : LockRole => { u with
      lanes := wr u.lanes l { s.lane l with tiles := [], timer := none }
      locks := wr s.locks l { s.lock l with role := role } }
    ((s.lane l).state = .running → exec (.pacingTimerExpiry l) s = .next (ended (.joining ld .waiting tag))) ∧
    ((s.lane l).state = .stopping → exec (.pacingTimerExpiry l) s =
      .next (finishStop l (complete tag .ok [] (ended (.follower ld)))))) ∧
  (∀ (s : State) (t : Time) (ld : LaneIx) (column : LaneIx → State → State),
    let reach := fun (f : LaneIx → State → State) =>
      (List.finRange 6).foldl (fun u l => if (u.lock l).role.leaderNamed = some ld then f l u else u) s
    relay ld t s = reach (relayTo t) ∧
    dissolve column ld s = { reach column with locks := wr (reach column).locks ld ⟨.free, none⟩ }) ∧
  (∀ (s : State) (t : Time) (l ld : LaneIx), (s.lock l).role = .follower ld →
    let lost := fun u : State => raise (.lockLost l ld) { u with locks := wr u.locks l ⟨.free, none⟩ }
    let armed := fun (e : Time) (u : State) => { u with lanes := wr u.lanes l { u.lane l with
      timer := (u.lane l).setup.map (fun g => e + BitVec.ofNat 32 g.period) } }
    ((s.lane l).state ∈ [LaneState.unset, .ready] →
      dissolveStopped ld t l s = lost s ∧ dissolveImmediate ld t l s = lost s) ∧
    ((s.lane l).state = .starting →
      dissolveStopped ld t l s = lost (armed t (startRun l t s)) ∧
      dissolveImmediate ld t l s =
        raise (.lockLost l ld) (startRun l t { s with locks := wr s.locks l ⟨.free, none⟩ })) ∧
    ((s.lane l).state = .running → dissolveStopped ld t l s = lost (armed t (laneBoundary l t s))) ∧
    ((s.lane l).state = .stopping → dissolveStopped ld t l s = lost (laneBoundary l t s)) ∧
    (∀ e, (s.lane l).state ∈ [LaneState.running, .stopping] → (s.lock l).lastRelayed = some e →
      dissolveImmediate ld t l s = lost (armed e s))) ∧
  (∀ (s : State) (t : Time) (l ld : LaneIx) (phase : JoinPhase) (old : Tag) (x : Entry),
    (s.lock l).role = .joining ld phase old → s.link.outstanding.find? (fun y => y.tag = old) = some x →
    let dropped := { s with
      locks := wr s.locks l ⟨.free, none⟩
      link := { s.link with
        outstanding := s.link.outstanding.eraseP (fun y => y.tag = old)
        replies := s.link.replies ++ [⟨replyKind x.op.kind.code, old, .final, .leaderStopped, []⟩] } }
    ∀ column ∈ [dissolveStopped, dissolveImmediate], column ld t l s = match phase with
      | .finishing => dropped
      | .waiting => laneBoundary l t dropped) ∧
  (∀ (s : State) (t : Time) (l : LaneIx) (tag : Tag) (x : Entry), (s.lane l).pendingStart = some tag →
    (applyPending l s).link.outstanding.find? (fun y => y.tag = tag) = some x →
    startRun l t s =
      (let u := firstBoundary l t { s with lanes := wr s.lanes l { s.lane l with pendingStart := none } }
      let k := (applyPending l s).link
      { u with link := { k with
        outstanding := k.outstanding.eraseP (fun y => y.tag = tag)
        replies := k.replies ++
          [⟨replyKind x.op.kind.code, tag, .final, .ok, u32 ((s.lane l).frameNumber + 1).toNat⟩] } }))

/-! ### Frame store -/

/-- R125, R126, R127: the four events of bring-up. One that fails leaves the store in FAULT with its cause and raises STORE_FAULT;
the frames in progress whose trailer has not begun carry the store-fault flag (R118). That the content of the DRAM stays through
the training stage, whose test patterns the model leaves out, is the model's choice (log 23); that a stage or a deadline ends only
where it stands is log 5, and the lines read when the store failed are a free value (log 13). -/
def Obligations.BringupMovesThroughItsStages : Prop :=
  ∀ (s : State) (d : Time), s.resetAsserted = false →
    let fails := fun (cmd : Instr) (c : StoreCause) => ∃ t : State, exec cmd s = .next t ∧ FaultReachesFrames s t ∧
      t = { raise (.storeFault c) s with
        store := ⟨.fault c, none, none, 0, []⟩, outs := t.outs, trailers := t.trailers, freeCount := t.freeCount }
    (s.store.state = .bringup .probe d →
      exec (.bringupProbeDone true) s = .next { s with store := { s.store with state := .bringup .training d } } ∧
      fails (.bringupProbeDone false) .noResponse) ∧
    (s.store.state = .bringup .training d →
      exec (.bringupTrainingDone true) s = .next { s with store := { s.store with state := .bringup .sizing d } } ∧
      fails (.bringupTrainingDone false) .training) ∧
    (s.store.state = .bringup .sizing d → ∀ mib : Nat,
      (mib = 128 → exec (.bringupSizingDone mib) s = .next (raise (.storeReady 128 32)
        { s with store := ⟨.ready, some 128, some ⟨1920, 1088⟩, 32, List.range 32⟩ })) ∧
      (mib = 256 ∨ mib = 512 → exec (.bringupSizingDone mib) s = .next (raise (.storeReady mib 64)
        { s with store := ⟨.ready, some mib, some ⟨1920, 1088⟩, 64, List.range 64⟩ })) ∧
      (mib ≠ 128 → mib ≠ 256 → mib ≠ 512 → fails (.bringupSizingDone mib) .unsupported)) ∧
    (∀ stage, s.store.state = .bringup stage d → (s.deviceTime - d).toNat < 2147483648 →
      fails .bringupDeadlineExpiry (match stage with
        | .probe => .noResponse
        | .training => .training
        | .sizing => .unsupported))

/-- R130, R131: DRAM_ACCESS_FAILURE while the store is READY: FAULT with cause ACCESS, every FILLING position EMPTY, the rest of
the pool and the memory as they stood, STORE_FAULT raised, and the frames in progress fill their STREAM tiles from the line
reached on, their trailers carrying the flag where the packet has not begun (R92, R118); in any other store state nothing changes.
The lines the composer had read are a free value (log 13). R33, R37, R40: each stream with a fill counts it as discarded and
settles what waited on it: a freeze, FROZEN, then a stop, STOPPED with its claim released, each with its final OK of cause
DISCARDED and ACCESS; the streams answer in increasing number (log 17). -/
def Obligations.AccessFailureStopsTheStore : Prop :=
  (∀ s : State, s.resetAsserted = false → s.store.state = .ready →
    ∃ t : State, exec .dramAccessFailure s = .next t ∧ FaultReachesFrames s t ∧
      t.store = { s.store with state := .fault .access } ∧
      (∀ i, t.ring i = (s.ring i).map (fun r => match r.filling with | none => r | some p => r.setFill p .empty)) ∧
      (∀ i, fillingAt s i = none → t.stream i = s.stream i) ∧
      (∀ i, fillingAt s i ≠ none → t.stream i = { s.stream i with
        state := if (s.stream i).pendingStop = none then (s.stream i).state else .stopped
        admitted := if (s.stream i).pendingStop = none then (s.stream i).admitted else none
        freeze := if (s.stream i).pendingFreeze = none then (s.stream i).freeze else .frozen
        pendingStop := none
        pendingFreeze := none
        counters := { (s.stream i).counters with discarded := satInc (s.stream i).counters.discarded } }) ∧
      t.claims = s.claims.filter (fun c =>
        decide (∀ i, c.holder = .stream i → fillingAt s i = none ∨ (s.stream i).pendingStop = none)) ∧
      ((s.link.outstanding.map Entry.tag).Nodup →
        (∀ i tag, (s.stream i).pendingFreeze = some tag → ⟨tag, .streamFreeze i⟩ ∈ s.link.outstanding) →
        (∀ i tag, (s.stream i).pendingStop = some tag → ⟨tag, .streamStop i⟩ ∈ s.link.outstanding) →
        t.link = { s.link with
          outstanding := s.link.outstanding.filter (fun e => decide (∀ i, fillingAt s i = none ∨
            ((s.stream i).pendingFreeze ≠ some e.tag ∧ (s.stream i).pendingStop ≠ some e.tag)))
          replies := s.link.replies ++ (List.finRange 20).flatMap (fun i => if fillingAt s i = none then [] else
            (s.stream i).pendingFreeze.toList.map (fun tag => ⟨replyKind Kind.streamFreeze.code, tag, .final, .ok,
              [2, 6] ++ u32 ((newestSeq s i).getD 0).toNat⟩) ++
            (s.stream i).pendingStop.toList.map (fun tag => ⟨replyKind Kind.streamStop.code, tag, .final, .ok,
              [2, 6, 0, 0, 0, 0]⟩)) }) ∧
      t.dram = s.dram ∧ t.sources = s.sources ∧ t.lanes = s.lanes ∧ t.lists = s.lists ∧ t.locks = s.locks ∧
      t.outPorts = s.outPorts ∧ t.capturePorts = s.capturePorts ∧
      t.notices = (raise (.storeFault .access) s).notices) ∧
  (∀ s : State, s.resetAsserted = false → s.store.state ≠ .ready → exec .dramAccessFailure s = .next s)

/-- R132: STORE_CONFIG: BAD_PARAM for a field out of its range or beyond the detected capacity, NOT_READY, BAD_STATE while a
stream is bound, else the format, the count and a free set of every slot. -/
def Obligations.StoreConfigReplacesThePool : Prop :=
  ∀ (s : State) (tag : Tag) (body : List Byte), WaitingFor s .storeConfig tag body → body.length = 5 →
    exec (.storeConfig tag body) s = .next (
      let w := field2 body 0
      let h := field2 body 2
      let n := field body 4
      if w < 64 ∨ 1920 < w ∨ h < 32 ∨ 1088 < h ∨ n < 1 ∨ 64 < n then s.answered .storeConfig tag .badParam []
      else if (match s.store.capacity with | none => false | some c => decide (c * 1048576 < n * (w * h * 2))) = true then
        s.answered .storeConfig tag .badParam []
      else if s.store.state ≠ .ready then s.answered .storeConfig tag .notReady []
      else if ∃ i, (s.stream i).state ≠ .unbound then s.answered .storeConfig tag .badState []
      else { s.answered .storeConfig tag .ok (u32 (w * h * 2) ++ [byte n]) with
        store := { s.store with format := some ⟨w, h⟩, count := n, free := List.range n } })

/-! ### Counters, cancel and notices -/

/-- R27, R42, R59, R61, R100, R159: COUNTERS returns the holder's counters in its owner's order, clears the flag of a SOURCE or a
STREAM, and with the clear option sets the counters read to 0. 00_scope.md, R26, R59: a counter rises by one for each event and
holds its largest value. -/
def Obligations.CountersAreReadThenCleared : Prop :=
  (∀ (w : Nat) (x : BitVec w), satInc x = (if x = BitVec.allOnes w then x else x + 1) ∧
    (satInc x).toNat = min (x.toNat + 1) (2 ^ w - 1)) ∧
  ∀ (s : State) (tag : Tag) (kind index : Byte) (clear : Bool),
    WaitingFor s .counters tag [kind, index, if clear then 1 else 0] →
    let read := fun cs : List Word => s.answered .counters tag .ok (kind :: index :: cs.flatMap (fun c => u32 c.toNat))
    (∀ n : SourceIx, kind = 0 → index.toNat = n.val →
      exec (.counters tag [kind, index, if clear then 1 else 0]) s = .next (
        let c := (s.source n).counters
        let p : CaptureIx := ⟨n.val / 4, by omega⟩
        let j : CaptureIx := ⟨n.val % 4, by omega⟩
        let u := read [c.accepted, c.overRate, c.short, c.long, c.badLine, c.broken, c.lostMidFrame,
          rd (s.capturePort p).unclaimed j]
        if clear then { u with
          sources := wr s.sources n { s.source n with errorFlag := false, counters := ⟨0, 0, 0, 0, 0, 0, 0⟩ }
          capturePorts := wr s.capturePorts p { s.capturePort p with unclaimed := wr (s.capturePort p).unclaimed j 0 } }
        else { u with sources := wr s.sources n { s.source n with errorFlag := false } })) ∧
    (∀ i : StreamIx, kind = 1 → index.toNat = i.val →
      exec (.counters tag [kind, index, if clear then 1 else 0]) s = .next (
        let c := (s.stream i).counters
        { read [c.captured, c.dropsStall, c.dropsFrozen, c.dropsStore, c.discarded] with
          streams := wr s.streams i { s.stream i with
            dropFlag := false, counters := if clear then ⟨0, 0, 0, 0, 0⟩ else c } })) ∧
    (∀ l : LaneIx, kind = 2 → index.toNat = l.val →
      exec (.counters tag [kind, index, if clear then 1 else 0]) s = .next (
        let c := (s.lane l).counters
        let u := read [c.frames, c.repeats, c.fills, c.commits]
        if clear then { u with lanes := wr s.lanes l { s.lane l with counters := ⟨0, 0, 0, 0⟩ } } else u)) ∧
    (∀ p : PortIx, kind = 3 → index.toNat = p.val →
      exec (.counters tag [kind, index, if clear then 1 else 0]) s = .next (
        let u := read [(s.outPort p).ended, (s.outPort p).aborted, (s.outPort p).cut]
        if clear then { u with outPorts := wr s.outPorts p { s.outPort p with ended := 0, aborted := 0, cut := 0 } }
        else u)) ∧
    (kind = 4 → index = 0 →
      exec (.counters tag [kind, index, if clear then 1 else 0]) s = .next (
        let c := s.link.counters
        let u := read [c.accepted, c.checkErrors, c.truncated, c.overruns, c.repliesSent, c.noticesSent, c.interrupted]
        if clear then { u with link := { u.link with counters := ⟨0, 0, 0, 0, 0, 0, 0⟩ } } else u))

/-- R35, R38, R77, R99, R111, R155: CANCEL: NOT_PENDING where no entry holds the tag; else the owner withdraws the operation, the
entry leaves the table with CANCELLED, and the CANCEL is answered OK after it. R76, R96: a withdrawn start makes the lane READY, a
pending commit being applied and answered first. -/
def Obligations.CancelWithdrawsTheOperation : Prop :=
  ∀ (s : State) (tag t : Tag), WaitingFor s .cancel tag [t] →
    (s.link.outstanding.find? (fun x => x.tag = t) = none →
      exec (.cancel tag [t]) s = .next (s.answered .cancel tag .notPending [])) ∧
    (∀ e, s.link.outstanding.find? (fun x => x.tag = t) = some e →
      let withdrawn : State := { s with link := { s.link with
        inbound := s.link.inbound.tail
        outstanding := s.link.outstanding.eraseP (fun x => x.tag = t)
        replies := s.link.replies ++ [⟨replyKind e.op.kind.code, t, .final, .cancelled, []⟩,
          ⟨replyKind Kind.cancel.code, tag, .first, .ok, []⟩] } }
      (∀ i, e.op = .streamStop i → exec (.cancel tag [t]) s = .next { withdrawn with
        streams := wr s.streams i { s.stream i with state := .capturing, pendingStop := none } }) ∧
      (∀ i, e.op = .streamFreeze i → exec (.cancel tag [t]) s = .next { withdrawn with
        streams := wr s.streams i { s.stream i with freeze := .live, pendingFreeze := none } }) ∧
      (∀ l, e.op = .listCommit l → exec (.cancel tag [t]) s = .next { withdrawn with
        lists := wr s.lists l { s.list l with commit := none } }) ∧
      (∀ l, e.op = .laneStop l → exec (.cancel tag [t]) s = .next { withdrawn with
        lanes := wr s.lanes l { s.lane l with state := .running, pendingStop := none } }) ∧
      (∀ l, e.op = .laneStart l → (s.lane l).state = .starting →
        let u := applyPending l { s with link := { s.link with inbound := s.link.inbound.tail } }
        u.link.outstanding.find? (fun x => x.tag = t) = some e →
        exec (.cancel tag [t]) s = .next { u with
          lanes := wr u.lanes l { u.lane l with state := .ready, drained := false, admitted := none, timer := none,
                                                pendingStart := none, pendingStop := none }
          claims := s.claims.filter (fun c => c.holder ≠ .lane l)
          link := { u.link with
            outstanding := u.link.outstanding.eraseP (fun x => x.tag = t)
            replies := u.link.replies ++ [⟨replyKind e.op.kind.code, t, .final, .cancelled, []⟩,
              ⟨replyKind Kind.cancel.code, tag, .first, .ok, []⟩] } }) ∧
      (∀ l ld phase old, e.op = .lockJoin l → (s.lock l).role = .joining ld phase old →
        let locks := if ∀ x, x ≠ l → (s.lock x).role.leaderNamed ≠ some ld then
          wr (wr s.locks l ⟨.free, none⟩) ld ⟨.free, none⟩ else wr s.locks l ⟨.free, none⟩
        exec (.cancel tag [t]) s = .next (match phase with
          | .finishing => { withdrawn with locks := locks }
          | .waiting =>
            let u := laneBoundary l s.deviceTime { s with locks := locks, link := { s.link with
              inbound := s.link.inbound.tail
              outstanding := s.link.outstanding.eraseP (fun x => x.tag = t)
              replies := s.link.replies ++ [⟨replyKind e.op.kind.code, t, .final, .cancelled, []⟩] } }
            { u with link := { u.link with
              replies := u.link.replies ++ [⟨replyKind Kind.cancel.code, tag, .first, .ok, []⟩] } })))

/-- R161, R162, R172: a notice handed over: not created while its class is disabled; discarded and counted in the loss count while
the queue holds 32; else entered as untransmitted with the next sequence number and the device time. START, NOTICES_LOST and
STORE_FAULT belong to no class; R172: the class of each other kind by its bit of the mask, LINK 0, STORE 1, SOURCE 2, STREAM 3,
LANE 4. The flags against repeated notices are set whatever step applied. -/
def Obligations.RaisedNoticeIsEnteredOrLost : Prop :=
  (∀ c n f, (NoticeBody.start c).maskBit = none ∧ (NoticeBody.noticesLost n).maskBit = none ∧
    (NoticeBody.storeFault f).maskBit = none) ∧
  (∀ (got : Option Tag) (tag : Tag) (mib k : Nat) (n : SourceIx) (c : Cause) (i : StreamIx) (why : DropReason) (l ld : LaneIx)
    (g : Half),
    [NoticeBody.linkCheck got, .linkTruncated got, .linkOverrun tag].map NoticeBody.maskBit = [some 0, some 0, some 0] ∧
    (NoticeBody.storeReady mib k).maskBit = some 1 ∧
    [NoticeBody.sourcePresent n, .sourceLost n, .frameError n c].map NoticeBody.maskBit = [some 2, some 2, some 2] ∧
    (NoticeBody.captureDrop i why).maskBit = some 3 ∧
    [NoticeBody.listDone l g, .lockLost l ld].map NoticeBody.maskBit = [some 4, some 4]) ∧
  (∀ (s : State) (c : Cause) (n : SourceIx), ((frameError c n s).source n).errorFlag = true) ∧
  (∀ (s : State) (c : DropReason) (i : StreamIx), ((noteDrop c i s).stream i).dropFlag = true) ∧
  ∀ (s : State) (b : NoticeBody),
    (∀ n, b.maskBit = some n → s.notices.mask.getLsbD n = false → raise b s = s) ∧
    ((∀ n, b.maskBit = some n → s.notices.mask.getLsbD n = true) →
      (32 ≤ s.notices.transmitted.length + s.notices.untransmitted.length →
        raise b s = { s with notices := { s.notices with
          lost := if s.notices.lost = 65535 then 65535 else s.notices.lost + 1 } }) ∧
      (s.notices.transmitted.length + s.notices.untransmitted.length < 32 →
        raise b s = { s with notices := { s.notices with
          untransmitted := s.notices.untransmitted ++ [⟨s.notices.nextSeq, s.deviceTime, b⟩]
          nextSeq := s.notices.nextSeq + 1 } }))

/-- R164, R165: NOTICE_ACK removes the transmitted notices up to the one named and then reports the loss count; NOTICE_RESEND
marks every transmitted notice untransmitted. -/
def Obligations.AckRemovesAndResendMarks : Prop :=
  (∀ (s : State) (tag : Tag) (q : Half), WaitingFor s .noticeAck tag (u16 q.toNat) →
    ((∀ n ∈ s.notices.transmitted, n.seq ≠ q) →
      exec (.noticeAck tag (u16 q.toNat)) s = .next (s.answered .noticeAck tag .badParam [])) ∧
    (∀ before n rest, s.notices.transmitted = before ++ n :: rest → n.seq = q → (∀ m ∈ before, m.seq ≠ q) →
      exec (.noticeAck tag (u16 q.toNat)) s =
        .next { s.answered .noticeAck tag .ok [byte (before.length + 1)] with
          notices := if s.notices.lost = 0 then { s.notices with transmitted := rest }
            else { s.notices with
              transmitted := rest, lost := 0, nextSeq := s.notices.nextSeq + 1
              untransmitted := s.notices.untransmitted ++
                [⟨s.notices.nextSeq, s.deviceTime, .noticesLost s.notices.lost⟩] } })) ∧
  (∀ (s : State) (tag : Tag), WaitingFor s .noticeResend tag [] →
    exec (.noticeResend tag []) s =
      .next { s.answered .noticeResend tag .ok [byte s.notices.transmitted.length] with
        notices := { s.notices with
          transmitted := [], untransmitted := s.notices.transmitted ++ s.notices.untransmitted } })

/-! ### The invariants -/

/-- R6, R13: no frame is ever torn. Every step keeps what confines the writer to the slot of a FILLING position (R5, R24, R54, R124);
it changes no byte of the frame store outside the slots of the FILLING positions, so every byte of the slot of a READY or RETIRED
position reads as before. The memory itself keeps its canonical form (log 10, the model's choice), so that equal memories are equal
data. -/
def Obligations.MemoryStaysCanonical : Prop :=
  (∀ s t : State, step s = .next t → Memory.wf s.dram = true → Memory.wf t.dram = true) ∧
  (∀ s t : State, step s = .next t → WriterLaw s → WriterLaw t) ∧
  (∀ (s t : State) (a : Nat), step s = .next t → Memory.wf s.dram = true → WriterLaw s →
    (∀ (i : StreamIx) (r : Ring) (p : Nat) (x : Slot) (f : SlotFormat), s.ring i = some r → r.slots[p]? = some x →
      x.fill.isFilling = true → s.store.format = some f →
      a < x.pool * (f.width * f.height * 2) ∨ (x.pool + 1) * (f.width * f.height * 2) ≤ a) →
    t.dram.read a = s.dram.read a) ∧
  (∀ (s t : State) (i : StreamIx) (r : Ring) (p : Nat) (x : Slot) (q : Word) (c : Time) (f : SlotFormat) (a : Nat),
    step s = .next t → Memory.wf s.dram = true → WriterLaw s → PoolLaw s → s.ring i = some r → r.slots[p]? = some x →
    x.fill = .ready q c ∨ x.fill = .retired q c → s.store.format = some f →
    x.pool * (f.width * f.height * 2) ≤ a → a < (x.pool + 1) * (f.width * f.height * 2) → t.dram.read a = s.dram.read a)

/-- R135, R137: the admitted total never exceeds 1000 units. R135, R138, R139: each holder has at most one claim, whose units are
the admitted demand its record holds, and an idle stream or lane has none. -/
def Obligations.BudgetNeverExceedsCapacity : Prop :=
  (∀ s t : State, step s = .next t → BudgetLaw s.claims → BudgetLaw t.claims) ∧
  (∀ s t : State, step s = .next t → ClaimLaw s → ClaimLaw t)

/-- R147, R150, R151: waiting requests plus untransmitted first replies stay within 4, outstanding entries plus untransmitted
final replies within 8, and no two entries share a tag; the reply queue never holds more than 12 replies. -/
def Obligations.LinkWindowsHold : Prop :=
  (∀ s t : State, step s = .next t → LinkLaw s.link → LinkLaw t.link) ∧
  (∀ k : Link, LinkLaw k → k.replies.length ≤ 12)

/-- R163: the notice queue holds at most 32 notices and its sequence numbers are consecutive in queue order. -/
def Obligations.NoticeSequencesStayConsecutive : Prop :=
  ∀ s t : State, step s = .next t → NoticeLaw s.notices → NoticeLaw t.notices

/-- R2, R3, R11: every ring's ready order lists exactly its READY positions, pins stand only on READY and RETIRED positions, and
no sequence number is 0. R10: the pin count of every position equals the number of tile records that name it, with what that rests
on: only a RUNNING or STOPPING lane that is not WAITING holds tile records, and they name streams of its active list. -/
def Obligations.RingLawIsKept : Prop :=
  (∀ s t : State, step s = .next t → (∀ i r, s.ring i = some r → RingLaw r) → ∀ i r, t.ring i = some r → RingLaw r) ∧
  (∀ s t : State, step s = .next t → PinLaw s → PinLaw t)

/-- R128: every pool slot below the configured count is either in the free set or in the ring of exactly one bound stream, and no
slot at or above it is in either. -/
def Obligations.EverySlotHasOneHolder : Prop :=
  ∀ s t : State, step s = .next t → PoolLaw s → PoolLaw t
end

