-- ==== Sys2Proof/Laws/State.lean ====
section
/-! SUPPORT. What each update of the state leaves and what it writes, field by field and record by record, so that no later
proof unfolds a record update. -/

namespace Sys2Proof.Machine

open Sys2Proof

/-! ### Reading a record after writing one -/

@[simp] theorem rd_wr_same {α : Type} {n : Nat} (v : Vector α n) (i : Fin n) (x : α) : rd (wr v i x) i = x := by
  simp [rd, wr]

@[simp] theorem rd_wr_ne {α : Type} {n : Nat} (v : Vector α n) {i j : Fin n} (x : α) (h : i ≠ j) :
    rd (wr v i x) j = rd v j := by
  have : i.val ≠ j.val := fun e => h (Fin.ext e)
  simp [rd, wr, this]

theorem rd_wr {α : Type} {n : Nat} (v : Vector α n) (i j : Fin n) (x : α) :
    rd (wr v i x) j = if i = j then x else rd v j := by
  by_cases h : i = j
  · subst h; simp
  · simp [h]

@[simp] theorem wr_wr {α : Type} {n : Nat} (v : Vector α n) (i : Fin n) (x y : α) : wr (wr v i x) i y = wr v i y := by
  apply Vector.ext
  intro j hj
  by_cases h : i.val = j
  · subst h; simp [wr]
  · simp [wr, h]

theorem wr_comm {α : Type} {n : Nat} (v : Vector α n) {i j : Fin n} (h : i ≠ j) (x y : α) :
    wr (wr v i x) j y = wr (wr v j y) i x := by
  have hv : i.val ≠ j.val := fun e => h (Fin.ext e)
  apply Vector.ext
  intro k hk
  by_cases h1 : i.val = k
  · subst h1; simp [wr, Ne.symm hv]
  · by_cases h2 : j.val = k
    · subst h2; simp [wr, hv]
    · simp [wr, h1, h2]

/-- Writing back what stands there changes nothing. -/
@[simp] theorem wr_rd {α : Type} {n : Nat} (v : Vector α n) (i : Fin n) : wr v i (rd v i) = v := by
  apply Vector.ext
  intro j hj
  by_cases h : i.val = j
  · subst h; simp [wr, rd]
  · simp [wr, h]

@[simp] theorem rd_replicate {α : Type} {n : Nat} (x : α) (i : Fin n) : rd (Vector.replicate n x) i = x := by
  simp [rd]

/-! ### modSource -/

@[simp] theorem modSource_resetAsserted (s : State) (n : SourceIx) (f : Source → Source) : (s.modSource n f).resetAsserted = s.resetAsserted := rfl
@[simp] theorem modSource_lcsLow (s : State) (n : SourceIx) (f : Source → Source) : (s.modSource n f).lcsLow = s.lcsLow := rfl
@[simp] theorem modSource_deviceTime (s : State) (n : SourceIx) (f : Source → Source) : (s.modSource n f).deviceTime = s.deviceTime := rfl
@[simp] theorem modSource_capturePorts (s : State) (n : SourceIx) (f : Source → Source) : (s.modSource n f).capturePorts = s.capturePorts := rfl
@[simp] theorem modSource_streams (s : State) (n : SourceIx) (f : Source → Source) : (s.modSource n f).streams = s.streams := rfl
@[simp] theorem modSource_rings (s : State) (n : SourceIx) (f : Source → Source) : (s.modSource n f).rings = s.rings := rfl
@[simp] theorem modSource_lists (s : State) (n : SourceIx) (f : Source → Source) : (s.modSource n f).lists = s.lists := rfl
@[simp] theorem modSource_lanes (s : State) (n : SourceIx) (f : Source → Source) : (s.modSource n f).lanes = s.lanes := rfl
@[simp] theorem modSource_locks (s : State) (n : SourceIx) (f : Source → Source) : (s.modSource n f).locks = s.locks := rfl
@[simp] theorem modSource_outPorts (s : State) (n : SourceIx) (f : Source → Source) : (s.modSource n f).outPorts = s.outPorts := rfl
@[simp] theorem modSource_outs (s : State) (n : SourceIx) (f : Source → Source) : (s.modSource n f).outs = s.outs := rfl
@[simp] theorem modSource_trailers (s : State) (n : SourceIx) (f : Source → Source) : (s.modSource n f).trailers = s.trailers := rfl
@[simp] theorem modSource_store (s : State) (n : SourceIx) (f : Source → Source) : (s.modSource n f).store = s.store := rfl
@[simp] theorem modSource_dram (s : State) (n : SourceIx) (f : Source → Source) : (s.modSource n f).dram = s.dram := rfl
@[simp] theorem modSource_claims (s : State) (n : SourceIx) (f : Source → Source) : (s.modSource n f).claims = s.claims := rfl
@[simp] theorem modSource_link (s : State) (n : SourceIx) (f : Source → Source) : (s.modSource n f).link = s.link := rfl
@[simp] theorem modSource_notices (s : State) (n : SourceIx) (f : Source → Source) : (s.modSource n f).notices = s.notices := rfl
@[simp] theorem modSource_freeCount (s : State) (n : SourceIx) (f : Source → Source) : (s.modSource n f).freeCount = s.freeCount := rfl
@[simp] theorem modSource_pending (s : State) (n : SourceIx) (f : Source → Source) : (s.modSource n f).pending = s.pending := rfl
@[simp] theorem modSource_capturePort_at (s : State) (n : SourceIx) (f : Source → Source) (x : CaptureIx) : (s.modSource n f).capturePort x = s.capturePort x := rfl
@[simp] theorem modSource_stream_at (s : State) (n : SourceIx) (f : Source → Source) (x : StreamIx) : (s.modSource n f).stream x = s.stream x := rfl
@[simp] theorem modSource_ring_at (s : State) (n : SourceIx) (f : Source → Source) (x : StreamIx) : (s.modSource n f).ring x = s.ring x := rfl
@[simp] theorem modSource_list_at (s : State) (n : SourceIx) (f : Source → Source) (x : LaneIx) : (s.modSource n f).list x = s.list x := rfl
@[simp] theorem modSource_lane_at (s : State) (n : SourceIx) (f : Source → Source) (x : LaneIx) : (s.modSource n f).lane x = s.lane x := rfl
@[simp] theorem modSource_lock_at (s : State) (n : SourceIx) (f : Source → Source) (x : LaneIx) : (s.modSource n f).lock x = s.lock x := rfl
@[simp] theorem modSource_outPort_at (s : State) (n : SourceIx) (f : Source → Source) (x : PortIx) : (s.modSource n f).outPort x = s.outPort x := rfl
@[simp] theorem modSource_out_at (s : State) (n : SourceIx) (f : Source → Source) (x : LaneIx) : (s.modSource n f).out x = s.out x := rfl
@[simp] theorem modSource_trailer_at (s : State) (n : SourceIx) (f : Source → Source) (x : LaneIx) : (s.modSource n f).trailer x = s.trailer x := rfl
@[simp] theorem modSource_source_same (s : State) (n : SourceIx) (f : Source → Source) : (s.modSource n f).source n = f (s.source n) := by
  simp [State.modSource, State.source]
@[simp] theorem modSource_source_ne (s : State) (n : SourceIx) (f : Source → Source) (x : SourceIx) (h : n ≠ x) : (s.modSource n f).source x = s.source x := by
  simp [State.modSource, State.source, h]

/-! ### modCapturePort -/

@[simp] theorem modCapturePort_resetAsserted (s : State) (p : CaptureIx) (f : CapturePort → CapturePort) : (s.modCapturePort p f).resetAsserted = s.resetAsserted := rfl
@[simp] theorem modCapturePort_lcsLow (s : State) (p : CaptureIx) (f : CapturePort → CapturePort) : (s.modCapturePort p f).lcsLow = s.lcsLow := rfl
@[simp] theorem modCapturePort_deviceTime (s : State) (p : CaptureIx) (f : CapturePort → CapturePort) : (s.modCapturePort p f).deviceTime = s.deviceTime := rfl
@[simp] theorem modCapturePort_sources (s : State) (p : CaptureIx) (f : CapturePort → CapturePort) : (s.modCapturePort p f).sources = s.sources := rfl
@[simp] theorem modCapturePort_streams (s : State) (p : CaptureIx) (f : CapturePort → CapturePort) : (s.modCapturePort p f).streams = s.streams := rfl
@[simp] theorem modCapturePort_rings (s : State) (p : CaptureIx) (f : CapturePort → CapturePort) : (s.modCapturePort p f).rings = s.rings := rfl
@[simp] theorem modCapturePort_lists (s : State) (p : CaptureIx) (f : CapturePort → CapturePort) : (s.modCapturePort p f).lists = s.lists := rfl
@[simp] theorem modCapturePort_lanes (s : State) (p : CaptureIx) (f : CapturePort → CapturePort) : (s.modCapturePort p f).lanes = s.lanes := rfl
@[simp] theorem modCapturePort_locks (s : State) (p : CaptureIx) (f : CapturePort → CapturePort) : (s.modCapturePort p f).locks = s.locks := rfl
@[simp] theorem modCapturePort_outPorts (s : State) (p : CaptureIx) (f : CapturePort → CapturePort) : (s.modCapturePort p f).outPorts = s.outPorts := rfl
@[simp] theorem modCapturePort_outs (s : State) (p : CaptureIx) (f : CapturePort → CapturePort) : (s.modCapturePort p f).outs = s.outs := rfl
@[simp] theorem modCapturePort_trailers (s : State) (p : CaptureIx) (f : CapturePort → CapturePort) : (s.modCapturePort p f).trailers = s.trailers := rfl
@[simp] theorem modCapturePort_store (s : State) (p : CaptureIx) (f : CapturePort → CapturePort) : (s.modCapturePort p f).store = s.store := rfl
@[simp] theorem modCapturePort_dram (s : State) (p : CaptureIx) (f : CapturePort → CapturePort) : (s.modCapturePort p f).dram = s.dram := rfl
@[simp] theorem modCapturePort_claims (s : State) (p : CaptureIx) (f : CapturePort → CapturePort) : (s.modCapturePort p f).claims = s.claims := rfl
@[simp] theorem modCapturePort_link (s : State) (p : CaptureIx) (f : CapturePort → CapturePort) : (s.modCapturePort p f).link = s.link := rfl
@[simp] theorem modCapturePort_notices (s : State) (p : CaptureIx) (f : CapturePort → CapturePort) : (s.modCapturePort p f).notices = s.notices := rfl
@[simp] theorem modCapturePort_freeCount (s : State) (p : CaptureIx) (f : CapturePort → CapturePort) : (s.modCapturePort p f).freeCount = s.freeCount := rfl
@[simp] theorem modCapturePort_pending (s : State) (p : CaptureIx) (f : CapturePort → CapturePort) : (s.modCapturePort p f).pending = s.pending := rfl
@[simp] theorem modCapturePort_source_at (s : State) (p : CaptureIx) (f : CapturePort → CapturePort) (x : SourceIx) : (s.modCapturePort p f).source x = s.source x := rfl
@[simp] theorem modCapturePort_stream_at (s : State) (p : CaptureIx) (f : CapturePort → CapturePort) (x : StreamIx) : (s.modCapturePort p f).stream x = s.stream x := rfl
@[simp] theorem modCapturePort_ring_at (s : State) (p : CaptureIx) (f : CapturePort → CapturePort) (x : StreamIx) : (s.modCapturePort p f).ring x = s.ring x := rfl
@[simp] theorem modCapturePort_list_at (s : State) (p : CaptureIx) (f : CapturePort → CapturePort) (x : LaneIx) : (s.modCapturePort p f).list x = s.list x := rfl
@[simp] theorem modCapturePort_lane_at (s : State) (p : CaptureIx) (f : CapturePort → CapturePort) (x : LaneIx) : (s.modCapturePort p f).lane x = s.lane x := rfl
@[simp] theorem modCapturePort_lock_at (s : State) (p : CaptureIx) (f : CapturePort → CapturePort) (x : LaneIx) : (s.modCapturePort p f).lock x = s.lock x := rfl
@[simp] theorem modCapturePort_outPort_at (s : State) (p : CaptureIx) (f : CapturePort → CapturePort) (x : PortIx) : (s.modCapturePort p f).outPort x = s.outPort x := rfl
@[simp] theorem modCapturePort_out_at (s : State) (p : CaptureIx) (f : CapturePort → CapturePort) (x : LaneIx) : (s.modCapturePort p f).out x = s.out x := rfl
@[simp] theorem modCapturePort_trailer_at (s : State) (p : CaptureIx) (f : CapturePort → CapturePort) (x : LaneIx) : (s.modCapturePort p f).trailer x = s.trailer x := rfl
@[simp] theorem modCapturePort_capturePort_same (s : State) (p : CaptureIx) (f : CapturePort → CapturePort) : (s.modCapturePort p f).capturePort p = f (s.capturePort p) := by
  simp [State.modCapturePort, State.capturePort]
@[simp] theorem modCapturePort_capturePort_ne (s : State) (p : CaptureIx) (f : CapturePort → CapturePort) (x : CaptureIx) (h : p ≠ x) : (s.modCapturePort p f).capturePort x = s.capturePort x := by
  simp [State.modCapturePort, State.capturePort, h]

/-! ### modStream -/

@[simp] theorem modStream_resetAsserted (s : State) (i : StreamIx) (f : Stream → Stream) : (s.modStream i f).resetAsserted = s.resetAsserted := rfl
@[simp] theorem modStream_lcsLow (s : State) (i : StreamIx) (f : Stream → Stream) : (s.modStream i f).lcsLow = s.lcsLow := rfl
@[simp] theorem modStream_deviceTime (s : State) (i : StreamIx) (f : Stream → Stream) : (s.modStream i f).deviceTime = s.deviceTime := rfl
@[simp] theorem modStream_sources (s : State) (i : StreamIx) (f : Stream → Stream) : (s.modStream i f).sources = s.sources := rfl
@[simp] theorem modStream_capturePorts (s : State) (i : StreamIx) (f : Stream → Stream) : (s.modStream i f).capturePorts = s.capturePorts := rfl
@[simp] theorem modStream_rings (s : State) (i : StreamIx) (f : Stream → Stream) : (s.modStream i f).rings = s.rings := rfl
@[simp] theorem modStream_lists (s : State) (i : StreamIx) (f : Stream → Stream) : (s.modStream i f).lists = s.lists := rfl
@[simp] theorem modStream_lanes (s : State) (i : StreamIx) (f : Stream → Stream) : (s.modStream i f).lanes = s.lanes := rfl
@[simp] theorem modStream_locks (s : State) (i : StreamIx) (f : Stream → Stream) : (s.modStream i f).locks = s.locks := rfl
@[simp] theorem modStream_outPorts (s : State) (i : StreamIx) (f : Stream → Stream) : (s.modStream i f).outPorts = s.outPorts := rfl
@[simp] theorem modStream_outs (s : State) (i : StreamIx) (f : Stream → Stream) : (s.modStream i f).outs = s.outs := rfl
@[simp] theorem modStream_trailers (s : State) (i : StreamIx) (f : Stream → Stream) : (s.modStream i f).trailers = s.trailers := rfl
@[simp] theorem modStream_store (s : State) (i : StreamIx) (f : Stream → Stream) : (s.modStream i f).store = s.store := rfl
@[simp] theorem modStream_dram (s : State) (i : StreamIx) (f : Stream → Stream) : (s.modStream i f).dram = s.dram := rfl
@[simp] theorem modStream_claims (s : State) (i : StreamIx) (f : Stream → Stream) : (s.modStream i f).claims = s.claims := rfl
@[simp] theorem modStream_link (s : State) (i : StreamIx) (f : Stream → Stream) : (s.modStream i f).link = s.link := rfl
@[simp] theorem modStream_notices (s : State) (i : StreamIx) (f : Stream → Stream) : (s.modStream i f).notices = s.notices := rfl
@[simp] theorem modStream_freeCount (s : State) (i : StreamIx) (f : Stream → Stream) : (s.modStream i f).freeCount = s.freeCount := rfl
@[simp] theorem modStream_pending (s : State) (i : StreamIx) (f : Stream → Stream) : (s.modStream i f).pending = s.pending := rfl
@[simp] theorem modStream_source_at (s : State) (i : StreamIx) (f : Stream → Stream) (x : SourceIx) : (s.modStream i f).source x = s.source x := rfl
@[simp] theorem modStream_capturePort_at (s : State) (i : StreamIx) (f : Stream → Stream) (x : CaptureIx) : (s.modStream i f).capturePort x = s.capturePort x := rfl
@[simp] theorem modStream_ring_at (s : State) (i : StreamIx) (f : Stream → Stream) (x : StreamIx) : (s.modStream i f).ring x = s.ring x := rfl
@[simp] theorem modStream_list_at (s : State) (i : StreamIx) (f : Stream → Stream) (x : LaneIx) : (s.modStream i f).list x = s.list x := rfl
@[simp] theorem modStream_lane_at (s : State) (i : StreamIx) (f : Stream → Stream) (x : LaneIx) : (s.modStream i f).lane x = s.lane x := rfl
@[simp] theorem modStream_lock_at (s : State) (i : StreamIx) (f : Stream → Stream) (x : LaneIx) : (s.modStream i f).lock x = s.lock x := rfl
@[simp] theorem modStream_outPort_at (s : State) (i : StreamIx) (f : Stream → Stream) (x : PortIx) : (s.modStream i f).outPort x = s.outPort x := rfl
@[simp] theorem modStream_out_at (s : State) (i : StreamIx) (f : Stream → Stream) (x : LaneIx) : (s.modStream i f).out x = s.out x := rfl
@[simp] theorem modStream_trailer_at (s : State) (i : StreamIx) (f : Stream → Stream) (x : LaneIx) : (s.modStream i f).trailer x = s.trailer x := rfl
@[simp] theorem modStream_stream_same (s : State) (i : StreamIx) (f : Stream → Stream) : (s.modStream i f).stream i = f (s.stream i) := by
  simp [State.modStream, State.stream]
@[simp] theorem modStream_stream_ne (s : State) (i : StreamIx) (f : Stream → Stream) (x : StreamIx) (h : i ≠ x) : (s.modStream i f).stream x = s.stream x := by
  simp [State.modStream, State.stream, h]

/-! ### setRing -/

@[simp] theorem setRing_resetAsserted (s : State) (i : StreamIx) (r : Option Ring) : (s.setRing i r).resetAsserted = s.resetAsserted := rfl
@[simp] theorem setRing_lcsLow (s : State) (i : StreamIx) (r : Option Ring) : (s.setRing i r).lcsLow = s.lcsLow := rfl
@[simp] theorem setRing_deviceTime (s : State) (i : StreamIx) (r : Option Ring) : (s.setRing i r).deviceTime = s.deviceTime := rfl
@[simp] theorem setRing_sources (s : State) (i : StreamIx) (r : Option Ring) : (s.setRing i r).sources = s.sources := rfl
@[simp] theorem setRing_capturePorts (s : State) (i : StreamIx) (r : Option Ring) : (s.setRing i r).capturePorts = s.capturePorts := rfl
@[simp] theorem setRing_streams (s : State) (i : StreamIx) (r : Option Ring) : (s.setRing i r).streams = s.streams := rfl
@[simp] theorem setRing_lists (s : State) (i : StreamIx) (r : Option Ring) : (s.setRing i r).lists = s.lists := rfl
@[simp] theorem setRing_lanes (s : State) (i : StreamIx) (r : Option Ring) : (s.setRing i r).lanes = s.lanes := rfl
@[simp] theorem setRing_locks (s : State) (i : StreamIx) (r : Option Ring) : (s.setRing i r).locks = s.locks := rfl
@[simp] theorem setRing_outPorts (s : State) (i : StreamIx) (r : Option Ring) : (s.setRing i r).outPorts = s.outPorts := rfl
@[simp] theorem setRing_outs (s : State) (i : StreamIx) (r : Option Ring) : (s.setRing i r).outs = s.outs := rfl
@[simp] theorem setRing_trailers (s : State) (i : StreamIx) (r : Option Ring) : (s.setRing i r).trailers = s.trailers := rfl
@[simp] theorem setRing_store (s : State) (i : StreamIx) (r : Option Ring) : (s.setRing i r).store = s.store := rfl
@[simp] theorem setRing_dram (s : State) (i : StreamIx) (r : Option Ring) : (s.setRing i r).dram = s.dram := rfl
@[simp] theorem setRing_claims (s : State) (i : StreamIx) (r : Option Ring) : (s.setRing i r).claims = s.claims := rfl
@[simp] theorem setRing_link (s : State) (i : StreamIx) (r : Option Ring) : (s.setRing i r).link = s.link := rfl
@[simp] theorem setRing_notices (s : State) (i : StreamIx) (r : Option Ring) : (s.setRing i r).notices = s.notices := rfl
@[simp] theorem setRing_freeCount (s : State) (i : StreamIx) (r : Option Ring) : (s.setRing i r).freeCount = s.freeCount := rfl
@[simp] theorem setRing_pending (s : State) (i : StreamIx) (r : Option Ring) : (s.setRing i r).pending = s.pending := rfl
@[simp] theorem setRing_source_at (s : State) (i : StreamIx) (r : Option Ring) (x : SourceIx) : (s.setRing i r).source x = s.source x := rfl
@[simp] theorem setRing_capturePort_at (s : State) (i : StreamIx) (r : Option Ring) (x : CaptureIx) : (s.setRing i r).capturePort x = s.capturePort x := rfl
@[simp] theorem setRing_stream_at (s : State) (i : StreamIx) (r : Option Ring) (x : StreamIx) : (s.setRing i r).stream x = s.stream x := rfl
@[simp] theorem setRing_list_at (s : State) (i : StreamIx) (r : Option Ring) (x : LaneIx) : (s.setRing i r).list x = s.list x := rfl
@[simp] theorem setRing_lane_at (s : State) (i : StreamIx) (r : Option Ring) (x : LaneIx) : (s.setRing i r).lane x = s.lane x := rfl
@[simp] theorem setRing_lock_at (s : State) (i : StreamIx) (r : Option Ring) (x : LaneIx) : (s.setRing i r).lock x = s.lock x := rfl
@[simp] theorem setRing_outPort_at (s : State) (i : StreamIx) (r : Option Ring) (x : PortIx) : (s.setRing i r).outPort x = s.outPort x := rfl
@[simp] theorem setRing_out_at (s : State) (i : StreamIx) (r : Option Ring) (x : LaneIx) : (s.setRing i r).out x = s.out x := rfl
@[simp] theorem setRing_trailer_at (s : State) (i : StreamIx) (r : Option Ring) (x : LaneIx) : (s.setRing i r).trailer x = s.trailer x := rfl
@[simp] theorem setRing_ring_same (s : State) (i : StreamIx) (r : Option Ring) : (s.setRing i r).ring i = r := by
  simp [State.setRing, State.ring]
@[simp] theorem setRing_ring_ne (s : State) (i : StreamIx) (r : Option Ring) (x : StreamIx) (h : i ≠ x) : (s.setRing i r).ring x = s.ring x := by
  simp [State.setRing, State.ring, h]

/-! ### modRing -/

@[simp] theorem modRing_resetAsserted (s : State) (i : StreamIx) (f : Ring → Ring) : (s.modRing i f).resetAsserted = s.resetAsserted := rfl
@[simp] theorem modRing_lcsLow (s : State) (i : StreamIx) (f : Ring → Ring) : (s.modRing i f).lcsLow = s.lcsLow := rfl
@[simp] theorem modRing_deviceTime (s : State) (i : StreamIx) (f : Ring → Ring) : (s.modRing i f).deviceTime = s.deviceTime := rfl
@[simp] theorem modRing_sources (s : State) (i : StreamIx) (f : Ring → Ring) : (s.modRing i f).sources = s.sources := rfl
@[simp] theorem modRing_capturePorts (s : State) (i : StreamIx) (f : Ring → Ring) : (s.modRing i f).capturePorts = s.capturePorts := rfl
@[simp] theorem modRing_streams (s : State) (i : StreamIx) (f : Ring → Ring) : (s.modRing i f).streams = s.streams := rfl
@[simp] theorem modRing_lists (s : State) (i : StreamIx) (f : Ring → Ring) : (s.modRing i f).lists = s.lists := rfl
@[simp] theorem modRing_lanes (s : State) (i : StreamIx) (f : Ring → Ring) : (s.modRing i f).lanes = s.lanes := rfl
@[simp] theorem modRing_locks (s : State) (i : StreamIx) (f : Ring → Ring) : (s.modRing i f).locks = s.locks := rfl
@[simp] theorem modRing_outPorts (s : State) (i : StreamIx) (f : Ring → Ring) : (s.modRing i f).outPorts = s.outPorts := rfl
@[simp] theorem modRing_outs (s : State) (i : StreamIx) (f : Ring → Ring) : (s.modRing i f).outs = s.outs := rfl
@[simp] theorem modRing_trailers (s : State) (i : StreamIx) (f : Ring → Ring) : (s.modRing i f).trailers = s.trailers := rfl
@[simp] theorem modRing_store (s : State) (i : StreamIx) (f : Ring → Ring) : (s.modRing i f).store = s.store := rfl
@[simp] theorem modRing_dram (s : State) (i : StreamIx) (f : Ring → Ring) : (s.modRing i f).dram = s.dram := rfl
@[simp] theorem modRing_claims (s : State) (i : StreamIx) (f : Ring → Ring) : (s.modRing i f).claims = s.claims := rfl
@[simp] theorem modRing_link (s : State) (i : StreamIx) (f : Ring → Ring) : (s.modRing i f).link = s.link := rfl
@[simp] theorem modRing_notices (s : State) (i : StreamIx) (f : Ring → Ring) : (s.modRing i f).notices = s.notices := rfl
@[simp] theorem modRing_freeCount (s : State) (i : StreamIx) (f : Ring → Ring) : (s.modRing i f).freeCount = s.freeCount := rfl
@[simp] theorem modRing_pending (s : State) (i : StreamIx) (f : Ring → Ring) : (s.modRing i f).pending = s.pending := rfl
@[simp] theorem modRing_source_at (s : State) (i : StreamIx) (f : Ring → Ring) (x : SourceIx) : (s.modRing i f).source x = s.source x := rfl
@[simp] theorem modRing_capturePort_at (s : State) (i : StreamIx) (f : Ring → Ring) (x : CaptureIx) : (s.modRing i f).capturePort x = s.capturePort x := rfl
@[simp] theorem modRing_stream_at (s : State) (i : StreamIx) (f : Ring → Ring) (x : StreamIx) : (s.modRing i f).stream x = s.stream x := rfl
@[simp] theorem modRing_list_at (s : State) (i : StreamIx) (f : Ring → Ring) (x : LaneIx) : (s.modRing i f).list x = s.list x := rfl
@[simp] theorem modRing_lane_at (s : State) (i : StreamIx) (f : Ring → Ring) (x : LaneIx) : (s.modRing i f).lane x = s.lane x := rfl
@[simp] theorem modRing_lock_at (s : State) (i : StreamIx) (f : Ring → Ring) (x : LaneIx) : (s.modRing i f).lock x = s.lock x := rfl
@[simp] theorem modRing_outPort_at (s : State) (i : StreamIx) (f : Ring → Ring) (x : PortIx) : (s.modRing i f).outPort x = s.outPort x := rfl
@[simp] theorem modRing_out_at (s : State) (i : StreamIx) (f : Ring → Ring) (x : LaneIx) : (s.modRing i f).out x = s.out x := rfl
@[simp] theorem modRing_trailer_at (s : State) (i : StreamIx) (f : Ring → Ring) (x : LaneIx) : (s.modRing i f).trailer x = s.trailer x := rfl
@[simp] theorem modRing_ring_same (s : State) (i : StreamIx) (f : Ring → Ring) : (s.modRing i f).ring i = (s.ring i).map f := by
  simp [State.modRing, State.setRing, State.ring]
@[simp] theorem modRing_ring_ne (s : State) (i : StreamIx) (f : Ring → Ring) (x : StreamIx) (h : i ≠ x) : (s.modRing i f).ring x = s.ring x := by
  simp [State.modRing, State.setRing, State.ring, h]

/-! ### modList -/

@[simp] theorem modList_resetAsserted (s : State) (l : LaneIx) (f : ListUnit → ListUnit) : (s.modList l f).resetAsserted = s.resetAsserted := rfl
@[simp] theorem modList_lcsLow (s : State) (l : LaneIx) (f : ListUnit → ListUnit) : (s.modList l f).lcsLow = s.lcsLow := rfl
@[simp] theorem modList_deviceTime (s : State) (l : LaneIx) (f : ListUnit → ListUnit) : (s.modList l f).deviceTime = s.deviceTime := rfl
@[simp] theorem modList_sources (s : State) (l : LaneIx) (f : ListUnit → ListUnit) : (s.modList l f).sources = s.sources := rfl
@[simp] theorem modList_capturePorts (s : State) (l : LaneIx) (f : ListUnit → ListUnit) : (s.modList l f).capturePorts = s.capturePorts := rfl
@[simp] theorem modList_streams (s : State) (l : LaneIx) (f : ListUnit → ListUnit) : (s.modList l f).streams = s.streams := rfl
@[simp] theorem modList_rings (s : State) (l : LaneIx) (f : ListUnit → ListUnit) : (s.modList l f).rings = s.rings := rfl
@[simp] theorem modList_lanes (s : State) (l : LaneIx) (f : ListUnit → ListUnit) : (s.modList l f).lanes = s.lanes := rfl
@[simp] theorem modList_locks (s : State) (l : LaneIx) (f : ListUnit → ListUnit) : (s.modList l f).locks = s.locks := rfl
@[simp] theorem modList_outPorts (s : State) (l : LaneIx) (f : ListUnit → ListUnit) : (s.modList l f).outPorts = s.outPorts := rfl
@[simp] theorem modList_outs (s : State) (l : LaneIx) (f : ListUnit → ListUnit) : (s.modList l f).outs = s.outs := rfl
@[simp] theorem modList_trailers (s : State) (l : LaneIx) (f : ListUnit → ListUnit) : (s.modList l f).trailers = s.trailers := rfl
@[simp] theorem modList_store (s : State) (l : LaneIx) (f : ListUnit → ListUnit) : (s.modList l f).store = s.store := rfl
@[simp] theorem modList_dram (s : State) (l : LaneIx) (f : ListUnit → ListUnit) : (s.modList l f).dram = s.dram := rfl
@[simp] theorem modList_claims (s : State) (l : LaneIx) (f : ListUnit → ListUnit) : (s.modList l f).claims = s.claims := rfl
@[simp] theorem modList_link (s : State) (l : LaneIx) (f : ListUnit → ListUnit) : (s.modList l f).link = s.link := rfl
@[simp] theorem modList_notices (s : State) (l : LaneIx) (f : ListUnit → ListUnit) : (s.modList l f).notices = s.notices := rfl
@[simp] theorem modList_freeCount (s : State) (l : LaneIx) (f : ListUnit → ListUnit) : (s.modList l f).freeCount = s.freeCount := rfl
@[simp] theorem modList_pending (s : State) (l : LaneIx) (f : ListUnit → ListUnit) : (s.modList l f).pending = s.pending := rfl
@[simp] theorem modList_source_at (s : State) (l : LaneIx) (f : ListUnit → ListUnit) (x : SourceIx) : (s.modList l f).source x = s.source x := rfl
@[simp] theorem modList_capturePort_at (s : State) (l : LaneIx) (f : ListUnit → ListUnit) (x : CaptureIx) : (s.modList l f).capturePort x = s.capturePort x := rfl
@[simp] theorem modList_stream_at (s : State) (l : LaneIx) (f : ListUnit → ListUnit) (x : StreamIx) : (s.modList l f).stream x = s.stream x := rfl
@[simp] theorem modList_ring_at (s : State) (l : LaneIx) (f : ListUnit → ListUnit) (x : StreamIx) : (s.modList l f).ring x = s.ring x := rfl
@[simp] theorem modList_lane_at (s : State) (l : LaneIx) (f : ListUnit → ListUnit) (x : LaneIx) : (s.modList l f).lane x = s.lane x := rfl
@[simp] theorem modList_lock_at (s : State) (l : LaneIx) (f : ListUnit → ListUnit) (x : LaneIx) : (s.modList l f).lock x = s.lock x := rfl
@[simp] theorem modList_outPort_at (s : State) (l : LaneIx) (f : ListUnit → ListUnit) (x : PortIx) : (s.modList l f).outPort x = s.outPort x := rfl
@[simp] theorem modList_out_at (s : State) (l : LaneIx) (f : ListUnit → ListUnit) (x : LaneIx) : (s.modList l f).out x = s.out x := rfl
@[simp] theorem modList_trailer_at (s : State) (l : LaneIx) (f : ListUnit → ListUnit) (x : LaneIx) : (s.modList l f).trailer x = s.trailer x := rfl
@[simp] theorem modList_list_same (s : State) (l : LaneIx) (f : ListUnit → ListUnit) : (s.modList l f).list l = f (s.list l) := by
  simp [State.modList, State.list]
@[simp] theorem modList_list_ne (s : State) (l : LaneIx) (f : ListUnit → ListUnit) (x : LaneIx) (h : l ≠ x) : (s.modList l f).list x = s.list x := by
  simp [State.modList, State.list, h]

/-! ### modLane -/

@[simp] theorem modLane_resetAsserted (s : State) (l : LaneIx) (f : Lane → Lane) : (s.modLane l f).resetAsserted = s.resetAsserted := rfl
@[simp] theorem modLane_lcsLow (s : State) (l : LaneIx) (f : Lane → Lane) : (s.modLane l f).lcsLow = s.lcsLow := rfl
@[simp] theorem modLane_deviceTime (s : State) (l : LaneIx) (f : Lane → Lane) : (s.modLane l f).deviceTime = s.deviceTime := rfl
@[simp] theorem modLane_sources (s : State) (l : LaneIx) (f : Lane → Lane) : (s.modLane l f).sources = s.sources := rfl
@[simp] theorem modLane_capturePorts (s : State) (l : LaneIx) (f : Lane → Lane) : (s.modLane l f).capturePorts = s.capturePorts := rfl
@[simp] theorem modLane_streams (s : State) (l : LaneIx) (f : Lane → Lane) : (s.modLane l f).streams = s.streams := rfl
@[simp] theorem modLane_rings (s : State) (l : LaneIx) (f : Lane → Lane) : (s.modLane l f).rings = s.rings := rfl
@[simp] theorem modLane_lists (s : State) (l : LaneIx) (f : Lane → Lane) : (s.modLane l f).lists = s.lists := rfl
@[simp] theorem modLane_locks (s : State) (l : LaneIx) (f : Lane → Lane) : (s.modLane l f).locks = s.locks := rfl
@[simp] theorem modLane_outPorts (s : State) (l : LaneIx) (f : Lane → Lane) : (s.modLane l f).outPorts = s.outPorts := rfl
@[simp] theorem modLane_outs (s : State) (l : LaneIx) (f : Lane → Lane) : (s.modLane l f).outs = s.outs := rfl
@[simp] theorem modLane_trailers (s : State) (l : LaneIx) (f : Lane → Lane) : (s.modLane l f).trailers = s.trailers := rfl
@[simp] theorem modLane_store (s : State) (l : LaneIx) (f : Lane → Lane) : (s.modLane l f).store = s.store := rfl
@[simp] theorem modLane_dram (s : State) (l : LaneIx) (f : Lane → Lane) : (s.modLane l f).dram = s.dram := rfl
@[simp] theorem modLane_claims (s : State) (l : LaneIx) (f : Lane → Lane) : (s.modLane l f).claims = s.claims := rfl
@[simp] theorem modLane_link (s : State) (l : LaneIx) (f : Lane → Lane) : (s.modLane l f).link = s.link := rfl
@[simp] theorem modLane_notices (s : State) (l : LaneIx) (f : Lane → Lane) : (s.modLane l f).notices = s.notices := rfl
@[simp] theorem modLane_freeCount (s : State) (l : LaneIx) (f : Lane → Lane) : (s.modLane l f).freeCount = s.freeCount := rfl
@[simp] theorem modLane_pending (s : State) (l : LaneIx) (f : Lane → Lane) : (s.modLane l f).pending = s.pending := rfl
@[simp] theorem modLane_source_at (s : State) (l : LaneIx) (f : Lane → Lane) (x : SourceIx) : (s.modLane l f).source x = s.source x := rfl
@[simp] theorem modLane_capturePort_at (s : State) (l : LaneIx) (f : Lane → Lane) (x : CaptureIx) : (s.modLane l f).capturePort x = s.capturePort x := rfl
@[simp] theorem modLane_stream_at (s : State) (l : LaneIx) (f : Lane → Lane) (x : StreamIx) : (s.modLane l f).stream x = s.stream x := rfl
@[simp] theorem modLane_ring_at (s : State) (l : LaneIx) (f : Lane → Lane) (x : StreamIx) : (s.modLane l f).ring x = s.ring x := rfl
@[simp] theorem modLane_list_at (s : State) (l : LaneIx) (f : Lane → Lane) (x : LaneIx) : (s.modLane l f).list x = s.list x := rfl
@[simp] theorem modLane_lock_at (s : State) (l : LaneIx) (f : Lane → Lane) (x : LaneIx) : (s.modLane l f).lock x = s.lock x := rfl
@[simp] theorem modLane_outPort_at (s : State) (l : LaneIx) (f : Lane → Lane) (x : PortIx) : (s.modLane l f).outPort x = s.outPort x := rfl
@[simp] theorem modLane_out_at (s : State) (l : LaneIx) (f : Lane → Lane) (x : LaneIx) : (s.modLane l f).out x = s.out x := rfl
@[simp] theorem modLane_trailer_at (s : State) (l : LaneIx) (f : Lane → Lane) (x : LaneIx) : (s.modLane l f).trailer x = s.trailer x := rfl
@[simp] theorem modLane_lane_same (s : State) (l : LaneIx) (f : Lane → Lane) : (s.modLane l f).lane l = f (s.lane l) := by
  simp [State.modLane, State.lane]
@[simp] theorem modLane_lane_ne (s : State) (l : LaneIx) (f : Lane → Lane) (x : LaneIx) (h : l ≠ x) : (s.modLane l f).lane x = s.lane x := by
  simp [State.modLane, State.lane, h]

/-! ### modLock -/

@[simp] theorem modLock_resetAsserted (s : State) (l : LaneIx) (f : Lock → Lock) : (s.modLock l f).resetAsserted = s.resetAsserted := rfl
@[simp] theorem modLock_lcsLow (s : State) (l : LaneIx) (f : Lock → Lock) : (s.modLock l f).lcsLow = s.lcsLow := rfl
@[simp] theorem modLock_deviceTime (s : State) (l : LaneIx) (f : Lock → Lock) : (s.modLock l f).deviceTime = s.deviceTime := rfl
@[simp] theorem modLock_sources (s : State) (l : LaneIx) (f : Lock → Lock) : (s.modLock l f).sources = s.sources := rfl
@[simp] theorem modLock_capturePorts (s : State) (l : LaneIx) (f : Lock → Lock) : (s.modLock l f).capturePorts = s.capturePorts := rfl
@[simp] theorem modLock_streams (s : State) (l : LaneIx) (f : Lock → Lock) : (s.modLock l f).streams = s.streams := rfl
@[simp] theorem modLock_rings (s : State) (l : LaneIx) (f : Lock → Lock) : (s.modLock l f).rings = s.rings := rfl
@[simp] theorem modLock_lists (s : State) (l : LaneIx) (f : Lock → Lock) : (s.modLock l f).lists = s.lists := rfl
@[simp] theorem modLock_lanes (s : State) (l : LaneIx) (f : Lock → Lock) : (s.modLock l f).lanes = s.lanes := rfl
@[simp] theorem modLock_outPorts (s : State) (l : LaneIx) (f : Lock → Lock) : (s.modLock l f).outPorts = s.outPorts := rfl
@[simp] theorem modLock_outs (s : State) (l : LaneIx) (f : Lock → Lock) : (s.modLock l f).outs = s.outs := rfl
@[simp] theorem modLock_trailers (s : State) (l : LaneIx) (f : Lock → Lock) : (s.modLock l f).trailers = s.trailers := rfl
@[simp] theorem modLock_store (s : State) (l : LaneIx) (f : Lock → Lock) : (s.modLock l f).store = s.store := rfl
@[simp] theorem modLock_dram (s : State) (l : LaneIx) (f : Lock → Lock) : (s.modLock l f).dram = s.dram := rfl
@[simp] theorem modLock_claims (s : State) (l : LaneIx) (f : Lock → Lock) : (s.modLock l f).claims = s.claims := rfl
@[simp] theorem modLock_link (s : State) (l : LaneIx) (f : Lock → Lock) : (s.modLock l f).link = s.link := rfl
@[simp] theorem modLock_notices (s : State) (l : LaneIx) (f : Lock → Lock) : (s.modLock l f).notices = s.notices := rfl
@[simp] theorem modLock_freeCount (s : State) (l : LaneIx) (f : Lock → Lock) : (s.modLock l f).freeCount = s.freeCount := rfl
@[simp] theorem modLock_pending (s : State) (l : LaneIx) (f : Lock → Lock) : (s.modLock l f).pending = s.pending := rfl
@[simp] theorem modLock_source_at (s : State) (l : LaneIx) (f : Lock → Lock) (x : SourceIx) : (s.modLock l f).source x = s.source x := rfl
@[simp] theorem modLock_capturePort_at (s : State) (l : LaneIx) (f : Lock → Lock) (x : CaptureIx) : (s.modLock l f).capturePort x = s.capturePort x := rfl
@[simp] theorem modLock_stream_at (s : State) (l : LaneIx) (f : Lock → Lock) (x : StreamIx) : (s.modLock l f).stream x = s.stream x := rfl
@[simp] theorem modLock_ring_at (s : State) (l : LaneIx) (f : Lock → Lock) (x : StreamIx) : (s.modLock l f).ring x = s.ring x := rfl
@[simp] theorem modLock_list_at (s : State) (l : LaneIx) (f : Lock → Lock) (x : LaneIx) : (s.modLock l f).list x = s.list x := rfl
@[simp] theorem modLock_lane_at (s : State) (l : LaneIx) (f : Lock → Lock) (x : LaneIx) : (s.modLock l f).lane x = s.lane x := rfl
@[simp] theorem modLock_outPort_at (s : State) (l : LaneIx) (f : Lock → Lock) (x : PortIx) : (s.modLock l f).outPort x = s.outPort x := rfl
@[simp] theorem modLock_out_at (s : State) (l : LaneIx) (f : Lock → Lock) (x : LaneIx) : (s.modLock l f).out x = s.out x := rfl
@[simp] theorem modLock_trailer_at (s : State) (l : LaneIx) (f : Lock → Lock) (x : LaneIx) : (s.modLock l f).trailer x = s.trailer x := rfl
@[simp] theorem modLock_lock_same (s : State) (l : LaneIx) (f : Lock → Lock) : (s.modLock l f).lock l = f (s.lock l) := by
  simp [State.modLock, State.lock]
@[simp] theorem modLock_lock_ne (s : State) (l : LaneIx) (f : Lock → Lock) (x : LaneIx) (h : l ≠ x) : (s.modLock l f).lock x = s.lock x := by
  simp [State.modLock, State.lock, h]

/-! ### modOutPort -/

@[simp] theorem modOutPort_resetAsserted (s : State) (p : PortIx) (f : OutPort → OutPort) : (s.modOutPort p f).resetAsserted = s.resetAsserted := rfl
@[simp] theorem modOutPort_lcsLow (s : State) (p : PortIx) (f : OutPort → OutPort) : (s.modOutPort p f).lcsLow = s.lcsLow := rfl
@[simp] theorem modOutPort_deviceTime (s : State) (p : PortIx) (f : OutPort → OutPort) : (s.modOutPort p f).deviceTime = s.deviceTime := rfl
@[simp] theorem modOutPort_sources (s : State) (p : PortIx) (f : OutPort → OutPort) : (s.modOutPort p f).sources = s.sources := rfl
@[simp] theorem modOutPort_capturePorts (s : State) (p : PortIx) (f : OutPort → OutPort) : (s.modOutPort p f).capturePorts = s.capturePorts := rfl
@[simp] theorem modOutPort_streams (s : State) (p : PortIx) (f : OutPort → OutPort) : (s.modOutPort p f).streams = s.streams := rfl
@[simp] theorem modOutPort_rings (s : State) (p : PortIx) (f : OutPort → OutPort) : (s.modOutPort p f).rings = s.rings := rfl
@[simp] theorem modOutPort_lists (s : State) (p : PortIx) (f : OutPort → OutPort) : (s.modOutPort p f).lists = s.lists := rfl
@[simp] theorem modOutPort_lanes (s : State) (p : PortIx) (f : OutPort → OutPort) : (s.modOutPort p f).lanes = s.lanes := rfl
@[simp] theorem modOutPort_locks (s : State) (p : PortIx) (f : OutPort → OutPort) : (s.modOutPort p f).locks = s.locks := rfl
@[simp] theorem modOutPort_outs (s : State) (p : PortIx) (f : OutPort → OutPort) : (s.modOutPort p f).outs = s.outs := rfl
@[simp] theorem modOutPort_trailers (s : State) (p : PortIx) (f : OutPort → OutPort) : (s.modOutPort p f).trailers = s.trailers := rfl
@[simp] theorem modOutPort_store (s : State) (p : PortIx) (f : OutPort → OutPort) : (s.modOutPort p f).store = s.store := rfl
@[simp] theorem modOutPort_dram (s : State) (p : PortIx) (f : OutPort → OutPort) : (s.modOutPort p f).dram = s.dram := rfl
@[simp] theorem modOutPort_claims (s : State) (p : PortIx) (f : OutPort → OutPort) : (s.modOutPort p f).claims = s.claims := rfl
@[simp] theorem modOutPort_link (s : State) (p : PortIx) (f : OutPort → OutPort) : (s.modOutPort p f).link = s.link := rfl
@[simp] theorem modOutPort_notices (s : State) (p : PortIx) (f : OutPort → OutPort) : (s.modOutPort p f).notices = s.notices := rfl
@[simp] theorem modOutPort_freeCount (s : State) (p : PortIx) (f : OutPort → OutPort) : (s.modOutPort p f).freeCount = s.freeCount := rfl
@[simp] theorem modOutPort_pending (s : State) (p : PortIx) (f : OutPort → OutPort) : (s.modOutPort p f).pending = s.pending := rfl
@[simp] theorem modOutPort_source_at (s : State) (p : PortIx) (f : OutPort → OutPort) (x : SourceIx) : (s.modOutPort p f).source x = s.source x := rfl
@[simp] theorem modOutPort_capturePort_at (s : State) (p : PortIx) (f : OutPort → OutPort) (x : CaptureIx) : (s.modOutPort p f).capturePort x = s.capturePort x := rfl
@[simp] theorem modOutPort_stream_at (s : State) (p : PortIx) (f : OutPort → OutPort) (x : StreamIx) : (s.modOutPort p f).stream x = s.stream x := rfl
@[simp] theorem modOutPort_ring_at (s : State) (p : PortIx) (f : OutPort → OutPort) (x : StreamIx) : (s.modOutPort p f).ring x = s.ring x := rfl
@[simp] theorem modOutPort_list_at (s : State) (p : PortIx) (f : OutPort → OutPort) (x : LaneIx) : (s.modOutPort p f).list x = s.list x := rfl
@[simp] theorem modOutPort_lane_at (s : State) (p : PortIx) (f : OutPort → OutPort) (x : LaneIx) : (s.modOutPort p f).lane x = s.lane x := rfl
@[simp] theorem modOutPort_lock_at (s : State) (p : PortIx) (f : OutPort → OutPort) (x : LaneIx) : (s.modOutPort p f).lock x = s.lock x := rfl
@[simp] theorem modOutPort_out_at (s : State) (p : PortIx) (f : OutPort → OutPort) (x : LaneIx) : (s.modOutPort p f).out x = s.out x := rfl
@[simp] theorem modOutPort_trailer_at (s : State) (p : PortIx) (f : OutPort → OutPort) (x : LaneIx) : (s.modOutPort p f).trailer x = s.trailer x := rfl
@[simp] theorem modOutPort_outPort_same (s : State) (p : PortIx) (f : OutPort → OutPort) : (s.modOutPort p f).outPort p = f (s.outPort p) := by
  simp [State.modOutPort, State.outPort]
@[simp] theorem modOutPort_outPort_ne (s : State) (p : PortIx) (f : OutPort → OutPort) (x : PortIx) (h : p ≠ x) : (s.modOutPort p f).outPort x = s.outPort x := by
  simp [State.modOutPort, State.outPort, h]

/-! ### modOut -/

@[simp] theorem modOut_resetAsserted (s : State) (l : LaneIx) (f : LaneOut → LaneOut) : (s.modOut l f).resetAsserted = s.resetAsserted := rfl
@[simp] theorem modOut_lcsLow (s : State) (l : LaneIx) (f : LaneOut → LaneOut) : (s.modOut l f).lcsLow = s.lcsLow := rfl
@[simp] theorem modOut_deviceTime (s : State) (l : LaneIx) (f : LaneOut → LaneOut) : (s.modOut l f).deviceTime = s.deviceTime := rfl
@[simp] theorem modOut_sources (s : State) (l : LaneIx) (f : LaneOut → LaneOut) : (s.modOut l f).sources = s.sources := rfl
@[simp] theorem modOut_capturePorts (s : State) (l : LaneIx) (f : LaneOut → LaneOut) : (s.modOut l f).capturePorts = s.capturePorts := rfl
@[simp] theorem modOut_streams (s : State) (l : LaneIx) (f : LaneOut → LaneOut) : (s.modOut l f).streams = s.streams := rfl
@[simp] theorem modOut_rings (s : State) (l : LaneIx) (f : LaneOut → LaneOut) : (s.modOut l f).rings = s.rings := rfl
@[simp] theorem modOut_lists (s : State) (l : LaneIx) (f : LaneOut → LaneOut) : (s.modOut l f).lists = s.lists := rfl
@[simp] theorem modOut_lanes (s : State) (l : LaneIx) (f : LaneOut → LaneOut) : (s.modOut l f).lanes = s.lanes := rfl
@[simp] theorem modOut_locks (s : State) (l : LaneIx) (f : LaneOut → LaneOut) : (s.modOut l f).locks = s.locks := rfl
@[simp] theorem modOut_outPorts (s : State) (l : LaneIx) (f : LaneOut → LaneOut) : (s.modOut l f).outPorts = s.outPorts := rfl
@[simp] theorem modOut_trailers (s : State) (l : LaneIx) (f : LaneOut → LaneOut) : (s.modOut l f).trailers = s.trailers := rfl
@[simp] theorem modOut_store (s : State) (l : LaneIx) (f : LaneOut → LaneOut) : (s.modOut l f).store = s.store := rfl
@[simp] theorem modOut_dram (s : State) (l : LaneIx) (f : LaneOut → LaneOut) : (s.modOut l f).dram = s.dram := rfl
@[simp] theorem modOut_claims (s : State) (l : LaneIx) (f : LaneOut → LaneOut) : (s.modOut l f).claims = s.claims := rfl
@[simp] theorem modOut_link (s : State) (l : LaneIx) (f : LaneOut → LaneOut) : (s.modOut l f).link = s.link := rfl
@[simp] theorem modOut_notices (s : State) (l : LaneIx) (f : LaneOut → LaneOut) : (s.modOut l f).notices = s.notices := rfl
@[simp] theorem modOut_freeCount (s : State) (l : LaneIx) (f : LaneOut → LaneOut) : (s.modOut l f).freeCount = s.freeCount := rfl
@[simp] theorem modOut_pending (s : State) (l : LaneIx) (f : LaneOut → LaneOut) : (s.modOut l f).pending = s.pending := rfl
@[simp] theorem modOut_source_at (s : State) (l : LaneIx) (f : LaneOut → LaneOut) (x : SourceIx) : (s.modOut l f).source x = s.source x := rfl
@[simp] theorem modOut_capturePort_at (s : State) (l : LaneIx) (f : LaneOut → LaneOut) (x : CaptureIx) : (s.modOut l f).capturePort x = s.capturePort x := rfl
@[simp] theorem modOut_stream_at (s : State) (l : LaneIx) (f : LaneOut → LaneOut) (x : StreamIx) : (s.modOut l f).stream x = s.stream x := rfl
@[simp] theorem modOut_ring_at (s : State) (l : LaneIx) (f : LaneOut → LaneOut) (x : StreamIx) : (s.modOut l f).ring x = s.ring x := rfl
@[simp] theorem modOut_list_at (s : State) (l : LaneIx) (f : LaneOut → LaneOut) (x : LaneIx) : (s.modOut l f).list x = s.list x := rfl
@[simp] theorem modOut_lane_at (s : State) (l : LaneIx) (f : LaneOut → LaneOut) (x : LaneIx) : (s.modOut l f).lane x = s.lane x := rfl
@[simp] theorem modOut_lock_at (s : State) (l : LaneIx) (f : LaneOut → LaneOut) (x : LaneIx) : (s.modOut l f).lock x = s.lock x := rfl
@[simp] theorem modOut_outPort_at (s : State) (l : LaneIx) (f : LaneOut → LaneOut) (x : PortIx) : (s.modOut l f).outPort x = s.outPort x := rfl
@[simp] theorem modOut_trailer_at (s : State) (l : LaneIx) (f : LaneOut → LaneOut) (x : LaneIx) : (s.modOut l f).trailer x = s.trailer x := rfl
@[simp] theorem modOut_out_same (s : State) (l : LaneIx) (f : LaneOut → LaneOut) : (s.modOut l f).out l = f (s.out l) := by
  simp [State.modOut, State.out]
@[simp] theorem modOut_out_ne (s : State) (l : LaneIx) (f : LaneOut → LaneOut) (x : LaneIx) (h : l ≠ x) : (s.modOut l f).out x = s.out x := by
  simp [State.modOut, State.out, h]

/-! ### setTrailer -/

@[simp] theorem setTrailer_resetAsserted (s : State) (l : LaneIx) (t : Option Trailer) : (s.setTrailer l t).resetAsserted = s.resetAsserted := rfl
@[simp] theorem setTrailer_lcsLow (s : State) (l : LaneIx) (t : Option Trailer) : (s.setTrailer l t).lcsLow = s.lcsLow := rfl
@[simp] theorem setTrailer_deviceTime (s : State) (l : LaneIx) (t : Option Trailer) : (s.setTrailer l t).deviceTime = s.deviceTime := rfl
@[simp] theorem setTrailer_sources (s : State) (l : LaneIx) (t : Option Trailer) : (s.setTrailer l t).sources = s.sources := rfl
@[simp] theorem setTrailer_capturePorts (s : State) (l : LaneIx) (t : Option Trailer) : (s.setTrailer l t).capturePorts = s.capturePorts := rfl
@[simp] theorem setTrailer_streams (s : State) (l : LaneIx) (t : Option Trailer) : (s.setTrailer l t).streams = s.streams := rfl
@[simp] theorem setTrailer_rings (s : State) (l : LaneIx) (t : Option Trailer) : (s.setTrailer l t).rings = s.rings := rfl
@[simp] theorem setTrailer_lists (s : State) (l : LaneIx) (t : Option Trailer) : (s.setTrailer l t).lists = s.lists := rfl
@[simp] theorem setTrailer_lanes (s : State) (l : LaneIx) (t : Option Trailer) : (s.setTrailer l t).lanes = s.lanes := rfl
@[simp] theorem setTrailer_locks (s : State) (l : LaneIx) (t : Option Trailer) : (s.setTrailer l t).locks = s.locks := rfl
@[simp] theorem setTrailer_outPorts (s : State) (l : LaneIx) (t : Option Trailer) : (s.setTrailer l t).outPorts = s.outPorts := rfl
@[simp] theorem setTrailer_outs (s : State) (l : LaneIx) (t : Option Trailer) : (s.setTrailer l t).outs = s.outs := rfl
@[simp] theorem setTrailer_store (s : State) (l : LaneIx) (t : Option Trailer) : (s.setTrailer l t).store = s.store := rfl
@[simp] theorem setTrailer_dram (s : State) (l : LaneIx) (t : Option Trailer) : (s.setTrailer l t).dram = s.dram := rfl
@[simp] theorem setTrailer_claims (s : State) (l : LaneIx) (t : Option Trailer) : (s.setTrailer l t).claims = s.claims := rfl
@[simp] theorem setTrailer_link (s : State) (l : LaneIx) (t : Option Trailer) : (s.setTrailer l t).link = s.link := rfl
@[simp] theorem setTrailer_notices (s : State) (l : LaneIx) (t : Option Trailer) : (s.setTrailer l t).notices = s.notices := rfl
@[simp] theorem setTrailer_freeCount (s : State) (l : LaneIx) (t : Option Trailer) : (s.setTrailer l t).freeCount = s.freeCount := rfl
@[simp] theorem setTrailer_pending (s : State) (l : LaneIx) (t : Option Trailer) : (s.setTrailer l t).pending = s.pending := rfl
@[simp] theorem setTrailer_source_at (s : State) (l : LaneIx) (t : Option Trailer) (x : SourceIx) : (s.setTrailer l t).source x = s.source x := rfl
@[simp] theorem setTrailer_capturePort_at (s : State) (l : LaneIx) (t : Option Trailer) (x : CaptureIx) : (s.setTrailer l t).capturePort x = s.capturePort x := rfl
@[simp] theorem setTrailer_stream_at (s : State) (l : LaneIx) (t : Option Trailer) (x : StreamIx) : (s.setTrailer l t).stream x = s.stream x := rfl
@[simp] theorem setTrailer_ring_at (s : State) (l : LaneIx) (t : Option Trailer) (x : StreamIx) : (s.setTrailer l t).ring x = s.ring x := rfl
@[simp] theorem setTrailer_list_at (s : State) (l : LaneIx) (t : Option Trailer) (x : LaneIx) : (s.setTrailer l t).list x = s.list x := rfl
@[simp] theorem setTrailer_lane_at (s : State) (l : LaneIx) (t : Option Trailer) (x : LaneIx) : (s.setTrailer l t).lane x = s.lane x := rfl
@[simp] theorem setTrailer_lock_at (s : State) (l : LaneIx) (t : Option Trailer) (x : LaneIx) : (s.setTrailer l t).lock x = s.lock x := rfl
@[simp] theorem setTrailer_outPort_at (s : State) (l : LaneIx) (t : Option Trailer) (x : PortIx) : (s.setTrailer l t).outPort x = s.outPort x := rfl
@[simp] theorem setTrailer_out_at (s : State) (l : LaneIx) (t : Option Trailer) (x : LaneIx) : (s.setTrailer l t).out x = s.out x := rfl
@[simp] theorem setTrailer_trailer_same (s : State) (l : LaneIx) (t : Option Trailer) : (s.setTrailer l t).trailer l = t := by
  simp [State.setTrailer, State.trailer]
@[simp] theorem setTrailer_trailer_ne (s : State) (l : LaneIx) (t : Option Trailer) (x : LaneIx) (h : l ≠ x) : (s.setTrailer l t).trailer x = s.trailer x := by
  simp [State.setTrailer, State.trailer, h]

/-! ### modLink -/

@[simp] theorem modLink_resetAsserted (s : State) (f : Link → Link) : (s.modLink f).resetAsserted = s.resetAsserted := rfl
@[simp] theorem modLink_lcsLow (s : State) (f : Link → Link) : (s.modLink f).lcsLow = s.lcsLow := rfl
@[simp] theorem modLink_deviceTime (s : State) (f : Link → Link) : (s.modLink f).deviceTime = s.deviceTime := rfl
@[simp] theorem modLink_sources (s : State) (f : Link → Link) : (s.modLink f).sources = s.sources := rfl
@[simp] theorem modLink_capturePorts (s : State) (f : Link → Link) : (s.modLink f).capturePorts = s.capturePorts := rfl
@[simp] theorem modLink_streams (s : State) (f : Link → Link) : (s.modLink f).streams = s.streams := rfl
@[simp] theorem modLink_rings (s : State) (f : Link → Link) : (s.modLink f).rings = s.rings := rfl
@[simp] theorem modLink_lists (s : State) (f : Link → Link) : (s.modLink f).lists = s.lists := rfl
@[simp] theorem modLink_lanes (s : State) (f : Link → Link) : (s.modLink f).lanes = s.lanes := rfl
@[simp] theorem modLink_locks (s : State) (f : Link → Link) : (s.modLink f).locks = s.locks := rfl
@[simp] theorem modLink_outPorts (s : State) (f : Link → Link) : (s.modLink f).outPorts = s.outPorts := rfl
@[simp] theorem modLink_outs (s : State) (f : Link → Link) : (s.modLink f).outs = s.outs := rfl
@[simp] theorem modLink_trailers (s : State) (f : Link → Link) : (s.modLink f).trailers = s.trailers := rfl
@[simp] theorem modLink_store (s : State) (f : Link → Link) : (s.modLink f).store = s.store := rfl
@[simp] theorem modLink_dram (s : State) (f : Link → Link) : (s.modLink f).dram = s.dram := rfl
@[simp] theorem modLink_claims (s : State) (f : Link → Link) : (s.modLink f).claims = s.claims := rfl
@[simp] theorem modLink_notices (s : State) (f : Link → Link) : (s.modLink f).notices = s.notices := rfl
@[simp] theorem modLink_freeCount (s : State) (f : Link → Link) : (s.modLink f).freeCount = s.freeCount := rfl
@[simp] theorem modLink_pending (s : State) (f : Link → Link) : (s.modLink f).pending = s.pending := rfl
@[simp] theorem modLink_source_at (s : State) (f : Link → Link) (x : SourceIx) : (s.modLink f).source x = s.source x := rfl
@[simp] theorem modLink_capturePort_at (s : State) (f : Link → Link) (x : CaptureIx) : (s.modLink f).capturePort x = s.capturePort x := rfl
@[simp] theorem modLink_stream_at (s : State) (f : Link → Link) (x : StreamIx) : (s.modLink f).stream x = s.stream x := rfl
@[simp] theorem modLink_ring_at (s : State) (f : Link → Link) (x : StreamIx) : (s.modLink f).ring x = s.ring x := rfl
@[simp] theorem modLink_list_at (s : State) (f : Link → Link) (x : LaneIx) : (s.modLink f).list x = s.list x := rfl
@[simp] theorem modLink_lane_at (s : State) (f : Link → Link) (x : LaneIx) : (s.modLink f).lane x = s.lane x := rfl
@[simp] theorem modLink_lock_at (s : State) (f : Link → Link) (x : LaneIx) : (s.modLink f).lock x = s.lock x := rfl
@[simp] theorem modLink_outPort_at (s : State) (f : Link → Link) (x : PortIx) : (s.modLink f).outPort x = s.outPort x := rfl
@[simp] theorem modLink_out_at (s : State) (f : Link → Link) (x : LaneIx) : (s.modLink f).out x = s.out x := rfl
@[simp] theorem modLink_trailer_at (s : State) (f : Link → Link) (x : LaneIx) : (s.modLink f).trailer x = s.trailer x := rfl
@[simp] theorem modLink_link (s : State) (f : Link → Link) : (s.modLink f).link = f s.link := rfl

end Sys2Proof.Machine
end

