-- ==== Sys2Proof/Laws/Memory.lean ====
section
/-! SUPPORT. The external memory: every write keeps the canonical form, and what a byte reads after a write. -/

namespace Sys2Proof.Machine

open Sys2Proof

theorem Memory.wfFrom_mono {m : Memory} {a b : Nat} (h : a ≤ b) (hw : Memory.wfFrom b m = true) :
    Memory.wfFrom a m = true := by
  cases m with
  | nil => rfl
  | cons x m =>
    obtain ⟨k, c⟩ := x
    simp only [Memory.wfFrom, Bool.and_eq_true, decide_eq_true_eq] at hw ⊢
    exact ⟨⟨by omega, hw.1.2⟩, hw.2⟩

/-- One byte written at or above the lower bound keeps the canonical form from that bound on. -/
theorem Memory.wfFrom_write (m : Memory) : ∀ (low a : Nat) (b : Byte), low ≤ a → Memory.wfFrom low m = true →
    Memory.wfFrom low (Memory.write m a b) = true := by
  induction m with
  | nil =>
    intro low a b h _
    by_cases hb : b = unlistedByte <;> simp [Memory.write, Memory.wfFrom, hb, h]
  | cons x m ih =>
    intro low a b h hw
    obtain ⟨k, c⟩ := x
    simp only [Memory.wfFrom, Bool.and_eq_true, decide_eq_true_eq] at hw
    obtain ⟨⟨hk, hc⟩, ht⟩ := hw
    unfold Memory.write
    split
    · split
      · simp [Memory.wfFrom, hk, hc, ht]
      · rename_i hlt hb
        simp only [Memory.wfFrom, Bool.and_eq_true, decide_eq_true_eq]
        exact ⟨⟨h, hb⟩, ⟨by omega, hc⟩, ht⟩
    · split
      · rename_i hlt he
        subst he
        split
        · exact Memory.wfFrom_mono (by omega) ht
        · rename_i hb
          simp only [Memory.wfFrom, Bool.and_eq_true, decide_eq_true_eq]
          exact ⟨⟨h, hb⟩, ht⟩
      · rename_i hlt hne
        simp only [Memory.wfFrom, Bool.and_eq_true, decide_eq_true_eq]
        exact ⟨⟨hk, hc⟩, ih (k + 1) a b (by omega) ht⟩

theorem Memory.wf_write {m : Memory} (a : Nat) (b : Byte) (h : Memory.wf m = true) :
    Memory.wf (Memory.write m a b) = true := Memory.wfFrom_write m 0 a b (Nat.zero_le _) h

/-- A run of bytes written keeps the canonical form. -/
theorem Memory.wf_writeBytes (bs : List Byte) : ∀ {m : Memory} (a : Nat), Memory.wf m = true →
    Memory.wf (Memory.writeBytes m a bs) = true := by
  induction bs with
  | nil => intro m a h; exact h
  | cons b bs ih => intro m a h; exact ih (a + 1) (Memory.wf_write a b h)

/-- A byte below the lower bound of a canonical memory is unlisted. -/
theorem Memory.read_below (m : Memory) : ∀ {low a : Nat}, a < low → Memory.wfFrom low m = true →
    Memory.read m a = unlistedByte := by
  induction m with
  | nil => intros; rfl
  | cons x m ih =>
    intro low a h hw
    obtain ⟨k, c⟩ := x
    simp only [Memory.wfFrom, Bool.and_eq_true, decide_eq_true_eq] at hw
    have : ¬ k = a := by omega
    simp only [Memory.read, this, if_false]
    exact ih (by omega) hw.2

/-- What a byte reads after one byte is written. -/
theorem Memory.read_write (m : Memory) : ∀ {low : Nat} (a b : Nat) (v : Byte), Memory.wfFrom low m = true →
    Memory.read (Memory.write m a v) b = if a = b then v else Memory.read m b := by
  induction m with
  | nil =>
    intro low a b v _
    by_cases hv : v = unlistedByte <;> by_cases hab : a = b <;> simp [Memory.write, Memory.read, hv, hab]
  | cons x m ih =>
    intro low a b v hw
    obtain ⟨k, c⟩ := x
    simp only [Memory.wfFrom, Bool.and_eq_true, decide_eq_true_eq] at hw
    obtain ⟨⟨hk, hc⟩, ht⟩ := hw
    unfold Memory.write
    split
    · rename_i hlt
      split
      · rename_i hv
        by_cases hab : a = b
        · subst hab
          have h1 : ¬ k = a := by omega
          simp only [Memory.read, h1, if_false, if_true, hv]
          exact Memory.read_below m (by omega) ht
        · simp [hab]
      · by_cases hab : a = b <;> simp [Memory.read, hab]
    · split
      · rename_i hlt he
        subst he
        split
        · rename_i hv
          by_cases hab : a = b
          · subst hab
            simp only [if_true, hv]
            exact Memory.read_below m (by omega) ht
          · simp [Memory.read, hab]
        · by_cases hab : a = b <;> simp [Memory.read, hab]
      · rename_i hlt hne
        by_cases hkb : k = b
        · have : ¬ a = b := by omega
          simp [Memory.read, hkb, this]
        · simp only [Memory.read, hkb, if_false]
          exact ih a b v ht

/-- A byte outside the run written reads as before. -/
theorem Memory.read_writeBytes_outside (bs : List Byte) : ∀ {m : Memory} (a b : Nat), Memory.wf m = true →
    (b < a ∨ a + bs.length ≤ b) → Memory.read (Memory.writeBytes m a bs) b = Memory.read m b := by
  induction bs with
  | nil => intros; rfl
  | cons v bs ih =>
    intro m a b h ho
    simp only [Memory.writeBytes]
    rw [ih (a + 1) b (Memory.wf_write a v h) (by simp at ho; omega), Memory.read_write m a b v h]
    have : ¬ a = b := by simp at ho; omega
    simp [this]

/-- A byte of the run written reads the byte written. -/
theorem Memory.read_writeBytes_inside (bs : List Byte) : ∀ {m : Memory} (a j : Nat), Memory.wf m = true →
    (h : j < bs.length) → Memory.read (Memory.writeBytes m a bs) (a + j) = bs[j] := by
  induction bs with
  | nil => intro m a j _ h; simp at h
  | cons v bs ih =>
    intro m a j h hj
    simp only [Memory.writeBytes]
    cases j with
    | zero =>
      rw [read_writeBytes_outside bs (a + 1) (a + 0) (Memory.wf_write a v h) (by omega), Memory.read_write m a _ v h]
      simp
    | succ j =>
      have := ih (a + 1) j (Memory.wf_write a v h) (by simpa using hj)
      rw [show a + (j + 1) = a + 1 + j by omega, this]
      simp

end Sys2Proof.Machine
end

