-- ==== Sys2Proof/Laws/Ops.lean ====
section
/-! SUPPORT. What the shared operations of the link, the notice unit and the budget table can do. -/

namespace Sys2Proof.Machine

open Sys2Proof

/-! ### Bytes on the wire -/

/-- The end of a frame writes the reply queue, the counters of the link, and the two parts of the notice queue. -/
theorem frameSent_eq (k : OutboundKind) (s : State) :
    frameSent k s = { s with
      link := { s.link with replies := (frameSent k s).link.replies, counters := (frameSent k s).link.counters }
      notices := { s.notices with
        transmitted := (frameSent k s).notices.transmitted, untransmitted := (frameSent k s).notices.untransmitted } } := by
  unfold frameSent
  split
  · rfl
  · split <;> rfl
  · rfl
  · rfl

/-- The notices in the queue, and their order, stay as they are when a frame ends. -/
theorem frameSent_queue (k : OutboundKind) (s : State) :
    (frameSent k s).notices.transmitted ++ (frameSent k s).notices.untransmitted =
      s.notices.transmitted ++ s.notices.untransmitted := by
  unfold frameSent
  split
  · rfl
  · rename_i n rest hu
    split
    · simp [noticeSent, hu]
    · rfl
  · rfl
  · rfl

/-- The device's byte in one position writes the outbound side of the link, LCS_N, and the two parts of the notice queue. -/
theorem sendByte_eq (s : State) :
    sendByte s = { s with
      lcsLow := true
      link := { s.link with
        replies := (sendByte s).link.replies, outbound := (sendByte s).link.outbound
        counters := (sendByte s).link.counters, lsdo := (sendByte s).link.lsdo }
      notices := { s.notices with
        transmitted := (sendByte s).notices.transmitted, untransmitted := (sendByte s).notices.untransmitted } } := by
  unfold sendByte
  split
  · rfl
  · dsimp only
    split
    · rfl
    · rw [frameSent_eq]; rfl

theorem sendByte_queue (s : State) :
    (sendByte s).notices.transmitted ++ (sendByte s).notices.untransmitted =
      s.notices.transmitted ++ s.notices.untransmitted := by
  unfold sendByte
  split
  · rfl
  · dsimp only
    split
    · rfl
    · exact frameSent_queue _ _

/-- The framer does not see the device's byte, nor the device's byte the framer. -/
theorem sendByte_setFramer (f : Option (List Byte)) (s : State) : sendByte (setFramer f s) = setFramer f (sendByte s) := by
  have hf : frameAt (setFramer f s) = frameAt s := rfl
  unfold sendByte
  rw [hf]
  split
  · rfl
  · dsimp only
    split
    · rfl
    · have hp : ∀ b o, putByte b o (setFramer f s) = setFramer f (putByte b o s) := fun _ _ => rfl
      rw [hp]
      generalize putByte _ none s = u
      unfold frameSent
      have hu : (setFramer f u).notices = u.notices := rfl
      rw [hu]
      split
      · rfl
      · split <;> rfl
      · rfl
      · rfl

theorem shifted_add (m n : Nat) (s : State) : (s.shifted m).shifted n = s.shifted (m + n) := by
  induction m generalizing s with
  | zero => rw [Nat.zero_add]; rfl
  | succ m ih => rw [Nat.succ_add]; exact ih (sendByte s)

/-- Byte positions write the outbound side of the link, LCS_N, and the two parts of the notice queue. -/
theorem shifted_eq (n : Nat) (s : State) :
    s.shifted n = { s with
      lcsLow := (s.shifted n).lcsLow
      link := { s.link with
        replies := (s.shifted n).link.replies, outbound := (s.shifted n).link.outbound
        counters := (s.shifted n).link.counters, lsdo := (s.shifted n).link.lsdo }
      notices := { s.notices with
        transmitted := (s.shifted n).notices.transmitted, untransmitted := (s.shifted n).notices.untransmitted } } := by
  induction n generalizing s with
  | zero => rfl
  | succ n ih =>
    have h := sendByte_eq s
    have hs : s.shifted (n + 1) = (sendByte s).shifted n := rfl
    rw [hs]
    conv_lhs => rw [ih (sendByte s)]
    generalize (sendByte s).shifted n = v
    generalize sendByte s = u at h
    rw [h]

theorem shifted_queue (n : Nat) (s : State) :
    (s.shifted n).notices.transmitted ++ (s.shifted n).notices.untransmitted =
      s.notices.transmitted ++ s.notices.untransmitted := by
  induction n generalizing s with
  | zero => rfl
  | succ n ih => exact (ih (sendByte s)).trans (sendByte_queue s)

@[simp] theorem shifted_succ_lcsLow (n : Nat) (s : State) : (s.shifted (n + 1)).lcsLow = true := by
  induction n generalizing s with
  | zero => show (sendByte s).lcsLow = true; rw [sendByte_eq]
  | succ n ih => exact ih (sendByte s)

@[simp] theorem shifted_framer (n : Nat) (s : State) : (s.shifted n).link.framer = s.link.framer := by rw [shifted_eq]
@[simp] theorem shifted_inbound (n : Nat) (s : State) : (s.shifted n).link.inbound = s.link.inbound := by rw [shifted_eq]
@[simp] theorem shifted_outstanding (n : Nat) (s : State) : (s.shifted n).link.outstanding = s.link.outstanding := by
  rw [shifted_eq]
@[simp] theorem shifted_nextSeq (n : Nat) (s : State) : (s.shifted n).notices.nextSeq = s.notices.nextSeq := by rw [shifted_eq]
@[simp] theorem shifted_lost (n : Nat) (s : State) : (s.shifted n).notices.lost = s.notices.lost := by rw [shifted_eq]
@[simp] theorem shifted_mask (n : Nat) (s : State) : (s.shifted n).notices.mask = s.notices.mask := by rw [shifted_eq]
@[simp] theorem shifted_resetAsserted (n : Nat) (s : State) : (s.shifted n).resetAsserted = s.resetAsserted := by rw [shifted_eq]
@[simp] theorem shifted_deviceTime (n : Nat) (s : State) : (s.shifted n).deviceTime = s.deviceTime := by rw [shifted_eq]
@[simp] theorem shifted_sources (n : Nat) (s : State) : (s.shifted n).sources = s.sources := by rw [shifted_eq]
@[simp] theorem shifted_capturePorts (n : Nat) (s : State) : (s.shifted n).capturePorts = s.capturePorts := by rw [shifted_eq]
@[simp] theorem shifted_streams (n : Nat) (s : State) : (s.shifted n).streams = s.streams := by rw [shifted_eq]
@[simp] theorem shifted_rings (n : Nat) (s : State) : (s.shifted n).rings = s.rings := by rw [shifted_eq]
@[simp] theorem shifted_lists (n : Nat) (s : State) : (s.shifted n).lists = s.lists := by rw [shifted_eq]
@[simp] theorem shifted_lanes (n : Nat) (s : State) : (s.shifted n).lanes = s.lanes := by rw [shifted_eq]
@[simp] theorem shifted_locks (n : Nat) (s : State) : (s.shifted n).locks = s.locks := by rw [shifted_eq]
@[simp] theorem shifted_outPorts (n : Nat) (s : State) : (s.shifted n).outPorts = s.outPorts := by rw [shifted_eq]
@[simp] theorem shifted_outs (n : Nat) (s : State) : (s.shifted n).outs = s.outs := by rw [shifted_eq]
@[simp] theorem shifted_trailers (n : Nat) (s : State) : (s.shifted n).trailers = s.trailers := by rw [shifted_eq]
@[simp] theorem shifted_store (n : Nat) (s : State) : (s.shifted n).store = s.store := by rw [shifted_eq]
@[simp] theorem shifted_dram (n : Nat) (s : State) : (s.shifted n).dram = s.dram := by rw [shifted_eq]
@[simp] theorem shifted_claims (n : Nat) (s : State) : (s.shifted n).claims = s.claims := by rw [shifted_eq]
@[simp] theorem shifted_freeCount (n : Nat) (s : State) : (s.shifted n).freeCount = s.freeCount := by rw [shifted_eq]
@[simp] theorem shifted_pending (n : Nat) (s : State) : (s.shifted n).pending = s.pending := by rw [shifted_eq]

/-! ### Replies and the outstanding table -/

@[simp] theorem queueReply_inbound (r : Reply) (s : State) : (queueReply r s).link.inbound = s.link.inbound := rfl
@[simp] theorem queueReply_outstanding (r : Reply) (s : State) :
    (queueReply r s).link.outstanding = s.link.outstanding := rfl
@[simp] theorem queueReply_replies (r : Reply) (s : State) :
    (queueReply r s).link.replies = s.link.replies ++ [r] := rfl

/-- Everything `complete` can do: nothing where no entry holds the tag, else one entry fewer and one final reply more. -/
theorem complete_cases (tag : Tag) (res : Result) (fields : List Byte) (s : State) :
    complete tag res fields s = s ∨
      ∃ e ∈ s.link.outstanding, e.tag = tag ∧ complete tag res fields s = { s with link := { s.link with
        outstanding := s.link.outstanding.eraseP (fun x => x.tag = tag)
        replies := s.link.replies ++ [⟨replyKind e.op.kind.code, tag, .final, res, fields⟩] } } := by
  unfold complete
  cases h : s.link.outstanding.find? (fun e => e.tag = tag) with
  | none => exact .inl rfl
  | some e =>
    refine .inr ⟨e, List.mem_of_find?_eq_some h, ?_, rfl⟩
    simpa using List.find?_some h

/-- `complete` changes the link controller only. -/
theorem complete_eq (tag : Tag) (res : Result) (fields : List Byte) (s : State) :
    complete tag res fields s = { s with link := (complete tag res fields s).link } := by
  rcases complete_cases tag res fields s with h | ⟨e, -, -, h⟩ <;> rw [h]

/-- Two entries of the table with one tag are one entry. -/
theorem entry_unique {es : List Entry} (h : (es.map Entry.tag).Nodup) {a b : Entry} (ha : a ∈ es) (hb : b ∈ es)
    (e : a.tag = b.tag) : a = b := by
  induction es with
  | nil => cases ha
  | cons x es ih =>
    rw [List.map_cons, List.nodup_cons] at h
    rcases List.mem_cons.mp ha with rfl | ha' <;> rcases List.mem_cons.mp hb with rfl | hb'
    · rfl
    · exact absurd (e ▸ List.mem_map_of_mem (f := Entry.tag) hb') h.1
    · exact absurd (e ▸ List.mem_map_of_mem (f := Entry.tag) ha') h.1
    · exact ih h.2 ha' hb'

/-- The completion of an operation that is in the table: its entry leaves and its final reply is queued. -/
theorem complete_of_mem (t : Tag) (op : Pending) (res : Result) (fields : List Byte) (s : State)
    (hn : (s.link.outstanding.map Entry.tag).Nodup) (hm : ⟨t, op⟩ ∈ s.link.outstanding) :
    complete t res fields s = { s with link := { s.link with
      outstanding := s.link.outstanding.filter (fun e => decide (e.tag ≠ t))
      replies := s.link.replies ++ [⟨replyKind op.kind.code, t, .final, res, fields⟩] } } := by
  have hf : s.link.outstanding.find? (fun y => decide (y.tag = t)) = some ⟨t, op⟩ := by
    cases h : s.link.outstanding.find? (fun y => decide (y.tag = t)) with
    | none => simpa using List.find?_eq_none.mp h _ hm
    | some x => rw [entry_unique hn (List.mem_of_find?_eq_some h) hm (by simpa using List.find?_some h)]
  have he : ∀ es : List Entry, (es.map Entry.tag).Nodup →
      es.eraseP (fun x => decide (x.tag = t)) = es.filter (fun e => decide (e.tag ≠ t)) := by
    intro es hn
    induction es with
    | nil => rfl
    | cons x es ih =>
      rw [List.map_cons, List.nodup_cons] at hn
      by_cases hx : x.tag = t
      · subst hx
        rw [List.eraseP_cons_of_pos (by simp), List.filter_cons_of_neg (by simp), eq_comm, List.filter_eq_self]
        intro y hy
        simpa using fun e : y.tag = x.tag => hn.1 (e ▸ List.mem_map_of_mem hy)
      · rw [List.eraseP_cons_of_neg (by simpa using hx), List.filter_cons_of_pos (by simpa using hx), ih hn.2]
  unfold complete
  rw [hf, ← he _ hn]
  rfl

@[simp] theorem complete_inbound (tag : Tag) (res : Result) (fields : List Byte) (s : State) :
    (complete tag res fields s).link.inbound = s.link.inbound := by
  rcases complete_cases tag res fields s with h | ⟨e, -, -, h⟩ <;> rw [h]

/-- `complete` queues no first reply. -/
@[simp] theorem complete_firstReplies (tag : Tag) (res : Result) (fields : List Byte) (s : State) :
    firstReplies (complete tag res fields s).link = firstReplies s.link := by
  rcases complete_cases tag res fields s with h | ⟨e, -, -, h⟩ <;> rw [h]
  simp [firstReplies, List.countP_append]

/-- `complete` keeps the number of outstanding entries and queued final replies together. -/
theorem complete_places (tag : Tag) (res : Result) (fields : List Byte) (s : State) :
    (complete tag res fields s).link.outstanding.length + finalReplies (complete tag res fields s).link =
      s.link.outstanding.length + finalReplies s.link := by
  rcases complete_cases tag res fields s with h | ⟨e, hm, ht, h⟩ <;> rw [h]
  have hl := List.length_eraseP_of_mem (p := fun x : Entry => decide (x.tag = tag)) hm (by simpa using ht)
  have : 0 < s.link.outstanding.length := List.length_pos_of_mem hm
  simp [finalReplies, List.countP_append, hl]
  omega

theorem complete_tags (tag : Tag) (res : Result) (fields : List Byte) (s : State)
    (h : (s.link.outstanding.map Entry.tag).Nodup) :
    ((complete tag res fields s).link.outstanding.map Entry.tag).Nodup := by
  rcases complete_cases tag res fields s with h' | ⟨e, -, -, h'⟩ <;> rw [h']
  · exact h
  · exact h.sublist ((List.eraseP_sublist).map _)

/-- A final reply, queued as its entry leaves, keeps the link law. -/
theorem complete_linkLaw (tag : Tag) (res : Result) (fields : List Byte) (s : State) (h : LinkLaw s.link) :
    LinkLaw (complete tag res fields s).link := by
  obtain ⟨h1, h2, h3⟩ := h
  exact ⟨by simpa using h1, by rw [complete_places]; exact h2, complete_tags tag res fields s h3⟩

/-- `complete` changes the link controller only, field by field. -/
@[simp] theorem complete_dram (t : Tag) (r : Result) (f : List Byte) (s : State) : (complete t r f s).dram = s.dram := by
  rw [complete_eq]
@[simp] theorem complete_claims (t : Tag) (r : Result) (f : List Byte) (s : State) :
    (complete t r f s).claims = s.claims := by rw [complete_eq]
@[simp] theorem complete_notices (t : Tag) (r : Result) (f : List Byte) (s : State) :
    (complete t r f s).notices = s.notices := by rw [complete_eq]
@[simp] theorem complete_store (t : Tag) (r : Result) (f : List Byte) (s : State) :
    (complete t r f s).store = s.store := by rw [complete_eq]
@[simp] theorem complete_ring (t : Tag) (r : Result) (f : List Byte) (s : State) (i : StreamIx) :
    (complete t r f s).ring i = s.ring i := by rw [complete_eq]; rfl
@[simp] theorem complete_stream (t : Tag) (r : Result) (f : List Byte) (s : State) (i : StreamIx) :
    (complete t r f s).stream i = s.stream i := by rw [complete_eq]; rfl
@[simp] theorem complete_lane (t : Tag) (r : Result) (f : List Byte) (s : State) (l : LaneIx) :
    (complete t r f s).lane l = s.lane l := by rw [complete_eq]; rfl
@[simp] theorem complete_lock (t : Tag) (r : Result) (f : List Byte) (s : State) (l : LaneIx) :
    (complete t r f s).lock l = s.lock l := by rw [complete_eq]; rfl
@[simp] theorem complete_list (t : Tag) (r : Result) (f : List Byte) (s : State) (l : LaneIx) :
    (complete t r f s).list l = s.list l := by rw [complete_eq]; rfl
@[simp] theorem complete_source (t : Tag) (r : Result) (f : List Byte) (s : State) (n : SourceIx) :
    (complete t r f s).source n = s.source n := by rw [complete_eq]; rfl
@[simp] theorem complete_resetAsserted (t : Tag) (r : Result) (f : List Byte) (s : State) :
    (complete t r f s).resetAsserted = s.resetAsserted := by rw [complete_eq]
@[simp] theorem complete_deviceTime (t : Tag) (r : Result) (f : List Byte) (s : State) :
    (complete t r f s).deviceTime = s.deviceTime := by rw [complete_eq]

/-! ### Notices -/

/-- `raise` changes the notice unit only. -/
theorem raise_eq (b : NoticeBody) (s : State) : raise b s = { s with notices := (raise b s).notices } := by
  unfold raise
  split
  · split <;> rfl
  · rfl

/-- What `raise` does depends on the notice unit and the device time alone. -/
theorem raise_congr (b : NoticeBody) {s t : State} (hn : t.notices = s.notices) (hd : t.deviceTime = s.deviceTime) :
    raise b t = { t with notices := (raise b s).notices } := by
  rcases s with ⟨⟩
  rcases t with ⟨⟩
  subst hn hd
  unfold raise enterNotice
  dsimp only
  split_ifs <;> rfl

theorem raise_modLink (b : NoticeBody) (s : State) (f : Link → Link) : raise b (s.modLink f) = (raise b s).modLink f := by
  rw [raise_congr b (s := s) (t := s.modLink f) rfl rfl]
  conv_rhs => rw [raise_eq b s]
  rfl

@[simp] theorem raise_dram (b : NoticeBody) (s : State) : (raise b s).dram = s.dram := by rw [raise_eq]
@[simp] theorem raise_claims (b : NoticeBody) (s : State) : (raise b s).claims = s.claims := by rw [raise_eq]
@[simp] theorem raise_link (b : NoticeBody) (s : State) : (raise b s).link = s.link := by rw [raise_eq]
@[simp] theorem raise_store (b : NoticeBody) (s : State) : (raise b s).store = s.store := by rw [raise_eq]
@[simp] theorem raise_ring (b : NoticeBody) (s : State) (i : StreamIx) : (raise b s).ring i = s.ring i := by
  rw [raise_eq]; rfl
@[simp] theorem raise_stream (b : NoticeBody) (s : State) (i : StreamIx) : (raise b s).stream i = s.stream i := by
  rw [raise_eq]; rfl
@[simp] theorem raise_lane (b : NoticeBody) (s : State) (l : LaneIx) : (raise b s).lane l = s.lane l := by
  rw [raise_eq]; rfl
@[simp] theorem raise_source (b : NoticeBody) (s : State) (n : SourceIx) : (raise b s).source n = s.source n := by
  rw [raise_eq]; rfl
@[simp] theorem raise_resetAsserted (b : NoticeBody) (s : State) : (raise b s).resetAsserted = s.resetAsserted := by
  rw [raise_eq]
@[simp] theorem raise_deviceTime (b : NoticeBody) (s : State) : (raise b s).deviceTime = s.deviceTime := by
  rw [raise_eq]

theorem consecutiveFrom_append (ns : List Notice) : ∀ (q : Half) (n : Notice),
    consecutiveFrom q (ns ++ [n]) = (consecutiveFrom q ns && decide (n.seq = q + BitVec.ofNat 16 ns.length)) := by
  induction ns with
  | nil => intro q n; simp [consecutiveFrom]
  | cons m ns ih =>
    intro q n
    simp only [List.cons_append, consecutiveFrom, ih, Bool.and_assoc, List.length_cons]
    congr 3
    rw [show BitVec.ofNat 16 (ns.length + 1) = BitVec.ofNat 16 ns.length + 1 by simp [BitVec.ofNat_add]]
    have : q + 1 + BitVec.ofNat 16 ns.length = q + (BitVec.ofNat 16 ns.length + 1) := by
      rw [BitVec.add_assoc, BitVec.add_comm 1]
    rw [this]

theorem consecutiveFrom_drop (ns : List Notice) : ∀ (q : Half) (k : Nat), k ≤ ns.length →
    consecutiveFrom q ns = true → consecutiveFrom (q + BitVec.ofNat 16 k) (ns.drop k) = true := by
  induction ns with
  | nil => intro q k hk _; simp at hk; subst hk; simp [consecutiveFrom]
  | cons m ns ih =>
    intro q k hk h
    cases k with
    | zero => simpa using h
    | succ k =>
      simp only [consecutiveFrom, Bool.and_eq_true, decide_eq_true_eq] at h
      have := ih (q + 1) k (by simpa using hk) h.2
      rw [List.drop_succ_cons, show BitVec.ofNat 16 (k + 1) = 1 + BitVec.ofNat 16 k by
        rw [Nat.add_comm]; simp [BitVec.ofNat_add], ← BitVec.add_assoc]
      exact this

/-- R162: entering a notice where there is room keeps the notice law. -/
theorem enterNotice_law (b : NoticeBody) (s : State) (hroom : noticeCount s.notices < Config.noticePlaces)
    (h : NoticeLaw s.notices) : NoticeLaw (enterNotice b s).notices := by
  obtain ⟨h1, h2⟩ := h
  have hc : noticeCount (enterNotice b s).notices = noticeCount s.notices + 1 := by
    simp [enterNotice, noticeCount]; omega
  refine ⟨by omega, ?_⟩
  rw [hc]
  have hs : (enterNotice b s).notices.nextSeq - BitVec.ofNat 16 (noticeCount s.notices + 1) =
      s.notices.nextSeq - BitVec.ofNat 16 (noticeCount s.notices) := by
    show s.notices.nextSeq + 1 - _ = _
    rw [BitVec.ofNat_add]
    generalize BitVec.ofNat 16 (noticeCount s.notices) = x
    generalize s.notices.nextSeq = q
    bv_omega
  rw [hs]
  show consecutiveFrom _ (s.notices.transmitted ++ (s.notices.untransmitted ++ [_])) = true
  rw [← List.append_assoc, consecutiveFrom_append, h2]
  have hl : (s.notices.transmitted ++ s.notices.untransmitted).length = noticeCount s.notices := by
    simp [noticeCount]
  simp [hl]

/-- R162: a notice handed over keeps the notice law. -/
theorem raise_law (b : NoticeBody) (s : State) (h : NoticeLaw s.notices) : NoticeLaw (raise b s).notices := by
  unfold raise
  split
  · split
    · exact h
    · exact enterNotice_law b s (by omega) h
  · exact h

/-! ### Budget table -/

theorem claimTotal_append (cs : List Claim) (c : Claim) : claimTotal (cs ++ [c]) = claimTotal cs + c.units := by
  simp [claimTotal]

theorem claimTotal_filter_le (p : Claim → Bool) (cs : List Claim) : claimTotal (cs.filter p) ≤ claimTotal cs := by
  induction cs with
  | nil => simp
  | cons c cs ih =>
    by_cases h : p c = true
    · simp [claimTotal, h] at ih ⊢; omega
    · simp [claimTotal, h] at ih ⊢; omega

/-- R135: a release never raises the total. -/
theorem releaseClaim_budget (h : Holder) (s : State) (hb : BudgetLaw s.claims) : BudgetLaw (releaseClaim h s).claims :=
  Nat.le_trans (claimTotal_filter_le _ _) hb

/-- R137: an admitted claim keeps the total within the capacity. -/
theorem admitClaim_budget (h : Holder) (u : Nat) (s : State) (hf : fits s u = true) :
    BudgetLaw (admitClaim h u s).claims := by
  simp only [fits, decide_eq_true_eq] at hf
  simpa [BudgetLaw, admitClaim, claimTotal_append] using hf

end Sys2Proof.Machine
end

