-- ==== Sys2Proof/Laws/Boundary.lean ====
section
/-! SUPPORT. What the parts of a boundary leave as it stood, each said once as an equation of states: the abort of a frame, the
release of a lane's tiles, the tiles of a group, the output step, the application of a commit, the settling of a stream. -/

namespace Sys2Proof.Machine

open Sys2Proof

/-- An abort writes the port's count, the lane's output, its trailer copy and the free counter. -/
theorem abortFrame_eq (l : LaneIx) (count : OutPort → OutPort) (s : State) :
    abortFrame l count s = { s with
      outPorts := (abortFrame l count s).outPorts
      outs := (abortFrame l count s).outs
      trailers := (abortFrame l count s).trailers
      freeCount := (abortFrame l count s).freeCount } := by
  unfold abortFrame countOnPort
  cases (s.out l).frame with
  | none => rfl
  | some fr => cases (s.lane l).port <;> rfl

theorem abortFrame_frame (l : LaneIx) (count : OutPort → OutPort) (s : State) :
    ((abortFrame l count s).out l).frame = none := by
  unfold abortFrame
  cases h : (s.out l).frame with
  | none => exact h
  | some fr => simp [State.setTrailer, State.modOut, State.out]

theorem abortFrame_none (l : LaneIx) (count : OutPort → OutPort) (s : State) (h : (s.out l).frame = none) :
    abortFrame l count s = s := by
  simp [abortFrame, h]

theorem abortFrame_out_ne (l x : LaneIx) (count : OutPort → OutPort) (s : State) (h : l ≠ x) :
    (abortFrame l count s).out x = s.out x := by
  unfold abortFrame countOnPort
  cases (s.out l).frame with
  | none => rfl
  | some fr => cases (s.lane l).port <;> simp [State.setTrailer, State.modOut, State.out, State.modOutPort, h]

theorem abortFrame_outPort (l : LaneIx) (count : OutPort → OutPort) (s : State) (p : PortIx) (hp : (s.lane l).port = some p) :
    (abortFrame l count s).outPort p = if (s.out l).frame = none then s.outPort p else count (s.outPort p) := by
  unfold abortFrame countOnPort
  cases h : (s.out l).frame with
  | none => simp
  | some fr => simp [hp, State.setTrailer, State.modOut, State.outPort, State.modOutPort]

/-- One unpin writes a ring. -/
theorem unpinTile_eq (x : Tile) (s : State) : unpinTile x s = { s with rings := (unpinTile x s).rings } := by
  unfold unpinTile
  cases x.body <;> rfl

theorem unpinTiles_eq (xs : List Tile) : ∀ s : State,
    xs.foldl (fun t x => unpinTile x t) s = { s with rings := (xs.foldl (fun t x => unpinTile x t) s).rings } := by
  induction xs with
  | nil => intro s; rfl
  | cons x xs ih =>
    intro s
    rw [List.foldl_cons, ih (unpinTile x s), unpinTile_eq x s]

/-- The release of a lane's tiles writes rings and the lane's tile records. -/
theorem releaseTiles_eq (l : LaneIx) (s : State) :
    releaseTiles l s = { s with
      rings := (releaseTiles l s).rings
      lanes := wr s.lanes l { s.lane l with tiles := [] } } := by
  unfold releaseTiles
  rw [unpinTiles_eq]
  rfl

/-- What choosing tiles may write: rings, and the lane's own tile records, sequence numbers last shown and counters. -/
def TilesChosen (l : LaneIx) (s u : State) : Prop :=
  ∃ rings tiles lastShown counters, counters.frames = (s.lane l).counters.frames ∧
    u = { s with
      rings := rings
      lanes := wr s.lanes l { s.lane l with tiles := tiles, lastShown := lastShown, counters := counters } }

theorem TilesChosen.refl (l : LaneIx) (s : State) : TilesChosen l s s :=
  ⟨s.rings, (s.lane l).tiles, (s.lane l).lastShown, (s.lane l).counters, rfl, by
    change s = { s with lanes := wr s.lanes l (rd s.lanes l) }
    rw [wr_rd]⟩

theorem TilesChosen.trans {l : LaneIx} {s u v : State} (h : TilesChosen l s u) (k : TilesChosen l u v) :
    TilesChosen l s v := by
  obtain ⟨r1, t1, n1, c1, e1, rfl⟩ := h
  obtain ⟨r2, t2, n2, c2, e2, rfl⟩ := k
  refine ⟨r2, t2, n2, c2, ?_, ?_⟩
  · rw [e2]; simpa [State.lane] using e1
  · simp [State.lane]

theorem selectTile_chosen (l : LaneIx) (t : Time) (j : Nat) (e : ListEntry) (s : State) :
    TilesChosen l s (selectTile l t j e s) := by
  unfold selectTile addTile State.modLaneCounters
  cases e.kind with
  | blank sc => exact ⟨s.rings, _, (s.lane l).lastShown, (s.lane l).counters, rfl, rfl⟩
  | stream i =>
    dsimp only
    cases pinAnswer s i with
    | none =>
      refine ⟨s.rings, ?tiles, (s.lane l).lastShown,
        { (s.lane l).counters with fills := satInc (s.lane l).counters.fills }, rfl, ?eq⟩
      case eq =>
        simp only [State.modLane, State.lane, rd_wr_same, wr_wr]
        rfl
    | some x =>
      refine ⟨?rings, ?shown, (s.lane l).lastShown.set j (some x.2.1), if lastShownAt s l j = some x.2.1 then
        { (s.lane l).counters with repeats := satInc (s.lane l).counters.repeats } else (s.lane l).counters, ?_, ?last⟩
      case last =>
        simp only [State.modLane, State.lane, rd_wr_same, wr_wr, State.modRing, State.setRing, decide_eq_true_eq]
        rfl
      split <;> rfl

theorem selectTiles_chosen (l : LaneIx) (t : Time) (es : List ListEntry) : ∀ (j : Nat) (s : State),
    TilesChosen l s (selectTiles l t es j s) := by
  induction es with
  | nil => exact fun _ s => .refl l s
  | cons e es ih => exact fun j s => (selectTile_chosen l t j e s).trans (ih (j + 1) _)

theorem tileStep_chosen (l : LaneIx) (t : Time) (s : State) : TilesChosen l s (tileStep l t s) := by
  unfold tileStep
  split
  · exact .refl l s
  · exact selectTiles_chosen l t _ _ s

/-! ### The end of a run, part by part -/

theorem completeIf_eq (tag : Option Tag) (res : Result) (fields : List Byte) (s : State) :
    completeIf tag res fields s = { s with link := (completeIf tag res fields s).link } := by
  cases tag with
  | none => rfl
  | some t => exact complete_eq t res fields s

/-- The commit of a pending list writes the list unit, the lane and the link. -/
theorem applyPending_frame (l : LaneIx) (s : State) : applyPending l s = { s with
    lists := (applyPending l s).lists
    lanes := (applyPending l s).lanes
    link := (applyPending l s).link } := by
  unfold applyPending
  cases (s.list l).commit with
  | none => rfl
  | some c =>
    dsimp only
    rw [complete_eq]
    rfl

/-- The end of a stop writes the list unit, the lane, the claims and the link. -/
theorem finishStop_frame (l : LaneIx) (s : State) : finishStop l s = { s with
    lists := (finishStop l s).lists
    lanes := (finishStop l s).lanes
    claims := (finishStop l s).claims
    link := (finishStop l s).link } := by
  unfold finishStop makeReady releaseClaim State.modLane
  rw [completeIf_eq, applyPending_frame]

/-- The completion of a join writes the lock unit and the link. -/
theorem completeJoin_frame (l : LaneIx) (s : State) : completeJoin l s = { s with
    locks := (completeJoin l s).locks
    link := (completeJoin l s).link } := by
  unfold completeJoin
  split
  · rw [complete_eq]
    rfl
  · rfl

/-- An abort neither reads nor writes the link. -/
theorem abortFrame_link (l : LaneIx) (count : OutPort → OutPort) (s : State) (k : Link) :
    abortFrame l count { s with link := k } = { abortFrame l count s with link := k } := by
  have hl : State.lane { s with link := k } l = s.lane l := rfl
  have ho : State.out { s with link := k } l = s.out l := rfl
  have hw : laneWidth { s with link := k } l = laneWidth s l := rfl
  have hg : ∀ fr, goneBeforeAbort { s with link := k } l fr = goneBeforeAbort s l fr := fun _ => rfl
  unfold abortFrame countOnPort
  rw [ho]
  cases (s.out l).frame with
  | none => rfl
  | some fr =>
    simp only [hl, hw, hg]
    cases (s.lane l).port <;> rfl

/-- The words that went out before an abort are a beginning of what the frame still had to send, never the whole of a packet. -/
theorem goneBeforeAbort_take (s : State) (l : LaneIx) (fr : OutFrame) :
    ∃ n : Nat, (∀ rest, fr.stage = .trailer rest → rest ≠ [] → n < rest.length) ∧
      goneBeforeAbort s l fr =
        (match fr.stage with | .lines => frameLines s l fr.faultLine | .trailer rest => rest).take n := by
  unfold goneBeforeAbort
  cases fr.stage with
  | lines => exact ⟨_, (fun _ h => nomatch h), rfl⟩
  | trailer r =>
    refine ⟨_, fun rest h hne => ?_, rfl⟩
    cases h
    have := List.length_pos_iff.mpr hne
    omega

/-! ### The settling of a stream -/

/-- A fill that ends without a frame leaves the newest sequence number. -/
theorem Ring.newestSeq_setFill (r : Ring) (p : Nat) (h : r.filling = some p) :
    (r.setFill p .empty).newestSeq = r.newestSeq := by
  obtain ⟨hl, hf, -⟩ := List.findIdx?_eq_some_iff_getElem.mp h
  unfold Ring.newestSeq Ring.newest Ring.setFill
  cases hr : r.ready.getLast? with
  | none => simp
  | some q =>
    simp only [Option.bind_some]
    by_cases hq : q = p
    · subst hq
      simp only [List.getElem?_modify, List.getElem?_eq_getElem hl]
      unfold Fill.isFilling at hf
      rcases hx : r.slots[q].fill <;> simp [hx, Fill.seq] at hf ⊢
    · simp [Ne.symm hq]

/-- A freeze is settled: FROZEN, then its final reply. -/
theorem settleFreeze_eq (x : Settle) (i : StreamIx) (s : State) :
    settleFreeze x i s = completeIf (s.stream i).pendingFreeze .ok (x.code ++ seqBytes (newestSeq s i)) { s with
      streams := wr s.streams i { s.stream i with
        pendingFreeze := none
        freeze := if (s.stream i).pendingFreeze = none then (s.stream i).freeze else .frozen } } := by
  unfold settleFreeze
  cases h : (s.stream i).pendingFreeze with
  | none =>
    have hw : wr s.streams i { s.stream i with pendingFreeze := none } = s.streams := by rw [← h]; exact wr_rd _ _
    simp only [completeIf, if_true]
    rw [hw]
  | some t => simp [completeIf, State.modStream]

/-- A stop is settled: STOPPED with its claim released, then its final reply. -/
theorem settleStop_eq (x : Settle) (i : StreamIx) (s : State) :
    settleStop x i s = completeIf (s.stream i).pendingStop .ok x.stopFields { s with
      streams := wr s.streams i { s.stream i with
        state := if (s.stream i).pendingStop = none then (s.stream i).state else .stopped
        admitted := if (s.stream i).pendingStop = none then (s.stream i).admitted else none
        pendingStop := none }
      claims := if (s.stream i).pendingStop = none then s.claims else s.claims.filter (fun c => c.holder ≠ .stream i) } := by
  unfold settleStop
  cases h : (s.stream i).pendingStop with
  | none =>
    have hw : wr s.streams i { s.stream i with pendingStop := none } = s.streams := by rw [← h]; exact wr_rd _ _
    simp only [completeIf, if_true]
    rw [hw]
  | some t => simp [completeIf, stopStream, releaseClaim, State.modStream]

/-- An access failure writes of a frame in progress its output, its trailer copy and the free counter. -/
theorem failComposing_eq (l : LaneIx) (s : State) : failComposing l s = { s with
    outs := (failComposing l s).outs
    trailers := (failComposing l s).trailers
    freeCount := (failComposing l s).freeCount } := by
  unfold failComposing
  split <;> rfl

end Sys2Proof.Machine
end

