-- ==== Sys2Proof/Laws/Rings.lean ====
section
/-! SUPPORT. What can happen to a ring (chapter 1), each move with the laws it keeps. -/

namespace Sys2Proof.Machine

open Sys2Proof

/-- The moves of a ring once it is created: the writer's (R5, R7, R8), retirement (R14) and the lanes' (R10, R11). -/
inductive RingMove : Ring → Ring → Prop where
  | begin {r : Ring} {p : Nat} (t : Time) (h : r.choose = some p) : RingMove r (r.begin p t)
  | finish {r : Ring} {p : Nat} (t : Time) (h : r.filling = some p) : RingMove r (r.finish p t)
  | abandon {r : Ring} {p : Nat} (h : r.filling = some p) : RingMove r (r.abandon p)
  | retire (r : Ring) : RingMove r r.retire
  | pin {r : Ring} {p : Nat} (h : r.newest = some p) : RingMove r (r.pin p)
  | unpin (r : Ring) (p : Nat) : RingMove r (r.unpin p)

/-- A modified position of a list. -/
theorem getElem?_modify_same {α : Type} (f : α → α) (xs : List α) (p : Nat) :
    (xs.modify p f)[p]? = xs[p]?.map f := by simp

theorem getElem?_modify_ne {α : Type} (f : α → α) (xs : List α) {p q : Nat} (h : p ≠ q) :
    (xs.modify p f)[q]? = xs[q]? := by simp [h]

/-- Every member of a modified list is an old member or the modified one. -/
theorem mem_modify {α : Type} {f : α → α} {xs : List α} {p : Nat} {y : α} (h : y ∈ xs.modify p f) :
    y ∈ xs ∨ ∃ x, xs[p]? = some x ∧ y = f x := by
  obtain ⟨q, hq⟩ := List.mem_iff_getElem?.mp h
  by_cases hpq : p = q
  · subst hpq
    rw [getElem?_modify_same] at hq
    cases hx : xs[p]? with
    | none => simp [hx] at hq
    | some x => exact .inr ⟨x, rfl, by simpa [hx] using hq.symm⟩
  · rw [getElem?_modify_ne f xs hpq] at hq
    exact .inl (List.mem_iff_getElem?.mpr ⟨q, hq⟩)

/-- R5: the chosen position is EMPTY, or READY in the ready order; it holds no pin. -/
theorem Ring.choose_spec {r : Ring} {p : Nat} (h : r.choose = some p) :
    ∃ x, r.slots[p]? = some x ∧ x.pins = 0 ∧ (x.fill.isEmpty = true ∨ p ∈ r.ready) := by
  unfold Ring.choose at h
  split at h
  · rename_i q hq
    cases h
    have := List.find?_some hq
    simp only [Bool.and_eq_true] at this
    obtain ⟨he, hm⟩ := this
    unfold Ring.eligible at he
    cases hx : r.slots[p]? with
    | none => simp [hx] at he
    | some x =>
      simp only [hx, Bool.and_eq_true, decide_eq_true_eq] at he
      exact ⟨x, rfl, he.1.2, .inl (by simpa [hx] using hm)⟩
  · have he := List.find?_some h
    have hm := List.mem_of_find?_eq_some h
    unfold Ring.eligible at he
    cases hx : r.slots[p]? with
    | none => simp [hx] at he
    | some x =>
      simp only [hx, Bool.and_eq_true, decide_eq_true_eq] at he
      exact ⟨x, rfl, he.1.2, .inr hm⟩

theorem Ring.filling_spec {r : Ring} {p : Nat} (h : r.filling = some p) :
    ∃ x, r.slots[p]? = some x ∧ x.fill.isFilling = true := by
  obtain ⟨hp, hx, -⟩ := List.findIdx?_eq_some_iff_getElem.mp h
  exact ⟨_, List.getElem?_eq_getElem hp, hx⟩

theorem Ring.newest_mem {r : Ring} {p : Nat} (h : r.newest = some p) : p ∈ r.ready :=
  List.mem_of_getLast? h

/-- No move changes which pool slots back the ring. -/
theorem RingMove.pools {r r' : Ring} (m : RingMove r r') : r'.slots.map Slot.pool = r.slots.map Slot.pool := by
  have hm : ∀ (f : Slot → Slot) (p : Nat), (∀ x, (f x).pool = x.pool) →
      (r.slots.modify p f).map Slot.pool = r.slots.map Slot.pool := by
    intro f p hf
    apply List.ext_getElem?
    intro q
    by_cases h : p = q
    · subst h; simp only [List.getElem?_map, getElem?_modify_same, Option.map_map]
      congr 1; funext x; exact hf x
    · simp only [List.getElem?_map, getElem?_modify_ne f r.slots h]
  have hr : ∀ x : Slot, x.retire.pool = x.pool := by intro x; unfold Slot.retire; split <;> rfl
  have hu : ∀ x : Slot, x.unpin.pool = x.pool := by intro x; unfold Slot.unpin; split <;> rfl
  cases m with
  | begin t h => exact hm _ _ (fun _ => rfl)
  | finish t h => exact hm _ _ (fun _ => rfl)
  | abandon h => exact hm _ _ (fun _ => rfl)
  | retire =>
    show (r.slots.map Slot.retire).map Slot.pool = _
    rw [List.map_map]
    exact List.map_congr_left (fun x _ => hr x)
  | pin h => exact hm _ _ (fun _ => rfl)
  | unpin p => exact hm _ _ hu

/-! ### Pins -/

/-- The pin counts of a ring, in position order. -/
def Ring.pinList (r : Ring) : List Nat := r.slots.map Slot.pins

theorem Ring.setFill_pins (r : Ring) (p : Nat) (f : Fill) : (r.setFill p f).pinList = r.pinList := by
  apply List.ext_getElem?
  intro q
  show ((r.slots.modify p _).map Slot.pins)[q]? = (r.slots.map Slot.pins)[q]?
  by_cases h : p = q
  · subst h; simp only [List.getElem?_map, getElem?_modify_same, Option.map_map]; rfl
  · simp only [List.getElem?_map, getElem?_modify_ne _ r.slots h]

/-- R5, R7, R8, R14: the writer and retirement change no pin count. -/
theorem Ring.begin_pins (r : Ring) (p : Nat) (t : Time) : (r.begin p t).pinList = r.pinList := r.setFill_pins p _
theorem Ring.finish_pins (r : Ring) (p : Nat) (t : Time) : (r.finish p t).pinList = r.pinList := r.setFill_pins p _
theorem Ring.abandon_pins (r : Ring) (p : Nat) : (r.abandon p).pinList = r.pinList := r.setFill_pins p _
theorem Ring.retire_pins (r : Ring) : r.retire.pinList = r.pinList := by
  show (r.slots.map Slot.retire).map Slot.pins = _
  rw [List.map_map]
  exact List.map_congr_left (fun x _ => by show x.retire.pins = x.pins; unfold Slot.retire; split <;> rfl)

/-! ### FILLING positions -/

/-- A position given a fill state that is not FILLING; the others are as they were. -/
theorem Ring.setFill_fills (r : Ring) (p q : Nat) (f : Fill) (hf : f.isFilling = false)
    (h : (r.setFill p f).fills q = true) : r.fills q = true ∧ p ≠ q := by
  unfold Ring.fills Ring.setFill at *
  by_cases hpq : p = q
  · subst hpq
    rw [getElem?_modify_same] at h
    cases hx : r.slots[p]? <;> simp [hx, hf] at h
  · rw [getElem?_modify_ne _ r.slots hpq] at h
    exact ⟨h, hpq⟩

theorem Ring.finish_fills (r : Ring) (p : Nat) (t : Time) (q : Nat) (h : (r.finish p t).fills q = true) :
    r.fills q = true := (r.setFill_fills p q _ rfl h).1

theorem Ring.abandon_fills (r : Ring) (p q : Nat) (h : (r.abandon p).fills q = true) : r.fills q = true :=
  (r.setFill_fills p q _ rfl h).1

theorem Ring.retire_fills (r : Ring) (q : Nat) (h : r.retire.fills q = true) : r.fills q = true := by
  have hr : ∀ x : Slot, x.retire.fill.isFilling = true → x.fill.isFilling = true := by
    intro x
    unfold Slot.retire
    split
    · dsimp only
      split <;> exact fun h => nomatch h
    · exact id
  unfold Ring.fills Ring.retire at *
  rw [List.getElem?_map] at h
  cases hx : r.slots[q]? with
  | none => simp [hx] at h
  | some x => simpa [hx] using hr x (by simpa [hx] using h)

theorem Ring.pin_fills (r : Ring) (p q : Nat) (h : (r.pin p).fills q = true) : r.fills q = true := by
  unfold Ring.fills Ring.pin at *
  by_cases hpq : p = q
  · subst hpq
    rw [getElem?_modify_same] at h
    cases hx : r.slots[p]? <;> simp_all
  · rwa [getElem?_modify_ne _ r.slots hpq] at h

theorem Ring.unpin_fills (r : Ring) (p q : Nat) (h : (r.unpin p).fills q = true) : r.fills q = true := by
  have hu : ∀ x : Slot, x.unpin.fill.isFilling = true → x.fill.isFilling = true := by
    intro x
    unfold Slot.unpin
    split
    · dsimp only
      split <;> exact fun h => nomatch h
    · exact id
  unfold Ring.fills Ring.unpin at *
  by_cases hpq : p = q
  · subst hpq
    rw [getElem?_modify_same] at h
    cases hx : r.slots[p]? with
    | none => simp [hx] at h
    | some x => simpa [hx] using hu x (by simpa [hx] using h)
  · rwa [getElem?_modify_ne _ r.slots hpq] at h

theorem seqAfter_ne_zero {q : Word} : seqAfter q ≠ 0 := by
  unfold seqAfter
  split
  · decide
  · rename_i h
    intro h0
    apply h
    have : BitVec.allOnes 32 = (-1 : BitVec 32) := by decide
    rw [this]
    bv_omega

/-- Every move keeps the ring law. -/
theorem RingMove.law {r r' : Ring} (m : RingMove r r') (h : RingLaw r) : RingLaw r' := by
  obtain ⟨hn, hr, hs, hq⟩ := h
  cases m with
  | @begin p t hc =>
    obtain ⟨x, hx, hp, he⟩ := Ring.choose_spec hc
    refine ⟨hn.filter _, ?_, ?_, hq⟩
    · intro q
      show q ∈ r.ready.filter (fun y => decide (y ≠ p)) ↔ _
      simp only [List.mem_filter, decide_eq_true_eq]
      by_cases h : p = q
      · subst h
        simp [Ring.begin, Ring.setFill, hx, Fill.isReady]
      · have : q ≠ p := fun e => h e.symm
        show q ∈ r.ready ∧ q ≠ p ↔ ((r.slots.modify p _)[q]?.any _) = true
        rw [getElem?_modify_ne _ _ h, ← hr q]
        simp [this]
    · intro y hy
      rcases mem_modify hy with hy | ⟨z, hz, rfl⟩
      · exact hs y hy
      · rw [hx] at hz; cases hz
        simp [Slot.pinsLawful, Slot.seqLawful, Fill.seq, hp]
  | @finish p t hf =>
    obtain ⟨x, hx, hfil⟩ := Ring.filling_spec hf
    have hnot : p ∉ r.ready := by
      rw [hr p]; simp only [hx, Option.any_some]
      cases hfx : x.fill <;> simp_all [Fill.isFilling, Fill.isReady]
    refine ⟨?_, ?_, ?_, seqAfter_ne_zero⟩
    · show (r.ready ++ [p]).Nodup
      rw [List.nodup_append]
      refine ⟨hn, by simp, ?_⟩
      intro a ha b hb hab
      simp at hb; subst hb; subst hab; exact hnot ha
    · intro q
      show q ∈ r.ready ++ [p] ↔ ((r.slots.modify p _)[q]?.any _) = true
      by_cases h : p = q
      · subst h
        simp [hx, Fill.isReady]
      · have : q ≠ p := fun e => h e.symm
        rw [getElem?_modify_ne _ _ h, ← hr q]
        simp [this]
    · intro y hy
      rcases mem_modify hy with hy | ⟨z, hz, rfl⟩
      · exact hs y hy
      · exact ⟨rfl, by simpa [Slot.seqLawful, Fill.seq] using hq⟩
  | @abandon p hf =>
    obtain ⟨x, hx, hfil⟩ := Ring.filling_spec hf
    have hpins : x.pins = 0 := by
      have := (hs x (List.mem_of_getElem? hx)).1
      unfold Slot.pinsLawful at this
      cases hfx : x.fill <;> simp_all [Fill.isFilling]
    have hnot : p ∉ r.ready := by
      rw [hr p]; simp only [hx, Option.any_some]
      cases hfx : x.fill <;> simp_all [Fill.isFilling, Fill.isReady]
    refine ⟨hn, ?_, ?_, hq⟩
    · intro q
      show q ∈ r.ready ↔ ((r.slots.modify p _)[q]?.any _) = true
      by_cases h : p = q
      · subst h
        simp [hx, Fill.isReady, hnot]
      · rw [getElem?_modify_ne _ _ h, ← hr q]
    · intro y hy
      rcases mem_modify hy with hy | ⟨z, hz, rfl⟩
      · exact hs y hy
      · rw [hx] at hz; cases hz
        simp [Slot.pinsLawful, Slot.seqLawful, Fill.seq, hpins]
  | retire =>
    refine ⟨List.nodup_nil, ?_, ?_, hq⟩
    · intro q
      show q ∈ ([] : List Nat) ↔ (((r.slots.map Slot.retire)[q]?).any _) = true
      simp only [List.not_mem_nil, List.getElem?_map, false_iff]
      cases hx : r.slots[q]? with
      | none => simp
      | some x =>
        simp only [Option.map_some, Option.any_some]
        unfold Slot.retire
        split
        · dsimp only; split <;> simp [Fill.isReady]
        · rename_i hne
          cases hfx : x.fill <;> simp_all [Fill.isReady]
    · intro y hy
      obtain ⟨x, hx, rfl⟩ := List.mem_map.mp hy
      have hx' := hs x hx
      unfold Slot.retire
      split
      · rename_i q t hfx
        have h2 := hx'.2
        simp only [Slot.seqLawful, hfx, Fill.seq] at h2
        by_cases hp : x.pins = 0
        · simp [Slot.pinsLawful, Slot.seqLawful, Fill.seq, hp]
        · simp only [hp, if_false]
          exact ⟨by simp [Slot.pinsLawful]; omega, by simpa [Slot.seqLawful, Fill.seq] using h2⟩
      · exact hx'
  | @pin p hnew =>
    have hin := Ring.newest_mem hnew
    have hready := (hr p).mp hin
    refine ⟨hn, ?_, ?_, hq⟩
    · intro q
      show q ∈ r.ready ↔ ((r.slots.modify p _)[q]?.any _) = true
      rw [hr q]
      by_cases h : p = q
      · subst h
        rw [getElem?_modify_same]
        cases r.slots[p]? <;> simp
      · rw [getElem?_modify_ne _ _ h]
    · intro y hy
      rcases mem_modify hy with hy | ⟨z, hz, rfl⟩
      · exact hs y hy
      · simp only [hz, Option.any_some] at hready
        have := (hs z (List.mem_of_getElem? hz)).2
        refine ⟨?_, this⟩
        unfold Slot.pinsLawful
        cases hfz : z.fill <;> simp_all [Fill.isReady]
  | unpin p =>
    refine ⟨hn, ?_, ?_, hq⟩
    · intro q
      show q ∈ r.ready ↔ ((r.slots.modify p _)[q]?.any _) = true
      rw [hr q]
      by_cases h : p = q
      · subst h
        rw [getElem?_modify_same]
        cases hx : r.slots[p]? with
        | none => simp
        | some x =>
          simp only [Option.map_some, Option.any_some]
          unfold Slot.unpin
          split
          · rename_i q t hfx
            dsimp only
            split <;> simp [hfx, Fill.isReady]
          · rfl
      · rw [getElem?_modify_ne _ _ h]
    · intro y hy
      rcases mem_modify hy with hy | ⟨z, hz, rfl⟩
      · exact hs y hy
      · have hz' := hs z (List.mem_of_getElem? hz)
        unfold Slot.unpin
        split
        · rename_i q t hfz
          have h2 := hz'.2
          simp only [Slot.seqLawful, hfz, Fill.seq] at h2
          by_cases hp : z.pins - 1 = 0
          · simp [Slot.pinsLawful, Slot.seqLawful, Fill.seq, hp]
          · simp only [hp, if_false]
            exact ⟨by simp [Slot.pinsLawful]; omega, by simpa [Slot.seqLawful, Fill.seq] using h2⟩
        · rename_i hne
          refine ⟨?_, hz'.2⟩
          have h1 := hz'.1
          unfold Slot.pinsLawful at h1 ⊢
          cases hfz : z.fill <;> simp_all

/-- R1: a ring just created keeps the ring law: every position EMPTY and unpinned, an empty ready order, numbering from 1. -/
theorem Ring.create_law (pools : List Nat) : RingLaw (Ring.create pools) := by
  refine ⟨List.nodup_nil, ?_, ?_, show (1 : Word) ≠ 0 by decide⟩
  · intro p
    simp only [Ring.create, List.not_mem_nil, List.getElem?_map, false_iff]
    cases pools[p]? <;> simp [Fill.isReady]
  · intro x hx
    obtain ⟨p, -, rfl⟩ := List.mem_map.mp hx
    exact ⟨rfl, rfl⟩

theorem Ring.create_pools (pools : List Nat) : (Ring.create pools).slots.map Slot.pool = pools := by
  show (pools.map (fun p => (⟨p, .empty, 0⟩ : Slot))).map Slot.pool = pools
  rw [List.map_map]
  conv_rhs => rw [← List.map_id pools]
  exact List.map_congr_left (fun _ _ => rfl)

end Sys2Proof.Machine
end

