-- ==== Sys2Proof/Laws/Calm.lean ====
section
/-! SUPPORT. Said once: what the actions of the streams, the sources and the output ports can do to the parts of the state that
the laws speak of. `Calm w s t` is the closure of a few moves, none of which names or drops a tile, adopts a list or makes a lane
idle; each action is one lemma. The proposition w grants the moves of a frame on its way in: a frame phase changed, a line begun or
ended, a position chosen, a line stored. -/

namespace Sys2Proof.Machine

open Sys2Proof

/-- The parts that the writer's law speaks of in the records of sources, capture ports and streams (R6, R24). -/
structure SameInput (s t : State) : Prop where
  line : ∀ p, (t.capturePort p).line = (s.capturePort p).line
  source : ∀ n, (t.source n).phase = (s.source n).phase ∧ (t.source n).setup = (s.source n).setup ∧
    (t.source n).state = (s.source n).state
  stream : ∀ i, (t.stream i).binding = (s.stream i).binding ∧ (t.stream i).writer = (s.stream i).writer

theorem SameInput.of_records {s t : State} (hc : t.capturePorts = s.capturePorts) (hs : t.sources = s.sources)
    (hi : t.streams = s.streams) : SameInput s t where
  line := fun p => by simp only [State.capturePort, hc]
  source := fun n => by simp [State.source, hs]
  stream := fun i => by simp [State.stream, hi]

/-- The parts no record update of a block touches: no stream becomes idle, no lane becomes idle, no admitted demand changes. -/
structure SameShared (w : Prop) (s t : State) : Prop where
  dram : t.dram = s.dram
  claims : t.claims = s.claims
  link : t.link = s.link
  notices : t.notices = s.notices
  store : t.store = s.store
  rings : t.rings = s.rings
  asserted : t.resetAsserted = s.resetAsserted
  deviceTime : t.deviceTime = s.deviceTime
  pending : t.pending = s.pending
  streams : ∀ i, (t.stream i).admitted = (s.stream i).admitted ∧
    ((t.stream i).state = (s.stream i).state ∨ (t.stream i).state.idle = false)
  lanes : ∀ l, (t.lane l).admitted = (s.lane l).admitted ∧
    ((t.lane l).state.idle = true → (s.lane l).state.idle = true)
  input : ¬ w → SameInput s t

variable {w : Prop}

theorem SameShared.unbound {s t : State} (h : SameShared w s t) (i : StreamIx) (hu : (t.stream i).state = .unbound) :
    (s.stream i).state = .unbound := by
  rcases (h.streams i).2 with he | he
  · rw [← he]; exact hu
  · rw [hu] at he; cases he

/-- A record update that leaves tile records, active lists and joining roles too, and makes no lane STARTING. -/
structure Still (w : Prop) (s t : State) : Prop extends SameShared w s t where
  laneState : ∀ l, (t.lane l).state = (s.lane l).state ∨ (t.lane l).state.holdsTiles = true
  tiles : ∀ l, (t.lane l).tiles = (s.lane l).tiles
  active : ∀ l, (t.list l).active = (s.list l).active
  role : ∀ l, (t.lock l).role = (s.lock l).role ∨ (t.lock l).role.joins = false

/-- Record updates, a move of a ring that leaves its pins, a notice handed over, a completion reported, a stream stopped with its
claim, a line stored. -/
inductive Calm (w : Prop) : State → State → Prop where
  | refl (s : State) : Calm w s s
  | trans {s t u : State} (h : Calm w s t) (k : Calm w t u) : Calm w s u
  | records {s t : State} (h : Still w s t) : Calm w s t
  | ring {s : State} (i : StreamIx) {r r' : Ring} (h : s.ring i = some r) (m : RingMove r r') (hp : r'.pinList = r.pinList)
      (hf : ¬ w → ∀ p, r'.fills p = true → r.fills p = true) : Calm w s (s.setRing i (some r'))
  | raised (b : NoticeBody) (s : State) : Calm w s (raise b s)
  | completed (tag : Tag) (res : Result) (fields : List Byte) (s : State) : Calm w s (complete tag res fields s)
  | stopped (i : StreamIx) (s : State) : Calm w s (stopStream i s)
  | written (hw : w) (s : State) (a : Nat) (bs : List Byte) : Calm w s { s with dram := s.dram.writeBytes a bs }

theorem SameShared.refl (s : State) : SameShared w s s :=
  ⟨rfl, rfl, rfl, rfl, rfl, rfl, rfl, rfl, rfl, fun _ => ⟨rfl, .inl rfl⟩, fun _ => ⟨rfl, id⟩, fun _ => .of_records rfl rfl rfl⟩

/-- A stream record's update that makes no stream idle. -/
theorem SameShared.modStream (s : State) (i : StreamIx) (f : Stream → Stream)
    (ha : (f (s.stream i)).admitted = (s.stream i).admitted)
    (hs : (f (s.stream i)).state = (s.stream i).state ∨ (f (s.stream i)).state.idle = false)
    (hb : ¬ w → (f (s.stream i)).binding = (s.stream i).binding ∧ (f (s.stream i)).writer = (s.stream i).writer) :
    SameShared w s (s.modStream i f) := by
  refine { SameShared.refl (w := w) s with
    streams := fun j => ?_, input := fun h => { SameInput.of_records (t := s) rfl rfl rfl with stream := fun j => ?_ } }
  · by_cases hij : i = j
    · subst hij; simpa using ⟨ha, hs⟩
    · simp [hij]
  · by_cases hij : i = j
    · subst hij; simpa using hb h
    · simp [hij]

/-- A lane record's update that makes no busy lane idle. -/
theorem SameShared.modLane (s : State) (l : LaneIx) (f : Lane → Lane)
    (ha : (f (s.lane l)).admitted = (s.lane l).admitted)
    (hs : (f (s.lane l)).state.idle = true → (s.lane l).state.idle = true) : SameShared w s (s.modLane l f) := by
  refine { SameShared.refl (w := w) s with lanes := fun j => ?_, input := fun _ => .of_records rfl rfl rfl }
  by_cases hij : l = j
  · subst hij; simpa using ⟨ha, hs⟩
  · simp [hij]

theorem Still.refl (s : State) : Still w s s :=
  { SameShared.refl (w := w) s with
    laneState := fun _ => .inl rfl, tiles := fun _ => rfl, active := fun _ => rfl, role := fun _ => .inl rfl }

namespace Calm

/-! ### Record updates -/

/-- An update of a source record; a phase, setup or state that changes is a frame on its way in. -/
theorem modSource (s : State) (n : SourceIx) (f : Source → Source)
    (hf : ¬ w → (f (s.source n)).phase = (s.source n).phase ∧ (f (s.source n)).setup = (s.source n).setup ∧
      (f (s.source n)).state = (s.source n).state) :
    Calm w s (s.modSource n f) := by
  refine .records { Still.refl (w := w) s with input := fun h => { SameInput.of_records (t := s) rfl rfl rfl with source := fun j => ?_ } }
  by_cases hij : n = j
  · subst hij; simpa using hf h
  · simp [hij]

/-- An update of a capture port; a line begun or ended is a frame on its way in. -/
theorem modCapturePort (s : State) (p : CaptureIx) (f : CapturePort → CapturePort)
    (hf : ¬ w → (f (s.capturePort p)).line = (s.capturePort p).line) : Calm w s (s.modCapturePort p f) := by
  refine .records { Still.refl (w := w) s with input := fun h => { SameInput.of_records (t := s) rfl rfl rfl with line := fun j => ?_ } }
  by_cases hij : p = j
  · subst hij; simpa using hf h
  · simp [hij]

theorem modOutPort (s : State) (p : PortIx) (f : OutPort → OutPort) : Calm w s (s.modOutPort p f) :=
  .records { Still.refl (w := w) s with input := fun _ => .of_records rfl rfl rfl }
theorem modOut (s : State) (l : LaneIx) (f : LaneOut → LaneOut) : Calm w s (s.modOut l f) :=
  .records { Still.refl (w := w) s with input := fun _ => .of_records rfl rfl rfl }
theorem setTrailer (s : State) (l : LaneIx) (t : Option Trailer) : Calm w s (s.setTrailer l t) :=
  .records { Still.refl (w := w) s with input := fun _ => .of_records rfl rfl rfl }
theorem freeCounted (s : State) (n : Nat) : Calm w s { s with freeCount := n } :=
  .records { Still.refl (w := w) s with input := fun _ => .of_records rfl rfl rfl }

/-- An update of a stream record that leaves its state or makes it busy. -/
theorem modStream (s : State) (i : StreamIx) (f : Stream → Stream)
    (ha : (f (s.stream i)).admitted = (s.stream i).admitted)
    (hs : (f (s.stream i)).state = (s.stream i).state ∨ (f (s.stream i)).state.idle = false)
    (hb : ¬ w → (f (s.stream i)).binding = (s.stream i).binding ∧ (f (s.stream i)).writer = (s.stream i).writer) :
    Calm w s (s.modStream i f) :=
  .records { SameShared.modStream (w := w) s i f ha hs hb with
    laneState := fun _ => .inl rfl, tiles := fun _ => rfl, active := fun _ => rfl, role := fun _ => .inl rfl }

/-- An update of a lane record that leaves its tiles, and its state or makes it RUNNING or STOPPING. -/
theorem modLane (s : State) (l : LaneIx) (f : Lane → Lane) (ha : (f (s.lane l)).admitted = (s.lane l).admitted)
    (ht : (f (s.lane l)).tiles = (s.lane l).tiles)
    (hs : (f (s.lane l)).state = (s.lane l).state ∨ (f (s.lane l)).state.holdsTiles = true) : Calm w s (s.modLane l f) := by
  have hs' : (f (s.lane l)).state.idle = true → (s.lane l).state.idle = true := by
    rcases hs with h | h
    · rw [h]; exact id
    · intro hi; revert h hi; cases (f (s.lane l)).state <;> simp [LaneState.holdsTiles, LaneState.idle]
  refine .records { SameShared.modLane (w := w) s l f ha hs' with
    laneState := fun j => ?_, tiles := fun j => ?_, active := fun _ => rfl, role := fun _ => .inl rfl }
  all_goals
    by_cases hij : l = j
    · subst hij; simpa using (by assumption)
    · simp [hij]

/-- An update of a list unit that leaves the active list. -/
theorem modList (s : State) (l : LaneIx) (f : ListUnit → ListUnit) (h : (f (s.list l)).active = (s.list l).active) :
    Calm w s (s.modList l f) := by
  refine .records { Still.refl (w := w) s with active := fun j => ?_, input := fun _ => .of_records rfl rfl rfl }
  by_cases hij : l = j
  · subst hij; simpa using h
  · simp [hij]

/-- An update of a lock record that leaves its role or makes it FREE, LEADER or FOLLOWER. -/
theorem modLock (s : State) (l : LaneIx) (f : Lock → Lock)
    (h : (f (s.lock l)).role = (s.lock l).role ∨ (f (s.lock l)).role.joins = false) : Calm w s (s.modLock l f) := by
  refine .records { Still.refl (w := w) s with role := fun j => ?_, input := fun _ => .of_records rfl rfl rfl }
  by_cases hij : l = j
  · subst hij; simpa using h
  · simp [hij]

/-- A ring where there is none is not modified. -/
theorem modRing_none (s : State) (i : StreamIx) (f : Ring → Ring) (hr : s.ring i = none) : s.modRing i f = s := by
  have hv : wr s.rings i none = s.rings := by
    have : rd s.rings i = none := hr
    rw [← this, wr_rd]
  simp [State.modRing, State.setRing, hr, hv]

/-- An update of a ring that is a move of it and leaves its pins. -/
theorem modRing (s : State) (i : StreamIx) (f : Ring → Ring)
    (h : ∀ r, s.ring i = some r → RingMove r (f r) ∧ (f r).pinList = r.pinList)
    (hf : ¬ w → ∀ r, s.ring i = some r → ∀ p, (f r).fills p = true → r.fills p = true) : Calm w s (s.modRing i f) := by
  cases hr : s.ring i with
  | none => rw [modRing_none s i f hr]; exact .refl s
  | some r =>
    have : s.modRing i f = s.setRing i (some (f r)) := by simp [State.modRing, hr]
    rw [this]; exact .ring i hr (h r hr).1 (h r hr).2 (fun hw => hf hw r hr)

/-- An action for each of several streams or lanes. -/
theorem foldl {α : Type} (f : α → State → State) (hf : ∀ a s, Calm w s (f a s)) (xs : List α) :
    ∀ s, Calm w s (xs.foldl (fun t a => f a t) s) := by
  induction xs with
  | nil => exact .refl
  | cons a xs ih => exact fun s => (hf a s).trans (ih _)

theorem forAll {n : Nat} (f : Fin n → State → State) (hf : ∀ a s, Calm w s (f a s)) (s : State) :
    Calm w s (forAll f s) := foldl f hf _ s

theorem handOver (n : SourceIx) (f : StreamIx → State → State) (hf : ∀ a s, Calm w s (f a s)) (s : State) :
    Calm w s (handOver n f s) := foldl f hf _ s

theorem completeIf (tag : Option Tag) (res : Result) (fields : List Byte) (s : State) :
    Calm w s (completeIf tag res fields s) := by
  cases tag with
  | none => exact .refl s
  | some t => exact .completed t res fields s

/-! ### Streams -/

theorem streamLine (hw : w) (line : List Byte) (i : StreamIx) (s : State) : Calm w s (streamLine line i s) := by
  unfold Machine.streamLine
  split
  · split
    · exact (modStream s i _ rfl (.inl rfl) (absurd hw)).trans (.written hw _ _ _)
    · exact modStream s i _ rfl (.inl rfl) (absurd hw)
  · exact .refl s

theorem settleFreeze (x : Settle) (i : StreamIx) (s : State) : Calm w s (settleFreeze x i s) := by
  unfold Machine.settleFreeze
  split
  · exact .refl s
  · exact (modStream s i _ rfl (.inl rfl) (fun _ => ⟨rfl, rfl⟩)).trans (.completed _ _ _ _)

theorem settleStop (x : Settle) (i : StreamIx) (s : State) : Calm w s (settleStop x i s) := by
  unfold Machine.settleStop
  split
  · exact .refl s
  · exact (Calm.stopped i s).trans (.completed _ _ _ _)

theorem settle (x : Settle) (i : StreamIx) (s : State) : Calm w s (settle x i s) :=
  (settleFreeze x i s).trans (settleStop x i _)

theorem modStreamCounters (s : State) (i : StreamIx) (f : StreamCounters → StreamCounters) :
    Calm w s (s.modStreamCounters i f) := modStream s i _ rfl (.inl rfl) (fun _ => ⟨rfl, rfl⟩)

theorem noteDrop (reason : DropReason) (i : StreamIx) (s : State) : Calm w s (noteDrop reason i s) := by
  unfold Machine.noteDrop
  split
  · exact .refl s
  · exact (modStream s i _ rfl (.inl rfl) (fun _ => ⟨rfl, rfl⟩)).trans (.raised _ _)

theorem dropStall (i : StreamIx) (s : State) : Calm w s (dropStall i s) :=
  (modStreamCounters s i _).trans (noteDrop _ i _)

theorem dropStore (i : StreamIx) (s : State) : Calm w s (dropStore i s) :=
  (modStreamCounters s i _).trans (noteDrop _ i _)

theorem dropFrozen (i : StreamIx) (s : State) : Calm w s (dropFrozen i s) := modStreamCounters s i _

theorem choosePosition (hw : w) (t : Time) (i : StreamIx) (s : State) : Calm w s (choosePosition t i s) := by
  unfold Machine.choosePosition
  split
  · rename_i p hp
    refine (modRing s i _ (fun r hr => ?_) (absurd hw)).trans (modStream _ i _ rfl (.inl rfl) (absurd hw))
    rw [hr] at hp
    exact ⟨.begin t hp, Ring.begin_pins r p t⟩
  · exact dropStall i s

theorem streamFrameStart (hw : w) (t : Time) (i : StreamIx) (s : State) : Calm w s (streamFrameStart t i s) := by
  unfold Machine.streamFrameStart
  split
  · refine (modStream s i (fun r => { r with state := .capturing }) rfl (.inr rfl) (fun _ => ⟨rfl, rfl⟩)).trans ?_
    dsimp only
    split
    · exact dropFrozen i _
    · split
      · exact dropStore i _
      · exact choosePosition hw t i _
  · exact .refl s

theorem streamComplete (i : StreamIx) (s : State) : Calm w s (streamComplete i s) := by
  unfold Machine.streamComplete
  split
  · exact .refl s
  · rename_i r hr
    split
    · exact .refl s
    · rename_i p hp
      exact ((Calm.ring i hr (.finish _ hp) (Ring.finish_pins r p _) (fun _ => r.finish_fills p _)).trans (modStreamCounters _ i _)).trans (settle _ i _)

theorem streamDiscard (c : Cause) (i : StreamIx) (s : State) : Calm w s (streamDiscard c i s) := by
  unfold Machine.streamDiscard
  split
  · exact .refl s
  · rename_i p hp
    refine ((modRing s i _ (fun r hr => ?_) (fun _ r _ => r.abandon_fills p)).trans (modStreamCounters _ i _)).trans
      (settle _ i _)
    unfold fillingAt at hp
    rw [hr] at hp
    exact ⟨.abandon hp, Ring.abandon_pins r p⟩

theorem discardStop (i : StreamIx) (s : State) : Calm w s (discardStop i s) := by
  unfold Machine.discardStop
  dsimp only
  split
  · exact streamDiscard _ i s
  · exact (streamDiscard _ i s).trans (.stopped i _)

theorem retireOnLoss (i : StreamIx) (s : State) : Calm w s (retireOnLoss i s) := by
  unfold Machine.retireOnLoss
  split
  · split
    · exact modRing s i _ (fun r _ => ⟨.retire r, Ring.retire_pins r⟩) (fun _ r _ => r.retire_fills)
    · exact .refl s
  · exact .refl s

theorem retireOnThaw (i : StreamIx) (s : State) : Calm w s (retireOnThaw i s) := by
  unfold Machine.retireOnThaw
  split
  · split
    · exact retireOnLoss i s
    · exact .refl s
  · exact .refl s

theorem withdrawFreeze (i : StreamIx) (s : State) : Calm w s (withdrawFreeze i s) :=
  (modStream s i _ rfl (.inl rfl) (fun _ => ⟨rfl, rfl⟩)).trans (completeIf _ _ _ _)

theorem cancelStreamStop (tag : Tag) (i : StreamIx) (s : State) : Calm w s (cancelStreamStop tag i s) :=
  (modStream s i _ rfl (.inr rfl) (fun _ => ⟨rfl, rfl⟩)).trans (.completed _ _ _ _)

theorem cancelStreamFreeze (tag : Tag) (i : StreamIx) (s : State) : Calm w s (cancelStreamFreeze tag i s) :=
  (modStream s i _ rfl (.inl rfl) (fun _ => ⟨rfl, rfl⟩)).trans (.completed _ _ _ _)

/-! ### Sources -/

theorem unclaimed (port index : CaptureIx) (s : State) : Calm w s (unclaimed port index s) :=
  modCapturePort s port _ (fun _ => rfl)

theorem frameError (c : Cause) (n : SourceIx) (s : State) : Calm w s (frameError c n s) := by
  unfold Machine.frameError
  split
  · exact .refl s
  · exact (modSource s n _ (fun _ => ⟨rfl, rfl, rfl⟩)).trans (.raised _ _)

theorem discardFrame (hw : w) (c : Cause) (next : FramePhase) (n : SourceIx) (s : State) : Calm w s (discardFrame c next n s) :=
  ((handOver n _ (fun i t => streamDiscard c i t) s).trans (modSource _ n _ (absurd hw))).trans (modSource _ n _ (absurd hw))

theorem closeLine (hw : w) (port : CaptureIx) (s : State) : Calm w s (closeLine port s) := by
  unfold Machine.closeLine
  split
  · exact .refl s
  · dsimp only
    refine (modCapturePort s port (fun c => { c with line := none }) (absurd hw)).trans ?_
    split
    · split
      · exact handOver _ _ (fun i t => streamLine hw _ i t) _
      · exact (discardFrame hw _ _ _ _).trans (frameError _ _ _)
    · exact .refl _

theorem acceptStart (hw : w) (n : SourceIx) (s : State) : Calm w s (acceptStart n s) :=
  (modSource s n _ (absurd hw)).trans (handOver n _ (fun i t => streamFrameStart hw _ i t) _)

theorem rejectStart (hw : w) (n : SourceIx) (s : State) : Calm w s (rejectStart n s) :=
  (modSource s n _ (absurd hw)).trans (frameError _ n _)

theorem endOldFrame (hw : w) (n : SourceIx) (s : State) : Calm w s (endOldFrame n s) := by
  unfold Machine.endOldFrame
  split
  · exact (discardFrame hw _ _ n s).trans (frameError _ n _)
  · exact modSource s n _ (absurd hw)
  · exact .refl s

theorem judgeStart (hw : w) (n : SourceIx) (s : State) : Calm w s (judgeStart n s) := by
  unfold Machine.judgeStart
  split
  · split
    · exact rejectStart hw n s
    · exact acceptStart hw n s
  · exact ((modSource s n _ (absurd hw)).trans (.raised _ _)).trans (acceptStart hw n _)

theorem captureFrameStart (hw : w) (port index : CaptureIx) (s : State) : Calm w s (captureFrameStart port index s) := by
  unfold Machine.captureFrameStart
  dsimp only
  split
  · exact unclaimed port index s
  · exact (endOldFrame hw _ s).trans (judgeStart hw _ _)

theorem lineStart (hw : w) (port index : CaptureIx) (data : List Byte) (s : State) : Calm w s (lineStart port index data s) := by
  unfold Machine.lineStart
  dsimp only
  split
  · exact unclaimed port index s
  · exact unclaimed port index s
  · exact .refl s
  · split
    · exact (discardFrame hw _ _ _ s).trans (frameError _ _ _)
    · exact (modSource s _ _ (absurd hw)).trans (modCapturePort _ port _ (absurd hw))

theorem frameEnd (hw : w) (port index : CaptureIx) (s : State) : Calm w s (frameEnd port index s) := by
  unfold Machine.frameEnd
  dsimp only
  split
  · exact unclaimed port index s
  · exact unclaimed port index s
  · exact modSource s _ _ (absurd hw)
  · split
    · exact (handOver _ _ (fun i t => streamComplete i t) s).trans (modSource _ _ _ (absurd hw))
    · exact (discardFrame hw _ _ _ s).trans (frameError _ _ _)

theorem sourceLoss (hw : w) (n : SourceIx) (s : State) : Calm w s (sourceLoss n s) := by
  have hl : Calm w s (loseFrame n s) := by
    unfold loseFrame
    split
    · exact discardFrame hw _ _ n s
    · exact .refl s
  exact ((hl.trans (modSource _ n _ (absurd hw))).trans (handOver n _ (fun i t => retireOnLoss i t) _)).trans (.raised _ _)

/-! ### Lists, output and locks -/

theorem cancelCommit (tag : Tag) (l : LaneIx) (s : State) : Calm w s (cancelCommit tag l s) :=
  (modList s l _ rfl).trans (.completed _ _ _ _)

theorem countOnPort (l : LaneIx) (f : OutPort → OutPort) (s : State) : Calm w s (countOnPort l f s) := by
  unfold Machine.countOnPort
  split
  · exact modOutPort s _ f
  · exact .refl s

theorem abortFrame (l : LaneIx) (count : OutPort → OutPort) (s : State) : Calm w s (abortFrame l count s) := by
  unfold Machine.abortFrame
  split
  · exact .refl s
  · dsimp only
    exact (((countOnPort l count s).trans (modOut _ l _)).trans (setTrailer _ l none)).trans (freeCounted _ _)

theorem trailerStart (l : LaneIx) (s : State) : Calm w s (trailerStart l s) := by
  unfold Machine.trailerStart
  split
  · split
    · exact modOut s l _
    · exact .refl s
  · exact .refl s

theorem frameEnded (l : LaneIx) (s : State) : Calm w s (frameEnded l s) := by
  unfold Machine.frameEnded
  split
  · split
    · exact ((countOnPort l _ s).trans (modOut _ l _)).trans (setTrailer _ l none)
    · exact .refl s
  · split
    · exact .refl s
    · exact ((countOnPort l _ s).trans (modOut _ l _)).trans (setTrailer _ l none)
  · exact .refl s

theorem failComposing (l : LaneIx) (s : State) : Calm w s (failComposing l s) := by
  unfold Machine.failComposing
  split
  · exact ((modOut s l _).trans (setTrailer _ l _)).trans (freeCounted _ _)
  · exact .refl s

theorem advance (l : LaneIx) (s : State) : Calm w s (advance l s) := by
  unfold Machine.advance
  split
  · exact .refl s
  · split
    · exact modLane s l _ rfl rfl (.inl rfl)
    · split
      · exact modLane s l _ rfl rfl (.inl rfl)
      · split
        · exact (modLane s l _ rfl rfl (.inl rfl)).trans (.raised _ _)
        · exact modLane s l _ rfl rfl (.inl rfl)

theorem rearm (l : LaneIx) (t : Time) (s : State) : Calm w s (rearm l t s) := by
  unfold Machine.rearm
  split
  · exact modLane s l _ rfl rfl (.inl rfl)
  · exact modLane s l _ rfl rfl (.inl rfl)
  · exact .refl s

theorem outputStep (l : LaneIx) (t : Time) (s : State) : Calm w s (outputStep l t s) :=
  (((modLane s l _ rfl rfl (.inl rfl)).trans (setTrailer _ l _)).trans (modOut _ l _)).trans (rearm l t _)

theorem armTimer (l : LaneIx) (t : Time) (s : State) : Calm w s (armTimer l t s) := modLane s l _ rfl rfl (.inl rfl)

theorem armAfterRelay (l : LaneIx) (s : State) : Calm w s (armAfterRelay l s) := armTimer l _ s

theorem noteRelay (l : LaneIx) (t : Time) (s : State) : Calm w s (noteRelay l t s) := modLock s l _ (.inl rfl)

theorem freeLane (l : LaneIx) (s : State) : Calm w s (freeLane l s) := modLock s l _ (.inr rfl)

theorem freeLeader (ld : LaneIx) (s : State) : Calm w s (freeLeader ld s) := by
  unfold Machine.freeLeader
  split
  · exact freeLane ld s
  · exact .refl s

theorem completeJoin (l : LaneIx) (s : State) : Calm w s (completeJoin l s) := by
  unfold Machine.completeJoin
  split
  · exact (modLock s l _ (.inr rfl)).trans (.completed _ _ _ _)
  · exact .refl s

theorem lockLost (ld l : LaneIx) (s : State) : Calm w s (lockLost ld l s) := (freeLane l s).trans (.raised _ _)

theorem cancelLaneStop (tag : Tag) (l : LaneIx) (s : State) : Calm w s (cancelLaneStop tag l s) :=
  (modLane s l _ rfl rfl (.inr rfl)).trans (.completed _ _ _ _)

theorem unroute (l : LaneIx) (s : State) : Calm w s (unroute l s) := by
  unfold Machine.unroute
  split
  · exact modOutPort s _ _
  · exact .refl s

theorem routeTo (l : LaneIx) (port : Option PortIx) (s : State) : Calm w s (routeTo l port s) := by
  unfold Machine.routeTo
  split
  · exact modOutPort s _ _
  · exact .refl s

theorem route (l : LaneIx) (port : Option PortIx) (s : State) : Calm w s (route l port s) := by
  unfold Machine.route
  split
  · exact .refl s
  · exact ((unroute l s).trans (routeTo l port _)).trans (modLane _ l _ rfl rfl (.inl rfl))

end Calm

end Sys2Proof.Machine
end

