-- ==== Sys2Proof/Laws/Claims.lean ====
section
/-! SUPPORT. The law of the claims (R135) through the moves that touch claims or admitted demands. -/

namespace Sys2Proof.Machine

open Sys2Proof

namespace ClaimLaw

/-- The law speaks of the claims, the admitted demands and which holders are idle. -/
theorem of_same {s t : State} (h : ClaimLaw s) (hc : t.claims = s.claims) (hs : ∀ i, t.stream i = s.stream i)
    (hl : ∀ l, t.lane l = s.lane l) : ClaimLaw t where
  once := by rw [hc]; exact h.once
  recorded := fun x u => by
    rw [hc, h.recorded]
    cases x <;> simp [demandIn, hs, hl]
  idleStream := fun i => by rw [hs]; exact h.idleStream i
  idleLane := fun l => by rw [hl]; exact h.idleLane l

theorem of_records {s t : State} (h : ClaimLaw s) {w : Prop} (r : SameShared w s t) : ClaimLaw t where
  once := by rw [r.claims]; exact h.once
  recorded := fun x u => by
    rw [r.claims, h.recorded]
    cases x <;> simp [demandIn, (r.streams _).1, (r.lanes _).1]
  idleStream := fun i hi => by
    rw [(r.streams i).1]
    rcases (r.streams i).2 with he | he
    · exact h.idleStream i (by rw [← he]; exact hi)
    · rw [he] at hi; exact nomatch hi
  idleLane := fun l hl => by
    rw [(r.lanes l).1]
    exact h.idleLane l ((r.lanes l).2 hl)

/-- A holder's claim leaves the table as its admitted demand becomes absent. -/
theorem released {s t : State} (x : Holder) (h : ClaimLaw s) (hc : t.claims = s.claims.filter (fun c => c.holder ≠ x))
    (hd : ∀ y, demandIn t y = if y = x then none else demandIn s y)
    (hs : ∀ i, (t.stream i).state.idle = true → (t.stream i).admitted = none)
    (hl : ∀ l, (t.lane l).state.idle = true → (t.lane l).admitted = none) : ClaimLaw t where
  once := by
    rw [hc]
    exact h.once.sublist (List.filter_sublist.map _)
  recorded := fun y u => by
    rw [hc, hd, List.mem_filter, h.recorded]
    by_cases hy : y = x <;> simp [hy]
  idleStream := hs
  idleLane := hl

/-- R137: a claim joins the table as the admitted demand of a holder that had none. -/
theorem admitted {s t : State} (x : Holder) (u : Nat) (h : ClaimLaw s) (hn : demandIn s x = none)
    (hc : t.claims = s.claims ++ [⟨x, u⟩]) (hd : ∀ y, demandIn t y = if y = x then some u else demandIn s y)
    (hs : ∀ i, (t.stream i).state.idle = true → (t.stream i).admitted = none)
    (hl : ∀ l, (t.lane l).state.idle = true → (t.lane l).admitted = none) : ClaimLaw t where
  once := by
    rw [hc, List.map_append, List.nodup_append]
    refine ⟨h.once, by simp, ?_⟩
    intro a ha b hb hab
    simp at hb
    subst hab hb
    obtain ⟨⟨y, v⟩, hm, rfl⟩ := List.mem_map.mp ha
    have := (h.recorded y v).mp hm
    rw [hn] at this
    exact nomatch this
  recorded := fun y v => by
    rw [hc, hd, List.mem_append, h.recorded]
    by_cases hy : y = x
    · subst hy; simp [hn, eq_comm]
    · simp [hy]
  idleStream := hs
  idleLane := hl

/-- R32, R138: a stream stopped. -/
theorem stopped {s : State} (i : StreamIx) (h : ClaimLaw s) : ClaimLaw (stopStream i s) := by
  have hst : ∀ j, (stopStream i s).stream j = if i = j then
      { s.stream i with state := .stopped, admitted := none, pendingStop := none } else s.stream j := by
    intro j
    show rd (wr _ _ _) j = _
    rw [rd_wr]; rfl
  refine h.released (.stream i) rfl ?_ ?_ (fun l => h.idleLane l)
  · intro y
    cases y with
    | stream j =>
      simp only [demandIn, hst]
      by_cases hij : i = j
      · subst hij; simp
      · have : j ≠ i := fun e => hij e.symm
        simp [hij, this]
    | lane l => rfl
  · intro j
    rw [hst]
    split
    · simp
    · exact h.idleStream j

/-- R82, R139: a lane made READY. -/
theorem readied {s : State} (l : LaneIx) (h : ClaimLaw s) : ClaimLaw (makeReady l s) := by
  have hst : ∀ j, (makeReady l s).lane j = if l = j then { s.lane l with
      state := .ready, drained := false, admitted := none, timer := none, pendingStart := none, pendingStop := none }
      else s.lane j := by
    intro j
    show rd (wr _ _ _) j = _
    rw [rd_wr]; rfl
  refine h.released (.lane l) rfl ?_ (fun i => h.idleStream i) ?_
  · intro y
    cases y with
    | lane j =>
      simp only [demandIn, hst]
      by_cases hij : l = j
      · subst hij; simp
      · have : j ≠ l := fun e => hij e.symm
        simp [hij, this]
    | stream i => rfl
  · intro j
    rw [hst]
    split
    · simp
    · exact h.idleLane j

end ClaimLaw

end Sys2Proof.Machine
end

