-- ==== Sys2Proof/Laws/Change.lean ====
section
/-! SUPPORT. Said once: what the blocks' own actions can do to the parts of the state that the laws speak of. `Change w s t` is the
closure of a few moves; each action of the lists, lanes and lock groups is one lemma, and those of the streams, sources and
output ports are `Calm`. -/

namespace Sys2Proof.Machine

open Sys2Proof

/-- What a block's action outside the dispatcher can do: record updates, a move of a ring, a notice handed over, a completion
reported, a stream stopped or a lane made READY with its claim, a line stored. -/
inductive Change (w : Prop) : State → State → Prop where
  | refl (s : State) : Change w s s
  | trans {s t u : State} (h : Change w s t) (k : Change w t u) : Change w s u
  | records {s t : State} (h : SameShared w s t) : Change w s t
  | ring {s : State} (i : StreamIx) {r r' : Ring} (h : s.ring i = some r) (m : RingMove r r')
      (hf : ¬ w → ∀ p, r'.fills p = true → r.fills p = true) : Change w s (s.setRing i (some r'))
  | raised (b : NoticeBody) (s : State) : Change w s (raise b s)
  | completed (tag : Tag) (res : Result) (fields : List Byte) (s : State) : Change w s (complete tag res fields s)
  | stopped (i : StreamIx) (s : State) : Change w s (stopStream i s)
  | readied (l : LaneIx) (s : State) : Change w s (makeReady l s)
  | written (hw : w) (s : State) (a : Nat) (bs : List Byte) : Change w s { s with dram := s.dram.writeBytes a bs }

namespace Change

variable {w : Prop}

theorem calm {s t : State} (h : Calm w s t) : Change w s t := by
  induction h with
  | refl s => exact .refl s
  | trans _ _ h k => exact h.trans k
  | records h => exact .records h.toSameShared
  | ring i h m _ hf => exact .ring i h m hf
  | raised b s => exact .raised b s
  | completed tag res fields s => exact .completed tag res fields s
  | stopped i s => exact .stopped i s
  | written hw s a bs => exact .written hw s a bs

/-! ### Record updates -/

theorem modLane (s : State) (l : LaneIx) (f : Lane → Lane) (ha : (f (s.lane l)).admitted = (s.lane l).admitted)
    (hs : (f (s.lane l)).state.idle = true → (s.lane l).state.idle = true) : Change w s (s.modLane l f) :=
  .records (.modLane s l f ha hs)
theorem modList (s : State) (l : LaneIx) (f : ListUnit → ListUnit) : Change w s (s.modList l f) :=
  .records { SameShared.refl (w := w) s with input := fun _ => .of_records rfl rfl rfl }
theorem modLock (s : State) (l : LaneIx) (f : Lock → Lock) : Change w s (s.modLock l f) :=
  .records { SameShared.refl (w := w) s with input := fun _ => .of_records rfl rfl rfl }

/-- An update of a ring that is a move of it. -/
theorem modRing (s : State) (i : StreamIx) (f : Ring → Ring) (h : ∀ r, s.ring i = some r → RingMove r (f r))
    (hf : ¬ w → ∀ r p, (f r).fills p = true → r.fills p = true) : Change w s (s.modRing i f) := by
  cases hr : s.ring i with
  | none => rw [Calm.modRing_none s i f hr]; exact .refl s
  | some r =>
    have : s.modRing i f = s.setRing i (some (f r)) := by simp [State.modRing, hr]
    rw [this]; exact .ring i hr (h r hr) (fun hw => hf hw r)

/-- An action for each of several streams or lanes. -/
theorem foldl {α : Type} (f : α → State → State) (hf : ∀ a s, Change w s (f a s)) (xs : List α) :
    ∀ s, Change w s (xs.foldl (fun t a => f a t) s) := by
  induction xs with
  | nil => exact .refl
  | cons a xs ih => exact fun s => (hf a s).trans (ih _)

theorem forAll {n : Nat} (f : Fin n → State → State) (hf : ∀ a s, Change w s (f a s)) (s : State) :
    Change w s (forAll f s) := foldl f hf _ s

/-! ### Lists and output -/

theorem adoptList (l : LaneIx) (s : State) : Change w s (adoptList l s) := (modList s l _).trans (modLane _ l _ rfl id)

theorem applyPending (l : LaneIx) (s : State) : Change w s (applyPending l s) := by
  unfold Machine.applyPending
  split
  · exact .refl s
  · exact (adoptList l s).trans (.completed _ _ _ _)

/-! ### The boundary -/

theorem unpinTile (x : Tile) (s : State) : Change w s (unpinTile x s) := by
  unfold Machine.unpinTile
  split
  · exact modRing s _ _ (fun r _ => .unpin r _) (fun _ r => r.unpin_fills _)
  · exact .refl s

theorem releaseTiles (l : LaneIx) (s : State) : Change w s (releaseTiles l s) :=
  (foldl (fun x t => Machine.unpinTile x t) (fun x t => unpinTile x t) _ s).trans (modLane _ l _ rfl id)

theorem finishStop (l : LaneIx) (s : State) : Change w s (finishStop l s) :=
  ((applyPending l s).trans (Change.readied l _)).trans (Change.calm (.completeIf _ _ _ _))

theorem addTile (l : LaneIx) (x : Tile) (s : State) : Change w s (addTile l x s) := modLane s l _ rfl id

theorem modLaneCounters (s : State) (l : LaneIx) (f : LaneCounters → LaneCounters) : Change w s (s.modLaneCounters l f) :=
  modLane s l _ rfl id

theorem selectTile (l : LaneIx) (t : Time) (j : Nat) (e : ListEntry) (s : State) : Change w s (selectTile l t j e s) := by
  unfold Machine.selectTile
  split
  · exact addTile l _ s
  · rename_i i hi
    dsimp only
    split
    · exact (addTile l _ s).trans (modLaneCounters _ l _)
    · rename_i p q captured hp
      refine ((modRing s i _ (fun r hr => ?_) (fun _ r => r.pin_fills _)).trans (modLane _ l _ rfl id)).trans (addTile l _ _)
      unfold pinAnswer at hp
      split at hp
      · rw [hr] at hp
        simp only [Option.bind_some, Option.bind_eq_some_iff] at hp
        obtain ⟨p', hnew, x, -, hx⟩ := hp
        split at hx
        · cases hx; exact .pin hnew
        · exact nomatch hx
      · exact nomatch hp

theorem selectTiles (l : LaneIx) (t : Time) (es : List ListEntry) : ∀ (j : Nat) (s : State),
    Change w s (selectTiles l t es j s) := by
  induction es with
  | nil => exact fun _ s => .refl s
  | cons e es ih => exact fun j s => (selectTile l t j e s).trans (ih _ _)

theorem tileStep (l : LaneIx) (t : Time) (s : State) : Change w s (tileStep l t s) := by
  unfold Machine.tileStep
  split
  · exact .refl s
  · exact selectTiles l t _ _ s

theorem commitStep (first : Bool) (l : LaneIx) (s : State) : Change w s (commitStep first l s) := by
  unfold Machine.commitStep
  split
  · exact applyPending l s
  · split
    · exact .refl s
    · exact .calm (.advance l s)

theorem nextFrame (first : Bool) (l : LaneIx) (t : Time) (s : State) : Change w s (nextFrame first l t s) :=
  ((commitStep first l s).trans (tileStep l t _)).trans (Change.calm (.outputStep l t _))

theorem laneBoundary (l : LaneIx) (t : Time) (s : State) : Change w s (laneBoundary l t s) := by
  unfold Machine.laneBoundary
  dsimp only
  refine ((Change.calm (.abortFrame l countCut s)).trans (releaseTiles l _)).trans ?_
  split
  · exact finishStop l _
  · exact nextFrame false l t _

theorem firstBoundary (l : LaneIx) (t : Time) (s : State) : Change w s (firstBoundary l t s) :=
  (modLane s l _ rfl (fun h => by cases h)).trans (nextFrame true l t _)

/-! ### Lock groups -/

theorem startRun (l : LaneIx) (t : Time) (s : State) : Change w s (startRun l t s) :=
  ((modLane s l _ rfl id).trans (firstBoundary l t _)).trans (Change.calm (.completeIf _ _ _ _))

theorem relayTo (t : Time) (l : LaneIx) (s : State) : Change w s (relayTo t l s) := by
  unfold Machine.relayTo
  split
  · split
    · exact (startRun l t s).trans (Change.calm (.noteRelay l t _))
    · exact (laneBoundary l t s).trans (Change.calm (.noteRelay l t _))
    · exact (laneBoundary l t s).trans (Change.calm (.noteRelay l t _))
    · exact .refl s
  · exact ((Change.calm (.completeJoin l s)).trans (laneBoundary l t _)).trans (Change.calm (.noteRelay l t _))
  · exact .refl s

/-- An action for every lane that names a leader. -/
theorem forGroup (ld : LaneIx) (f : LaneIx → State → State) (hf : ∀ l s, Change w s (f l s)) (s : State) :
    Change w s (Machine.forAll (fun l u => if namesLeader u ld l then f l u else u) s) := by
  refine forAll _ (fun l u => ?_) s
  split
  · exact hf l u
  · exact .refl u

theorem relay (ld : LaneIx) (t : Time) (s : State) : Change w s (relay ld t s) :=
  forGroup ld (fun l u => Machine.relayTo t l u) (fun l u => relayTo t l u) s

theorem dropJoin (t : Time) (phase : JoinPhase) (tag : Tag) (l : LaneIx) (s : State) :
    Change w s (dropJoin t phase tag l s) := by
  unfold Machine.dropJoin
  dsimp only
  refine ((Change.completed tag .leaderStopped [] s).trans (Change.calm (.freeLane l _))).trans ?_
  split
  · exact laneBoundary l t _
  · exact .refl _

theorem dissolveStopped (ld : LaneIx) (t : Time) (l : LaneIx) (s : State) : Change w s (dissolveStopped ld t l s) := by
  unfold Machine.dissolveStopped
  split
  · split
    · exact ((startRun l t s).trans (Change.calm (.armTimer l t _))).trans (Change.calm (.lockLost ld l _))
    · exact ((laneBoundary l t s).trans (Change.calm (.armTimer l t _))).trans (Change.calm (.lockLost ld l _))
    · exact (laneBoundary l t s).trans (Change.calm (.lockLost ld l _))
    · exact .calm (.lockLost ld l s)
  · exact dropJoin t _ _ l s
  · exact .refl s

theorem dissolveImmediate (ld : LaneIx) (t : Time) (l : LaneIx) (s : State) :
    Change w s (dissolveImmediate ld t l s) := by
  unfold Machine.dissolveImmediate
  split
  · split
    · exact ((Change.calm (.freeLane l s)).trans (startRun l t _)).trans (.raised _ _)
    · exact (Change.calm (.armAfterRelay l s)).trans (Change.calm (.lockLost ld l _))
    · exact (Change.calm (.armAfterRelay l s)).trans (Change.calm (.lockLost ld l _))
    · exact .calm (.lockLost ld l s)
  · exact dropJoin t _ _ l s
  · exact .refl s

theorem dissolve (column : LaneIx → State → State) (hc : ∀ l s, Change w s (column l s)) (ld : LaneIx) (s : State) :
    Change w s (dissolve column ld s) := (forGroup ld column hc s).trans (Change.calm (.freeLane ld _))

theorem boundary (l : LaneIx) (t : Time) (s : State) : Change w s (boundary l t s) := by
  unfold Machine.boundary
  dsimp only
  refine (laneBoundary l t s).trans ?_
  split
  · split
    · exact dissolve _ (fun x u => dissolveStopped l t x u) l _
    · exact relay l t _
  · exact .refl _

theorem joiningFrameEnd (l : LaneIx) (s : State) : Change w s (joiningFrameEnd l s) := by
  unfold Machine.joiningFrameEnd
  dsimp only
  refine (((Change.calm (.abortFrame l countCut s)).trans (releaseTiles l _)).trans
    (modLane _ l (fun r => { r with timer := none }) rfl id)).trans ?_
  split
  · exact (Change.calm (.completeJoin l _)).trans (finishStop l _)
  · exact modLock _ l _

theorem pacingExpiry (l : LaneIx) (s : State) : Change w s (pacingExpiry l s) := by
  unfold Machine.pacingExpiry
  split
  · split
    · exact joiningFrameEnd l s
    · exact .refl s
    · exact .refl s
    · exact boundary l _ s
  · exact .refl s

/-! ### Requests that stay within a change -/

theorem cancelLaneStart (tag : Tag) (l : LaneIx) (s : State) : Change w s (cancelLaneStart tag l s) := by
  unfold Machine.cancelLaneStart
  split
  · exact ((applyPending l s).trans (Change.readied l _)).trans (.completed _ _ _ _)
  · exact .completed _ _ _ _

theorem stopNow (l : LaneIx) (s : State) : Change w s (stopNow l s) :=
  ((((Change.calm (.abortFrame l countAborted s)).trans (releaseTiles l _)).trans (modLane _ l _ rfl id)).trans (Change.calm (.completeJoin l _))).trans
    (finishStop l _)

theorem cancelJoin (tag : Tag) (l : LaneIx) (s : State) : Change w s (cancelJoin tag l s) := by
  unfold Machine.cancelJoin
  split
  · rename_i ld phase old hr
    dsimp only
    refine (((Change.calm (.freeLane l s)).trans (.completed tag .cancelled [] _)).trans (Change.calm (.freeLeader ld _))).trans ?_
    split
    · exact laneBoundary l _ _
    · exact .refl _
  · exact .completed _ _ _ _

theorem leaveGroup (l : LaneIx) (s : State) : Change w s (leaveGroup l s) := by
  unfold Machine.leaveGroup
  split
  · exact (Change.calm (.armAfterRelay l s)).trans (Change.calm (.freeLane l _))
  · exact (Change.calm (.armAfterRelay l s)).trans (Change.calm (.freeLane l _))
  · exact (Change.calm (.freeLane l s)).trans (startRun l _ _)
  · exact .calm (.freeLane l s)

theorem withdraw (e : Entry) (s : State) : Change w s (withdraw e s) := by
  unfold Machine.withdraw
  split
  · exact .calm (.cancelStreamStop _ _ s)
  · exact .calm (.cancelStreamFreeze _ _ s)
  · exact .calm (.cancelCommit _ _ s)
  · exact cancelLaneStart _ _ s
  · exact .calm (.cancelLaneStop _ _ s)
  · exact cancelJoin _ _ s

/-! ### What a change keeps -/

/-- A change leaves the inbound queue. -/
theorem inbound {s t : State} (h : Change w s t) : t.link.inbound = s.link.inbound := by
  induction h with
  | refl => rfl
  | trans _ _ h k => exact k.trans h
  | records h => rw [h.link]
  | ring => rfl
  | raised b s => simp
  | completed => simp
  | stopped => rfl
  | readied => rfl
  | written => rfl

/-- A change queues no first reply. -/
theorem firstReplies {s t : State} (h : Change w s t) : firstReplies t.link = firstReplies s.link := by
  induction h with
  | refl => rfl
  | trans _ _ h k => exact k.trans h
  | records h => rw [h.link]
  | ring => rfl
  | raised b s => simp
  | completed => simp
  | stopped => rfl
  | readied => rfl
  | written => rfl

/-- A change queues no first reply and removes none: it leaves the first replies as they stand, in their order. -/
theorem firsts {s t : State} (h : Change w s t) :
    t.link.replies.filter (fun x => x.phase = .first) = s.link.replies.filter (fun x => x.phase = .first) := by
  induction h with
  | refl => rfl
  | trans _ _ h k => exact k.trans h
  | records h => rw [h.link]
  | ring => rfl
  | raised b s => simp
  | completed tag res fields s =>
    rcases complete_cases tag res fields s with h | ⟨e, -, -, h⟩ <;> rw [h]
    simp
  | stopped => rfl
  | readied => rfl
  | written => rfl

/-- A change leaves RESET_N. -/
theorem resetAsserted {s t : State} (h : Change w s t) : t.resetAsserted = s.resetAsserted := by
  induction h with
  | refl => rfl
  | trans _ _ h k => exact k.trans h
  | records h => exact h.asserted
  | ring => rfl
  | raised b s => simp
  | completed => simp
  | stopped => rfl
  | readied => rfl
  | written => rfl

/-- A change leaves the store record. -/
theorem store {s t : State} (h : Change w s t) : t.store = s.store := by
  induction h with
  | refl => rfl
  | trans _ _ h k => exact k.trans h
  | records h => exact h.store
  | ring => rfl
  | raised b s => simp
  | completed => simp
  | stopped => rfl
  | readied => rfl
  | written => rfl

/-- A change leaves device time. -/
theorem deviceTime {s t : State} (h : Change w s t) : t.deviceTime = s.deviceTime := by
  induction h with
  | refl => rfl
  | trans _ _ h k => exact k.trans h
  | records h => exact h.deviceTime
  | ring => rfl
  | raised b s => simp
  | completed => simp
  | stopped => rfl
  | readied => rfl
  | written => rfl

/-- A change makes no stream UNBOUND. -/
theorem unbound {s t : State} (h : Change w s t) (i : StreamIx) : (t.stream i).state = .unbound →
    (s.stream i).state = .unbound := by
  induction h with
  | refl => exact id
  | trans _ _ h k => exact fun hu => h (k hu)
  | records h => exact fun hu => h.unbound i hu
  | ring => exact id
  | raised b s => simp
  | completed => simp
  | stopped j s =>
    intro hu
    by_cases hij : j = i
    · subst hij; simp [stopStream, releaseClaim, State.modStream, State.stream] at hu
    · simpa [stopStream, releaseClaim, State.modStream, State.stream, hij] using hu
  | readied => exact id
  | written => exact id

/-- A change leaves which pool slots back each ring. -/
theorem pools {s t : State} (h : Change w s t) (i : StreamIx) : poolsOf (t.ring i) = poolsOf (s.ring i) := by
  induction h with
  | refl => rfl
  | trans _ _ h k => exact k.trans h
  | records h => simp only [State.ring, h.rings]
  | @ring s j r r' hr m _ =>
    by_cases hij : j = i
    · subst hij; simp [poolsOf, hr, m.pools]
    · simp [hij]
  | raised b s => simp
  | completed => simp
  | stopped => rfl
  | readied => rfl
  | written => rfl

/-- A change gives no ring to a stream without one. -/
theorem noRing {s t : State} (h : Change w s t) (i : StreamIx) : s.ring i = none → t.ring i = none := by
  induction h with
  | refl => exact id
  | trans _ _ h k => exact fun hn => k (h hn)
  | records h => simp only [State.ring, h.rings]; exact id
  | @ring s j r r' hr m _ =>
    intro hn
    have hij : j ≠ i := by rintro rfl; rw [hr] at hn; exact nomatch hn
    simpa [hij] using hn
  | raised b s => simp
  | completed => simp
  | stopped => exact id
  | readied => exact id
  | written => exact id

/-- A change leaves the request window. -/
theorem window {s t : State} (h : Change w s t) : windowOpen t.link = windowOpen s.link := by
  simp [windowOpen, h.inbound, h.firstReplies]

/-- A change keeps the law of the claims. -/
theorem claimLaw {s t : State} (h : Change w s t) : ClaimLaw s → ClaimLaw t := by
  induction h with
  | refl => exact id
  | trans _ _ h k => exact fun hs => k (h hs)
  | records h => exact fun hs => hs.of_records h
  | ring => exact fun hs => hs.of_same rfl (fun _ => rfl) (fun _ => rfl)
  | raised b s => exact fun hs => hs.of_same (by simp) (fun _ => by simp) (fun _ => by simp)
  | completed => exact fun hs => hs.of_same (by simp) (fun _ => by simp) (fun _ => by simp)
  | stopped i s => exact fun hs => hs.stopped i
  | readied l s => exact fun hs => hs.readied l
  | written => exact fun hs => hs.of_same rfl (fun _ => rfl) (fun _ => rfl)

end Change

end Sys2Proof.Machine
end

