-- ==== Sys2Proof/Laws/Effect.lean ====
section
/-! SUPPORT. Said once for every command: what exec can do to the parts of the state that the laws speak of, when it answers a
next state. -/

namespace Sys2Proof.Machine

open Sys2Proof

/-- The moves of the link controller, the notice unit, the store, the budget table and the resets, closed with `Change`. `g` is
what the caller may assume of the state exec started from, where a guard of a move rests on it. -/
inductive Effect (w g : Prop) : State → State → Prop where
  | change {s t : State} (h : Change w s t) : Effect w g s t
  | trans {s t u : State} (h : Effect w g s t) (k : Effect w g t u) : Effect w g s u
  | quiet (s : State) (f : Link → Link) (hi : (f s.link).inbound = s.link.inbound)
      (ho : (f s.link).outstanding = s.link.outstanding) (hr : (f s.link).replies = s.link.replies) :
      Effect w g s (s.modLink f)
  | lcs (s : State) (b : Bool) : Effect w g s { s with lcsLow := b }
  | offered (r : Request) (s : State) : Effect w g s (offer r s)
  | taken (s : State) : Effect w g s (taken s)
  | replied (r : Reply) (s : State) (hf : r.phase = .first) (hw : g → windowOpen s.link = true) : Effect w g s (queueReply r s)
  | entered (tag : Tag) (op : Pending) (s : State) (ht : tagHeld s.link tag = false)
      (hp : s.link.outstanding.length + finalReplies s.link < Config.outstandingPlaces) :
      Effect w g s (s.modLink (fun k => { k with outstanding := k.outstanding ++ [⟨tag, op⟩] }))
  | replySent (s : State) : Effect w g s (replySent s)
  | streamAdmitted (i : StreamIx) (u : Nat) (s : State) (hf : fits s u = true) (hs : (s.stream i).state = .stopped) :
      Effect w g s (admitClaim (.stream i) u (s.modStream i (fun r => { r with state := .armed, admitted := some u })))
  | laneAdmitted (l : LaneIx) (f : Lane → Lane) (s : State) (hf : fits s (laneDemand s l) = true)
      (hs : (s.lane l).state = .ready) (ha : ∀ r, (f r).admitted = r.admitted) (hb : ∀ r, (f r).state.idle = false) :
      Effect w g s ((claimLane l s).modLane l f)
  | bound (i : StreamIx) (n : SourceIx) (sc : Scale) (d : Nat) (pol : LossPolicy) (gm : SourceSetup) (s : State)
      (hu : (s.stream i).state = .unbound) (hs : s.store.state = .ready) (hg : (s.source n).setup = some gm)
      (hf : geometryFits s n sc = true) : Effect w g s (bindStream i n sc d pol gm s)
  | unbound (i : StreamIx) (s : State) (hs : (s.stream i).state = .stopped) : Effect w g s (unbindStream i s)
  | sourced (n : SourceIx) (gm : SourceSetup) (s : State) (hb : boundStreams s n = []) : Effect w g s (setupSource n gm s)
  | configured (f : SlotFormat) (n : Nat) (s : State) (hu : ∀ i, (s.stream i).state = .unbound)
      (hs : s.store.state = .ready) : Effect w g s (configureStore f n s)
  | acked (n : Nat) (s : State) (h0 : 0 < n) (hn : n ≤ s.notices.transmitted.length) :
      Effect w g s (reportLost (removeNotices n s))
  | masked (m : BitVec 5) (s : State) : Effect w g s { s with notices := { s.notices with mask := m } }
  | resent (s : State) : Effect w g s (resendNotices s)
  | noticeSent (n : Notice) (rest : List Notice) (s : State) (h : s.notices.untransmitted = n :: rest) :
      Effect w g s (noticeSent n rest s)
  | staged (stage stage' : BringupStage) (d : Time) (s : State) (h : s.store.state = .bringup stage d) :
      Effect w g s (enterStage stage' d s)
  | bringupFailed (c : StoreCause) (stage : BringupStage) (d : Time) (s : State) (h : s.store.state = .bringup stage d)
      (hc : c ≠ .access) : Effect w g s { s with store := ⟨.fault c, none, none, 0, []⟩ }
  | bringupFinished (mib : Nat) (stage : BringupStage) (d : Time) (s : State) (h : s.store.state = .bringup stage d) :
      Effect w g s (finishBringup mib s)
  | storeFailed (s : State) (h : s.store.state = .ready) :
      Effect w g s { s with store := { s.store with state := .fault .access } }
  | softReset (tag : Tag) (s : State) (h : s.resetAsserted = false) (hw : g → windowOpen s.link = true) :
      Effect w g s (softReset tag s)
  | hardReset (s : State) : Effect w g s (hardReset s)
  | released (s : State) (h : s.resetAsserted = true) : Effect w g s (release s)

namespace Effect

variable {w g : Prop}

theorem refl (s : State) : Effect w g s s := .change (.refl s)

/-! ### The link law through acceptance and dispatch -/

theorem offer_linkLaw (r : Request) (s : State) (h : LinkLaw s.link) : LinkLaw (offer r s).link := by
  obtain ⟨h1, h2, h3⟩ := h
  unfold offer
  split
  · rename_i hw
    simp only [windowOpen, decide_eq_true_eq] at hw
    refine ⟨?_, h2, h3⟩
    have : firstReplies ({ s.link with inbound := s.link.inbound ++ [r] } : Link) = firstReplies s.link := rfl
    show (s.link.inbound ++ [r]).length + firstReplies s.link ≤ _
    simp; omega
  · rw [raise_link]
    exact ⟨h1, h2, h3⟩

/-- A reply shifted out makes room. -/
theorem replySent_linkLaw (s : State) (h : LinkLaw s.link) : LinkLaw (Machine.replySent s).link := by
  obtain ⟨h1, h2, h3⟩ := h
  have hs := List.tail_sublist s.link.replies
  refine ⟨?_, ?_, h3⟩
  · have := hs.countP_le (p := fun r => decide (r.phase = .first))
    show s.link.inbound.length + s.link.replies.tail.countP _ ≤ _
    unfold Machine.firstReplies at h1
    omega
  · have := hs.countP_le (p := fun r => decide (r.phase = .final))
    show s.link.outstanding.length + s.link.replies.tail.countP _ ≤ _
    unfold finalReplies at h2
    omega

theorem sendByte_linkLaw (s : State) (h : LinkLaw s.link) : LinkLaw (sendByte s).link := by
  unfold sendByte
  split
  · exact h
  · dsimp only
    split
    · exact h
    · unfold frameSent
      split
      · exact replySent_linkLaw _ h
      · split <;> exact h
      · exact h
      · exact h

theorem shifted_linkLaw (n : Nat) (s : State) (h : LinkLaw s.link) : LinkLaw (s.shifted n).link := by
  induction n generalizing s with
  | zero => exact h
  | succ n ih => exact ih _ (sendByte_linkLaw s h)

theorem present_linkLaw (r : Request) (s : State) (h : LinkLaw s.link) : LinkLaw (present r s).link := by
  unfold present
  split
  · exact h
  · exact offer_linkLaw r _ (shifted_linkLaw _ _ h)

theorem putByte (b : Byte) (o : Option Outbound) (s : State) : Effect w g s (putByte b o s) :=
  (Effect.lcs s true).trans (.quiet _ (fun k => { k with outbound := o, lsdo := b }) rfl rfl rfl)

theorem frameSent (k : OutboundKind) (s : State) : Effect w g s (frameSent k s) := by
  unfold Machine.frameSent
  split
  · exact .replySent s
  · rename_i n rest hu
    split
    · exact .noticeSent n rest s hu
    · exact .refl s
  · exact .refl s
  · exact .refl s

theorem sendByte (s : State) : Effect w g s (sendByte s) := by
  unfold Machine.sendByte
  split
  · exact putByte _ _ s
  · dsimp only
    split
    · exact putByte _ _ s
    · exact (putByte _ _ s).trans (frameSent _ _)

theorem shifted (n : Nat) : ∀ s : State, Effect w g s (s.shifted n) := by
  induction n with
  | zero => exact fun s => .refl s
  | succ n ih => exact fun s => (sendByte s).trans (ih _)

theorem present (r : Request) (s : State) : Effect w g s (present r s) := by
  unfold Machine.present
  split
  · exact .refl s
  · exact (shifted _ s).trans (.offered r _)

/-- R147, R148: once the head request is taken, the window has room for its first reply. -/
theorem window_taken (r : Request) (s : State) (h : LinkLaw s.link) (hc : canTake r s = true) :
    windowOpen (Machine.taken s).link = true := by
  simp only [canTake, Bool.and_eq_true, decide_eq_true_eq] at hc
  have hlen : 0 < s.link.inbound.length := by
    cases hin : s.link.inbound with
    | nil => rw [hin] at hc; exact nomatch hc.1
    | cons => simp
  have h1 := h.1
  simp only [windowOpen, decide_eq_true_eq]
  show s.link.inbound.tail.length + firstReplies s.link < _
  rw [List.length_tail]
  omega

theorem replyRoom_taken (r : Request) (s : State) (hc : canTake r s = true) : replyRoom (Machine.taken s).link = true := by
  simp only [canTake, Bool.and_eq_true] at hc
  exact hc.2

/-- What a dispatched request can do: its frame is offered where it has not arrived, and where it can be taken its action
follows. -/
theorem dispatch {r : Request} {act : State → State} {s t : State}
    (ha : ∀ u, (LinkLaw s.link → windowOpen u.link = true) → replyRoom u.link = true → u.resetAsserted = false →
      Effect w (LinkLaw s.link) u (act u))
    (h : dispatch r act s = .next t) : Effect w (LinkLaw s.link) s t := by
  unfold Machine.dispatch at h
  split at h
  · cases h; exact .refl s
  · rename_i hreset
    split at h
    · rename_i hc
      cases h
      refine ((present r s).trans (.taken _)).trans (ha _ ?_ (replyRoom_taken r _ hc) ?_)
      · exact fun hl => window_taken r _ (present_linkLaw r s hl) hc
      · show (Machine.present r s).resetAsserted = false
        unfold Machine.present Machine.offer
        split
        · simpa using hreset
        · split <;> simpa using hreset
    · cases h; exact present r s

/-- What a request of a known kind can do, from what its judging can. -/
theorem request {k : Kind} {judge : Tag → List Byte → State → Verdict} {tag : Tag} {body : List Byte} {s t : State}
    (hj : ∀ u v, judge tag body u = .ok v → (LinkLaw s.link → windowOpen u.link = true) → replyRoom u.link = true →
      u.resetAsserted = false → Effect w (LinkLaw s.link) u v)
    (h : request k judge tag body s = .next t) : Effect w (LinkLaw s.link) s t := by
  refine dispatch (fun u hw hr ha => ?_) h
  cases hv : judge tag body u with
  | error r => exact .replied _ u rfl hw
  | ok v => exact hj u v hv hw hr ha

/-- A change followed by a first reply. -/
theorem reply {u v : State} (h : Change w u v) (hw : g → windowOpen u.link = true) (k : Kind) (tag : Tag) (res : Result)
    (fields : List Byte) : Effect w g u (firstReply k tag res fields v) :=
  (Effect.change h).trans (.replied _ _ rfl (fun hg => by rw [h.window]; exact hw hg))

/-- A change followed by the entry in the outstanding table and PENDING. -/
theorem deferred {u v : State} (h : Change w u v) (hw : g → windowOpen u.link = true) (hr : replyRoom u.link = true)
    (tag : Tag) (op : Pending) (hl : v.link = u.link) (ht : tagHeld u.link tag = false) (hf : tableFull u.link = false) :
    Effect w g u (defer tag op v) := by
  refine ((Effect.change h).trans (.entered tag op v (by rw [hl]; exact ht) ?_)).trans (.replied _ _ rfl (fun hg => ?_))
  · rw [hl]
    simp only [tableFull, decide_eq_false_iff_not] at hf
    simp only [replyRoom, Bool.or_eq_true, decide_eq_true_eq] at hr
    omega
  · have := hw hg
    rw [← hl] at this
    exact this

/-! ### The requests -/

theorem streamBind {tag : Tag} {body : List Byte} {u v : State} (h : streamBind tag body u = .ok v)
    (hw : g → windowOpen u.link = true) : Effect w g u v := by
  unfold Machine.streamBind refuse okReply at h
  repeat' split at h
  all_goals first | (cases h; done) | skip
  rename_i hf hs hu _ _ hg _
  cases h
  simp only [ne_eq, not_not] at hf hs hu
  exact (Effect.bound _ _ _ _ _ _ u hu hs hg hf).trans (.replied _ _ rfl hw)

theorem streamUnbind {tag : Tag} {body : List Byte} {u v : State} (h : streamUnbind tag body u = .ok v)
    (hw : g → windowOpen u.link = true) : Effect w g u v := by
  unfold Machine.streamUnbind refuse okReply at h
  repeat' split at h
  all_goals first | (cases h; done) | skip
  rename_i hs _
  cases h
  exact (Effect.unbound _ u (by simpa using hs)).trans (.replied _ _ rfl hw)

theorem streamStart {tag : Tag} {body : List Byte} {u v : State} (h : streamStart tag body u = .ok v)
    (hw : g → windowOpen u.link = true) : Effect w g u v := by
  unfold Machine.streamStart refuse okReply at h
  repeat' split at h
  all_goals first | (cases h; done) | skip
  rename_i hs hf
  cases h
  exact (Effect.streamAdmitted _ _ u (by simpa using hf) (by simpa using hs)).trans (.replied _ _ rfl hw)

theorem streamStop {tag : Tag} {body : List Byte} {u v : State} (h : streamStop tag body u = .ok v)
    (hw : g → windowOpen u.link = true) (hr : replyRoom u.link = true) : Effect w g u v := by
  unfold Machine.streamStop refuse okReply at h
  split at h
  · split at h
    · cases h
    · rename_i ht
      split at h
      · split at h
        · cases h
        · cases h; exact reply (.refl u) hw _ _ _ _
        · cases h; exact reply (.stopped _ u) hw _ _ _ _
        · split at h
          · cases h; exact reply (.stopped _ u) hw _ _ _ _
          · split at h
            · cases h; exact reply (.calm (.discardStop _ u)) hw _ _ _ _
            · split at h
              · cases h
              · rename_i hf
                cases h
                exact deferred (.calm (.modStream u _ _ rfl (.inr rfl) (fun _ => ⟨rfl, rfl⟩))) hw hr _ _ rfl (by simpa using ht) (by simpa using hf)
        · split at h
          · cases h; exact reply (.calm (.discardStop _ u)) hw _ _ _ _
          · cases h
      · cases h
  · cases h

theorem streamFreeze {tag : Tag} {body : List Byte} {u v : State} (h : streamFreeze tag body u = .ok v)
    (hw : g → windowOpen u.link = true) (hr : replyRoom u.link = true) : Effect w g u v := by
  unfold Machine.streamFreeze refuse okReply at h
  split at h
  · split at h
    · cases h
    · rename_i ht
      split at h
      · cases h
      · split at h
        · cases h
        · split at h
          · cases h
          · cases h; exact reply (.refl u) hw _ _ _ _
          · split at h
            · cases h; exact reply (.calm (.modStream u _ _ rfl (.inl rfl) (fun _ => ⟨rfl, rfl⟩))) hw _ _ _ _
            · split at h
              · cases h
              · rename_i hf
                cases h
                exact deferred (.calm (.modStream u _ _ rfl (.inl rfl) (fun _ => ⟨rfl, rfl⟩))) hw hr _ _ rfl (by simpa using ht) (by simpa using hf)
  · cases h

theorem streamThaw {tag : Tag} {body : List Byte} {u v : State} (h : streamThaw tag body u = .ok v)
    (hw : g → windowOpen u.link = true) : Effect w g u v := by
  unfold Machine.streamThaw refuse okReply at h
  repeat' split at h
  all_goals cases h
  · exact reply (.refl u) hw _ _ _ _
  · exact reply (.calm ((Calm.modStream u _ _ rfl (.inl rfl) (fun _ => ⟨rfl, rfl⟩)).trans (.retireOnThaw _ _))) hw _ _ _ _
  · exact reply (.calm (.withdrawFreeze _ u)) hw _ _ _ _

theorem streamFill {tag : Tag} {body : List Byte} {u v : State} (h : streamFill tag body u = .ok v)
    (hw : g → windowOpen u.link = true) : Effect w g u v := by
  unfold Machine.streamFill refuse okReply at h
  repeat' split at h
  all_goals cases h
  exact reply (.calm (.modStream u _ _ rfl (.inl rfl) (fun _ => ⟨rfl, rfl⟩))) hw _ _ _ _

theorem streamStamp {tag : Tag} {body : List Byte} {u v : State} (h : streamStamp tag body u = .ok v)
    (hw : g → windowOpen u.link = true) : Effect w g u v := by
  unfold Machine.streamStamp refuse okReply at h
  repeat' split at h
  all_goals cases h
  exact reply (.calm (.modStream u _ _ rfl (.inl rfl) (fun _ => ⟨rfl, rfl⟩))) hw _ _ _ _

theorem sourceSetup {tag : Tag} {body : List Byte} {u v : State} (h : sourceSetup tag body u = .ok v)
    (hw : g → windowOpen u.link = true) : Effect w g u v := by
  unfold Machine.sourceSetup refuse okReply at h
  dsimp only at h
  repeat' split at h
  all_goals first | (cases h; done) | skip
  rename_i hb
  cases h
  exact (Effect.sourced _ _ u (by simpa using hb)).trans (.replied _ _ rfl hw)

theorem listEdit {tag : Tag} {body : List Byte} {u v : State} (h : listEdit tag body u = .ok v)
    (hw : g → windowOpen u.link = true) : Effect w g u v := by
  unfold Machine.listEdit refuse okReply at h
  repeat' split at h
  all_goals cases h
  exact reply (.modList u _ _) hw _ _ _ _

theorem listRead {tag : Tag} {body : List Byte} {u v : State} (h : listRead tag body u = .ok v)
    (hw : g → windowOpen u.link = true) : Effect w g u v := by
  unfold Machine.listRead refuse okReply at h
  dsimp only at h
  repeat' split at h
  all_goals cases h
  all_goals exact reply (.refl u) hw _ _ _ _

theorem listCommit {tag : Tag} {body : List Byte} {u v : State} (h : listCommit tag body u = .ok v)
    (hw : g → windowOpen u.link = true) (hr : replyRoom u.link = true) : Effect w g u v := by
  unfold Machine.listCommit refuse okReply at h
  split at h
  · split at h
    · cases h
    · rename_i ht
      split at h
      · split at h
        · cases h
        · split at h
          · cases h
          · split at h
            · cases h
            · split at h
              · cases h; exact reply (.adoptList _ u) hw _ _ _ _
              · split at h
                · cases h
                · rename_i hf
                  cases h
                  exact deferred (.modList u _ _) hw hr _ _ rfl (by simpa using ht) (by simpa using hf)
      · cases h
  · cases h

theorem setupLane (l : LaneIx) (g : LaneSetup) (s : State) (hb : (s.lane l).busy = false) :
    Change w s (setupLane l g s) := by
  unfold Machine.setupLane
  refine .modLane s l _ (by split <;> rfl) (fun _ => ?_)
  unfold Lane.busy at hb
  cases h : (s.lane l).state <;> simp [h] at hb <;> rfl

theorem laneSetup {tag : Tag} {body : List Byte} {u v : State} (h : laneSetup tag body u = .ok v)
    (hw : g → windowOpen u.link = true) : Effect w g u v := by
  unfold Machine.laneSetup refuse okReply at h
  dsimp only at h
  repeat' split at h
  all_goals first | (cases h; done) | skip
  rename_i hb _ _
  cases h
  exact reply ((setupLane _ _ u (by simpa using hb)).trans (.calm (.route _ _ _))) hw _ _ _ _

theorem portSetup {tag : Tag} {body : List Byte} {u v : State} (h : portSetup tag body u = .ok v)
    (hw : g → windowOpen u.link = true) : Effect w g u v := by
  unfold Machine.portSetup refuse okReply at h
  repeat' split at h
  all_goals cases h
  exact reply (.calm (.modOutPort u _ _)) hw _ _ _ _

/-- R95, R137: a READY lane's claim is admitted and the lane takes the first boundary of its run. -/
theorem firstRun (l : LaneIx) (t : Time) (s : State) (hf : fits s (laneDemand s l) = true) (hs : (s.lane l).state = .ready) :
    Effect w g s (firstBoundary l t (claimLane l s)) := by
  unfold Machine.firstBoundary
  refine Effect.trans (.laneAdmitted l _ s hf hs ?_ ?_) (.change (.nextFrame true l t _))
  · exact fun _ => rfl
  · exact fun _ => rfl

theorem laneStart {tag : Tag} {body : List Byte} {u v : State} (h : laneStart tag body u = .ok v)
    (hw : g → windowOpen u.link = true) (hr : replyRoom u.link = true) : Effect w g u v := by
  unfold Machine.laneStart refuse okReply at h
  split at h
  · split at h
    · cases h
    · rename_i ht
      split at h
      · cases h
      · split at h
        · cases h
        · split at h
          · cases h
          · split at h
            · cases h
            · rename_i l _ hs _ hfit
              have hs : (u.lane l).state = .ready := by simpa using hs
              have hfit : fits u (laneDemand u l) = true := by simpa using hfit
              have first : ∀ t, Effect w g u (firstReply .laneStart tag .ok []
                  (Machine.firstBoundary l t (Machine.claimLane l u))) := fun t =>
                (firstRun l t u hfit hs).trans (.replied _ _ rfl (fun hg => by
                  rw [(Change.firstBoundary (w := w) l t (Machine.claimLane l u)).window]; exact hw hg))
              split at h
              · cases h
                exact first _
              · rw [Except.ok.injEq] at h
                subst h
                refine Effect.trans (first u.deviceTime) (Effect.change ?_)
                exact Change.relay l u.deviceTime _
              · split at h
                · cases h
                · rename_i hf
                  cases h
                  refine Effect.trans (.laneAdmitted l (fun r => { r with state := .starting, pendingStart := some tag })
                    u hfit hs (fun _ => rfl) (fun _ => rfl)) ?_
                  exact deferred (u := (Machine.claimLane l u).modLane l _) (.refl _) (fun hg => hw hg) hr _ _ rfl
                    (show tagHeld u.link tag = false by simpa using ht)
                    (show tableFull u.link = false by simpa using hf)
  · cases h

theorem immediateStop (tag : Tag) (l : LaneIx) (u : State) (hw : g → windowOpen u.link = true) :
    Effect w g u (immediateStop tag l u) := by
  unfold Machine.immediateStop
  dsimp only
  split
  · exact (reply (.stopNow l u) hw _ _ _ _).trans (.change (.dissolve _ (fun x s => .dissolveImmediate l _ x s) l _))
  · exact reply (.stopNow l u) hw _ _ _ _

theorem laneStop {tag : Tag} {body : List Byte} {u v : State} (h : laneStop tag body u = .ok v)
    (hw : g → windowOpen u.link = true) (hr : replyRoom u.link = true) : Effect w g u v := by
  unfold Machine.laneStop refuse okReply at h
  split at h
  · split at h
    · cases h
    · rename_i ht
      split at h
      · split at h
        · cases h
        · cases h; exact reply (.refl u) hw _ _ _ _
        · cases h
          exact reply (((Change.applyPending _ u).trans (.readied _ _)).trans (.calm (.completeIf _ _ _ _))) hw _ _ _ _
        · split at h
          · cases h; exact reply ((Change.calm (.completeJoin _ u)).trans (.finishStop _ _)) hw _ _ _ _
          · split at h
            · cases h; exact immediateStop _ _ u hw
            · split at h
              · cases h
              · rename_i hf
                cases h
                exact deferred (.modLane u _ _ rfl (fun h => by cases h)) hw hr _ _ rfl (by simpa using ht) (by simpa using hf)
        · split at h
          · cases h; exact reply ((Change.calm (.completeJoin _ u)).trans (.finishStop _ _)) hw _ _ _ _
          · split at h
            · cases h; exact immediateStop _ _ u hw
            · cases h
      · cases h
  · cases h

theorem lockJoin {tag : Tag} {body : List Byte} {u v : State} (h : lockJoin tag body u = .ok v)
    (hw : g → windowOpen u.link = true) (hr : replyRoom u.link = true) : Effect w g u v := by
  unfold Machine.lockJoin refuse okReply at h
  split at h
  · split at h
    · cases h
    · rename_i ht
      repeat' split at h
      all_goals first | (cases h; done) | skip
      · rename_i hf
        cases h
        exact deferred ((Change.modLock u _ _).trans (.modLock _ _ _)) hw hr _ _ rfl (by simpa using ht) (by simpa using hf)
      · cases h
        exact reply ((Change.modLock u _ _).trans (.modLock _ _ _)) hw _ _ _ _
  · cases h

theorem lockLeave {tag : Tag} {body : List Byte} {u v : State} (h : lockLeave tag body u = .ok v)
    (hw : g → windowOpen u.link = true) : Effect w g u v := by
  unfold Machine.lockLeave refuse okReply at h
  repeat' split at h
  all_goals cases h
  · exact reply ((Change.leaveGroup _ u).trans (.calm (.freeLeader _ _))) hw _ _ _ _
  · exact reply (.cancelJoin _ _ u) hw _ _ _ _

theorem storeConfig {tag : Tag} {body : List Byte} {u v : State} (h : storeConfig tag body u = .ok v)
    (hw : g → windowOpen u.link = true) : Effect w g u v := by
  unfold Machine.storeConfig refuse okReply at h
  dsimp only at h
  repeat' split at h
  all_goals first | (cases h; done) | skip
  rename_i hs hu
  cases h
  simp only [ne_eq, not_not] at hs
  refine (Effect.configured _ _ u ?_ hs).trans (.replied _ _ rfl hw)
  simpa using hu

theorem identify {tag : Tag} {body : List Byte} {u v : State} (h : identify tag body u = .ok v)
    (hw : g → windowOpen u.link = true) : Effect w g u v := by
  unfold Machine.identify refuse okReply at h
  split at h
  all_goals cases h
  exact reply (.refl u) hw _ _ _ _

theorem status {tag : Tag} {body : List Byte} {u v : State} (h : status tag body u = .ok v)
    (hw : g → windowOpen u.link = true) : Effect w g u v := by
  unfold Machine.status refuse okReply at h
  repeat' split at h
  all_goals cases h
  exact reply (.refl u) hw _ _ _ _

theorem clearFlag (x : CounterHolder) (s : State) : Calm w s (clearFlag x s) := by
  unfold Machine.clearFlag
  split
  · exact .modSource s _ _ (fun _ => ⟨rfl, rfl, rfl⟩)
  · exact .modStream s _ _ rfl (.inl rfl) (fun _ => ⟨rfl, rfl⟩)
  · exact .refl s

theorem clearCounters (x : CounterHolder) (s : State) : Effect w g s (clearCounters x s) := by
  unfold Machine.clearCounters
  split
  · exact .change (.calm ((Calm.modSource s _ _ (fun _ => ⟨rfl, rfl, rfl⟩)).trans
      (.modCapturePort _ _ _ (fun _ => rfl))))
  · exact .change (.calm (.modStream s _ _ rfl (.inl rfl) (fun _ => ⟨rfl, rfl⟩)))
  · exact .change (.modLane s _ _ rfl id)
  · exact .change (.calm (.modOutPort s _ _))
  · exact .quiet s _ rfl rfl rfl

theorem clearCounters_window (x : CounterHolder) (s : State) :
    windowOpen (Machine.clearCounters x s).link = windowOpen s.link := by
  unfold Machine.clearCounters
  split <;> rfl

theorem counters {tag : Tag} {body : List Byte} {u v : State} (h : counters tag body u = .ok v)
    (hw : g → windowOpen u.link = true) : Effect w g u v := by
  unfold Machine.counters refuse okReply at h
  split at h
  · split at h
    · rename_i x clear _ _
      cases h
      have hc := Change.calm (w := w) (clearFlag x u)
      refine Effect.trans (t := if clear then Machine.clearCounters x (Machine.clearFlag x u) else Machine.clearFlag x u)
        ?_ (.replied _ _ rfl (fun hg => ?_))
      · split
        · exact (Effect.change hc).trans (clearCounters x _)
        · exact .change hc
      · split
        · rw [clearCounters_window, hc.window]; exact hw hg
        · rw [hc.window]; exact hw hg
    · cases h
  · cases h

theorem linkSet {tag : Tag} {body : List Byte} {u v : State} (h : linkSet tag body u = .ok v)
    (hw : g → windowOpen u.link = true) : Effect w g u v := by
  unfold Machine.linkSet refuse okReply at h
  repeat' split at h
  all_goals first | (cases h; done) | skip
  cases h
  exact (Effect.masked _ u).trans (.replied _ _ rfl hw)

theorem cancel {tag : Tag} {body : List Byte} {u v : State} (h : cancel tag body u = .ok v)
    (hw : g → windowOpen u.link = true) : Effect w g u v := by
  unfold Machine.cancel refuse okReply at h
  repeat' split at h
  all_goals cases h
  exact reply (.withdraw _ u) hw _ _ _ _

theorem reset {tag : Tag} {body : List Byte} {u v : State} (h : reset tag body u = .ok v)
    (hw : g → windowOpen u.link = true) (ha : u.resetAsserted = false) : Effect w g u v := by
  unfold Machine.reset refuse at h
  split at h
  all_goals cases h
  exact .softReset tag u ha hw

theorem noticeAck {tag : Tag} {body : List Byte} {u v : State} (h : noticeAck tag body u = .ok v)
    (hw : g → windowOpen u.link = true) : Effect w g u v := by
  unfold Machine.noticeAck refuse okReply at h
  split at h
  · split at h
    · cases h
    · rename_i n hn
      cases h
      unfold ackCount at hn
      rw [Option.map_eq_some_iff] at hn
      obtain ⟨j, hj, rfl⟩ := hn
      obtain ⟨hlt, -, -⟩ := List.findIdx?_eq_some_iff_getElem.mp hj
      refine (Effect.acked (j + 1) u (by omega) hlt).trans (.replied _ _ rfl (fun hg => ?_))
      have : (reportLost (removeNotices (j + 1) u)).link = u.link := by
        unfold reportLost
        split <;> rfl
      rw [this]
      exact hw hg
  · cases h

theorem noticeResend {tag : Tag} {body : List Byte} {u v : State} (h : noticeResend tag body u = .ok v)
    (hw : g → windowOpen u.link = true) : Effect w g u v := by
  unfold Machine.noticeResend refuse okReply at h
  split at h
  all_goals cases h
  exact (Effect.resent u).trans (.replied _ _ rfl hw)

/-! ### The link events -/

theorem setFramer (f : Option (List Byte)) (s : State) : Effect w g s (setFramer f s) := .quiet s _ rfl rfl rfl

theorem checkError (tag : Option Tag) (s : State) : Effect w g s (checkError tag s) :=
  (Effect.quiet s _ rfl rfl rfl).trans (.change (.raised _ _))

theorem takeByte (b : Byte) (s : State) : Effect w g s (takeByte b s) := by
  unfold Machine.takeByte
  split
  · split
    · exact setFramer _ s
    · exact .refl s
  · unfold frameByte
    dsimp only
    split
    · exact checkError _ s
    · split
      · unfold judgeFrame
        split
        · exact (setFramer none s).trans (.offered _ _)
        · exact checkError _ s
      · exact setFramer _ s

theorem moveByte (b : Byte) (s : State) : Effect w g s (moveByte b s) := (sendByte s).trans (takeByte b _)

theorem moveBytes (bs : List Byte) : ∀ s, Effect w g s (moveBytes bs s) := by
  induction bs with
  | nil => exact fun s => .refl s
  | cons b bs ih => exact fun s => (moveByte b s).trans (ih _)

theorem truncate (s : State) : Effect w g s (truncate s) := by
  unfold Machine.truncate
  split
  · exact .refl s
  · exact (Effect.quiet s _ rfl rfl rfl).trans (.change (.raised _ _))

theorem interrupt (s : State) : Effect w g s (interrupt s) := by
  unfold Machine.interrupt
  split
  · exact .refl s
  · exact .quiet s _ rfl rfl rfl

theorem outboundFrameStart (s : State) : Effect w g s (outboundFrameStart s) := by
  unfold Machine.outboundFrameStart
  split
  · exact .refl s
  · exact moveByte _ s

theorem replyTransmitted (s : State) : Effect w g s (replyTransmitted s) := by
  unfold Machine.replyTransmitted
  split
  · exact moveBytes _ s
  · exact .refl s

theorem noticeTransmitted (s : State) : Effect w g s (noticeTransmitted s) := by
  unfold Machine.noticeTransmitted
  split
  · exact moveBytes _ s
  · exact moveBytes _ s
  · exact .refl s

/-! ### The store events -/

/-- R127: bring-up, in progress, fails. -/
theorem failBringup (c : StoreCause) (stage : BringupStage) (d : Time) (s : State) (h : s.store.state = .bringup stage d)
    (hc : c ≠ .access) : Effect w g s (failBringup c s) :=
  (Effect.bringupFailed c stage d s h hc).trans
    (.change ((Change.forAll _ (fun l u => .calm (.failComposing l u)) _).trans (.raised _ _)))

theorem probeDone (b : Bool) (s : State) : Effect w g s (probeDone b s) := by
  unfold Machine.probeDone
  split
  · rename_i d h
    split
    · exact .staged _ _ d s h
    · exact failBringup _ _ d s h (by decide)
  · exact .refl s

theorem trainingDone (b : Bool) (s : State) : Effect w g s (trainingDone b s) := by
  unfold Machine.trainingDone
  split
  · rename_i d h
    split
    · exact .staged _ _ d s h
    · exact failBringup _ _ d s h (by decide)
  · exact .refl s

theorem sizingDone (mib : Nat) (s : State) : Effect w g s (sizingDone mib s) := by
  unfold Machine.sizingDone
  split
  · rename_i d h
    split
    · exact .bringupFinished mib _ d s h
    · exact failBringup _ _ d s h (by decide)
  · exact .refl s

theorem deadlineExpiry (s : State) : Effect w g s (deadlineExpiry s) := by
  unfold Machine.deadlineExpiry
  split
  · rename_i stage d h
    split
    · exact failBringup _ _ d s h (by cases stage <;> decide)
    · exact .refl s
  · exact .refl s

theorem accessFailure (s : State) : Effect w g s (accessFailure s) := by
  unfold Machine.accessFailure
  split
  · rename_i h
    exact ((Effect.storeFailed s h).trans (.change (((Change.forAll _ (fun l u => .calm (.failComposing l u)) _).trans
      (.forAll _ (fun i u => .calm (.streamDiscard .access i u)) _)).trans (.raised _ _))))
  · exact .refl s

/-- An event that acts only while RESET_N is released. -/
theorem whileReleased {s u t : State} (h : whileReleased s u = .next t) (hu : Effect w g s u) : Effect w g s t := by
  unfold Machine.whileReleased at h
  split at h
  · cases h; exact .refl s
  · cases h; exact hu

theorem marker (hw : w) {port : CaptureIx} {act : State → State} {s t : State} (h : marker port act s = .next t)
    (ha : ∀ u, Calm w u (act u)) : Effect w g s t := by
  unfold Machine.marker at h
  split at h
  · cases h; exact .refl s
  · split at h
    · cases h; exact .change (.calm ((Calm.closeLine hw port s).trans (ha _)))
    · cases h

end Effect

/-! ### The teardown of a soft reset -/

theorem abortFrame_dram (l : LaneIx) (count : OutPort → OutPort) (s : State) : (abortFrame l count s).dram = s.dram := by
  unfold abortFrame
  split
  · rfl
  · dsimp only [State.setTrailer, State.modOut]
    unfold countOnPort
    split <;> rfl

theorem foldl_abort_dram (xs : List LaneIx) : ∀ s : State,
    (xs.foldl (fun t l => abortFrame l countAborted t) s).dram = s.dram := by
  induction xs with
  | nil => exact fun s => rfl
  | cons x xs ih => exact fun s => (ih _).trans (abortFrame_dram x countAborted s)

@[simp] theorem teardown_dram (s : State) : (teardown s).dram = s.dram := by
  dsimp only [teardown, abortAll, forAll]
  exact foldl_abort_dram _ s

/-- The abort markers change no part that the laws speak of but the output side. -/
theorem abortAll_change {w : Prop} (s : State) : Change w s (abortAll s) :=
  .calm (.forAll _ (fun l u => .abortFrame l countAborted u) s)

@[simp] theorem teardown_ring (s : State) (i : StreamIx) : (teardown s).ring i = none := by
  show rd (Vector.replicate 20 none) i = none
  simp

@[simp] theorem teardown_stream (s : State) (i : StreamIx) : (teardown s).stream i = Stream.initial := by
  show rd (Vector.replicate 20 Stream.initial) i = Stream.initial
  simp

@[simp] theorem teardown_resetAsserted (s : State) : (teardown s).resetAsserted = s.resetAsserted := by
  dsimp only [teardown]
  exact (abortAll_change (w := True) s).resetAsserted

/-! What a soft reset leaves, part by part. -/

@[simp] theorem softReset_dram (tag : Tag) (s : State) : (softReset tag s).dram = s.dram := by
  dsimp only [softReset, restartNotices, enterNotice, firstReply, queueReply, State.modLink, abortOutstanding]
  simp only [teardown_dram]

@[simp] theorem softReset_claims (tag : Tag) (s : State) : (softReset tag s).claims = [] := rfl

@[simp] theorem softReset_store (tag : Tag) (s : State) : (softReset tag s).store = softResetStore s.store := rfl

@[simp] theorem softReset_ring (tag : Tag) (s : State) (i : StreamIx) : (softReset tag s).ring i = none := by
  dsimp only [softReset, restartNotices, enterNotice, firstReply, queueReply, State.modLink, State.ring]
  exact teardown_ring _ i

@[simp] theorem softReset_stream (tag : Tag) (s : State) (i : StreamIx) : (softReset tag s).stream i = Stream.initial := by
  dsimp only [softReset, restartNotices, enterNotice, firstReply, queueReply, State.modLink, State.stream]
  exact teardown_stream _ i

@[simp] theorem softReset_resetAsserted (tag : Tag) (s : State) : (softReset tag s).resetAsserted = s.resetAsserted := by
  dsimp only [softReset, restartNotices, enterNotice, firstReply, queueReply, State.modLink]
  rw [teardown_resetAsserted]
  rfl

@[simp] theorem softReset_inbound (tag : Tag) (s : State) : (softReset tag s).link.inbound = [] := rfl

@[simp] theorem softReset_outstanding (tag : Tag) (s : State) : (softReset tag s).link.outstanding = [] := rfl

/-- R156: the replies already queued, then ABORTED for each outstanding entry in table order, then the RESET reply. -/
theorem softReset_replies (tag : Tag) (s : State) : (softReset tag s).link.replies =
    s.link.replies ++ s.link.outstanding.map (fun e => ⟨replyKind e.op.kind.code, e.tag, .final, .aborted, []⟩) ++
      [⟨replyKind Kind.reset.code, tag, .first, .ok, listBytes (fun t => [t]) (s.link.inbound.map Request.tag)⟩] := rfl

/-- R156, R166: START (SOFT) is notice 0, alone in the queue, at device time 0; the mask is kept. -/
theorem softReset_notices (tag : Tag) (s : State) :
    (softReset tag s).notices = ⟨(teardown (abortOutstanding (s.modLink (fun k => { k with inbound := [] })))).notices.mask,
      [], [⟨0, 0, .start .soft⟩], 1, 0⟩ := rfl

/-! ### Everything a command can do -/

/-- The commands that carry a frame on its way in: the markers of a capture port, and the loss timer, which ends a frame. -/
def feeds : Instr → Bool
  | .captureFrameStart _ _ => true
  | .lineStart _ _ _ => true
  | .frameEnd _ _ => true
  | .sourceLossTimerExpiry _ => true
  | _ => false

/-- Everything a command can do when exec answers a next state; only the commands that carry a frame in make its moves. -/
theorem exec_effect {w : Prop} {c : Instr} {s t : State} (hw : feeds c = true → w) (h : exec c s = .next t) : Effect w (LinkLaw s.link) s t := by
  cases c with
  | streamBind => exact Effect.request (fun _ _ hv hw _ _ => Effect.streamBind hv hw) h
  | streamUnbind => exact Effect.request (fun _ _ hv hw _ _ => Effect.streamUnbind hv hw) h
  | streamStart => exact Effect.request (fun _ _ hv hw _ _ => Effect.streamStart hv hw) h
  | streamStop => exact Effect.request (fun _ _ hv hw hr _ => Effect.streamStop hv hw hr) h
  | streamFreeze => exact Effect.request (fun _ _ hv hw hr _ => Effect.streamFreeze hv hw hr) h
  | streamThaw => exact Effect.request (fun _ _ hv hw _ _ => Effect.streamThaw hv hw) h
  | streamFill => exact Effect.request (fun _ _ hv hw _ _ => Effect.streamFill hv hw) h
  | sourceSetup => exact Effect.request (fun _ _ hv hw _ _ => Effect.sourceSetup hv hw) h
  | listEdit => exact Effect.request (fun _ _ hv hw _ _ => Effect.listEdit hv hw) h
  | listRead => exact Effect.request (fun _ _ hv hw _ _ => Effect.listRead hv hw) h
  | listCommit => exact Effect.request (fun _ _ hv hw hr _ => Effect.listCommit hv hw hr) h
  | laneSetup => exact Effect.request (fun _ _ hv hw _ _ => Effect.laneSetup hv hw) h
  | portSetup => exact Effect.request (fun _ _ hv hw _ _ => Effect.portSetup hv hw) h
  | laneStart => exact Effect.request (fun _ _ hv hw hr _ => Effect.laneStart hv hw hr) h
  | laneStop => exact Effect.request (fun _ _ hv hw hr _ => Effect.laneStop hv hw hr) h
  | lockJoin => exact Effect.request (fun _ _ hv hw hr _ => Effect.lockJoin hv hw hr) h
  | lockLeave => exact Effect.request (fun _ _ hv hw _ _ => Effect.lockLeave hv hw) h
  | streamStamp => exact Effect.request (fun _ _ hv hw _ _ => Effect.streamStamp hv hw) h
  | storeConfig => exact Effect.request (fun _ _ hv hw _ _ => Effect.storeConfig hv hw) h
  | identify => exact Effect.request (fun _ _ hv hw _ _ => Effect.identify hv hw) h
  | status => exact Effect.request (fun _ _ hv hw _ _ => Effect.status hv hw) h
  | counters => exact Effect.request (fun _ _ hv hw _ _ => Effect.counters hv hw) h
  | linkSet => exact Effect.request (fun _ _ hv hw _ _ => Effect.linkSet hv hw) h
  | cancel => exact Effect.request (fun _ _ hv hw _ _ => Effect.cancel hv hw) h
  | reset => exact Effect.request (fun _ _ hv hw _ ha => Effect.reset hv hw ha) h
  | noticeAck => exact Effect.request (fun _ _ hv hw _ _ => Effect.noticeAck hv hw) h
  | noticeResend => exact Effect.request (fun _ _ hv hw _ _ => Effect.noticeResend hv hw) h
  | unknownRequest kind tag body =>
    simp only [exec, execUnknownRequest] at h
    split at h
    · cases h; exact .refl s
    · exact Effect.dispatch (fun u hw _ _ => .replied _ u rfl hw) h
  | inboundFrame bytes => exact Effect.whileReleased h (Effect.moveBytes bytes s)
  | lcsNRise =>
    cases h
    split
    · exact .lcs s false
    · exact ((Effect.lcs s false).trans (Effect.truncate _)).trans (Effect.interrupt _)
  | outboundFrameStart => exact Effect.whileReleased h (Effect.outboundFrameStart s)
  | replyTransmitted => exact Effect.whileReleased h (Effect.replyTransmitted s)
  | noticeTransmitted => exact Effect.whileReleased h (Effect.noticeTransmitted s)
  | resetNAssert => cases h; exact .hardReset s
  | resetNRelease =>
    cases h
    split
    · rename_i ha; exact .released s ha
    · exact .refl s
  | bringupProbeDone b => exact Effect.whileReleased h (Effect.probeDone b s)
  | bringupTrainingDone b => exact Effect.whileReleased h (Effect.trainingDone b s)
  | bringupSizingDone mib => exact Effect.whileReleased h (Effect.sizingDone mib s)
  | bringupDeadlineExpiry => exact Effect.whileReleased h (Effect.deadlineExpiry s)
  | dramAccessFailure => exact Effect.whileReleased h (Effect.accessFailure s)
  | captureFrameStart port index => exact Effect.marker (hw rfl) h (fun u => .captureFrameStart (hw rfl) port index u)
  | lineStart port index data => exact Effect.marker (hw rfl) h (fun u => .lineStart (hw rfl) port index data u)
  | frameEnd port index => exact Effect.marker (hw rfl) h (fun u => .frameEnd (hw rfl) port index u)
  | sourceLossTimerExpiry n =>
    refine Effect.whileReleased h ?_
    split
    · exact .change (.calm (.sourceLoss (hw rfl) n s))
    · exact .refl s
  | pacingTimerExpiry l =>
    refine Effect.whileReleased h ?_
    split
    · exact .change (.pacingExpiry l s)
    · exact .refl s
  | outputTrailerStart l => exact Effect.whileReleased h (.change (.calm (.trailerStart l s)))
  | outputFrameEnd l => exact Effect.whileReleased h (.change (.calm (.frameEnded l s)))

end Sys2Proof.Machine
end

