-- ==== Sys2Proof/Laws/PerInstr.lean ====
section
/-! SUPPORT. What every well-formed request command is as syntax, said once per command: its body fits a link frame, and its kind
is a request kind or one no row has. -/

namespace Sys2Proof.Laws.RequestForm

open Sys2Proof Sys2Proof.Machine

/-- R168: the request a well-formed command stands for fits a frame and has the kind its row names. -/
def Statement (i : Instr) : Prop :=
  ∀ r, requestOf i = some r → i.wellFormed = true →
    r.body.length ≤ 240 ∧ (isRequestKind r.kind = true ∨ i = .unknownRequest r.kind r.tag r.body)

/-- The request of a row of a known kind. -/
theorem known {i : Instr} (k : Kind) (tag : Tag) (body : List Byte) (h : requestOf i = some ⟨k.code, tag, body⟩)
    (hw : i.wellFormed = bodyFits body) : Statement i := by
  intro r hr hi
  rw [h, Option.some.injEq] at hr
  subst hr
  rw [hw] at hi
  exact ⟨by simpa [bodyFits] using hi, .inl (by cases k <;> rfl)⟩

/-- An event stands for no request. -/
theorem event {i : Instr} (h : requestOf i = none) : Statement i := by
  intro r hr
  rw [h] at hr
  cases hr

theorem streamBind (tag : Tag) (body : List Byte) : Statement (.streamBind tag body) := known .streamBind tag body rfl rfl
theorem streamUnbind (tag : Tag) (body : List Byte) : Statement (.streamUnbind tag body) := known .streamUnbind tag body rfl rfl
theorem streamStart (tag : Tag) (body : List Byte) : Statement (.streamStart tag body) := known .streamStart tag body rfl rfl
theorem streamStop (tag : Tag) (body : List Byte) : Statement (.streamStop tag body) := known .streamStop tag body rfl rfl
theorem streamFreeze (tag : Tag) (body : List Byte) : Statement (.streamFreeze tag body) := known .streamFreeze tag body rfl rfl
theorem streamThaw (tag : Tag) (body : List Byte) : Statement (.streamThaw tag body) := known .streamThaw tag body rfl rfl
theorem streamFill (tag : Tag) (body : List Byte) : Statement (.streamFill tag body) := known .streamFill tag body rfl rfl
theorem sourceSetup (tag : Tag) (body : List Byte) : Statement (.sourceSetup tag body) := known .sourceSetup tag body rfl rfl
theorem listEdit (tag : Tag) (body : List Byte) : Statement (.listEdit tag body) := known .listEdit tag body rfl rfl
theorem listRead (tag : Tag) (body : List Byte) : Statement (.listRead tag body) := known .listRead tag body rfl rfl
theorem listCommit (tag : Tag) (body : List Byte) : Statement (.listCommit tag body) := known .listCommit tag body rfl rfl
theorem laneSetup (tag : Tag) (body : List Byte) : Statement (.laneSetup tag body) := known .laneSetup tag body rfl rfl
theorem portSetup (tag : Tag) (body : List Byte) : Statement (.portSetup tag body) := known .portSetup tag body rfl rfl
theorem laneStart (tag : Tag) (body : List Byte) : Statement (.laneStart tag body) := known .laneStart tag body rfl rfl
theorem laneStop (tag : Tag) (body : List Byte) : Statement (.laneStop tag body) := known .laneStop tag body rfl rfl
theorem lockJoin (tag : Tag) (body : List Byte) : Statement (.lockJoin tag body) := known .lockJoin tag body rfl rfl
theorem lockLeave (tag : Tag) (body : List Byte) : Statement (.lockLeave tag body) := known .lockLeave tag body rfl rfl
theorem streamStamp (tag : Tag) (body : List Byte) : Statement (.streamStamp tag body) := known .streamStamp tag body rfl rfl
theorem storeConfig (tag : Tag) (body : List Byte) : Statement (.storeConfig tag body) := known .storeConfig tag body rfl rfl
theorem identify (tag : Tag) (body : List Byte) : Statement (.identify tag body) := known .identify tag body rfl rfl
theorem status (tag : Tag) (body : List Byte) : Statement (.status tag body) := known .status tag body rfl rfl
theorem counters (tag : Tag) (body : List Byte) : Statement (.counters tag body) := known .counters tag body rfl rfl
theorem linkSet (tag : Tag) (body : List Byte) : Statement (.linkSet tag body) := known .linkSet tag body rfl rfl
theorem cancel (tag : Tag) (body : List Byte) : Statement (.cancel tag body) := known .cancel tag body rfl rfl
theorem reset (tag : Tag) (body : List Byte) : Statement (.reset tag body) := known .reset tag body rfl rfl
theorem noticeAck (tag : Tag) (body : List Byte) : Statement (.noticeAck tag body) := known .noticeAck tag body rfl rfl
theorem noticeResend (tag : Tag) (body : List Byte) : Statement (.noticeResend tag body) := known .noticeResend tag body rfl rfl

theorem unknownRequest (kind tag : Byte) (body : List Byte) : Statement (.unknownRequest kind tag body) := by
  intro r hr hi
  simp only [requestOf, Option.some.injEq] at hr
  subst hr
  simp only [Instr.wellFormed, Bool.and_eq_true] at hi
  exact ⟨by simpa [bodyFits] using hi.1, .inr rfl⟩

theorem inboundFrame (bytes : List Byte) : Statement (.inboundFrame bytes) := event rfl
theorem lcsNRise : Statement .lcsNRise := event rfl
theorem outboundFrameStart : Statement .outboundFrameStart := event rfl
theorem replyTransmitted : Statement .replyTransmitted := event rfl
theorem noticeTransmitted : Statement .noticeTransmitted := event rfl
theorem resetNAssert : Statement .resetNAssert := event rfl
theorem resetNRelease : Statement .resetNRelease := event rfl
theorem bringupProbeDone (b : Bool) : Statement (.bringupProbeDone b) := event rfl
theorem bringupTrainingDone (b : Bool) : Statement (.bringupTrainingDone b) := event rfl
theorem bringupSizingDone (mib : Nat) : Statement (.bringupSizingDone mib) := event rfl
theorem bringupDeadlineExpiry : Statement .bringupDeadlineExpiry := event rfl
theorem dramAccessFailure : Statement .dramAccessFailure := event rfl
theorem captureFrameStart (p i : CaptureIx) : Statement (.captureFrameStart p i) := event rfl
theorem lineStart (p i : CaptureIx) (d : List Byte) : Statement (.lineStart p i d) := event rfl
theorem frameEnd (p i : CaptureIx) : Statement (.frameEnd p i) := event rfl
theorem sourceLossTimerExpiry (n : SourceIx) : Statement (.sourceLossTimerExpiry n) := event rfl
theorem pacingTimerExpiry (l : LaneIx) : Statement (.pacingTimerExpiry l) := event rfl
theorem outputTrailerStart (l : LaneIx) : Statement (.outputTrailerStart l) := event rfl
theorem outputFrameEnd (l : LaneIx) : Statement (.outputFrameEnd l) := event rfl

end Sys2Proof.Laws.RequestForm
end

