-- ==== Sys2Proof/Laws/Pins.lean ====
section
/-! SUPPORT. The law of the pins (R10) through every action of the blocks: the calm ones at once, the lane's own one by one. -/

namespace Sys2Proof.Machine

open Sys2Proof

/-! ### Counting -/

theorem pinsAt_eq (s : State) (i : StreamIx) (p : Nat) :
    pinsAt s i p = (((s.ring i).map Ring.pinList).bind (fun xs => xs[p]?)).getD 0 := by
  unfold pinsAt Ring.pinList
  cases s.ring i <;> simp

/-- Tiles changed in one lane alone. -/
theorem tilesNaming_lane {s t : State} (l : LaneIx) (h : ∀ j, j ≠ l → (t.lane j).tiles = (s.lane j).tiles) (i : StreamIx)
    (p : Nat) :
    tilesNaming t i p + (s.lane l).tiles.countP (fun x => x.names = some (i, p)) =
      tilesNaming s i p + (t.lane l).tiles.countP (fun x => x.names = some (i, p)) := by
  unfold tilesNaming
  rw [← Fin.sum_univ_def, ← Fin.sum_univ_def]
  rw [← Finset.add_sum_erase Finset.univ _ (Finset.mem_univ l), ← Finset.add_sum_erase Finset.univ
    (fun l => List.countP (fun x : Tile => decide (x.names = some (i, p))) (s.lane l).tiles) (Finset.mem_univ l)]
  have : ∑ j ∈ Finset.univ.erase l, List.countP (fun x : Tile => decide (x.names = some (i, p))) (t.lane j).tiles =
      ∑ j ∈ Finset.univ.erase l, List.countP (fun x : Tile => decide (x.names = some (i, p))) (s.lane j).tiles :=
    Finset.sum_congr rfl (fun j hj => by rw [h j (Finset.ne_of_mem_erase hj)])
  omega

theorem tilesNaming_same {s t : State} (h : ∀ l, (t.lane l).tiles = (s.lane l).tiles) (i : StreamIx) (p : Nat) :
    tilesNaming t i p = tilesNaming s i p := by
  unfold tilesNaming
  simp only [h]

/-- R11: one unpin takes one pin from the position the tile names. -/
theorem pinsAt_unpinTile (x : Tile) (s : State) (i : StreamIx) (p : Nat) :
    pinsAt (unpinTile x s) i p = pinsAt s i p - (if x.names = some (i, p) then 1 else 0) := by
  unfold unpinTile Tile.names
  cases x.body with
  | blank => rfl
  | fill => rfl
  | shown j q =>
    simp only [Option.some.injEq, Prod.mk.injEq]
    by_cases hj : j = i
    · subst hj
      unfold pinsAt
      cases hr : s.ring j with
      | none => simp [State.modRing, hr]
      | some r =>
        by_cases hq : q = p
        · subst hq
          simp only [State.modRing, hr, Option.map_some, setRing_ring_same, Option.bind_some, Ring.unpin,
            getElem?_modify_same, and_self, if_true]
          cases r.slots[q]? with
          | none => rfl
          | some y =>
            show y.unpin.pins = y.pins - 1
            unfold Slot.unpin
            split <;> rfl
        · simp [State.modRing, hr, Ring.unpin, hq]
    · simp [pinsAt, State.modRing, hj]

theorem unpinTile_noRing (x : Tile) (s : State) (i : StreamIx) (h : s.ring i = none) : (unpinTile x s).ring i = none := by
  unfold unpinTile
  cases x.body with
  | blank => exact h
  | fill => exact h
  | shown j q =>
    by_cases hj : j = i
    · subst hj; simp [State.modRing, h]
    · simpa [State.modRing, hj] using h

theorem unpinTiles_pins (xs : List Tile) : ∀ (s : State) (i : StreamIx) (p : Nat),
    pinsAt (xs.foldl (fun t x => unpinTile x t) s) i p = pinsAt s i p - xs.countP (fun x => x.names = some (i, p)) := by
  induction xs with
  | nil => intro s i p; simp
  | cons x xs ih =>
    intro s i p
    rw [List.foldl_cons, ih, pinsAt_unpinTile, List.countP_cons]
    simp only [decide_eq_true_eq]
    omega

theorem unpinTiles_noRing (xs : List Tile) : ∀ (s : State) (i : StreamIx), s.ring i = none →
    (xs.foldl (fun t x => unpinTile x t) s).ring i = none := by
  induction xs with
  | nil => exact fun s i h => h
  | cons x xs ih => exact fun s i h => ih _ i (unpinTile_noRing x s i h)

/-! ### What the parts of a boundary leave of a lane -/

@[simp] theorem abortFrame_lane (l x : LaneIx) (c : OutPort → OutPort) (s : State) : (abortFrame l c s).lane x = s.lane x := by
  rw [abortFrame_eq]; rfl
@[simp] theorem abortFrame_lock (l x : LaneIx) (c : OutPort → OutPort) (s : State) : (abortFrame l c s).lock x = s.lock x := by
  rw [abortFrame_eq]; rfl
@[simp] theorem releaseTiles_lock (l x : LaneIx) (s : State) : (releaseTiles l s).lock x = s.lock x := by
  rw [releaseTiles_eq]; rfl
@[simp] theorem releaseTiles_list (l x : LaneIx) (s : State) : (releaseTiles l s).list x = s.list x := by
  rw [releaseTiles_eq]; rfl
@[simp] theorem releaseTiles_lane_same (l : LaneIx) (s : State) :
    (releaseTiles l s).lane l = { s.lane l with tiles := [] } := by
  rw [releaseTiles_eq]; simp [State.lane]
@[simp] theorem releaseTiles_lane_ne {l x : LaneIx} (h : l ≠ x) (s : State) : (releaseTiles l s).lane x = s.lane x := by
  rw [releaseTiles_eq]; simp [State.lane, h]

theorem applyPending_lock (l x : LaneIx) (s : State) : (applyPending l s).lock x = s.lock x := by
  unfold applyPending
  split
  · rfl
  · simp [adoptList]

theorem applyPending_tiles (l : LaneIx) (s : State) : ((applyPending l s).lane l).tiles = (s.lane l).tiles := by
  unfold applyPending
  split
  · rfl
  · simp [adoptList]

theorem applyPending_state (l : LaneIx) (s : State) : ((applyPending l s).lane l).state = (s.lane l).state := by
  unfold applyPending
  split
  · rfl
  · simp [adoptList]

theorem advance_lane (l : LaneIx) (s : State) : ((advance l s).lane l).tiles = (s.lane l).tiles ∧
    ((advance l s).lane l).state = (s.lane l).state ∧ ∀ x, (advance l s).lock x = s.lock x := by
  unfold advance
  split
  · exact ⟨rfl, rfl, fun _ => rfl⟩
  · split
    · simp
    · split
      · simp
      · split
        · refine ⟨by simp, by simp, fun x => ?_⟩
          rw [raise_eq]; rfl
        · simp

theorem commitStep_lane (first : Bool) (l : LaneIx) (s : State) : ((commitStep first l s).lane l).tiles = (s.lane l).tiles ∧
    ((commitStep first l s).lane l).state = (s.lane l).state ∧ ∀ x, (commitStep first l s).lock x = s.lock x := by
  unfold commitStep
  split
  · exact ⟨applyPending_tiles l s, applyPending_state l s, fun x => applyPending_lock l x s⟩
  · split
    · exact ⟨rfl, rfl, fun _ => rfl⟩
    · exact advance_lane l s

theorem completeJoin_lane (l x : LaneIx) (s : State) : (completeJoin l s).lane x = s.lane x := by
  unfold completeJoin
  split <;> simp

/-- After its join is completed a lane joins no group. -/
theorem completeJoin_joins (l : LaneIx) (s : State) : ((completeJoin l s).lock l).role.joins = false := by
  unfold completeJoin
  split
  · simp [LockRole.joins]
  · rename_i h
    cases hr : (s.lock l).role <;> simp_all [LockRole.joins]

theorem LockRole.waits_joins {r : LockRole} (h : r.joins = false) : r.waits = false := by
  cases r <;> simp_all [LockRole.joins, LockRole.waits]

/-! ### The law -/

namespace PinLaw

/-- The law speaks of the rings, the lanes, the lists, the locks, and which streams are bound. -/
theorem of_same {s t : State} (h : PinLaw s) (hr : ∀ i, t.ring i = s.ring i) (hs : ∀ i, t.stream i = s.stream i)
    (hl : ∀ l, t.lane l = s.lane l) (hk : ∀ l, t.lock l = s.lock l) (hi : ∀ l, t.list l = s.list l) : PinLaw t where
  counted := fun i p => by
    rw [tilesNaming_same (s := s) (fun l => by rw [hl]), ← h.counted]
    simp only [pinsAt, hr]
  running := fun l => by rw [hl]; exact h.running l
  waiting := fun l => by rw [hl, hk]; exact h.waiting l
  listed := fun l => by rw [hl, hi]; exact h.listed l
  unbound := fun i => by rw [hs, hr]; exact h.unbound i
  joining := fun l => by rw [hl, hk]; exact h.joining l

theorem of_still {s t : State} (h : PinLaw s) {w : Prop} (r : Still w s t) : PinLaw t where
  counted := fun i p => by
    rw [tilesNaming_same r.tiles, ← h.counted]
    simp only [pinsAt, State.ring, r.rings]
  running := fun l hl => by
    rw [r.tiles]
    rcases r.laneState l with he | he
    · exact h.running l (by rw [← he]; exact hl)
    · rw [he] at hl; exact nomatch hl
  waiting := fun l hl => by
    rw [r.tiles]
    rcases r.role l with he | he
    · exact h.waiting l (by rw [← he]; exact hl)
    · rw [LockRole.waits_joins he] at hl; exact nomatch hl
  listed := fun l => by rw [r.tiles, r.active]; exact h.listed l
  unbound := fun i hi => by
    have := h.unbound i (r.unbound i hi)
    simpa only [State.ring, r.rings] using this
  joining := fun l hl => by
    rcases r.laneState l with he | he
    · rw [he]
      rcases r.role l with hk | hk
      · exact h.joining l (by rw [← hk]; exact hl)
      · rw [hk] at hl; exact nomatch hl
    · exact he

/-- A ring whose pins stand. -/
theorem ringMoved {s : State} {i : StreamIx} {r r' : Ring} (h : PinLaw s) (hr : s.ring i = some r)
    (hp : r'.pinList = r.pinList) : PinLaw (s.setRing i (some r')) where
  counted := fun j p => by
    rw [tilesNaming_same (s := s) (t := s.setRing i (some r')) (fun _ => rfl), ← h.counted, pinsAt_eq, pinsAt_eq]
    by_cases hij : i = j
    · subst hij; simp [hr, hp]
    · simp [hij]
  running := h.running
  waiting := h.waiting
  listed := h.listed
  unbound := fun j hj => by
    have := h.unbound j hj
    have hij : i ≠ j := by rintro rfl; rw [hr] at this; exact nomatch this
    simpa [hij] using this
  joining := h.joining

theorem raised {s : State} (b : NoticeBody) (h : PinLaw s) : PinLaw (raise b s) := by
  refine h.of_same ?_ ?_ ?_ ?_ ?_ <;> intro x <;> rw [raise_eq] <;> rfl

theorem completed {s : State} (t : Tag) (r : Result) (f : List Byte) (h : PinLaw s) : PinLaw (complete t r f s) := by
  refine h.of_same ?_ ?_ ?_ ?_ ?_ <;> intro x <;> rw [complete_eq] <;> rfl

theorem completedIf {s : State} (t : Option Tag) (r : Result) (f : List Byte) (h : PinLaw s) :
    PinLaw (completeIf t r f s) := by
  cases t with
  | none => exact h
  | some t => exact h.completed t r f

/-- Every calm action keeps the law. -/
theorem calm {s t : State} (c : Calm True s t) : PinLaw s → PinLaw t := by
  induction c with
  | refl => exact id
  | trans _ _ h k => exact fun hs => k (h hs)
  | records r => exact fun hs => hs.of_still r
  | ring i hr _ hp _ => exact fun hs => hs.ringMoved hr hp
  | raised b s => exact fun hs => hs.raised b
  | completed t r f s => exact fun hs => hs.completed t r f
  | stopped i s =>
    intro hs
    refine ⟨hs.counted, hs.running, hs.waiting, hs.listed, fun j hj => hs.unbound j ?_, hs.joining⟩
    by_cases hij : i = j
    · subst hij; simp [stopStream, releaseClaim, State.modStream, State.stream] at hj
    · simpa [stopStream, releaseClaim, State.modStream, State.stream, hij] using hj
  | written => exact fun hs => hs.of_same (fun _ => rfl) (fun _ => rfl) (fun _ => rfl) (fun _ => rfl) (fun _ => rfl)

/-- R94 step 1: a lane releases its tiles' positions and its tile records become empty. -/
theorem releaseTiles {s : State} (l : LaneIx) (h : PinLaw s) : PinLaw (releaseTiles l s) where
  counted := fun i p => by
    have hp : pinsAt (Machine.releaseTiles l s) i p = pinsAt s i p - (s.lane l).tiles.countP (fun x => x.names = some (i, p)) :=
      unpinTiles_pins (s.lane l).tiles s i p
    have ht := tilesNaming_lane (s := s) (t := Machine.releaseTiles l s) l
      (fun j hj => by rw [releaseTiles_lane_ne (fun e => hj e.symm)]) i p
    rw [releaseTiles_lane_same] at ht
    simp only [List.countP_nil, Nat.add_zero] at ht
    rw [hp, h.counted]
    omega
  running := fun j hj => by
    by_cases hlj : l = j
    · subst hlj; simp
    · rw [releaseTiles_lane_ne hlj] at hj ⊢; exact h.running j hj
  waiting := fun j hj => by
    by_cases hlj : l = j
    · subst hlj; simp
    · rw [releaseTiles_lock] at hj; rw [releaseTiles_lane_ne hlj]; exact h.waiting j hj
  listed := fun j => by
    by_cases hlj : l = j
    · subst hlj; simp
    · rw [releaseTiles_lane_ne hlj, releaseTiles_list]; exact h.listed j
  unbound := fun i hi => by
    have hs : (Machine.releaseTiles l s).stream i = s.stream i := by rw [releaseTiles_eq]; rfl
    rw [hs] at hi
    exact unpinTiles_noRing (s.lane l).tiles s i (h.unbound i hi)
  joining := fun j hj => by
    rw [releaseTiles_lock] at hj
    have := h.joining j hj
    by_cases hlj : l = j
    · subst hlj; simpa using this
    · rwa [releaseTiles_lane_ne hlj]

/-- R82: a lane with no tile records and no join to complete becomes READY. -/
theorem madeReady {s : State} (l : LaneIx) (h : PinLaw s) (ht : (s.lane l).tiles = [])
    (hj : (s.lock l).role.joins = false) : PinLaw (makeReady l s) := by
  have hst : ∀ j, (makeReady l s).lane j = if l = j then { s.lane l with
      state := .ready, drained := false, admitted := none, timer := none, pendingStart := none, pendingStop := none }
      else s.lane j := by
    intro j
    show rd (wr _ _ _) j = _
    rw [rd_wr]; rfl
  have htl : ∀ j, ((makeReady l s).lane j).tiles = (s.lane j).tiles := by
    intro j; rw [hst]; split
    · rename_i e; subst e; rfl
    · rfl
  refine ⟨fun i p => ?_, fun j hr => ?_, fun j hw => ?_, fun j => ?_, h.unbound, fun j hk => ?_⟩
  · rw [tilesNaming_same htl]; exact h.counted i p
  · rw [htl]
    by_cases hlj : l = j
    · subst hlj; exact ht
    · rw [hst] at hr; simp only [hlj, if_false] at hr; exact h.running j hr
  · rw [htl]; exact h.waiting j hw
  · rw [htl]; exact h.listed j
  · have hlj : l ≠ j := by
      rintro rfl
      have : (s.lock l).role.joins = true := hk
      rw [hj] at this; exact nomatch this
    rw [hst]; simp only [hlj, if_false]; exact h.joining j hk

/-- R75: a lane with no tile records adopts its staged list. -/
theorem adopted {s : State} (l : LaneIx) (h : PinLaw s) (ht : (s.lane l).tiles = []) : PinLaw (adoptList l s) := by
  have htl : ∀ j, ((adoptList l s).lane j).tiles = (s.lane j).tiles := by
    intro j
    by_cases hlj : l = j
    · subst hlj; simp [adoptList]
    · simp [adoptList, hlj]
  have hst : ∀ j, ((adoptList l s).lane j).state = (s.lane j).state := by
    intro j
    by_cases hlj : l = j
    · subst hlj; simp [adoptList]
    · simp [adoptList, hlj]
  refine ⟨fun i p => ?_, fun j hr => ?_, fun j hw => ?_, fun j => ?_, h.unbound, fun j hk => ?_⟩
  · rw [tilesNaming_same htl]; exact h.counted i p
  · rw [htl]; rw [hst] at hr; exact h.running j hr
  · rw [htl]; exact h.waiting j hw
  · rw [htl]
    by_cases hlj : l = j
    · subst hlj; simp [ht]
    · have : (adoptList l s).list j = s.list j := by simp [adoptList, hlj]
      rw [this]; exact h.listed j
  · rw [hst]; exact h.joining j hk

theorem appliedPending {s : State} (l : LaneIx) (h : PinLaw s) (ht : (s.lane l).tiles = []) : PinLaw (applyPending l s) := by
  unfold applyPending
  split
  · exact h
  · exact (h.adopted l ht).completed _ _ _

theorem finishedStop {s : State} (l : LaneIx) (h : PinLaw s) (ht : (s.lane l).tiles = [])
    (hj : (s.lock l).role.joins = false) : PinLaw (finishStop l s) :=
  ((h.appliedPending l ht).madeReady l (by rw [applyPending_tiles]; exact ht)
    (by rw [applyPending_lock]; exact hj)).completedIf _ _ _

/-- R89: a tile record joins a lane's, with one pin more on the position it names. -/
theorem tileAdded {s t : State} (l : LaneIx) (x : Tile) (h : PinLaw s) (hst : (s.lane l).state.holdsTiles = true)
    (hw : (s.lock l).role.waits = false) (ht : (t.lane l).tiles = (s.lane l).tiles ++ [x])
    (hts : (t.lane l).state = (s.lane l).state) (hne : ∀ j, j ≠ l → t.lane j = s.lane j) (hs : ∀ i, t.stream i = s.stream i)
    (hk : ∀ j, t.lock j = s.lock j) (hi : ∀ j, t.list j = s.list j) (hr : ∀ i, s.ring i = none → t.ring i = none)
    (hp : ∀ i p, pinsAt t i p = pinsAt s i p + if x.names = some (i, p) then 1 else 0)
    (hn : ∀ i p, x.names = some (i, p) → namedBy i (s.list l).active = true) : PinLaw t where
  counted := fun i p => by
    have := tilesNaming_lane (s := s) (t := t) l (fun j hj => by rw [hne j hj]) i p
    rw [ht, List.countP_append] at this
    rw [hp, h.counted]
    simp only [List.countP_cons, List.countP_nil, decide_eq_true_eq, Nat.zero_add] at this
    omega
  running := fun j hj => by
    by_cases hlj : j = l
    · subst hlj; rw [hts, hst] at hj; exact nomatch hj
    · rw [hne j hlj] at hj ⊢; exact h.running j hj
  waiting := fun j hj => by
    rw [hk] at hj
    by_cases hlj : j = l
    · subst hlj; rw [hw] at hj; exact nomatch hj
    · rw [hne j hlj]; exact h.waiting j hj
  listed := fun j y hy i p hyp => by
    rw [hi]
    by_cases hlj : j = l
    · subst hlj
      rw [ht, List.mem_append] at hy
      rcases hy with hy | hy
      · exact h.listed j y hy i p hyp
      · rw [List.mem_singleton] at hy; subst hy; exact hn i p hyp
    · rw [hne j hlj] at hy; exact h.listed j y hy i p hyp
  unbound := fun i hu => hr i (h.unbound i (by rw [← hs]; exact hu))
  joining := fun j hj => by
    rw [hk] at hj
    by_cases hlj : j = l
    · subst hlj; rw [hts]; exact h.joining j hj
    · rw [hne j hlj]; exact h.joining j hj

theorem selectedTile {s : State} (l : LaneIx) (t : Time) (j : Nat) (e : ListEntry) (h : PinLaw s)
    (hst : (s.lane l).state.holdsTiles = true) (hw : (s.lock l).role.waits = false) (he : e ∈ (s.list l).active) :
    PinLaw (selectTile l t j e s) := by
  unfold selectTile
  cases hk : e.kind with
  | blank sc =>
    refine h.tileAdded l _ hst hw (by simp only [addTile, modLane_lane_same]; rfl) (by simp [addTile])
      (fun x hx => by simp [addTile, hx.symm]) (fun _ => rfl) (fun _ => rfl) (fun _ => rfl) (fun _ => id) ?_ ?_
    · intro i p; rfl
    · intro i p hn; exact nomatch hn
  | stream i =>
    dsimp only
    cases hp : pinAnswer s i with
    | none =>
      refine h.tileAdded l _ hst hw (by simp only [addTile, State.modLaneCounters, modLane_lane_same]; rfl)
        (by simp [addTile, State.modLaneCounters]) (fun x hx => by simp [addTile, State.modLaneCounters, hx.symm])
        (fun _ => rfl) (fun _ => rfl) (fun _ => rfl) (fun _ => id) ?_ ?_
      · intro i p; rfl
      · intro i p hn; exact nomatch hn
    | some a =>
      obtain ⟨p, q, c⟩ := a
      unfold pinAnswer at hp
      split at hp
      case isFalse => exact nomatch hp
      rw [Option.bind_eq_some_iff] at hp
      obtain ⟨r, hr, hp⟩ := hp
      rw [Option.bind_eq_some_iff] at hp
      obtain ⟨p', -, hp⟩ := hp
      rw [Option.bind_eq_some_iff] at hp
      obtain ⟨x, hx, hp⟩ := hp
      have hpp : p' = p := by
        split at hp
        · cases hp; rfl
        · exact nomatch hp
      subst hpp
      refine h.tileAdded l _ hst hw (by simp only [addTile, modLane_lane_same]; rfl) (by simp [addTile])
        (fun x hx => by simp [addTile, hx.symm]) (fun _ => rfl) (fun _ => rfl) (fun _ => rfl) ?_ ?_ ?_
      · intro k hkn
        have hik : i ≠ k := by rintro rfl; rw [hr] at hkn; exact nomatch hkn
        simpa [addTile, State.modRing, hik] using hkn
      · intro k m
        simp only [Tile.names, Option.some.injEq, Prod.mk.injEq]
        by_cases hik : i = k
        · subst hik
          by_cases hpm : p' = m
          · subst hpm
            simp [pinsAt, addTile, State.modRing, hr, Ring.pin, hx]
          · simp [pinsAt, addTile, State.modRing, hr, Ring.pin, hpm]
        · simp [pinsAt, addTile, State.modRing, hik]
      · intro k m hn
        simp only [Tile.names, Option.some.injEq, Prod.mk.injEq] at hn
        obtain ⟨rfl, -⟩ := hn
        exact List.any_eq_true.mpr ⟨e, he, by simpa using hk⟩

theorem selectedTiles (l : LaneIx) (t : Time) (es : List ListEntry) : ∀ (j : Nat) (s : State), PinLaw s →
    (s.lane l).state.holdsTiles = true → (s.lock l).role.waits = false → (∀ e ∈ es, e ∈ (s.list l).active) →
    PinLaw (selectTiles l t es j s) := by
  induction es with
  | nil => exact fun _ _ h _ _ _ => h
  | cons e es ih =>
    intro j s h hst hw he
    obtain ⟨r, ti, ls, co, -, heq⟩ := selectTile_chosen l t j e s
    refine ih (j + 1) (selectTile l t j e s) (h.selectedTile l t j e hst hw (he e (by simp))) ?_ ?_ ?_
    · rw [heq]; simpa [State.lane] using hst
    · rw [heq]; exact hw
    · intro x hx
      rw [heq]; exact he x (by simp [hx])

theorem tileStepped {s : State} (l : LaneIx) (t : Time) (h : PinLaw s) (hst : (s.lane l).state.holdsTiles = true)
    (hw : (s.lock l).role.waits = false) : PinLaw (tileStep l t s) := by
  unfold tileStep
  split
  · exact h
  · exact selectedTiles l t _ _ s h hst hw (fun e he => List.mem_of_mem_drop (List.mem_of_mem_take he))

theorem commitStepped {s : State} (first : Bool) (l : LaneIx) (h : PinLaw s) (ht : (s.lane l).tiles = []) :
    PinLaw (commitStep first l s) := by
  unfold commitStep
  split
  · exact h.appliedPending l ht
  · split
    · exact h
    · exact h.calm (.advance l s)

/-- R94 steps 3 to 6. -/
theorem nextFrame {s : State} (first : Bool) (l : LaneIx) (t : Time) (h : PinLaw s) (ht : (s.lane l).tiles = [])
    (hst : (s.lane l).state.holdsTiles = true) (hw : (s.lock l).role.waits = false) : PinLaw (nextFrame first l t s) := by
  obtain ⟨-, h2, h3⟩ := commitStep_lane first l s
  exact calm (.outputStep l t _) ((h.commitStepped first l ht).tileStepped l t (by rw [h2]; exact hst) (by rw [h3]; exact hw))

/-- R94: a boundary of a RUNNING or STOPPING lane that joins no group. -/
theorem laneBoundary {s : State} (l : LaneIx) (t : Time) (h : PinLaw s) (hst : (s.lane l).state.holdsTiles = true)
    (hj : (s.lock l).role.joins = false) : PinLaw (laneBoundary l t s) := by
  have h1 := (h.calm (.abortFrame l countCut s)).releaseTiles l
  unfold Machine.laneBoundary
  dsimp only
  split
  · exact h1.finishedStop l (by simp) (by simpa using hj)
  · exact h1.nextFrame false l t (by simp) (by simpa using hst) (by simpa using LockRole.waits_joins hj)

/-- R94: the first boundary of a run, of a lane with no tile records that does not wait to join. -/
theorem firstBoundary {s : State} (l : LaneIx) (t : Time) (h : PinLaw s) (ht : (s.lane l).tiles = [])
    (hw : (s.lock l).role.waits = false) : PinLaw (firstBoundary l t s) := by
  unfold Machine.firstBoundary
  refine nextFrame true l t (h.calm (.modLane s l _ rfl rfl (.inr rfl))) (by simpa using ht)
    (by simp [LaneState.holdsTiles]) (by simpa using hw)

theorem startRun {s : State} (l : LaneIx) (t : Time) (h : PinLaw s) (ht : (s.lane l).tiles = [])
    (hw : (s.lock l).role.waits = false) : PinLaw (startRun l t s) :=
  (firstBoundary l t (h.calm (.modLane s l (fun r => { r with pendingStart := none }) rfl rfl (.inl rfl)))
    (by simpa using ht) (by simpa using hw)).completedIf _ _ _

/-! ### Lock groups -/

/-- The relay of a boundary to one lane. -/
theorem relayTo {s : State} (t : Time) (l : LaneIx) (h : PinLaw s) : PinLaw (relayTo t l s) := by
  unfold Machine.relayTo
  split
  · rename_i ld hr
    have hj : (s.lock l).role.joins = false := by rw [hr]; rfl
    split
    · rename_i hs
      exact calm (.noteRelay l t _) (h.startRun l t (h.running l (by rw [hs]; rfl)) (LockRole.waits_joins hj))
    · rename_i hs
      exact calm (.noteRelay l t _) (h.laneBoundary l t (by rw [hs]; rfl) hj)
    · rename_i hs
      exact calm (.noteRelay l t _) (h.laneBoundary l t (by rw [hs]; rfl) hj)
    · exact h
  · rename_i ld tag hr
    have hst := h.joining l (by rw [hr]; rfl)
    exact calm (.noteRelay l t _) ((h.calm (.completeJoin l s)).laneBoundary l t
      (by rw [completeJoin_lane]; exact hst) (completeJoin_joins l s))
  · exact h

/-- An action for every lane that names a leader. -/
theorem forGroup (ld : LaneIx) (f : LaneIx → State → State) (hf : ∀ l s, PinLaw s → PinLaw (f l s)) {s : State}
    (h : PinLaw s) : PinLaw (forAll (fun l u => if namesLeader u ld l then f l u else u) s) := by
  unfold forAll
  generalize List.finRange 6 = xs
  induction xs generalizing s with
  | nil => exact h
  | cons x xs ih =>
    refine ih ?_
    dsimp only
    split
    · exact hf x s h
    · exact h

theorem relay {s : State} (ld : LaneIx) (t : Time) (h : PinLaw s) : PinLaw (relay ld t s) :=
  forGroup ld (fun l u => Machine.relayTo t l u) (fun l _ hu => hu.relayTo t l) h

theorem freeLane_lock (l : LaneIx) (s : State) : ((freeLane l s).lock l).role = .free := by
  simp [freeLane, Lock.initial]

/-- R109, R111: a JOINING lane leaves its group; where it was WAITING, a boundary of its own follows. -/
theorem leftJoin {s u : State} (phase : JoinPhase) (l : LaneIx) (t : Time) (h : PinLaw u)
    (hst : (s.lane l).state.holdsTiles = true) (hl : u.lane l = s.lane l) (hj : (u.lock l).role.joins = false) :
    PinLaw (match phase with | .waiting => Machine.laneBoundary l t u | .finishing => u) := by
  cases phase with
  | waiting => exact h.laneBoundary l t (by rw [hl]; exact hst) hj
  | finishing => exact h

theorem dropJoin {s : State} (t : Time) (phase : JoinPhase) (tag : Tag) (l : LaneIx) (h : PinLaw s)
    (hst : (s.lane l).state.holdsTiles = true) : PinLaw (dropJoin t phase tag l s) :=
  leftJoin (s := s) phase l t (calm (.freeLane l _) (h.completed tag .leaderStopped [])) hst (by simp [freeLane])
    (by rw [freeLane_lock]; rfl)

theorem dissolveStopped {s : State} (ld : LaneIx) (t : Time) (l : LaneIx) (h : PinLaw s) :
    PinLaw (dissolveStopped ld t l s) := by
  unfold Machine.dissolveStopped
  split
  · rename_i x hr
    have hj : (s.lock l).role.joins = false := by rw [hr]; rfl
    split
    · rename_i hs
      exact calm ((Calm.armTimer l t _).trans (.lockLost ld l _))
        (h.startRun l t (h.running l (by rw [hs]; rfl)) (LockRole.waits_joins hj))
    · rename_i hs
      exact calm ((Calm.armTimer l t _).trans (.lockLost ld l _)) (h.laneBoundary l t (by rw [hs]; rfl) hj)
    · rename_i hs
      exact calm (.lockLost ld l _) (h.laneBoundary l t (by rw [hs]; rfl) hj)
    · exact h.calm (.lockLost ld l s)
  · rename_i x phase tag hr
    exact h.dropJoin t phase tag l (h.joining l (by rw [hr]; rfl))
  · exact h

theorem dissolveImmediate {s : State} (ld : LaneIx) (t : Time) (l : LaneIx) (h : PinLaw s) :
    PinLaw (dissolveImmediate ld t l s) := by
  unfold Machine.dissolveImmediate
  split
  · split
    · rename_i hs
      refine PinLaw.raised _ (startRun l t (h.calm (.freeLane l s)) ?_ ?_)
      · have := h.running l (by rw [hs]; rfl)
        simpa [freeLane] using this
      · rw [freeLane_lock]; rfl
    · exact h.calm ((Calm.armAfterRelay l s).trans (.lockLost ld l _))
    · exact h.calm ((Calm.armAfterRelay l s).trans (.lockLost ld l _))
    · exact h.calm (.lockLost ld l s)
  · rename_i x phase tag hr
    exact h.dropJoin t phase tag l (h.joining l (by rw [hr]; rfl))
  · exact h

theorem dissolve {s : State} (column : LaneIx → State → State) (hc : ∀ l s, PinLaw s → PinLaw (column l s)) (ld : LaneIx)
    (h : PinLaw s) : PinLaw (dissolve column ld s) :=
  calm (.freeLane ld _) (forGroup ld column hc h)

theorem boundary {s : State} (l : LaneIx) (t : Time) (h : PinLaw s) (hst : (s.lane l).state.holdsTiles = true)
    (hj : (s.lock l).role.joins = false) : PinLaw (boundary l t s) := by
  have h1 := h.laneBoundary l t hst hj
  unfold Machine.boundary
  dsimp only
  split
  · split
    · exact h1.dissolve _ (fun x _ hu => hu.dissolveStopped l t x) l
    · exact h1.relay l t
  · exact h1

/-- A lane whose role is JOINING waits from now on; it has no tile records. -/
theorem waits {s : State} (l : LaneIx) (f : Lock → Lock) (h : PinLaw s) (ht : (s.lane l).tiles = [])
    (hst : (s.lane l).state.holdsTiles = true) : PinLaw (s.modLock l f) where
  counted := h.counted
  running := h.running
  waiting := fun j hj => by
    by_cases hlj : l = j
    · subst hlj; exact ht
    · exact h.waiting j (by simpa [hlj] using hj)
  listed := h.listed
  unbound := h.unbound
  joining := fun j hj => by
    by_cases hlj : l = j
    · subst hlj; exact hst
    · exact h.joining j (by simpa [hlj] using hj)

theorem joiningFrameEnd {s : State} (l : LaneIx) (h : PinLaw s) (hst : (s.lane l).state.holdsTiles = true) :
    PinLaw (joiningFrameEnd l s) := by
  have h1 := ((h.calm (.abortFrame l countCut s)).releaseTiles l).calm
    (.modLane _ l (fun r => { r with timer := none }) rfl rfl (.inl rfl))
  unfold Machine.joiningFrameEnd
  dsimp only
  split
  · exact (h1.calm (.completeJoin l _)).finishedStop l (by rw [completeJoin_lane]; simp) (completeJoin_joins l _)
  · exact h1.waits l _ (by simp) (by simpa using hst)

theorem pacingExpiry {s : State} (l : LaneIx) (h : PinLaw s) : PinLaw (pacingExpiry l s) := by
  unfold Machine.pacingExpiry
  split
  · rename_i hs
    have hst : (s.lane l).state.holdsTiles = true := by rcases hs with hs | hs <;> rw [hs] <;> rfl
    split
    · exact h.joiningFrameEnd l hst
    · exact h
    · exact h
    · rename_i h1 h2 h3
      refine h.boundary l _ hst ?_
      cases hr : (s.lock l).role with
      | joining ld phase tag => cases phase <;> simp_all
      | free => rfl
      | leader => rfl
      | follower => rfl
  · exact h

/-! ### Stops, leaves and withdrawals -/

/-- R96: a pending start withdrawn. -/
theorem startWithdrawn {s : State} (l : LaneIx) (h : PinLaw s) (hs : (s.lane l).state = .starting) :
    PinLaw (makeReady l (applyPending l s)) := by
  have ht := h.running l (by rw [hs]; rfl)
  refine (h.appliedPending l ht).madeReady l (by rw [applyPending_tiles]; exact ht) ?_
  rw [applyPending_lock]
  cases hj : (s.lock l).role.joins with
  | false => rfl
  | true => have := h.joining l hj; rw [hs] at this; exact nomatch this

theorem cancelLaneStart {s : State} (tag : Tag) (l : LaneIx) (h : PinLaw s) : PinLaw (cancelLaneStart tag l s) := by
  unfold Machine.cancelLaneStart
  split
  · rename_i hs
    exact (h.startWithdrawn l hs).completed _ _ _
  · exact h.completed _ _ _

/-- R98: an IMMEDIATE stop. -/
theorem stopNow {s : State} (l : LaneIx) (h : PinLaw s) : PinLaw (stopNow l s) := by
  refine finishedStop l (calm (.completeJoin l _) (((h.calm (.abortFrame l countAborted s)).releaseTiles l).calm
    (.modLane _ l (fun r => { r with timer := none }) rfl rfl (.inl rfl)))) ?_ (completeJoin_joins l _)
  rw [completeJoin_lane]; simp

/-- R112: a stop of a WAITING lane. -/
theorem stopWaiting {s : State} (l : LaneIx) (h : PinLaw s) (hw : (s.lock l).role.waits = true) :
    PinLaw (finishStop l (completeJoin l s)) :=
  (h.calm (.completeJoin l s)).finishedStop l (by rw [completeJoin_lane]; exact h.waiting l hw) (completeJoin_joins l s)

theorem cancelJoin {s : State} (tag : Tag) (l : LaneIx) (h : PinLaw s) : PinLaw (cancelJoin tag l s) := by
  unfold Machine.cancelJoin
  split
  · rename_i ld phase old hr
    have hst := h.joining l (by rw [hr]; rfl)
    have h1 := calm (.freeLeader ld _) ((h.calm (.freeLane l s)).completed tag .cancelled [])
    have hj : ((freeLeader ld (complete tag .cancelled [] (freeLane l s))).lock l).role.joins = false := by
      unfold freeLeader
      split
      · by_cases hl : ld = l
        · subst hl; rw [freeLane_lock]; rfl
        · simp [freeLane, hl, Lock.initial, LockRole.joins]
      · simp [freeLane, Lock.initial, LockRole.joins]
    refine leftJoin (s := s) phase l s.deviceTime h1 hst ?_ hj
    unfold freeLeader
    split <;> simp [freeLane]
  · exact h.completed _ _ _

theorem leaveGroup {s : State} (l : LaneIx) (h : PinLaw s) : PinLaw (leaveGroup l s) := by
  unfold Machine.leaveGroup
  split
  · exact h.calm ((Calm.armAfterRelay l s).trans (.freeLane l _))
  · exact h.calm ((Calm.armAfterRelay l s).trans (.freeLane l _))
  · rename_i hs
    refine startRun l _ (h.calm (.freeLane l s)) ?_ (by rw [freeLane_lock]; rfl)
    have := h.running l (by rw [hs]; rfl)
    simpa [freeLane] using this
  · exact h.calm (.freeLane l s)

theorem withdraw {s : State} (e : Entry) (h : PinLaw s) : PinLaw (withdraw e s) := by
  unfold Machine.withdraw
  split
  · exact h.calm (.cancelStreamStop _ _ s)
  · exact h.calm (.cancelStreamFreeze _ _ s)
  · exact h.calm (.cancelCommit _ _ s)
  · exact h.cancelLaneStart _ _
  · exact h.calm (.cancelLaneStop _ _ s)
  · exact h.cancelJoin _ _

/-! ### Requests -/

/-- A record of the link controller, the notice unit, the store or the budget table is no part of the law. -/
theorem linked {s : State} (f : Link → Link) (h : PinLaw s) : PinLaw (s.modLink f) :=
  h.of_same (fun _ => rfl) (fun _ => rfl) (fun _ => rfl) (fun _ => rfl) (fun _ => rfl)

theorem replied {s : State} (r : Reply) (h : PinLaw s) : PinLaw (queueReply r s) := h.linked _

theorem deferred {s : State} (tag : Tag) (op : Pending) (h : PinLaw s) : PinLaw (defer tag op s) :=
  (h.linked _).replied _

theorem admitted {s : State} (x : Holder) (u : Nat) (h : PinLaw s) : PinLaw (admitClaim x u s) :=
  h.of_same (fun _ => rfl) (fun _ => rfl) (fun _ => rfl) (fun _ => rfl) (fun _ => rfl)

theorem offered {s : State} (r : Request) (h : PinLaw s) : PinLaw (offer r s) := by
  unfold offer
  split
  · exact h.linked _
  · exact (h.linked _).raised _

theorem shifted {s : State} (n : Nat) (h : PinLaw s) : PinLaw (s.shifted n) :=
  h.of_same (fun _ => by simp [State.ring]) (fun _ => by simp [State.stream]) (fun _ => by simp [State.lane])
    (fun _ => by simp [State.lock]) (fun _ => by simp [State.list])

theorem presented {s : State} (r : Request) (h : PinLaw s) : PinLaw (present r s) := by
  unfold present
  split
  · exact h
  · exact (h.shifted _).offered r

/-- A dispatched request, from what its action keeps. -/
theorem dispatched {r : Request} {act : State → State} {s t : State} (ha : ∀ u, PinLaw u → PinLaw (act u))
    (h : dispatch r act s = .next t) (hs : PinLaw s) : PinLaw t := by
  unfold dispatch at h
  split at h
  · cases h; exact hs
  · split at h
    · cases h; exact ha _ ((hs.presented r).linked _)
    · cases h; exact hs.presented r

/-- A request of a known kind, from what its judging keeps. -/
theorem requested {k : Kind} {judge : Tag → List Byte → State → Verdict} {tag : Tag} {body : List Byte} {s t : State}
    (hj : ∀ u v, judge tag body u = .ok v → PinLaw u → PinLaw v) (h : request k judge tag body s = .next t)
    (hs : PinLaw s) : PinLaw t := by
  refine dispatched (fun u hu => ?_) h hs
  cases hv : judge tag body u with
  | error r => exact hu.replied _
  | ok v => exact hj u v hv hu

/-- A lane record's update that leaves its tile records. -/
theorem laneMoved {s : State} (l : LaneIx) (f : Lane → Lane) (h : PinLaw s)
    (ht : (f (s.lane l)).tiles = (s.lane l).tiles) (hr : (f (s.lane l)).state.holdsTiles = false → (s.lane l).tiles = [])
    (hj : (s.lock l).role.joins = true → (f (s.lane l)).state.holdsTiles = true) : PinLaw (s.modLane l f) := by
  have htl : ∀ j, ((s.modLane l f).lane j).tiles = (s.lane j).tiles := by
    intro j
    by_cases hlj : l = j
    · subst hlj; simpa using ht
    · simp [hlj]
  refine ⟨fun i p => ?_, fun j hs => ?_, fun j hw => ?_, fun j => ?_, h.unbound, fun j hk => ?_⟩
  · rw [tilesNaming_same htl]; exact h.counted i p
  · rw [htl]
    by_cases hlj : l = j
    · subst hlj; exact hr (by simpa using hs)
    · exact h.running j (by simpa [hlj] using hs)
  · rw [htl]; exact h.waiting j hw
  · rw [htl]; exact h.listed j
  · by_cases hlj : l = j
    · subst hlj; simpa using hj hk
    · have := h.joining j hk
      simpa [hlj] using this

/-- R137: a lane's claim leaves its tile records and its state. -/
theorem claimed {s : State} (l : LaneIx) (h : PinLaw s) : PinLaw (claimLane l s) :=
  (h.laneMoved l (fun r => { r with admitted := some (laneDemand s l) }) rfl (h.running l) (h.joining l)).admitted _ _

theorem claimLane_tiles (l : LaneIx) (s : State) : ((claimLane l s).lane l).tiles = (s.lane l).tiles := by
  simp [claimLane, admitClaim, State.lane, State.modLane]

/-- A lane that holds no tile records joins no group. -/
theorem joins_idle {s : State} {l : LaneIx} (h : PinLaw s) (hs : (s.lane l).state.holdsTiles = false) :
    (s.lock l).role.joins = false := by
  cases hj : (s.lock l).role.joins with
  | false => rfl
  | true => rw [h.joining l hj] at hs; exact nomatch hs

/-- R29: a new ring's positions hold no pin, and no tile record names an UNBOUND stream. -/
theorem bound {s : State} (i : StreamIx) (n : SourceIx) (sc : Scale) (d : Nat) (pol : LossPolicy) (g : SourceSetup)
    (h : PinLaw s) (hs : (s.stream i).state = .unbound) : PinLaw (bindStream i n sc d pol g s) := by
  have hr := h.unbound i hs
  have hring : ∀ j, (bindStream i n sc d pol g s).ring j =
      if i = j then some (Ring.create (s.store.free.take d)) else s.ring j := by
    intro j
    show rd (wr _ _ _) j = _
    rw [rd_wr]; rfl
  refine ⟨fun j p => ?_, h.running, h.waiting, h.listed, fun j hj => ?_, h.joining⟩
  · rw [tilesNaming_same (s := s) (t := bindStream i n sc d pol g s) (fun _ => rfl), ← h.counted]
    unfold pinsAt
    rw [hring]
    by_cases hij : i = j
    · subst hij
      simp only [if_true, hr, Option.bind_some, Ring.create, List.getElem?_map]
      cases (s.store.free.take d)[p]? <;> rfl
    · simp [hij]
  · have hij : i ≠ j := by
      rintro rfl
      simp [bindStream, State.stream, State.setRing, State.modStream] at hj
    rw [hring]
    simp only [hij, if_false]
    exact h.unbound j (by simpa [bindStream, State.stream, State.setRing, State.modStream, hij] using hj)

/-- R30: no tile record names a stream that no active list names. -/
theorem unbounded {s : State} (i : StreamIx) (h : PinLaw s) (hn : listsName s i = false) : PinLaw (unbindStream i s) := by
  have h0 : ∀ p, tilesNaming s i p = 0 := by
    intro p
    unfold tilesNaming
    refine List.sum_eq_zero (fun x hx => ?_)
    obtain ⟨l, -, rfl⟩ := List.mem_map.mp hx
    refine List.countP_eq_zero.mpr (fun y hy hyn => ?_)
    have hl := h.listed l y hy i p (by simpa using hyn)
    have := List.any_eq_false.mp hn l (List.mem_finRange l)
    simp [hl] at this
  have hring : ∀ j, (unbindStream i s).ring j = if i = j then none else s.ring j := by
    intro j
    show rd (wr _ _ _) j = _
    rw [rd_wr]; rfl
  refine ⟨fun j p => ?_, h.running, h.waiting, h.listed, fun j hj => ?_, h.joining⟩
  · rw [tilesNaming_same (s := s) (t := unbindStream i s) (fun _ => rfl)]
    by_cases hij : i = j
    · subst hij; rw [h0]; simp [pinsAt, hring]
    · rw [← h.counted]; simp [pinsAt, hring, hij]
  · rw [hring]
    by_cases hij : i = j
    · simp [hij]
    · simp only [hij, if_false]
      exact h.unbound j (by simpa [unbindStream, State.stream, State.setRing, State.modStream, hij] using hj)

/-- R106: a RUNNING or STOPPING lane begins to join. -/
theorem joinBegun {s : State} (l ld : LaneIx) (tag : Tag) (h : PinLaw s) (hs : (s.lane l).state.holdsTiles = true) :
    PinLaw (s.modLock l (fun _ => ⟨.joining ld .finishing tag, none⟩)) where
  counted := h.counted
  running := h.running
  waiting := fun j hj => by
    by_cases hlj : l = j
    · subst hlj; simp [LockRole.waits] at hj
    · exact h.waiting j (by simpa [hlj] using hj)
  listed := h.listed
  unbound := h.unbound
  joining := fun j hj => by
    by_cases hlj : l = j
    · subst hlj; exact hs
    · exact h.joining j (by simpa [hlj] using hj)

theorem laneStart {tag : Tag} {body : List Byte} {u v : State} (h : laneStart tag body u = .ok v) (hu : PinLaw u) :
    PinLaw v := by
  unfold Machine.laneStart refuse okReply at h
  split at h
  · split at h
    · cases h
    · split at h
      · cases h
      · split at h
        · cases h
        · split at h
          · cases h
          · split at h
            · cases h
            · rename_i l _ hs _ hfit
              have hs : (u.lane l).state.holdsTiles = false := by
                have : (u.lane l).state = .ready := by simpa using hs
                rw [this]; rfl
              have ht := (claimLane_tiles l u).trans (hu.running l hs)
              have hw : ((claimLane l u).lock l).role.waits = false := LockRole.waits_joins (hu.joins_idle hs)
              have h1 := fun t => ((hu.claimed l).firstBoundary l t ht hw).replied
                ⟨replyKind Kind.laneStart.code, tag, .first, .ok, []⟩
              split at h
              · cases h
                exact h1 _
              · rw [Except.ok.injEq] at h
                subst h
                exact (h1 _).relay l _
              · split at h
                · cases h
                · cases h
                  refine ((hu.claimed l).laneMoved l _ rfl (fun _ => ht) (fun hj => ?_)).deferred _ _
                  rw [show ((claimLane l u).lock l).role = (u.lock l).role from rfl, hu.joins_idle hs] at hj
                  exact nomatch hj
  · cases h

theorem immediateStop {s : State} (tag : Tag) (l : LaneIx) (h : PinLaw s) : PinLaw (immediateStop tag l s) := by
  have h1 := (h.stopNow l).replied ⟨replyKind Kind.laneStop.code, tag, .first, .ok, []⟩
  unfold Machine.immediateStop
  dsimp only
  split
  · exact h1.dissolve _ (fun x _ hu => hu.dissolveImmediate l _ x) l
  · exact h1

theorem waits_of_waiting {k : Lock} (h : k.waiting = true) : k.role.waits = true := by
  unfold Lock.waiting at h
  split at h
  · rename_i hr; rw [hr]; rfl
  · exact nomatch h

theorem laneStop {tag : Tag} {body : List Byte} {u v : State} (h : laneStop tag body u = .ok v) (hu : PinLaw u) :
    PinLaw v := by
  unfold Machine.laneStop refuse okReply at h
  split at h
  · split at h
    · cases h
    · split at h
      · split at h
        · cases h
        · cases h; exact hu.replied _
        · rename_i hs
          cases h; exact ((hu.startWithdrawn _ hs).completedIf _ _ _).replied _
        · split at h
          · rename_i hw
            cases h; exact (hu.stopWaiting _ (waits_of_waiting hw)).replied _
          · split at h
            · cases h; exact hu.immediateStop _ _
            · split at h
              · cases h
              · cases h; exact (hu.calm (.modLane u _ _ rfl rfl (.inr rfl))).deferred _ _
        · split at h
          · rename_i hw
            cases h; exact (hu.stopWaiting _ (waits_of_waiting hw)).replied _
          · split at h
            · cases h; exact hu.immediateStop _ _
            · cases h
      · cases h
  · cases h

theorem lockJoin {tag : Tag} {body : List Byte} {u v : State} (h : lockJoin tag body u = .ok v) (hu : PinLaw u) :
    PinLaw v := by
  unfold Machine.lockJoin refuse okReply at h
  split at h
  · split at h
    · cases h
    · repeat' split at h
      all_goals first | (cases h; done) | skip
      · rename_i hst _
        cases h
        refine PinLaw.deferred _ _ (calm (.modLock _ _ _ (.inr rfl)) (hu.joinBegun _ _ _ ?_))
        rcases hst with hst | hst <;> rw [hst] <;> rfl
      · cases h
        exact (hu.calm ((Calm.modLock u _ _ (.inr rfl)).trans (.modLock _ _ _ (.inr rfl)))).replied _
  · cases h

theorem lockLeave {tag : Tag} {body : List Byte} {u v : State} (h : lockLeave tag body u = .ok v) (hu : PinLaw u) :
    PinLaw v := by
  unfold Machine.lockLeave refuse okReply at h
  repeat' split at h
  all_goals cases h
  · exact (calm (.freeLeader _ _) (hu.leaveGroup _)).replied _
  · exact (hu.cancelJoin _ _).replied _

theorem laneSetup {tag : Tag} {body : List Byte} {u v : State} (h : laneSetup tag body u = .ok v) (hu : PinLaw u) :
    PinLaw v := by
  unfold Machine.laneSetup refuse okReply at h
  dsimp only at h
  repeat' split at h
  all_goals first | (cases h; done) | skip
  rename_i l _ _ _ _ _ _ _ _ _ hb hk _
  have hs : (u.lane l).state.holdsTiles = false := by
    unfold Lane.busy at hb
    cases hst : (u.lane l).state <;> simp [hst] at hb <;> rfl
  cases h
  refine PinLaw.replied _ (calm (.route _ _ _) (hu.laneMoved l _ ?_ (fun _ => hu.running l hs) (fun hj => ?_)))
  · split <;> rfl
  · rw [hu.joins_idle hs] at hj; exact nomatch hj

theorem listCommit {tag : Tag} {body : List Byte} {u v : State} (h : listCommit tag body u = .ok v) (hu : PinLaw u) :
    PinLaw v := by
  unfold Machine.listCommit refuse okReply at h
  split at h
  · split at h
    · cases h
    · split at h
      · split at h
        · cases h
        · split at h
          · cases h
          · split at h
            · cases h
            · split at h
              · rename_i hs
                cases h; exact (hu.adopted _ (hu.running _ (by rw [hs]; rfl))).replied _
              · split at h
                · cases h
                · cases h
                  exact (hu.calm (.modList u _ _ rfl)).deferred _ _
      · cases h
  · cases h

end PinLaw

end Sys2Proof.Machine
end

