-- ==== Sys2Proof/Laws/Requests.lean ====
section
/-! SUPPORT. The dispatcher in one lemma: a request that stands at the head and can be taken is judged by its owner in the state
with it removed, and a refusal leaves exactly the state `State.answered` names. -/

namespace Sys2Proof.Machine

open Sys2Proof

theorem dispatch_waiting {r : Request} {s : State} (act : State → State) (h : Waiting s r) :
    dispatch r act s = .next (act (taken s)) := by
  obtain ⟨h1, h2, h3⟩ := h
  simp [dispatch, present, canTake, h1, h2, h3]

theorem request_waiting {k : Kind} {tag : Tag} {body : List Byte} {s : State}
    (judge : Tag → List Byte → State → Verdict) (h : WaitingFor s k tag body) :
    request k judge tag body s = .next (answer k tag (taken s) (judge tag body (taken s))) :=
  dispatch_waiting _ h

theorem answer_refuse (k : Kind) (tag : Tag) (s : State) (r : Result) :
    answer k tag (taken s) (refuse r) = s.answered k tag r [] := rfl

theorem answer_error (k : Kind) (tag : Tag) (s : State) (r : Refused) :
    answer k tag (taken s) (.error r) = s.answered k tag r.result r.fields := rfl

theorem answer_okReply (k : Kind) (tag : Tag) (fields : List Byte) (s t : State) :
    answer k tag s (okReply k tag fields t) = firstReply k tag .ok fields t := rfl

/-- A performed request that changes nothing. -/
theorem firstReply_taken (k : Kind) (tag : Tag) (r : Result) (fields : List Byte) (s : State) :
    firstReply k tag r fields (taken s) = s.answered k tag r fields := rfl

/-! ### The commit walk reads nothing but the scales of the entries -/

theorem walkRest_congr {s t : State} (h : ∀ e, entryScale t e = entryScale s e) (sc : Scale) :
    ∀ es j, walkRest t sc es j = walkRest s sc es j := by
  intro es
  induction es with
  | nil => exact fun _ => rfl
  | cons e es ih => intro j; simp only [walkRest, h, ih]

theorem walk_congr {s t : State} (h : ∀ e, entryScale t e = entryScale s e) : ∀ n es i, walk t n es i = walk s n es i := by
  intro n
  induction n with
  | zero => exact fun _ _ => rfl
  | succ n ih =>
    intro es i
    cases es with
    | nil => rfl
    | cons e es => simp only [walk, h, walkRest_congr h, ih]

theorem listFailure_taken (s : State) (es : List ListEntry) : listFailure (taken s) es = listFailure s es :=
  walk_congr (s := s) (t := taken s) (fun _ => rfl) _ _ _

theorem index?_val {n : Nat} {b : Byte} (i : Fin n) (h : b.toNat = i.val) : index? n b = some i := by
  have : b.toNat < n := h ▸ i.isLt
  simp [index?, h]

theorem index?_none {n : Nat} {b : Byte} (h : ¬ b.toNat < n) : index? n b = none := by simp [index?, h]

theorem index?_isSome {n : Nat} {b : Byte} (h : b.toNat < n) : index? n b = some ⟨b.toNat, h⟩ := by simp [index?, h]

@[simp] theorem scale?_code (sc : Scale) : scale? sc.code = some sc := by cases sc <;> decide
@[simp] theorem policy?_code (p : LossPolicy) : policy? p.code = some p := by cases p <;> decide
@[simp] theorem timing?_code (tm : Timing) : timing? tm.code = some tm := by cases tm <;> decide
@[simp] theorem width?_code (w : WidthMode) : width? w.code = some w := by cases w <;> decide

theorem le16_eq (lo hi : Byte) : le16 lo hi = lo.toNat + 256 * hi.toNat := rfl

/-- The two bytes of a 16-bit number read back as it. -/
theorem ofNat_le16_u16 (q : Half) : BitVec.ofNat 16 (le16 (byte q.toNat) (byte (q.toNat / 256))) = q := by
  apply BitVec.eq_of_toNat_eq
  have := q.isLt
  simp only [le16, byte, BitVec.toNat_ofNat]
  omega

end Sys2Proof.Machine
end

