-- ==== Sys2Proof/Laws/Writers.lean ====
section
/-! SUPPORT. The writer's law (R5, R6, R24) through every action of the blocks: those that carry no frame in at once, the sources'
own one by one; and where the line of a good frame is stored. -/

namespace Sys2Proof.Machine

open Sys2Proof

/-! ### What a change that carries no frame in leaves -/

theorem SameInput.trans {s t u : State} (h : SameInput s t) (k : SameInput t u) : SameInput s u where
  line := fun p => (k.line p).trans (h.line p)
  source := fun n => ⟨(k.source n).1.trans (h.source n).1, (k.source n).2.1.trans (h.source n).2.1,
    (k.source n).2.2.trans (h.source n).2.2⟩
  stream := fun i => ⟨(k.stream i).1.trans (h.stream i).1, (k.stream i).2.trans (h.stream i).2⟩

theorem SameInput.collecting {s t : State} (h : SameInput s t) (n : SourceIx) : collecting t n = collecting s n := by
  simp only [Machine.collecting, h.line]

/-- The records of the parts named are equal one by one. -/
theorem SameInput.of_at {s t : State} (hc : ∀ p, t.capturePort p = s.capturePort p) (hs : ∀ n, t.source n = s.source n)
    (hi : ∀ i, t.stream i = s.stream i) : SameInput s t where
  line := fun p => by rw [hc]
  source := fun n => by rw [hs]; exact ⟨rfl, rfl, rfl⟩
  stream := fun i => by rw [hi]; exact ⟨rfl, rfl⟩

namespace Change

theorem dram {s t : State} (c : Change False s t) : t.dram = s.dram := by
  induction c with
  | refl => rfl
  | trans _ _ h k => exact k.trans h
  | records h => exact h.dram
  | ring => rfl
  | raised => simp
  | completed => simp
  | stopped => rfl
  | readied => rfl
  | written hw => exact hw.elim

theorem input {s t : State} (c : Change False s t) : SameInput s t := by
  induction c with
  | refl => exact .of_records rfl rfl rfl
  | trans _ _ h k => exact h.trans k
  | records h => exact h.input id
  | ring => exact .of_records rfl rfl rfl
  | raised b s => rw [raise_eq]; exact .of_records rfl rfl rfl
  | completed t r f s => rw [complete_eq]; exact .of_records rfl rfl rfl
  | stopped i s =>
    refine { SameInput.of_records (t := s) rfl rfl rfl with stream := fun j => ?_ }
    by_cases hij : i = j
    · subst hij; simp [stopStream, releaseClaim, State.modStream, State.stream]
    · simp [stopStream, releaseClaim, State.modStream, State.stream, hij]
  | readied => exact .of_records rfl rfl rfl
  | written hw => exact hw.elim

/-- No position becomes FILLING. -/
theorem fills {s t : State} (c : Change False s t) (i : StreamIx) : ∀ r', t.ring i = some r' →
    ∃ r, s.ring i = some r ∧ ∀ p, r'.fills p = true → r.fills p = true := by
  induction c with
  | refl => exact fun r h => ⟨r, h, fun _ => id⟩
  | trans _ _ h k =>
    intro r' hr'
    obtain ⟨r, hr, hf⟩ := k r' hr'
    obtain ⟨q, hq, hg⟩ := h r hr
    exact ⟨q, hq, fun p hp => hg p (hf p hp)⟩
  | records h => intro r' hr'; simp only [State.ring, h.rings] at hr'; exact ⟨r', hr', fun _ => id⟩
  | @ring s j r r' hr _ hf =>
    intro x hx
    by_cases hij : j = i
    · subst hij
      rw [setRing_ring_same, Option.some.injEq] at hx
      subst hx
      exact ⟨r, hr, hf id⟩
    · exact ⟨x, by simpa [hij] using hx, fun _ => id⟩
  | raised b s => rw [raise_ring]; exact fun r h => ⟨r, h, fun _ => id⟩
  | completed t r f s => rw [complete_ring]; exact fun r h => ⟨r, h, fun _ => id⟩
  | stopped => exact fun r h => ⟨r, h, fun _ => id⟩
  | readied => exact fun r h => ⟨r, h, fun _ => id⟩
  | written hw => exact hw.elim

end Change

namespace WriterLaw

/-- The law speaks of the input records, the FILLING positions, the store, RESET_N and which streams are UNBOUND. -/
theorem of_input {s t : State} (h : WriterLaw s) (k : SameInput s t) (hr : ∀ i r', t.ring i = some r' →
    ∃ r, s.ring i = some r ∧ ∀ p, r'.fills p = true → r.fills p = true) (hst : t.store = s.store)
    (ha : t.resetAsserted = s.resetAsserted)
    (hu : ∀ i, (t.stream i).state = .unbound → (s.stream i).state = .unbound) : WriterLaw t where
  one := fun i r' p q hr' hp hq => by
    obtain ⟨r, hr, hf⟩ := hr i r' hr'
    exact h.one i r p q hr (hf p hp) (hf q hq)
  filling := fun i r' p hr' hp => by
    obtain ⟨r, hr, hf⟩ := hr i r' hr'
    obtain ⟨b, c, hb, hc, hn⟩ := h.filling i r p hr (hf p hp)
    refine ⟨b, c, (k.stream i).1.trans hb, (k.source _).1.trans hc, ?_⟩
    rw [(k.stream i).2, k.collecting]
    exact hn
  known := fun n hn => by rw [(k.source n).2.1]; exact h.known n (by rw [← (k.source n).2.2]; exact hn)
  counted := fun n c hc => by
    obtain ⟨g, hg, hn⟩ := h.counted n c ((k.source n).1.symm.trans hc)
    exact ⟨g, (k.source n).2.1.trans hg, hn⟩
  fits := fun i b hb => by
    obtain ⟨h1, h2, g, f, hg, hf, hn⟩ := h.fits i b ((k.stream i).1.symm.trans hb)
    exact ⟨fun e => h1 (hu i e), by rw [hst]; exact h2, g, f, (k.source _).2.1.trans hg, by rw [hst]; exact hf, hn⟩
  formatted := by rw [hst]; exact h.formatted
  asserted := by rw [hst, ha]; exact h.asserted

theorem change {s t : State} (h : WriterLaw s) (c : Change False s t) : WriterLaw t :=
  h.of_input c.input (fun i => c.fills i) c.store c.resetAsserted (fun i => c.unbound i)

/-- A state that agrees on every part the law speaks of. -/
theorem of_same {s t : State} (h : WriterLaw s) (hc : ∀ p, t.capturePort p = s.capturePort p)
    (hs : ∀ n, t.source n = s.source n) (hi : ∀ i, t.stream i = s.stream i) (hr : ∀ i, t.ring i = s.ring i)
    (hst : t.store = s.store) (ha : t.resetAsserted = s.resetAsserted) : WriterLaw t :=
  h.of_input (.of_at hc hs hi) (fun i r hr' => ⟨r, (hr i).symm.trans hr', fun _ => id⟩) hst ha (fun i => by rw [hi]; exact id)

/-- No stream is bound, and no source is in a frame. -/
theorem of_unbound {s : State} (hr : ∀ i, s.ring i = none) (hb : ∀ i, (s.stream i).binding = none)
    (hp : ∀ n, s.source n = Source.initial) (hf : s.store.unformatted = false → s.store.format ≠ none)
    (ha : s.resetAsserted = true → s.store.state = .offline) : WriterLaw s where
  one := fun i r p q h => by rw [hr] at h; exact nomatch h
  filling := fun i r p h => by rw [hr] at h; exact nomatch h
  known := fun n h => by rw [hp] at h; exact absurd rfl h
  counted := fun n c h => by rw [hp] at h; exact nomatch h
  fits := fun i b h => by rw [hb] at h; exact nomatch h
  formatted := hf
  asserted := ha

/-- A stream without a binding has no FILLING position. -/
theorem no_fill {s : State} (h : WriterLaw s) {i : StreamIx} (hb : (s.stream i).binding = none) {r : Ring}
    (hr : s.ring i = some r) (p : Nat) : r.fills p = false := by
  by_contra hp
  obtain ⟨b, -, hb', -⟩ := h.filling i r p hr (by simpa using hp)
  rw [hb] at hb'
  exact nomatch hb'

/-- While the store has no slot format no stream is bound. -/
theorem no_binding {s : State} (h : WriterLaw s) (hu : s.store.unformatted = true) (i : StreamIx) :
    (s.stream i).binding = none := by
  cases hb : (s.stream i).binding with
  | none => rfl
  | some b => have := (h.fits i b hb).2.1; rw [hu] at this; exact nomatch this

/-- The store record, and RESET_N with it, change while no stream is bound. -/
theorem restored {s t : State} (h : WriterLaw s) (hb : ∀ i, (s.stream i).binding = none)
    (hs : ∀ n, t.source n = s.source n) (hi : ∀ i, t.stream i = s.stream i) (hr : ∀ i, t.ring i = s.ring i)
    (hf : t.store.unformatted = false → t.store.format ≠ none)
    (ha : t.resetAsserted = true → t.store.state = .offline) : WriterLaw t where
  one := fun i r p q hr' => by rw [hr] at hr'; exact h.one i r p q hr'
  filling := fun i r p hr' hp => by
    rw [hr] at hr'
    rw [h.no_fill (hb i) hr'] at hp
    exact nomatch hp
  known := fun n => by rw [hs]; exact h.known n
  counted := fun n c => by rw [hs]; exact h.counted n c
  fits := fun i b hb' => by rw [hi, hb] at hb'; exact nomatch hb'
  formatted := hf
  asserted := ha

/-- An update of a stream record that leaves its binding and its writer. -/
theorem kept {s : State} (i : StreamIx) (f : Stream → Stream) (h : WriterLaw s)
    (hb : (f (s.stream i)).binding = (s.stream i).binding ∧ (f (s.stream i)).writer = (s.stream i).writer)
    (hu : (f (s.stream i)).state = .unbound → (s.stream i).state = .unbound) : WriterLaw (s.modStream i f) := by
  refine h.of_input { SameInput.of_records (t := s) rfl rfl rfl with stream := fun j => ?_ }
    (fun _ r hr => ⟨r, hr, fun _ => id⟩) rfl rfl (fun j => ?_)
  all_goals
    by_cases hij : i = j
    · subst hij; simpa using (by assumption)
    · simp [hij]

/-- R28, R29: a stream bound: its ring is all EMPTY and its stored geometry fits. -/
theorem bound {s : State} (i : StreamIx) (n : SourceIx) (sc : Scale) (d : Nat) (pol : LossPolicy) (g : SourceSetup)
    (h : WriterLaw s) (hs : s.store.state = .ready) (hg : (s.source n).setup = some g) (hf : geometryFits s n sc = true) :
    WriterLaw (bindStream i n sc d pol g s) := by
  have hun : s.store.unformatted = false := by simp [Store.unformatted, hs]
  have hring : ∀ j, (bindStream i n sc d pol g s).ring j =
      if i = j then some (Ring.create (s.store.free.take d)) else s.ring j := fun j => by
    show rd (wr s.rings i _) j = _
    rw [rd_wr]; rfl
  have hstream : ∀ j, (bindStream i n sc d pol g s).stream j = if i = j then { Stream.initial with
      state := .stopped
      binding := some ⟨n, sc, (storedGeometry g sc).1, (storedGeometry g sc).2, d, pol⟩ } else s.stream j := fun j => by
    show rd (wr s.streams i _) j = _
    rw [rd_wr]; rfl
  have hnew : ∀ p, (Ring.create (s.store.free.take d)).fills p = false := fun p => by
    unfold Ring.fills Ring.create
    rw [List.getElem?_map]
    cases (s.store.free.take d)[p]? <;> rfl
  refine ⟨fun j r p q => ?_, fun j r p => ?_, h.known, fun m c => h.counted m c, fun j b => ?_, h.formatted, h.asserted⟩
  · rw [hring]
    split
    · rintro hr hp -
      cases hr
      rw [hnew] at hp
      exact nomatch hp
    · exact h.one j r p q
  · rw [hring, hstream]
    split
    · rintro hr hp
      cases hr
      rw [hnew] at hp
      exact nomatch hp
    · exact h.filling j r p
  · rw [hstream]
    split
    · intro hb
      cases hb
      refine ⟨nofun, hun, g, ?_⟩
      unfold geometryFits at hf
      cases hx : s.store.format with
      | none => exact absurd hx (h.formatted hun)
      | some f =>
        simp only [hg, hx, decide_eq_true_eq] at hf
        exact ⟨f, hg, hx, rfl, rfl, hf⟩
    · exact h.fits j b

/-- R30: a stream unbound: no binding and no ring. -/
theorem unbounded {s : State} (i : StreamIx) (h : WriterLaw s) : WriterLaw (unbindStream i s) := by
  have hring : ∀ j, (unbindStream i s).ring j = if i = j then none else s.ring j := fun j => by
    show rd (wr s.rings i _) j = _
    rw [rd_wr]; rfl
  have hstream : ∀ j, (unbindStream i s).stream j = if i = j then { Stream.initial with
      counters := (s.stream i).counters, dropFlag := (s.stream i).dropFlag } else s.stream j := fun j => by
    show rd (wr s.streams i _) j = _
    rw [rd_wr]; rfl
  refine ⟨fun j r p q => ?_, fun j r p => ?_, h.known, fun m c => h.counted m c, fun j b => ?_, h.formatted, h.asserted⟩
  · rw [hring]
    split
    · nofun
    · exact h.one j r p q
  · rw [hring, hstream]
    split
    · nofun
    · exact h.filling j r p
  · rw [hstream]
    split
    · nofun
    · exact h.fits j b

/-- R49: a source that no stream names is set up. -/
theorem sourced {s : State} (n : SourceIx) (g : SourceSetup) (h : WriterLaw s) (hb : boundStreams s n = []) :
    WriterLaw (setupSource n g s) := by
  have hn : ∀ i b, (s.stream i).binding = some b → n ≠ b.source := by
    rintro i b hi rfl
    have : i ∈ boundStreams s b.source := by simp [boundStreams, hi]
    rw [hb] at this
    exact nomatch this
  refine ⟨h.one, fun i r p hr hp => ?_, fun m => ?_, fun m c => ?_, fun i b hi => ?_, h.formatted, h.asserted⟩
  rotate_left
  · by_cases hnm : n = m
    · subst hnm; simp [setupSource]
    · simpa [setupSource, hnm] using h.known m
  rotate_right
  · obtain ⟨b, c, hi, hc, hx⟩ := h.filling i r p hr hp
    exact ⟨b, c, hi, by simpa [setupSource, hn i b hi] using hc, hx⟩
  · by_cases hnm : n = m
    · subst hnm
      simp only [setupSource, modSource_source_same]
      cases (s.source n).phase <;> nofun
    · simpa [setupSource, hnm] using h.counted m c
  · obtain ⟨h1, h2, g', f, hg, hx⟩ := h.fits i b hi
    exact ⟨h1, h2, g', f, by simpa [setupSource, hn i b hi] using hg, hx⟩

/-- R130: the store enters FAULT with its format kept. -/
theorem failed {s : State} (h : WriterLaw s) (hs : s.store.state = .ready) :
    WriterLaw { s with store := { s.store with state := .fault .access } } where
  one := h.one
  filling := h.filling
  known := h.known
  counted := h.counted
  fits := fun i b hb => by
    obtain ⟨h1, -, hx⟩ := h.fits i b hb
    exact ⟨h1, rfl, hx⟩
  formatted := fun _ => h.formatted (by simp [Store.unformatted, hs])
  asserted := fun ha => by have := h.asserted ha; rw [hs] at this; exact nomatch this

theorem linked {s : State} (f : Link → Link) (h : WriterLaw s) : WriterLaw (s.modLink f) :=
  h.of_same (fun _ => rfl) (fun _ => rfl) (fun _ => rfl) (fun _ => rfl) rfl rfl

/-- R133, R156: after a soft reset nothing is bound. -/
theorem softReset {s : State} (tag : Tag) (h : WriterLaw s) (ha : s.resetAsserted = false) : WriterLaw (softReset tag s) := by
  refine of_unbound (fun i => by simp) (fun i => by simp [Stream.initial]) (fun n => ?_) ?_ ?_
  · show rd (Vector.replicate 16 Source.initial) n = Source.initial
    simp
  · rw [softReset_store]
    unfold softResetStore
    split
    · exact h.formatted
    · exact h.formatted
    · nofun
    · nofun
  · simp [ha]

theorem hardReset (s : State) : WriterLaw (hardReset s) := by
  refine of_unbound (fun i => ?_) (fun i => ?_) (fun n => ?_) nofun (fun _ => rfl)
  · show rd (Vector.replicate 20 none) i = none
    simp
  · show (rd (Vector.replicate 20 Stream.initial) i).binding = none
    simp [Stream.initial]
  · show rd (Vector.replicate 16 Source.initial) n = Source.initial
    simp

/-- Every effect that carries no frame in keeps the law. -/
theorem effect {g : Prop} {s t : State} (e : Effect False g s t) : WriterLaw s → WriterLaw t := by
  have same : ∀ {s t : State}, WriterLaw s → t.capturePorts = s.capturePorts → t.sources = s.sources →
      t.streams = s.streams → t.rings = s.rings → t.store = s.store → t.resetAsserted = s.resetAsserted → WriterLaw t :=
    fun h hc hs hi hr hst ha => h.of_same (fun _ => by simp only [State.capturePort, hc])
      (fun _ => by simp only [State.source, hs]) (fun _ => by simp only [State.stream, hi])
      (fun _ => by simp only [State.ring, hr]) hst ha
  have bring : ∀ {s : State} {stage : BringupStage} {d : Time}, WriterLaw s → s.store.state = .bringup stage d →
      (∀ i, (s.stream i).binding = none) ∧ s.resetAsserted ≠ true := fun h hs =>
    ⟨h.no_binding (by simp [Store.unformatted, hs]), fun ha => by have := h.asserted ha; rw [hs] at this; exact nomatch this⟩
  induction e with
  | change c => exact fun h => h.change c
  | trans _ _ h k => exact fun hs => k (h hs)
  | quiet s f => exact fun h => h.linked f
  | lcs => exact fun h => same h rfl rfl rfl rfl rfl rfl
  | offered r s =>
    intro h
    unfold offer
    split
    · exact h.linked _
    · exact (h.linked _).change (.raised _ _)
  | taken s => exact fun h => h.linked _
  | replied r s => exact fun h => h.linked _
  | entered tag op s => exact fun h => h.linked _
  | replySent s => exact fun h => h.linked _
  | streamAdmitted i u s =>
    intro h
    exact same (h.kept i (fun r => { r with state := .armed, admitted := some u }) ⟨rfl, rfl⟩ (fun e => nomatch e))
      rfl rfl rfl rfl rfl rfl
  | laneAdmitted => exact fun h => same h rfl rfl rfl rfl rfl rfl
  | bound i n sc d pol gm s hu hs hg hf => exact fun h => h.bound i n sc d pol gm hs hg hf
  | unbound i s => exact fun h => h.unbounded i
  | sourced n gm s hb => exact fun h => h.sourced n gm hb
  | configured f n s hu hs =>
    intro h
    refine h.restored (fun i => ?_) (fun _ => rfl) (fun _ => rfl) (fun _ => rfl) nofun h.asserted
    cases hb : (s.stream i).binding with
    | none => rfl
    | some b => exact absurd (hu i) (h.fits i b hb).1
  | acked n s =>
    intro h
    unfold reportLost
    split <;> exact same h rfl rfl rfl rfl rfl rfl
  | masked => exact fun h => same h rfl rfl rfl rfl rfl rfl
  | resent => exact fun h => same h rfl rfl rfl rfl rfl rfl
  | noticeSent => exact fun h => same h rfl rfl rfl rfl rfl rfl
  | staged stage stage' d s hs =>
    intro h
    obtain ⟨hb, ha⟩ := bring h hs
    exact h.restored hb (fun _ => rfl) (fun _ => rfl) (fun _ => rfl) nofun (fun e => absurd e ha)
  | bringupFailed c stage d s hs hc =>
    intro h
    obtain ⟨hb, ha⟩ := bring h hs
    exact h.restored hb (fun _ => rfl) (fun _ => rfl) (fun _ => rfl)
      (by simp [Store.unformatted, hc]) (fun e => absurd e ha)
  | bringupFinished mib stage d s hs =>
    intro h
    obtain ⟨hb, ha⟩ := bring h hs
    unfold finishBringup
    refine change ?_ (.raised _ _)
    exact h.restored hb (fun _ => rfl) (fun _ => rfl) (fun _ => rfl) nofun (fun e => absurd e ha)
  | storeFailed s hs => exact fun h => h.failed hs
  | softReset tag s ha => exact fun h => h.softReset tag ha
  | hardReset s => exact fun _ => WriterLaw.hardReset s
  | released s ha =>
    intro h
    have hs := h.asserted ha
    exact h.restored (h.no_binding (by simp [Store.unformatted, hs])) (fun _ => rfl) (fun _ => rfl) (fun _ => rfl)
      nofun nofun

end WriterLaw

/-- An effect that carries no frame in stores nothing. -/
theorem Effect.dram {g : Prop} {s t : State} (e : Effect False g s t) : t.dram = s.dram := by
  induction e with
  | change c => exact c.dram
  | trans _ _ h k => exact k.trans h
  | offered r s => unfold offer; split <;> simp
  | bringupFinished => unfold finishBringup; simp
  | softReset => simp
  | acked => unfold reportLost; split <;> rfl
  | _ => rfl

/-! ### The end of a fill -/

theorem Ring.filling_fills {r : Ring} {p : Nat} (h : r.filling = some p) : r.fills p = true := by
  obtain ⟨x, hx, hf⟩ := r.filling_spec h
  simp [Ring.fills, hx, hf]

theorem Ring.filling_none {r : Ring} (h : r.filling = none) (p : Nat) : r.fills p = false := by
  unfold Ring.fills
  cases hx : r.slots[p]? with
  | none => rfl
  | some x =>
    have := List.findIdx?_eq_none_iff.mp h x (List.mem_of_getElem? hx)
    simpa using this

/-- Actions for several streams that carry no frame in. -/
theorem Change.each {α : Type} {f : α → State → State} (hf : ∀ i u, Change False u (f i u)) (xs : List α) (u : State) :
    Change False u (xs.foldl (fun t i => f i t) u) := Change.foldl f hf xs u

namespace WriterLaw

/-- The position that was FILLING is given another fill state: no position of the ring is FILLING. -/
theorem ended {s : State} (h : WriterLaw s) {i : StreamIx} {r : Ring} {p : Nat} (hr : s.ring i = some r)
    (hp : r.filling = some p) (f : Fill) (hf : f.isFilling = false) (q : Nat) : (r.setFill p f).fills q = false := by
  by_contra hq
  obtain ⟨h1, h2⟩ := r.setFill_fills p q f hf (by simpa using hq)
  exact h2 (h.one i r p q hr (Ring.filling_fills hp) h1)

/-- R8: after a discard the stream has no FILLING position. -/
theorem discard_empties {s : State} (c : Cause) (i : StreamIx) (h : WriterLaw s) (r : Ring) (p : Nat)
    (hr : (streamDiscard c i s).ring i = some r) : r.fills p = false := by
  by_contra hp
  have hp : r.fills p = true := by simpa using hp
  unfold streamDiscard fillingAt at hr
  cases hs : s.ring i with
  | none =>
    rw [hs] at hr
    simp [hs] at hr
  | some r0 =>
    rw [hs] at hr
    cases hf : r0.filling with
    | none =>
      simp only [Option.bind_some, hf, hs, Option.some.injEq] at hr
      subst hr
      rw [Ring.filling_none hf] at hp
      exact nomatch hp
    | some q =>
      simp only [Option.bind_some, hf] at hr
      obtain ⟨r1, hr1, hf1⟩ := Change.fills (.calm (.settle _ i _)) i r hr
      simp only [State.modStreamCounters, modStream_ring_at, modRing_ring_same, hs, Option.map_some,
        Option.some.injEq] at hr1
      subst hr1
      have := h.ended hs hf .empty rfl p
      rw [show (r0.setFill q .empty).fills p = true from hf1 p hp] at this
      exact nomatch this

/-- R7: after a completion the stream has no FILLING position. -/
theorem complete_empties {s : State} (i : StreamIx) (h : WriterLaw s) (r : Ring) (p : Nat)
    (hr : (streamComplete i s).ring i = some r) : r.fills p = false := by
  by_contra hp
  have hp : r.fills p = true := by simpa using hp
  unfold streamComplete at hr
  cases hs : s.ring i with
  | none =>
    rw [hs] at hr
    simp [hs] at hr
  | some r0 =>
    rw [hs] at hr
    cases hf : r0.filling with
    | none =>
      simp only [hf, hs, Option.some.injEq] at hr
      subst hr
      rw [Ring.filling_none hf] at hp
      exact nomatch hp
    | some q =>
      simp only [hf] at hr
      obtain ⟨r1, hr1, hf1⟩ := Change.fills (.calm (.settle _ i _)) i r hr
      simp only [State.modStreamCounters, modStream_ring_at, setRing_ring_same, Option.some.injEq] at hr1
      subst hr1
      have hfin := hf1 p hp
      have := h.ended hs hf (.ready r0.nextSeq (((r0.slots[q]?).bind (fun x => x.fill.captured)).getD 0)) rfl p
      unfold Ring.finish at hfin
      unfold Ring.fills at this hfin
      rw [hfin] at this
      exact nomatch this

/-- An action that ends the fill of one stream, for several streams: none of them has a FILLING position. -/
theorem emptied {f : StreamIx → State → State} (hf : ∀ i u, Change False u (f i u))
    (hz : ∀ i u, WriterLaw u → ∀ r p, (f i u).ring i = some r → r.fills p = false) (xs : List StreamIx) :
    ∀ u, WriterLaw u → ∀ i ∈ xs, ∀ r p, (xs.foldl (fun t i => f i t) u).ring i = some r → r.fills p = false := by
  induction xs with
  | nil => exact fun u _ i hi => nomatch hi
  | cons x xs ih =>
    intro u hu i hi r p hr
    rw [List.foldl_cons] at hr
    rcases List.mem_cons.mp hi with rfl | hi
    · obtain ⟨r1, hr1, hf1⟩ := (Change.each hf xs (f i u)).fills i r hr
      by_contra hp
      have := hz i u hu r1 p hr1
      rw [hf1 p (by simpa using hp)] at this
      exact nomatch this
    · exact ih _ (hu.change (hf x u)) i hi r p hr

theorem mem_boundStreams {s : State} {n : SourceIx} {i : StreamIx} :
    i ∈ boundStreams s n ↔ ∃ b, (s.stream i).binding = some b ∧ b.source = n := by
  simp [boundStreams, Option.any_eq_true]

/-- The source is out of a frame: none of its streams has a FILLING position. -/
theorem out {s : State} (h : WriterLaw s) {n : SourceIx} (hp : ∀ c, (s.source n).phase ≠ .inFrame c) (i : StreamIx)
    (hi : i ∈ boundStreams s n) (r : Ring) (p : Nat) (hr : s.ring i = some r) : r.fills p = false := by
  by_contra hf
  obtain ⟨b, c, hb, hc, -⟩ := h.filling i r p hr (by simpa using hf)
  obtain ⟨b', hb', rfl⟩ := mem_boundStreams.mp hi
  rw [hb] at hb'
  cases hb'
  exact hp c hc

/-- A source's frame phase changes while its streams have no FILLING position. -/
theorem phased {s : State} (n : SourceIx) (f : Source → Source) (h : WriterLaw s)
    (hf : ∀ c, (f (s.source n)).phase = .inFrame c → ∃ g, (f (s.source n)).setup = some g ∧ c ≤ g.height) (hs : (f (s.source n)).setup = (s.source n).setup)
    (hk : (f (s.source n)).state = (s.source n).state ∨ (s.source n).setup ≠ none)
    (he : ∀ i ∈ boundStreams s n, ∀ r p, s.ring i = some r → r.fills p = false) : WriterLaw (s.modSource n f) := by
  refine ⟨h.one, fun i r p hr hp => ?_, fun m => ?_, fun m c => ?_, fun i b hi => ?_, h.formatted, h.asserted⟩
  rotate_left
  · by_cases hnm : n = m
    · subst hnm
      rw [modSource_source_same, hs]
      rcases hk with hk | hk
      · rw [hk]; exact h.known n
      · exact fun _ => hk
    · simpa [hnm] using h.known m
  rotate_right
  · obtain ⟨b, c, hi, hc, hx⟩ := h.filling i r p hr hp
    have hn : n ≠ b.source := by
      rintro rfl
      have := he i (mem_boundStreams.mpr ⟨b, hi, rfl⟩) r p hr
      rw [hp] at this
      exact nomatch this
    exact ⟨b, c, hi, by simpa [hn] using hc, hx⟩
  · by_cases hnm : n = m
    · subst hnm
      intro hc
      rw [modSource_source_same] at hc ⊢
      exact hf c hc
    · simpa [hnm] using h.counted m c
  · obtain ⟨h1, h2, g, f', hg, hx⟩ := h.fits i b hi
    refine ⟨h1, h2, g, f', ?_, hx⟩
    by_cases hn : n = b.source
    · subst hn; simpa [hs] using hg
    · simpa [hn] using hg

/-- R51 to R56: a frame discarded. -/
theorem discardFrame {s : State} (c : Cause) (next : FramePhase) (n : SourceIx) (h : WriterLaw s)
    (hn : ∀ k, next ≠ .inFrame k) : WriterLaw (discardFrame c next n s) := by
  have hc : ∀ i u, Change False u (streamDiscard c i u) := fun i u => .calm (.streamDiscard c i u)
  have h1 : Change False s (handOver n (streamDiscard c) s) := Change.each hc _ s
  have h2 : Change False (handOver n (streamDiscard c) s)
      ((handOver n (streamDiscard c) s).modSourceCounters n (countCause c)) :=
    .calm (.modSource _ n _ (fun _ => ⟨rfl, rfl, rfl⟩))
  refine ((h.change h1).change h2).phased n _ (fun k hk => absurd hk (hn k)) rfl (.inl rfl) (fun i hi r p hr => ?_)
  obtain ⟨b, hb, he⟩ := mem_boundStreams.mp hi
  have hm : i ∈ boundStreams s n := mem_boundStreams.mpr ⟨b, ((h1.trans h2).input.stream i).1.symm.trans hb, he⟩
  exact emptied hc (fun i u hu r p => hu.discard_empties c i r p) _ s h i hm r p hr

theorem discardFrame_dram (c : Cause) (next : FramePhase) (n : SourceIx) (s : State) :
    (Machine.discardFrame c next n s).dram = s.dram :=
  (Change.each (fun i u => .calm (.streamDiscard c i u)) _ s).dram

theorem discardFrame_phase (c : Cause) (next : FramePhase) (n : SourceIx) (s : State) :
    ((Machine.discardFrame c next n s).source n).phase = next := by
  simp [Machine.discardFrame, State.modSourceCounters]

theorem discardFrame_setup (c : Cause) (next : FramePhase) (n : SourceIx) (s : State) :
    ((Machine.discardFrame c next n s).source n).setup = (s.source n).setup := by
  simp only [Machine.discardFrame, State.modSourceCounters, modSource_source_same]
  exact ((Change.each (fun i u => .calm (.streamDiscard c i u)) _ s).input.source n).2.1

theorem discardFrame_line (c : Cause) (next : FramePhase) (n : SourceIx) (s : State) (p : CaptureIx) :
    ((Machine.discardFrame c next n s).capturePort p).line = (s.capturePort p).line :=
  (Change.each (fun i u => .calm (.streamDiscard c i u)) _ s).input.line p

/-! ### A frame start -/

/-- R4, R5: what a frame start at one stream leaves: the input records but the stream's own writer, and the positions that are not
FILLING at the other streams. -/
theorem frameStart_rest (t : Time) (i : StreamIx) (s : State) :
    (∀ p, ((streamFrameStart t i s).capturePort p).line = (s.capturePort p).line) ∧
      (∀ n, ((streamFrameStart t i s).source n).phase = (s.source n).phase) ∧
      (∀ j, ((streamFrameStart t i s).stream j).binding = (s.stream j).binding) ∧
      (streamFrameStart t i s).dram = s.dram ∧
      ∀ j, i ≠ j → ∀ r', (streamFrameStart t i s).ring j = some r' →
        ∃ r, s.ring j = some r ∧ ∀ p, r'.fills p = true → r.fills p = true := by
  have quiet : ∀ u : State, Change False s u → (∀ p, (u.capturePort p).line = (s.capturePort p).line) ∧
      (∀ n, (u.source n).phase = (s.source n).phase) ∧ (∀ j, (u.stream j).binding = (s.stream j).binding) ∧
      u.dram = s.dram ∧ ∀ j, i ≠ j → ∀ r', u.ring j = some r' →
        ∃ r, s.ring j = some r ∧ ∀ p, r'.fills p = true → r.fills p = true := fun u c =>
    ⟨c.input.line, fun n => (c.input.source n).1, fun j => (c.input.stream j).1, c.dram, fun j _ => c.fills j⟩
  have hc : Change False s (s.modStream i (fun r => { r with state := .capturing })) :=
    .calm (.modStream s i _ rfl (.inr rfl) (fun _ => ⟨rfl, rfl⟩))
  unfold streamFrameStart
  split
  · dsimp only
    split
    · exact quiet _ (hc.trans (.calm (.dropFrozen i _)))
    · split
      · exact quiet _ (hc.trans (.calm (.dropStore i _)))
      · unfold choosePosition
        split
        · refine ⟨fun _ => rfl, fun _ => rfl, fun j => ?_, rfl, fun j hij r' hr' => ⟨r', by simpa [hij] using hr', fun _ => id⟩⟩
          by_cases hij : i = j
          · subst hij; simp
          · simp [hij]
        · exact quiet _ (hc.trans (.calm (.dropStall i _)))
  · exact quiet s (.refl s)

/-- R4, R5: a frame start at a bound stream with no FILLING position, its source in the new frame with no line being collected. -/
theorem frameStarted {s : State} (t : Time) (i : StreamIx) (h : WriterLaw s) {b : Binding} {c : Nat}
    (hb : (s.stream i).binding = some b) (hp : (s.source b.source).phase = .inFrame c)
    (hc : collecting s b.source = false) (he : ∀ r p, s.ring i = some r → r.fills p = false) :
    WriterLaw (streamFrameStart t i s) := by
  have h1 : WriterLaw (s.modStream i (fun r => { r with state := .capturing })) :=
    h.kept i _ ⟨rfl, rfl⟩ (fun e => nomatch e)
  unfold streamFrameStart
  split
  · dsimp only
    split
    · exact h1.change (.calm (.dropFrozen i _))
    · split
      · exact h1.change (.calm (.dropStore i _))
      · unfold choosePosition
        split
        · rename_i p hp'
          simp only [modStream_ring_at] at hp'
          cases hr : s.ring i with
          | none => rw [hr] at hp'; exact nomatch hp'
          | some r =>
            have only : ∀ q, (r.begin p t).fills q = true → p = q := by
              intro q hq
              by_contra hpq
              have := he r q hr
              unfold Ring.fills Ring.begin Ring.setFill at hq
              simp only [getElem?_modify_ne _ r.slots hpq] at hq
              rw [show r.fills q = true from hq] at this
              exact nomatch this
            refine ⟨fun j x q q' hx hq hq' => ?_, fun j x q hx hq => ?_, h.known, h.counted, fun j b' hb' => ?_, h.formatted,
              h.asserted⟩
            · by_cases hij : i = j
              · subst hij
                simp only [modStream_ring_at, modRing_ring_same, hr, Option.map_some, Option.some.injEq] at hx
                subst hx
                exact (only q hq).symm.trans (only q' hq')
              · exact h.one j x q q' (by simpa [hij] using hx) hq hq'
            · by_cases hij : i = j
              · subst hij
                refine ⟨b, c, by simpa using hb, hp, ?_⟩
                show b.scale.k * _ + _ + (if collecting s b.source then 1 else 0) ≤ c
                simp [hc, Writer.initial]
              · obtain ⟨b', c', h2, h3, h4⟩ := h.filling j x q (by simpa [hij] using hx) hq
                refine ⟨b', c', by simpa [hij] using h2, h3, ?_⟩
                simp only [modStream_stream_ne _ _ _ _ hij, modRing_stream_at]
                exact h4
            · by_cases hij : i = j
              · subst hij
                obtain ⟨-, h2, h3⟩ := h.fits i b' (by simpa using hb')
                exact ⟨by simp, h2, h3⟩
              · obtain ⟨h2, h3⟩ := h.fits j b' (by simpa [hij] using hb')
                exact ⟨by simpa [hij] using h2, h3⟩
        · exact h1.change (.calm (.dropStall i _))
  · exact h

/-- R50: the frame start handed to the streams of a source. -/
theorem frameStartedEach (t : Time) (n : SourceIx) (c : Nat) (xs : List StreamIx) : ∀ s, WriterLaw s → xs.Nodup →
    (s.source n).phase = .inFrame c → collecting s n = false →
    (∀ i ∈ xs, (∃ b, (s.stream i).binding = some b ∧ b.source = n) ∧ ∀ r p, s.ring i = some r → r.fills p = false) →
    WriterLaw (xs.foldl (fun u i => streamFrameStart t i u) s) := by
  induction xs with
  | nil => exact fun s h _ _ _ _ => h
  | cons i xs ih =>
    intro s h hn hp hc hx
    obtain ⟨⟨b, hb, rfl⟩, he⟩ := hx i (List.mem_cons_self ..)
    obtain ⟨h1, h2, h3, -, h5⟩ := frameStart_rest t i s
    rw [List.nodup_cons] at hn
    refine ih _ (h.frameStarted t i hb hp hc he) hn.2 ((h2 _).trans hp) ?_ (fun j hj => ?_)
    · simpa only [collecting, h1] using hc
    · obtain ⟨⟨b', hb', hs⟩, he'⟩ := hx j (List.mem_cons_of_mem _ hj)
      refine ⟨⟨b', (h3 j).trans hb', hs⟩, fun r' p hr' => ?_⟩
      obtain ⟨r, hr, hf⟩ := h5 j (fun e => hn.1 (e ▸ hj)) r' hr'
      by_contra hq
      have := he' r p hr
      rw [hf p (by simpa using hq)] at this
      exact nomatch this

theorem boundStreams_nodup (s : State) (n : SourceIx) : (boundStreams s n).Nodup :=
  (List.nodup_finRange 20).filter _

/-- R50: an accepted start of a source that is out of a frame and set up, with no line being collected. -/
theorem acceptStart {s : State} (n : SourceIx) (h : WriterLaw s) (hp : ∀ c, (s.source n).phase ≠ .inFrame c)
    (hg : (s.source n).setup ≠ none) (hc : collecting s n = false) : WriterLaw (acceptStart n s) := by
  unfold Machine.acceptStart handOver
  have h1 : WriterLaw (s.modSource n (fun r => { r with
      state := .present, lastStart := some s.deviceTime, lossTimer := lossExpiry s.deviceTime r, phase := .inFrame 0,
      counters := { r.counters with accepted := satInc r.counters.accepted } })) := by
    refine h.phased n _ (fun c e => ?_) rfl (.inr hg) (h.out hp)
    obtain ⟨g, hg⟩ := Option.ne_none_iff_exists'.mp hg
    cases e
    exact ⟨g, hg, Nat.zero_le _⟩
  refine frameStartedEach _ n 0 _ _ h1 (boundStreams_nodup _ n) (by simp) hc (fun i hi => ⟨?_, ?_⟩)
  · exact mem_boundStreams.mp hi
  · exact h.out hp i hi

theorem frameStartEach_dram (t : Time) (xs : List StreamIx) : ∀ s : State,
    (xs.foldl (fun u i => streamFrameStart t i u) s).dram = s.dram := by
  induction xs with
  | nil => exact fun _ => rfl
  | cons i xs ih => exact fun s => (ih _).trans (frameStart_rest t i s).2.2.2.1

theorem rejectStart {s : State} (n : SourceIx) (h : WriterLaw s) (hp : ∀ c, (s.source n).phase ≠ .inFrame c) :
    WriterLaw (rejectStart n s) :=
  (h.phased n _ (fun _ e => FramePhase.noConfusion e) rfl (.inl rfl) (h.out hp)).change (.calm (.frameError _ n _))

/-- R50, R51: the old frame ended: the phase is OUT, and no line begins. -/
theorem endOldFrame {s : State} (n : SourceIx) (h : WriterLaw s) : WriterLaw (endOldFrame n s) ∧
    ((Machine.endOldFrame n s).source n).phase = .out ∧
    ((Machine.endOldFrame n s).source n).setup = (s.source n).setup ∧
    (∀ p, ((Machine.endOldFrame n s).capturePort p).line = (s.capturePort p).line) ∧
    (Machine.endOldFrame n s).dram = s.dram := by
  unfold Machine.endOldFrame
  split
  · have c : Change False (Machine.discardFrame .broken .out n s) (frameError .broken n (Machine.discardFrame .broken .out n s)) :=
      .calm (.frameError _ n _)
    refine ⟨(h.discardFrame _ _ n (fun _ => FramePhase.noConfusion)).change c, ?_, ?_, fun p => ?_, ?_⟩
    · rw [(c.input.source n).1, discardFrame_phase]
    · rw [(c.input.source n).2.1, discardFrame_setup]
    · rw [c.input.line, discardFrame_line]
    · rw [c.dram, discardFrame_dram]
  · rename_i hp
    exact ⟨h.phased n (fun r => { r with phase := .out }) (fun _ e => nomatch e) rfl (.inl rfl) (h.out (by rw [hp]; exact fun _ e => nomatch e)),
      by simp, by simp, fun _ => rfl, rfl⟩
  · rename_i hp
    exact ⟨h, hp, rfl, fun _ => rfl, rfl⟩

/-- R50, R52: a start judged of a source out of a frame. -/
theorem judgeStart {s : State} (n : SourceIx) (h : WriterLaw s) (hp : ∀ c, (s.source n).phase ≠ .inFrame c)
    (hg : (s.source n).setup ≠ none) (hc : collecting s n = false) :
    WriterLaw (judgeStart n s) ∧ (Machine.judgeStart n s).dram = s.dram := by
  unfold Machine.judgeStart
  split
  · split
    · refine ⟨h.rejectStart n hp, ?_⟩
      exact (Change.calm (.frameError _ n _)).dram
    · exact ⟨h.acceptStart n hp hg hc, frameStartEach_dram _ _ _⟩
  · have c : Change False (s.modSource n (fun r => { r with state := .present }))
        (raise (.sourcePresent n) (s.modSource n (fun r => { r with state := .present }))) := .raised _ _
    have h1 : WriterLaw (s.modSource n (fun r => { r with state := .present })) :=
      h.phased n _ (fun k e => absurd e (hp k)) rfl (.inr hg) (h.out hp)
    refine ⟨(h1.change c).acceptStart n (fun k => ?_) ?_ ?_, ?_⟩
    · rw [(c.input.source n).1, modSource_source_same]; exact hp k
    · rw [(c.input.source n).2.1, modSource_source_same]; exact hg
    · rw [c.input.collecting]; exact hc
    · exact (frameStartEach_dram _ _ _).trans c.dram

/-- R50 to R52: a frame start marker with no line of the source being collected. -/
theorem captureFrameStart {s : State} (port index : CaptureIx) (h : WriterLaw s)
    (hc : collecting s (sourceOf port index) = false) :
    WriterLaw (captureFrameStart port index s) ∧ (Machine.captureFrameStart port index s).dram = s.dram := by
  unfold Machine.captureFrameStart
  dsimp only
  split
  · exact ⟨h.change (.calm (.unclaimed port index s)), rfl⟩
  · rename_i hs
    obtain ⟨h1, h2, h3, h4, h5⟩ := h.endOldFrame (sourceOf port index)
    obtain ⟨h6, h7⟩ := h1.judgeStart (sourceOf port index) (by rw [h2]; exact fun _ => FramePhase.noConfusion)
      (by rw [h3]; exact h.known _ hs) (by simpa only [collecting, h4] using hc)
    exact ⟨h6, h7.trans h5⟩

/-! ### Lines and the end of a frame -/

theorem portOf_sourceOf (port index : CaptureIx) : portOf (sourceOf port index) = port := by
  apply Fin.ext; simp only [portOf, sourceOf]; omega

theorem localOf_sourceOf (port index : CaptureIx) : localOf (sourceOf port index) = index := by
  apply Fin.ext; simp only [localOf, sourceOf]; omega

/-- No line stands on a port: none of its sources is being collected. -/
theorem collecting_none {s : State} {port : CaptureIx} (h : (s.capturePort port).line = none) (index : CaptureIx) :
    collecting s (sourceOf port index) = false := by
  simp [collecting, portOf_sourceOf, h]

/-- R53: a line start marker with no line being collected on the port. -/
theorem lineStart {s : State} (port index : CaptureIx) (data : List Byte) (h : WriterLaw s)
    (hl : (s.capturePort port).line = none) :
    WriterLaw (lineStart port index data s) ∧ (Machine.lineStart port index data s).dram = s.dram := by
  unfold Machine.lineStart
  dsimp only
  split
  · exact ⟨h.change (.calm (.unclaimed port index s)), rfl⟩
  · exact ⟨h.change (.calm (.unclaimed port index s)), rfl⟩
  · exact ⟨h, rfl⟩
  · rename_i g c hg hp
    split
    · have k : Change False (Machine.discardFrame .long .skipping (sourceOf port index) s)
          (frameError .long (sourceOf port index) (Machine.discardFrame .long .skipping (sourceOf port index) s)) :=
        .calm (.frameError _ _ _)
      exact ⟨(h.discardFrame _ _ _ (fun _ => FramePhase.noConfusion)).change k, k.dram.trans (discardFrame_dram _ _ _ _)⟩
    · rename_i hc
      refine ⟨⟨h.one, fun i r p hr hf => ?_, fun m => ?_, fun m c' => ?_, fun i b hi => ?_, h.formatted, h.asserted⟩, rfl⟩
      · obtain ⟨b, c', hb, hc', hx⟩ := h.filling i r p hr hf
        by_cases hn : sourceOf port index = b.source
        · rw [← hn, hp] at hc'
          cases hc'
          refine ⟨b, c + 1, hb, by simp [← hn], ?_⟩
          rw [← hn, collecting_none hl] at hx
          have : ∀ x : Nat, (if x = 1 then 1 else 0) ≤ 1 := fun x => by split <;> omega
          show b.scale.k * (s.stream i).writer.stored + (s.stream i).writer.group.length + (if _ then 1 else 0) ≤ c + 1
          split <;> simp at hx <;> omega
        · refine ⟨b, c', hb, by simpa [hn] using hc', ?_⟩
          have hcol : ∀ u : State, collecting (u.modCapturePort port (fun p => { p with line := some (index, data) })) b.source =
              if port = portOf b.source then decide (index = localOf b.source) else collecting u b.source := by
            intro u
            unfold collecting
            split
            · rename_i hq; subst hq; simp
            · rename_i hq; simp [hq]
          show b.scale.k * (s.stream i).writer.stored + (s.stream i).writer.group.length +
            (if collecting (State.modCapturePort _ port _) b.source then 1 else 0) ≤ c'
          rw [hcol]
          split
          · rename_i hq
            subst hq
            have : index ≠ localOf b.source := by
              rintro rfl
              apply hn
              apply Fin.ext
              simp only [sourceOf, portOf, localOf]
              omega
            simp only [this, decide_false, Bool.false_eq_true, if_false]
            omega
          · exact hx
      · by_cases hnm : sourceOf port index = m
        · subst hnm; simpa using h.known _
        · simpa [hnm] using h.known m
      · by_cases hnm : sourceOf port index = m
        · subst hnm
          intro e
          simp only [modCapturePort_source_at, modSource_source_same, FramePhase.inFrame.injEq] at e ⊢
          exact ⟨g, hg, by omega⟩
        · simpa [hnm] using h.counted m c'
      · obtain ⟨h1, h2, g', f, hg', hx⟩ := h.fits i b hi
        refine ⟨h1, h2, g', f, ?_, hx⟩
        by_cases hn : sourceOf port index = b.source
        · rw [← hn] at hg' ⊢; simpa using hg'
        · simpa [hn] using hg'

/-- R55: a frame end marker. -/
theorem frameEnd {s : State} (port index : CaptureIx) (h : WriterLaw s) :
    WriterLaw (frameEnd port index s) ∧ (Machine.frameEnd port index s).dram = s.dram := by
  unfold Machine.frameEnd
  dsimp only
  split
  · exact ⟨h.change (.calm (.unclaimed port index s)), rfl⟩
  · exact ⟨h.change (.calm (.unclaimed port index s)), rfl⟩
  · rename_i hp
    exact ⟨h.phased _ _ (fun _ => FramePhase.noConfusion) rfl (.inl rfl)
      (h.out (by rw [hp]; exact fun _ => FramePhase.noConfusion)), rfl⟩
  · split
    · have hc : ∀ i u, Change False u (streamComplete i u) := fun i u => .calm (.streamComplete i u)
      have h1 : Change False s (handOver (sourceOf port index) streamComplete s) := Change.each hc _ s
      refine ⟨(h.change h1).phased _ _ (fun _ => FramePhase.noConfusion) rfl (.inl rfl) (fun i hi r p hr => ?_), h1.dram⟩
      obtain ⟨b, hb, he⟩ := mem_boundStreams.mp hi
      have hm : i ∈ boundStreams s (sourceOf port index) := mem_boundStreams.mpr ⟨b, (h1.input.stream i).1.symm.trans hb, he⟩
      exact emptied hc (fun i u hu r p => hu.complete_empties i r p) _ s h i hm r p hr
    · have k : Change False (Machine.discardFrame .short .out (sourceOf port index) s)
          (frameError .short (sourceOf port index) (Machine.discardFrame .short .out (sourceOf port index) s)) :=
        .calm (.frameError _ _ _)
      exact ⟨(h.discardFrame _ _ _ (fun _ => FramePhase.noConfusion)).change k, k.dram.trans (discardFrame_dram _ _ _ _)⟩

/-- R56: the expiry of a source's loss timer. -/
theorem sourceLoss {s : State} (n : SourceIx) (h : WriterLaw s) (hs : (s.source n).state = .present) :
    WriterLaw (sourceLoss n s) ∧ (Machine.sourceLoss n s).dram = s.dram := by
  have hl : WriterLaw (loseFrame n s) ∧ (∀ c, ((loseFrame n s).source n).phase ≠ .inFrame c) ∧
      ((loseFrame n s).source n).setup = (s.source n).setup ∧ (loseFrame n s).dram = s.dram := by
    unfold loseFrame
    split
    · exact ⟨h.discardFrame _ _ n (fun _ => FramePhase.noConfusion), by simp [discardFrame_phase], discardFrame_setup _ _ n s,
        discardFrame_dram _ _ n s⟩
    · rename_i hp
      exact ⟨h, hp, rfl, rfl⟩
  obtain ⟨h1, h2, h3, h4⟩ := hl
  have h5 : WriterLaw ((loseFrame n s).modSource n (fun r => { r with state := .lost, lossTimer := none })) :=
    h1.phased n _ (fun c e => absurd e (h2 c)) rfl (.inr (by rw [h3]; exact h.known n (by rw [hs]; nofun))) (h1.out h2)
  have c : Change False ((loseFrame n s).modSource n (fun r => { r with state := .lost, lossTimer := none }))
      (Machine.sourceLoss n s) :=
    (Change.each (fun i u => .calm (.retireOnLoss i u)) _ _).trans (.raised _ _)
  exact ⟨h5.change c, c.dram.trans h4⟩

/-! ### The line of a good frame -/

/-- The bytes of a line of pixel pairs: four bytes each. -/
theorem pairs_length (n : Nat) (f g h k : Nat → Byte) :
    ((List.range n).flatMap (fun q => [f q, g q, h q, k q])).length = 4 * n := by
  induction n with
  | zero => rfl
  | succ n ih => rw [List.range_succ, List.flatMap_append, List.length_append, ih]; simp; omega

/-- R24: a stored line has two bytes a pixel. -/
theorem storedLine_length {sc : Scale} {w : Nat} {group : List (List Byte)} (h : sc = .full → (group.headD []).length = 2 * w) :
    (storedLine sc w group).length = 2 * w := by
  have : ∀ k, ((List.range (w / 2)).flatMap (fun q =>
      [groupMean cbAt group (span (k * q) k), storedLuma k group (2 * q),
       groupMean crAt group (span (k * q) k), storedLuma k group (2 * q + 1)])
    ++ (if w % 2 = 1 then [groupMean cbAt group (lonePairs k (w - 1)), storedLuma k group (w - 1)] else [])).length = 2 * w := by
    intro k
    rw [List.length_append, pairs_length]
    split <;> simp <;> omega
  cases sc with
  | full => exact h rfl
  | half => exact this 2
  | third => exact this 3

/-- R54: a line of the stream's source has just ended: the frame has begun one more line than its FILLING position has taken. -/
def LineDue (s : State) (n : SourceIx) (i : StreamIx) : Prop :=
  ∀ r p, s.ring i = some r → r.fills p = true → ∃ b c, (s.stream i).binding = some b ∧ b.source = n ∧
    (s.source n).phase = .inFrame c ∧
    b.scale.k * (s.stream i).writer.stored + (s.stream i).writer.group.length + 1 ≤ c

/-- R6, R124: the line stored lies in the slot of the FILLING position. -/
theorem lineStore_range {s : State} (h : WriterLaw s) {n : SourceIx} {i : StreamIx} {g : SourceSetup} {line : List Byte}
    (hg : (s.source n).setup = some g) (hl : line.length = 2 * g.width) (hd : LineDue s n i) {a : Nat} {bytes : List Byte}
    (he : lineStore line i s = some (a, bytes)) :
    ∃ r p x f, s.ring i = some r ∧ r.slots[p]? = some x ∧ r.fills p = true ∧ s.store.format = some f ∧
      x.pool * f.bytes ≤ a ∧ a + bytes.length ≤ (x.pool + 1) * f.bytes := by
  unfold lineStore at he
  split at he
  · rename_i b r f hb hr hf
    split at he
    · exact nomatch he
    · rename_i p hp
      dsimp only at he
      split at he
      · rename_i hk
        simp only [Option.some.injEq, Prod.mk.injEq] at he
        obtain ⟨rfl, rfl⟩ := he
        have hfill := Ring.filling_fills hp
        obtain ⟨x, hx, -⟩ := r.filling_spec hp
        refine ⟨r, p, x, f, hr, hx, hfill, hf, ?_, ?_⟩
        · simp [lineAddress, hx]
        · obtain ⟨b', c, hb', rfl, hc, hroom⟩ := hd r p hr hfill
          rw [hb, Option.some.injEq] at hb'
          subst hb'
          obtain ⟨-, -, g', f', hg', hf', hw, hh, hwf, hhf⟩ := h.fits i b hb
          rw [hg, Option.some.injEq] at hg'
          rw [hf, Option.some.injEq] at hf'
          subst hg' hf'
          obtain ⟨g', hg', hch⟩ := h.counted _ c hc
          rw [hg, Option.some.injEq] at hg'
          subst hg'
          have hkp : 0 < b.scale.k := by cases b.scale <;> decide
          have hrow : (s.stream i).writer.stored + 1 ≤ f.height := by
            refine Nat.le_trans ?_ hhf
            rw [hh, Nat.le_div_iff_mul_le hkp, Nat.mul_comm, Nat.mul_succ]
            simp only [List.length_append, List.length_singleton] at hk
            omega
          have hlen : (storedLine b.scale b.storedWidth ((s.stream i).writer.group ++ [line])).length = 2 * b.storedWidth := by
            refine storedLine_length (fun e => ?_)
            have hk1 : b.scale.k = 1 := by rw [e]; rfl
            rw [hk1, List.length_append, List.length_singleton] at hk
            rw [List.length_eq_zero_iff.mp (show (s.stream i).writer.group.length = 0 by omega), hw, hk1, Nat.div_one]
            exact hl
          rw [hlen]
          simp only [lineAddress, hx, Option.map_some, Option.getD_some]
          have : ((s.stream i).writer.stored + 1) * (f.width * 2) ≤ f.bytes := by
            rw [show f.bytes = f.height * (f.width * 2) by unfold SlotFormat.bytes; ring]
            exact Nat.mul_le_mul_right _ hrow
          rw [Nat.add_mul, Nat.one_mul] at this ⊢
          omega
      · exact nomatch he
  · exact nomatch he

/-- R24, R25: a line taken by one stream: the law holds, and only that stream's record and the memory change. -/
theorem lineTaken {s : State} (line : List Byte) {n : SourceIx} (i : StreamIx) (h : WriterLaw s) (hc : collecting s n = false)
    (hd : LineDue s n i) : WriterLaw (streamLine line i s) ∧
      (∀ p, (streamLine line i s).capturePort p = s.capturePort p) ∧
      (∀ m, (streamLine line i s).source m = s.source m) ∧
      (∀ j, (streamLine line i s).ring j = s.ring j) ∧ (streamLine line i s).store = s.store ∧
      ∀ j, i ≠ j → (streamLine line i s).stream j = s.stream j := by
  have key : ∀ f : Writer → Writer,
      (∀ b, (s.stream i).binding = some b → b.scale.k * (f (s.stream i).writer).stored + (f (s.stream i).writer).group.length ≤
        b.scale.k * (s.stream i).writer.stored + (s.stream i).writer.group.length + 1) →
      WriterLaw (s.modStream i (fun r => { r with writer := f r.writer })) := by
    intro f hf
    refine ⟨h.one, fun j r p hr hp => ?_, h.known, h.counted, fun j b hb => ?_, h.formatted, h.asserted⟩
    · by_cases hij : i = j
      · subst hij
        obtain ⟨b, c, hb, rfl, hp', hx⟩ := hd r p hr hp
        refine ⟨b, c, by simpa using hb, hp', ?_⟩
        show b.scale.k * _ + _ + (if collecting s b.source then 1 else 0) ≤ c
        have := hf b hb
        simp only [modStream_stream_same, hc, Bool.false_eq_true, if_false]
        omega
      · obtain ⟨b, c, hb, hp', hx⟩ := h.filling j r p hr hp
        refine ⟨b, c, by simpa [hij] using hb, hp', ?_⟩
        rw [modStream_stream_ne _ _ _ _ hij]
        exact hx
    · by_cases hij : i = j
      · subst hij; simpa using h.fits i b (by simpa using hb)
      · simpa [hij] using h.fits j b (by simpa [hij] using hb)
  have other : ∀ (f : Stream → Stream) j, i ≠ j → (s.modStream i f).stream j = s.stream j := fun f j hij => by simp [hij]
  unfold streamLine
  split
  · split
    · rename_i a bytes he
      refine ⟨?_, fun _ => rfl, fun _ => rfl, fun _ => rfl, rfl,
        fun j hij => (other (fun r => { r with writer := ⟨[], r.writer.stored + 1⟩ }) j hij :)⟩
      refine (key (fun w => ⟨[], w.stored + 1⟩) (fun b hb => ?_)).of_same (fun _ => rfl) (fun _ => rfl) (fun _ => rfl)
        (fun _ => rfl) rfl rfl
      unfold lineStore at he
      split at he
      · rename_i b' r f hb' hr hf
        rw [hb, Option.some.injEq] at hb'
        subst hb'
        split at he
        · exact nomatch he
        · dsimp only at he
          split at he
          · rename_i hk
            simp only [List.length_append, List.length_singleton, List.length_nil, Nat.mul_succ] at hk ⊢
            omega
          · exact nomatch he
      · exact nomatch he
    · refine ⟨key (fun w => { w with group := w.group ++ [line] }) (fun b hb => ?_), fun _ => rfl, fun _ => rfl, fun _ => rfl,
        rfl, other _⟩
      simp only [List.length_append, List.length_singleton]
      omega
  · exact ⟨h, fun _ => rfl, fun _ => rfl, fun _ => rfl, rfl, fun _ _ => rfl⟩

/-- The byte at an address stands in no slot of a FILLING position. -/
def OutsideFills (s : State) (a : Nat) : Prop :=
  ∀ i r p x f, s.ring i = some r → r.slots[p]? = some x → r.fills p = true → s.store.format = some f →
    a < x.pool * f.bytes ∨ (x.pool + 1) * f.bytes ≤ a

/-- R6: a line taken by one stream changes no byte outside the slots of FILLING positions. -/
theorem lineTaken_dram {s : State} {line : List Byte} {n : SourceIx} {i : StreamIx} {g : SourceSetup} (h : WriterLaw s)
    (hg : (s.source n).setup = some g) (hl : line.length = 2 * g.width) (hd : LineDue s n i)
    (hm : Memory.wf s.dram = true) :
    Memory.wf (streamLine line i s).dram = true ∧
      ∀ a, OutsideFills s a → (streamLine line i s).dram.read a = s.dram.read a := by
  unfold streamLine
  split
  · split
    · rename_i a0 bytes he
      obtain ⟨r, p, x, f, hr, hx, hp, hf, h1, h2⟩ := h.lineStore_range hg hl hd he
      refine ⟨Memory.wf_writeBytes bytes a0 hm, fun a ha => Memory.read_writeBytes_outside bytes a0 a hm ?_⟩
      rcases ha i r p x f hr hx hp hf with ha | ha
      · exact .inl (by omega)
      · exact .inr (by omega)
    · exact ⟨hm, fun _ _ => rfl⟩
  · exact ⟨hm, fun _ _ => rfl⟩

/-- R54: a good line handed to the streams of its source. -/
theorem lineTakenEach (line : List Byte) (n : SourceIx) (g : SourceSetup) (xs : List StreamIx) : ∀ s, WriterLaw s → xs.Nodup →
    (s.source n).setup = some g → line.length = 2 * g.width → collecting s n = false → (∀ i ∈ xs, LineDue s n i) →
    WriterLaw (xs.foldl (fun u i => streamLine line i u) s) ∧
      (∀ p, (xs.foldl (fun u i => streamLine line i u) s).capturePort p = s.capturePort p) ∧
      (Memory.wf s.dram = true → ∀ a, OutsideFills s a →
        (xs.foldl (fun u i => streamLine line i u) s).dram.read a = s.dram.read a) := by
  induction xs with
  | nil => exact fun s h _ _ _ _ _ => ⟨h, fun _ => rfl, fun _ _ _ => rfl⟩
  | cons i xs ih =>
    intro s h hn hg hl hc hd
    rw [List.nodup_cons] at hn
    have hi := hd i (List.mem_cons_self ..)
    obtain ⟨h1, h2, h3, h4, h5, h6⟩ := h.lineTaken line i hc hi
    obtain ⟨k1, k2, k3⟩ := ih (streamLine line i s) h1 hn.2 (by rw [h3]; exact hg) hl (by simpa only [collecting, h2] using hc)
      (fun j hj r p hr hp => by
        have hij : i ≠ j := fun e => hn.1 (e ▸ hj)
        obtain ⟨b, c, hb, hx⟩ := hd j (List.mem_cons_of_mem _ hj) r p (by rw [← h4]; exact hr) hp
        exact ⟨b, c, by rw [h6 j hij]; exact hb, by rw [h6 j hij, h3]; exact hx⟩)
    refine ⟨k1, fun p => (k2 p).trans (h2 p), fun hm a ha => ?_⟩
    obtain ⟨hm', hr⟩ := h.lineTaken_dram hg hl hi hm
    have ha' : OutsideFills (streamLine line i s) a := fun j r p x f hr hx hp hf =>
      ha j r p x f (by rw [← h4]; exact hr) hx hp (by rw [← h5]; exact hf)
    exact (k3 hm' a ha').trans (hr a ha)

/-- The line on a port cleared: the law holds, and each stream of its source has a line due. -/
theorem lineCleared {s : State} (port : CaptureIx) (h : WriterLaw s) :
    WriterLaw (s.modCapturePort port (fun c => { c with line := none })) := by
  refine ⟨h.one, fun i r p hr hp => ?_, h.known, h.counted, h.fits, h.formatted, h.asserted⟩
  obtain ⟨b, c, hb, hc, hx⟩ := h.filling i r p hr hp
  refine ⟨b, c, hb, hc, ?_⟩
  have : collecting (s.modCapturePort port (fun c => { c with line := none })) b.source = true → collecting s b.source = true := by
    intro hq
    by_cases hpo : port = portOf b.source
    · subst hpo; simp [collecting] at hq
    · simpa [collecting, hpo] using hq
  show b.scale.k * (s.stream i).writer.stored + (s.stream i).writer.group.length + _ ≤ c
  split at hx
  · split <;> omega
  · rename_i hn
    rw [if_neg (fun hq => hn (this hq))]
    exact hx

/-- R46, R54: the line that ends at a marker: the law holds, no line stands on the port, and no byte changes outside the slots of
FILLING positions. -/
theorem closeLine {s : State} (port : CaptureIx) (h : WriterLaw s) : WriterLaw (closeLine port s) ∧
    ((Machine.closeLine port s).capturePort port).line = none ∧
    (Memory.wf s.dram = true → ∀ a, OutsideFills s a → (Machine.closeLine port s).dram.read a = s.dram.read a) := by
  unfold Machine.closeLine
  split
  · rename_i hl
    exact ⟨h, hl, fun _ _ _ => rfl⟩
  · rename_i index data hl
    have hc := h.lineCleared port
    have hnone : ((s.modCapturePort port (fun c => { c with line := none })).capturePort port).line = none := by simp
    dsimp only
    split
    · rename_i c g hp hg
      split
      · rename_i hlen
        unfold handOver
        obtain ⟨h1, h2, h3⟩ := lineTakenEach data (sourceOf port index) g _ _ hc (boundStreams_nodup _ _) hg hlen
          (collecting_none hnone index) (fun i hi r p hr hf => by
            obtain ⟨b, hb, hn⟩ := mem_boundStreams.mp hi
            obtain ⟨b', c', hb', hc', hx⟩ := h.filling i r p hr hf
            rw [show (s.stream i).binding = some b from hb, Option.some.injEq] at hb'
            subst hb'
            refine ⟨b, c', hb, hn, by rw [← hn]; exact hc', ?_⟩
            have : collecting s b.source = true := by
              rw [hn]; simp [collecting, portOf_sourceOf, localOf_sourceOf, hl]
            rw [this, if_pos rfl] at hx
            exact hx)
        exact ⟨h1, (congrArg CapturePort.line (h2 port)).trans hnone, h3⟩
      · have k : Change False (Machine.discardFrame .badLine .skipping (sourceOf port index)
            (s.modCapturePort port (fun c => { c with line := none })))
            (frameError .badLine (sourceOf port index) (Machine.discardFrame .badLine .skipping (sourceOf port index)
              (s.modCapturePort port (fun c => { c with line := none })))) := .calm (.frameError _ _ _)
        refine ⟨(hc.discardFrame _ _ _ (fun _ => FramePhase.noConfusion)).change k, ?_, fun _ a _ => ?_⟩
        · rw [k.input.line, discardFrame_line]; exact hnone
        · rw [k.dram, discardFrame_dram]; rfl
    · exact ⟨hc, hnone, fun _ _ _ => rfl⟩

/-- R46: what a marker does: its line ends, and then it acts, which stores nothing. -/
theorem marker {s t : State} {port : CaptureIx} {act : State → State} (h : WriterLaw s) (e : marker port act s = .next t)
    (ha : ∀ u, WriterLaw u → (u.capturePort port).line = none → WriterLaw (act u) ∧ (act u).dram = u.dram) :
    WriterLaw t ∧ (Memory.wf s.dram = true → ∀ a, OutsideFills s a → t.dram.read a = s.dram.read a) := by
  unfold Machine.marker at e
  split at e
  · cases e
    exact ⟨h, fun _ _ _ => rfl⟩
  · split at e
    · cases e
      obtain ⟨h1, h2, h3⟩ := h.closeLine port
      obtain ⟨k1, k2⟩ := ha _ h1 h2
      exact ⟨k1, fun hm a ho => by rw [k2]; exact h3 hm a ho⟩
    · exact nomatch e

end WriterLaw

/-! ### What keeps a completed frame apart from the writer -/

/-- R1, R124: two places of the rings that name the same pool slot are the same place. -/
theorem PoolLaw.distinct {s : State} (h : PoolLaw s) {i j : StreamIx} {r q : Ring} {p k : Nat} {x y : Slot}
    (hr : s.ring i = some r) (hq : s.ring j = some q) (hx : r.slots[p]? = some x) (hy : q.slots[k]? = some y)
    (he : x.pool = y.pool) : i = j ∧ p = k := by
  have hc : ((List.finRange 20).flatMap (fun i => poolsOf (s.ring i))).Nodup := by
    rw [List.nodup_iff_count_le_one]
    intro n
    have := h.1 n
    unfold slotUses at this
    rw [List.count_flatMap]
    simp only [Function.comp_def]
    split at this <;> omega
  rw [List.nodup_flatMap] at hc
  have hxm : x.pool ∈ poolsOf (s.ring i) := by
    rw [hr]; exact List.mem_map_of_mem (List.mem_of_getElem? hx)
  have hym : y.pool ∈ poolsOf (s.ring j) := by
    rw [hq]; exact List.mem_map_of_mem (List.mem_of_getElem? hy)
  have hij : i = j := by
    have apart : ∀ a b : StreamIx, a < b → List.Disjoint (poolsOf (s.ring a)) (poolsOf (s.ring b)) := fun a b hab => by
      simpa [Function.onFun] using List.pairwise_iff_getElem.mp hc.2 a.val b.val (by simp) (by simp) hab
    by_contra hij
    rcases lt_or_gt_of_ne hij with hlt | hlt
    · exact apart i j hlt hxm (he ▸ hym)
    · exact apart j i hlt (he ▸ hym) hxm
  subst hij
  rw [hr, Option.some.injEq] at hq
  subst hq
  have hn := hc.1 i (List.mem_finRange i)
  rw [hr] at hn
  refine ⟨rfl, ?_⟩
  obtain ⟨hp, hx'⟩ := List.getElem?_eq_some_iff.mp hx
  obtain ⟨hk, hy'⟩ := List.getElem?_eq_some_iff.mp hy
  refine (List.Nodup.getElem_inj_iff (i := p) (j := k) hn (hi := by simpa [poolsOf] using hp) (hj := by simpa [poolsOf] using hk)).mp ?_
  simp [poolsOf, hx', hy', he]

end Sys2Proof.Machine
end

