-- ==== Sys2Proof/Tests/Slice0.lean ====
section
/-! SUPPORT. Tests: what WellFormed refuses, values the manual writes out, small steps, and for every statement with hypotheses
a state and operands that meet them, clause by clause, at the ends of their ranges. -/

namespace Sys2Proof.Tests

open Sys2Proof Sys2Proof.Machine

set_option Elab.async false

/-! ### Small states -/

/-- The block released, its store READY in 128 MiB with the default pool. -/
def ready : State :=
  { State.reset with resetAsserted := false, store := ⟨.ready, some 128, some ⟨1920, 1088⟩, 32, List.range 32⟩ }

/-- One request waiting for the dispatcher. -/
def asking (k : Kind) (tag : Tag) (body : List Byte) (s : State) : State :=
  s.modLink (fun u => { u with inbound := [⟨k.code, tag, body⟩] })

/-- One operation outstanding. -/
def holding (tag : Tag) (op : Pending) (s : State) : State := s.modLink (fun u => { u with outstanding := [⟨tag, op⟩] })

/-- The smallest source geometry, at the shortest period. -/
def smallSource : SourceSetup := ⟨64, 32, 10, 2⟩

/-- Source 15 with the small setup. -/
def sourced (st : SourceState) (ph : FramePhase) (s : State) : State :=
  s.modSource 15 (fun u => { u with state := st, setup := some smallSource, phase := ph })

/-- A ring of two positions over pool slots 30 and 31. -/
def twoSlots (a b : Fill) (order : List Nat) : Ring := ⟨[⟨30, a, 0⟩, ⟨31, b, 0⟩], order, 2⟩

/-- Stream 19 bound to source 15 at FULL scale with the ring given. -/
def bound (st : StreamState) (fz : FreezeState) (policy : LossPolicy) (r : Ring) (s : State) : State :=
  ((sourced .present .out s).modStream 19 (fun u => { u with
    state := st, freeze := fz, binding := some ⟨15, .full, 64, 32, 2, policy⟩ })).setRing 19 (some r)

def emptyRing : Ring := twoSlots .empty .empty []
def fillingRing : Ring := twoSlots (.filling 0) .empty []
def shownRing : Ring := twoSlots .empty (.ready 1 0) [1]

/-- The smallest lane setup. -/
def smallLane (mode : ListMode) (stamp : Bool) : LaneSetup := ⟨96, 64, 10, mode, stamp, .default⟩

/-- A lane routed to port 2, with the small setup. -/
def laned (l : LaneIx) (st : LaneState) (s : State) : State :=
  (s.modLane l (fun u => { u with state := st, setup := some (smallLane .cycle true), port := some 2 })).modOutPort 2
    (fun u => { u with carried := u.carried ++ [l] })

def roled (l : LaneIx) (r : LockRole) (s : State) : State := s.modLock l (fun u => { u with role := r })

def listed (es : List ListEntry) (s : State) : State := s.modList 5 (fun u => { u with active := es })

/-- A BLANK FULL entry shown for one frame. -/
def blankEntry : ListEntry := ⟨.blank .full, some 1⟩

def aNotice (q : Half) : Notice := ⟨q, 0, .start .soft⟩

def noticed (sent waiting : List Notice) (s : State) : State :=
  { s with notices := { s.notices with transmitted := sent, untransmitted := waiting } }

/-! ### WellFormed -/

theorem test_wellFormed_bodyOf240 : (Instr.status 0 (List.replicate 240 0)).wellFormed = true := by decide +kernel
theorem test_illFormed_longBody : (Instr.status 0 (List.replicate 241 0)).wellFormed = false := by decide +kernel
theorem test_illFormed_longUnknownBody : (Instr.unknownRequest 0x1C 0 (List.replicate 241 0)).wellFormed = false := by decide +kernel
theorem test_illFormed_knownKindAsUnknown : (Instr.unknownRequest 0x1B 0 []).wellFormed = false := by decide +kernel
theorem test_wellFormed_unknownKinds :
    (Instr.unknownRequest 0x1C 0 []).wellFormed = true ∧ (Instr.unknownRequest 0x00 0 []).wellFormed = true := by decide +kernel
theorem test_illFormed_markerInLine : (Instr.lineStart 3 3 [0x0C, 0x0B]).wellFormed = false := by decide +kernel
theorem test_wellFormed_line : (Instr.lineStart 3 3 [0x0C, 0xFF]).wellFormed = true := by decide +kernel

/-! ### Values the manual writes out -/

theorem test_kindCodes : Kind.streamBind.code = 0x01 ∧ Kind.noticeResend.code = 0x1B := by decide +kernel

/-- R136: the ends of the range of demands. -/
theorem test_demands : demand 10 1 = 360 ∧ demand 2000 3 = 1 ∧ demand 40 1 = 90 := by decide +kernel

/-- R152, R168: a frame is the sync byte, the header, the body and the check, low byte first. -/
theorem test_frameOfNoBody : frameBytes 0x14 0x07 0 [] = [0xA5, 0x14, 0x07, 0, 0] ++ u16 (crc16 [0x14, 0x07, 0, 0]).toNat := by
  decide +kernel

/-! ### Small steps -/

/-- From a hard reset the release begins bring-up, and the three successes make the store READY (R125, R126). -/
theorem test_bringup : ∃ s1 s2 s3 s4, exec .resetNRelease State.reset = .next s1 ∧ exec (.bringupProbeDone true) s1 = .next s2 ∧
    exec (.bringupTrainingDone true) s2 = .next s3 ∧ exec (.bringupSizingDone 128) s3 = .next s4 ∧
    s4.store = ready.store := ⟨_, _, _, _, rfl, rfl, rfl, rfl, by decide +kernel⟩

/-- A request frame on the wire waits for the dispatcher with its tag. -/
theorem test_frameIsQueued : ∃ s1, exec (.inboundFrame (frameBytes 0x14 0x07 0 [])) ready = .next s1 ∧
    s1.link.inbound = [⟨0x14, 0x07, []⟩] := ⟨_, rfl, by decide +kernel⟩

/-- R168, R144: after a reset the idle byte stands on LSDO, which is not driven once LCS_N is high; the arbiter starts a reply with
the sync byte. -/
theorem test_lsdo : State.reset.lsdo = some 0xFF ∧ ({ ready with lcsLow := false } : State).lsdo = none ∧
    ∃ s1, exec .outboundFrameStart (ready.modLink (fun u => { u with replies := [⟨0x94, 7, .first, .ok, []⟩] })) = .next s1 ∧
      s1.lsdo = some 0xA5 := ⟨by decide +kernel, by decide +kernel, _, rfl, by decide +kernel⟩

/-- R46, R175: data before the first marker, then a frame start of index 3, a line start of index 0 with two bytes, and a frame end
of index 3; no pixel byte is a marker. -/
theorem test_captureCommands : captureCommands 2 [0x0C, 0x03, 0x04, 0x80, 0xFF, 0x0B] =
    ([0x0C], [.captureFrameStart 2 3, .lineStart 2 0 [0x80, 0xFF], .frameEnd 2 3]) := by decide +kernel
theorem test_pixelIsNoMarker : ∀ b : Byte, isPixelByte b = true → markerCommand 1 b [] = none := by decide +kernel

/-- A tick on an empty queue. -/
theorem test_tick : ∃ s1, step ready = .next s1 ∧ s1.deviceTime = 1 := ⟨_, rfl, by decide +kernel⟩

/-! ### Witnesses: states and operands that meet the hypotheses of the statements, clause by clause -/

theorem witness_StepRunsFrontCommand :
    ({ ready with pending := [.lcsNRise] } : State).pending = Instr.lcsNRise :: [] ∧ ready.pending = [] := by decide +kernel

theorem witness_ResetEdges :
    State.reset.resetAsserted = true ∧ (∀ c : Instr, c = .identify 7 [] → c ≠ .resetNAssert ∧ c ≠ .resetNRelease ∧ c ≠ .lcsNRise) ∧
      ready.resetAsserted = false := by
  refine ⟨by decide +kernel, fun c h => ?_, by decide +kernel⟩
  subst h; decide

theorem witness_SoftReset :
    WaitingFor (asking .reset 7 [] ready) .reset 7 [] ∧ ready.store.state = .ready ∧
      (let s := asking .reset 255 [] { ready with store := ⟨.bringup .sizing 40, none, none, 0, []⟩ }
       WaitingFor s .reset 255 [] ∧ s.store.state = .bringup .sizing 40) ∧
      (let s := asking .reset 0 [] { ready with store := { ready.store with state := .fault .access } }
       WaitingFor s .reset 0 [] ∧ s.store.state = .fault .access) ∧
      (∀ stage ∈ [OutStage.lines, .trailer [], .trailer [1, 2]],
        let s := asking .reset 7 [] ((laned 5 .running ready).modOut 5 (fun _ => ⟨some ⟨stage, none⟩, [], []⟩))
        WaitingFor s .reset 7 [] ∧ (s.out 5).frame = some ⟨stage, none⟩ ∧ (s.out 0).frame = none) := by decide +kernel

theorem witness_Attention :
    State.reset.resetAsserted = true ∧ State.reset.attnLow = false ∧
      (noticed [] [aNotice 0] ready).notices.untransmitted ≠ [] := by decide +kernel

theorem witness_InboundFrameRoundTrip :
    ready.resetAsserted = false ∧ ready.link.framer = none ∧ ([] : List Byte).length ≤ 240 ∧
      (List.replicate 240 (0xA5 : Byte)).length ≤ 240 ∧
      ∀ n ∈ [1, 6], let whole := frameBytes 0x14 7 0 []
        whole.take n ++ whole.drop n = whole ∧ whole.take n ≠ [] ∧ whole.drop n ≠ [] := by decide +kernel

theorem witness_OfferedFrame :
    (let s := ready.modLink (fun u => { u with inbound := List.replicate 3 ⟨0x14, 1, []⟩ })
     s.link.inbound.length + firstReplies s.link < 4) ∧
      (let s := ready.modLink (fun u => { u with inbound := List.replicate 4 ⟨0x14, 1, []⟩ })
       4 ≤ s.link.inbound.length + firstReplies s.link) := by decide +kernel

theorem witness_DamagedFrames :
    ready.resetAsserted = false ∧ ready.link.framer = none ∧
      [0, 0] ≠ u16 (crc16 (coveredBytes 0x14 7 0 [])).toNat ∧ 240 < (0xF1 : Byte).toNat := by decide +kernel

theorem witness_LcsRise :
    (let s : State := { ready with lcsLow := true }
     s.resetAsserted = false ∧ s.lcsLow = true) ∧
      (let s : State := { ready.modLink (fun u => { u with framer := some [0x14, 7] }) with lcsLow := true }
       s.lcsLow = true ∧ s.link.framer = some [0x14, 7]) := by decide +kernel

def aReply : Reply := ⟨0x94, 7, .first, .ok, []⟩

theorem witness_Arbiter :
    (let s := ready.modLink (fun u => { u with replies := [aReply] })
     s.link.outbound = none ∧ s.link.replies = aReply :: []) ∧
      (let s := noticed [] [aNotice 0] ready
       s.link.outbound = none ∧ s.link.replies = [] ∧ s.notices.untransmitted = aNotice 0 :: []) ∧
      (ready.link.outbound = none ∧ ready.link.replies = [] ∧ ready.notices.untransmitted = []) ∧
      (let s := ready.modLink (fun u => { u with outbound := some ⟨.orphan, [0xA5, 1], 0⟩ })
       s.resetAsserted = false ∧ s.link.outbound = some ⟨.orphan, [0xA5, 1], 0⟩ ∧ 0 + 1 < [0xA5, 1].length ∧
        ([0xA5, 1] : List Byte)[0]? = some 0xA5) ∧
      (ready.resetAsserted = false ∧ ready.link.framer = none ∧ (0xA5 : Byte) ∉ [0xA4, 0xA6]) := by
  decide +kernel

theorem witness_Transmitted :
    (let s := ready.modLink (fun u => { u with replies := [aReply], outbound := some ⟨.reply, aReply.bytes, 7⟩ })
     s.resetAsserted = false ∧ s.link.framer = none ∧ s.link.outbound = some ⟨.reply, aReply.bytes, 7⟩ ∧
      7 + 1 = aReply.bytes.length ∧ aReply.bytes.getLast? = some (aReply.bytes.getLast?.getD 0)) ∧
      (let s := (noticed [] [aNotice 65535] ready).modLink (fun u => { u with outbound := some ⟨.notice 65535, [0xA5, 1], 1⟩ })
       s.resetAsserted = false ∧ s.link.framer = none ∧
        s.link.outbound = some ⟨.notice (aNotice 65535).seq, [0xA5, 1], 1⟩ ∧
        s.notices.untransmitted = aNotice 65535 :: [] ∧ ([0xA5, 1] : List Byte).getLast? = some 1 ∧
        1 + 1 = ([0xA5, 1] : List Byte).length) ∧
      (let s := (noticed [] [aNotice 0, aNotice 1] ready).modLink (fun u => { u with outbound := some ⟨.notice 1, [0xA5, 1], 0⟩ })
       OutboundKind.notice 1 ≠ .reply ∧ s.link.outbound = some ⟨.notice 1, [0xA5, 1], 0⟩ ∧
        (∀ n ∈ s.notices.untransmitted.head?, OutboundKind.notice 1 ≠ .notice n.seq)) ∧
      ready.link.outbound = none := by decide +kernel

theorem witness_ArrivingRequest :
    requestOf (.identify 7 []) = some ⟨0x14, 7, []⟩ ∧ (Instr.identify 7 []).wellFormed = true ∧
      ready.resetAsserted = false ∧ ready.link.inbound.head? ≠ some ⟨0x14, 7, []⟩ := by decide +kernel

/-- No room: eight final replies, or seven outstanding entries and one final reply. Eight outstanding entries alone leave room. -/
theorem witness_NoReplyRoom :
    let full (n m : Nat) : State := (asking .identify 7 [] ready).modLink (fun u => { u with
      outstanding := List.replicate n ⟨8, .laneStop 5⟩, replies := List.replicate m ⟨0x8F, 9, .final, .ok, []⟩ })
    (∀ c ∈ [(0, 8), (7, 1)], (full c.1 c.2).resetAsserted = false ∧
      (full c.1 c.2).link.inbound.head? = some ⟨0x14, 7, []⟩ ∧ replyRoom (full c.1 c.2).link = false) ∧
    (∀ c ∈ [(8, 0), (6, 1), (0, 7)], replyRoom (full c.1 c.2).link = true) := by decide +kernel

theorem witness_EveryRequest :
    requestOf (.identify 7 []) = some ⟨0x14, 7, []⟩ ∧ (Instr.identify 7 []).wellFormed = true ∧
      Waiting (asking .identify 7 [] ready) ⟨0x14, 7, []⟩ := by decide +kernel

theorem witness_KindLengthAndTag :
    (WaitingFor (asking .identify 7 [0] ready) .identify 7 [0] ∧ lengthTaken .identify 1 (field [0] 1) = false) ∧
      (let s := asking .laneStart 7 [5] (holding 7 (.laneStart 5) ready)
       WaitingFor s .laneStart 7 [5] ∧ lengthTaken .laneStart 1 (field [5] 1) = true ∧ Kind.laneStart.deferrable = true ∧
        tagHeld s.link 7 = true) ∧
      (let s := ready.modLink (fun u => { u with inbound := [⟨0x1C, 7, []⟩] })
       isRequestKind 0x1C = false ∧ Waiting s ⟨0x1C, 7, []⟩) := by decide +kernel

/-- For every kind whose fields have a range, a body of the right length with one field just outside it. -/
def outOfRange : List (Kind × List Nat) :=
  [(.streamBind, [0, 0, 0, 7, 0]), (.streamUnbind, [20]), (.streamStart, [20]), (.streamStop, [0, 2]),
    (.streamFreeze, [20]), (.streamThaw, [20]), (.streamFill, [20, 0, 0, 0]), (.sourceSetup, [0, 64, 0, 32, 0, 9, 0, 2]),
    (.listEdit, [0, 1, 0, 0, 0, 20, 1]), (.listRead, [0, 0, 0, 13]), (.listCommit, [0, 2]),
    (.laneSetup, [0, 97, 0, 64, 0, 10, 0, 0, 255, 0, 0, 0, 0]), (.portSetup, [0, 9]), (.laneStart, [6]),
    (.laneStop, [0, 2]), (.lockJoin, [5, 5]), (.lockLeave, [6]), (.streamStamp, [0, 5, 0, 0, 0, 0, 0, 0, 0, 0, 0, 0]),
    (.storeConfig, [64, 0, 32, 0, 65]), (.status, [4, 3]), (.counters, [4, 1, 0]), (.linkSet, [32])]

theorem witness_FieldsOutOfRange : ∀ c ∈ outOfRange, let body := c.2.map byte
    WaitingFor (asking c.1 7 body ready) c.1 7 body ∧ lengthTaken c.1 body.length (field body 1) = true ∧
      tagHeld (asking c.1 7 body ready).link 7 = false ∧ fieldsInRange c.1 body = false := by decide +kernel

theorem witness_Unbound :
    (∀ c ∈ [(Kind.streamUnbind, [(19 : Byte)]), (.streamStart, [19]), (.streamStop, [19, 1]), (.streamFreeze, [19]),
        (.streamThaw, [19]), (.streamFill, [19, 0, 0, 0]), (.streamStamp, [19, 0])],
      WaitingFor (asking c.1 7 c.2 ready) c.1 7 c.2 ∧ lengthTaken c.1 c.2.length (field c.2 1) = true ∧
        fieldsInRange c.1 c.2 = true ∧ tagHeld (asking c.1 7 c.2 ready).link 7 = false ∧ field c.2 0 = (19 : StreamIx).val ∧
        ((asking c.1 7 c.2 ready).stream 19).state = .unbound) ∧
    (∀ c ∈ [(Kind.listCommit, [(5 : Byte), 1]), (.laneStart, [5]), (.laneStop, [5, 1]), (.lockJoin, [5, 0])],
      WaitingFor (asking c.1 7 c.2 ready) c.1 7 c.2 ∧ lengthTaken c.1 c.2.length (field c.2 1) = true ∧
        fieldsInRange c.1 c.2 = true ∧ tagHeld (asking c.1 7 c.2 ready).link 7 = false ∧ field c.2 0 = (5 : LaneIx).val ∧
        ((asking c.1 7 c.2 ready).lane 5).state = .unset) ∧
    (let s := asking .lockJoin 7 [5, 0] (laned 5 .ready ready)
     WaitingFor s .lockJoin 7 [5, 0] ∧ tagHeld s.link 7 = false ∧ (5 : LaneIx) ≠ 0 ∧ (s.lane 0).state = .unset) := by
  decide +kernel

/-- A LIST_EDIT of each operation, naming the UNSET lane 5 with one staged entry. -/
theorem witness_EditOfUnsetLane :
    ∀ c ∈ ([(0, []), (1, [blankEntry]), (2, [blankEntry]), (3, [blankEntry]), (4, [])] : List (Nat × List ListEntry)),
      let body : List Byte := [5, byte c.1, 0, 1] ++ c.2.flatMap ListEntry.bytes
      let s := asking .listEdit 7 body (ready.modList 5 (fun u => { u with staged := [blankEntry] }))
      WaitingFor s .listEdit 7 body ∧ c.2.length ≤ 12 ∧ (∀ e ∈ c.2, ∀ d ∈ e.dwell, 1 ≤ d ∧ d ≤ 255) ∧
        edited c.1 0 1 c.2 (s.list 5).staged ≠ none ∧ (s.lane 5).state = .unset := by decide +kernel

theorem witness_Bind :
    let s := asking .streamBind 7 [19, 15, 0, 6, 1] (sourced .lost .out ready)
    (WaitingFor s .streamBind 7 [19, 15, Scale.full.code, 6, LossPolicy.blank.code] ∧ s.store.state = .ready ∧
      (s.stream 19).state = .unbound ∧ (s.source 15).setup = some smallSource) ∧
      ∀ f, s.store.format = some f → smallSource.width / Scale.full.k ≤ f.width ∧
        smallSource.height / Scale.full.k ≤ f.height :=
  ⟨by decide +kernel, by intro f h; cases h; decide⟩

theorem witness_BindRefused :
    (let s := asking .streamBind 7 [19, 15, 0, 2, 0] (sourced .lost .out ready)
     WaitingFor s .streamBind 7 [19, 15, Scale.full.code, 2, LossPolicy.hold.code] ∧ (s.source 15).setup = some smallSource) ∧
    (∀ f ∈ [(⟨63, 32⟩ : SlotFormat), ⟨64, 31⟩],
      f.width < smallSource.width / Scale.full.k ∨ f.height < smallSource.height / Scale.full.k) ∧
    ({ ready with store := { ready.store with state := .fault .access } } : State).store.state ≠ .ready ∧
    ((bound .stopped .live .hold emptyRing ready).stream 19).state ≠ .unbound ∧ (ready.source 15).setup = none := by
  decide +kernel

theorem witness_Unbind :
    (let s := asking .streamUnbind 7 [19] (listed [⟨.stream 19, some 1⟩] (bound .stopped .live .hold emptyRing ready))
     WaitingFor s .streamUnbind 7 [19] ∧ (s.stream 19).state = .stopped ∧
      ∃ l, ∃ e ∈ (s.list l).active, e.kind = .stream 19) ∧
    (let s := asking .streamUnbind 7 [19] (listed [⟨.stream 18, some 1⟩] (bound .stopped .frozen .hold emptyRing ready))
     WaitingFor s .streamUnbind 7 [19] ∧ (s.stream 19).state = .stopped ∧
      ∀ l, (∀ e ∈ (s.list l).active, e.kind ≠ .stream 19) ∧ (s.list l).commit = none) ∧
    (let s := (bound .stopped .live .hold emptyRing ready).modList 5 (fun u => { u with
      staged := [⟨.stream 19, some 1⟩], commit := some (7, .atCycle) })
     (s.list 5).commit ≠ none ∧ ∃ e ∈ (s.list 5).staged, e.kind = .stream 19) := by decide +kernel

theorem witness_NotStopped :
    ∀ st ∈ [StreamState.unbound, .armed, .capturing, .stopping], ∀ k ∈ [Kind.streamUnbind, .streamStart],
      let s := asking k 7 [19] (bound st .live .hold emptyRing ready)
      WaitingFor s k 7 [19] ∧ (s.stream 19).state ≠ .stopped := by decide +kernel

theorem witness_StreamStart :
    let s := asking .streamStart 7 [19] (bound .stopped .live .hold emptyRing ready)
    WaitingFor s .streamStart 7 [19] ∧ (s.stream 19).state = .stopped ∧
      (s.stream 19).binding = some ⟨15, .full, 64, 32, 2, .hold⟩ ∧ (s.source 15).setup = some smallSource := by
  decide +kernel

theorem witness_StreamStop :
    (let s := asking .streamStop 7 [19, 0] (bound .stopping .live .hold fillingRing ready)
     WaitingFor s .streamStop 7 [19, 0] ∧ tagHeld s.link 7 = false ∧ (s.stream 19).state = .stopping) ∧
    (∀ st ∈ [StreamState.stopped, .armed, .capturing],
      let s := asking .streamStop 7 [19, 1] (bound st .live .hold shownRing ready)
      WaitingFor s .streamStop 7 [19, if true then 1 else 0] ∧ tagHeld s.link 7 = false ∧ (s.stream 19).state = st ∧
        fillingAt s 19 = none) ∧
    (∀ st ∈ [StreamState.capturing, .stopping],
      let s := asking .streamStop 7 [19, 1] (bound st .live .hold fillingRing ready)
      WaitingFor s .streamStop 7 [19, 1] ∧ tagHeld s.link 7 = false ∧ s.ring 19 = some fillingRing ∧
        fillingRing.filling = some 0 ∧ (s.stream 19).state = st) ∧
    (let s := (asking .streamStop 7 [19, 1] (bound .stopping .freezePending .hold fillingRing ready)).modStream 19
      (fun u => { u with pendingFreeze := some 8, pendingStop := some 9 })
     let t := s.modLink (fun u => { u with outstanding := [⟨9, .streamStop 19⟩, ⟨8, .streamFreeze 19⟩] })
     WaitingFor t .streamStop 7 [19, 1] ∧ tagHeld t.link 7 = false ∧ fillingAt t 19 = some 0 ∧
      (t.stream 19).state = .stopping ∧ (t.link.outstanding.map Entry.tag).Nodup ∧
      (∀ old ∈ (t.stream 19).pendingFreeze, ⟨old, .streamFreeze 19⟩ ∈ t.link.outstanding) ∧
      (∀ old ∈ (t.stream 19).pendingStop, ⟨old, .streamStop 19⟩ ∈ t.link.outstanding)) := by decide +kernel

theorem witness_Deferred :
    (let s := asking .streamStop 7 [19, 0] (bound .capturing .live .hold fillingRing ready)
     WaitingFor s .streamStop 7 [19, 0] ∧ tagHeld s.link 7 = false ∧ (s.stream 19).state = .capturing ∧
      fillingAt s 19 ≠ none) ∧
    (let s := asking .streamFreeze 7 [19] (bound .capturing .live .hold fillingRing ready)
     WaitingFor s .streamFreeze 7 [19] ∧ tagHeld s.link 7 = false ∧ (s.stream 19).state ≠ .unbound ∧
      (s.stream 19).freeze = .live ∧ fillingAt s 19 ≠ none) ∧
    (let s := asking .listCommit 7 [5, 1] (laned 5 .stopping ready)
     WaitingFor s .listCommit 7 [5, Timing.atCycle.code] ∧ tagHeld s.link 7 = false ∧
      (s.lane 5).state ∈ [LaneState.starting, .running, .stopping] ∧ (s.list 5).commit = none ∧
      listFailure s (s.list 5).staged = none) ∧
    (let s := asking .laneStart 7 [5] (roled 5 (.follower 0) (laned 5 .ready ready))
     WaitingFor s .laneStart 7 [5] ∧ tagHeld s.link 7 = false ∧ (s.lane 5).state = .ready ∧ (s.lane 5).port ≠ none ∧
      (s.lane 5).setup = some (smallLane .cycle true) ∧ (s.lock 5).role = .follower 0 ∧
      claimTotal s.claims + demand 10 1 ≤ 1000) ∧
    (let s := asking .laneStop 7 [5, 0] (laned 5 .running ready)
     WaitingFor s .laneStop 7 [5, 0] ∧ tagHeld s.link 7 = false ∧ (s.lane 5).state = .running ∧
      (s.lock 5).role = .free) ∧
    (let s := asking .lockJoin 7 [5, 0] (laned 5 .running (laned 0 .running ready))
     WaitingFor s .lockJoin 7 [5, 0] ∧ tagHeld s.link 7 = false ∧ (s.lane 5).state ∈ [LaneState.running, .stopping] ∧
      (s.lane 0).state ≠ .unset ∧ (s.lock 0).role ∈ [LockRole.free, .leader] ∧ (s.lock 5).role = .free ∧
      (s.lane 5).setup.map LaneSetup.period = (s.lane 0).setup.map LaneSetup.period) := by decide +kernel

theorem witness_FreezeAndThaw :
    (∀ fz ∈ [FreezeState.frozen, .freezePending, .live],
      let s := asking .streamFreeze 7 [19] (bound .armed fz .hold emptyRing ready)
      WaitingFor s .streamFreeze 7 [19] ∧ tagHeld s.link 7 = false ∧ (s.stream 19).freeze = fz ∧ fillingAt s 19 = none) ∧
    (∀ fz ∈ [FreezeState.live, .frozen],
      let s := asking .streamThaw 7 [19] (bound .armed fz .blank shownRing ready)
      WaitingFor s .streamThaw 7 [19] ∧ (s.stream 19).binding = some ⟨15, .full, 64, 32, 2, .blank⟩ ∧
        (s.stream 19).freeze = fz ∧ (s.source 15).state ≠ .lost) ∧
    (let s := asking .streamThaw 7 [19] (sourced .lost .out (bound .stopped .frozen .blank shownRing ready))
     WaitingFor s .streamThaw 7 [19] ∧ (s.stream 19).freeze = .frozen ∧ (s.source 15).state = .lost ∧
      (s.stream 19).binding = some ⟨15, .full, 64, 32, 2, .blank⟩ ∧ s.ring 19 = some shownRing) ∧
    (let s := asking .streamThaw 7 [19] (holding 8 (.streamFreeze 19)
      ((bound .capturing .freezePending .hold fillingRing ready).modStream 19 (fun u => { u with pendingFreeze := some 8 })))
     WaitingFor s .streamThaw 7 [19] ∧ (s.stream 19).freeze = .freezePending ∧ (s.stream 19).pendingFreeze = some 8 ∧
      s.link.outstanding.find? (fun x => x.tag = 8) = some ⟨8, .streamFreeze 19⟩) := by decide +kernel

/-- A ring with one READY position obeys the law of rings. -/
theorem shownRing_law : RingLaw shownRing := by
  refine ⟨by decide, fun p => ?_, by decide, by decide⟩
  match p with
  | 0 => decide
  | 1 => decide
  | n + 2 => simp [shownRing, twoSlots]

/-- Both positions READY: the older one is eligible. -/
theorem bothReady_law : RingLaw (twoSlots (.ready 1 0) (.ready 2 5) [0, 1]) := by
  refine ⟨by decide, fun p => ?_, by decide, by decide⟩
  match p with
  | 0 => decide
  | 1 => decide
  | n + 2 => simp [twoSlots]

/-- The position that is not newest is FILLING: none is eligible. -/
theorem noneEligible_law : RingLaw (twoSlots (.filling 0) (.ready 1 5) [1]) := by
  refine ⟨by decide, fun p => ?_, by decide, by decide⟩
  match p with
  | 0 => decide
  | 1 => decide
  | n + 2 => simp [twoSlots]

theorem witness_WriterSpares :
    RingLaw shownRing ∧ shownRing.choose = some 0 ∧ RingLaw (twoSlots (.ready 1 0) (.ready 2 5) [0, 1]) ∧
      (twoSlots (.ready 1 0) (.ready 2 5) [0, 1]).choose = some 0 ∧ RingLaw (twoSlots (.filling 0) (.ready 1 5) [1]) ∧
      (twoSlots (.filling 0) (.ready 1 5) [1]).choose = none :=
  ⟨shownRing_law, by decide, bothReady_law, by decide, noneEligible_law, by decide⟩

theorem witness_RingReadings :
    fillingRing.filling = some 0 ∧ shownRing.filling = none ∧ ready.ring 19 = none ∧
    (let s := bound .capturing .live .hold shownRing ready
     s.ring 19 = some shownRing ∧ shownRing.ready.getLast? = some 1 ∧ shownRing.slots[1]? = some ⟨31, .ready 1 0, 0⟩) ∧
    emptyRing.ready = [] := by decide +kernel

theorem witness_FillFollows :
    (let s := bound .armed .live .hold shownRing ready
     s.ring 19 = some shownRing ∧ shownRing.choose = some 0 ∧ (s.stream 19).state ∈ [StreamState.armed, .capturing] ∧
      (s.stream 19).freeze ≠ .frozen ∧ s.store.state = .ready) ∧
    ((bound .capturing .frozen .hold shownRing ready).stream 19).freeze = .frozen ∧
    ({ ready with store := { ready.store with state := .fault .access } } : State).store.state ≠ .ready ∧
    (twoSlots (.filling 0) (.ready 1 5) [1]).choose = none ∧
    ((bound .stopping .live .hold fillingRing ready).stream 19).state ∈ [StreamState.unbound, .stopped, .stopping] ∧
    (let s := bound .capturing .live .hold fillingRing ready
     s.ring 19 = some fillingRing ∧ fillingRing.filling = some 0 ∧ fillingRing.slots[0]? = some ⟨30, .filling 0, 0⟩ ∧
      (s.stream 19).pendingStop = none ∧ (s.stream 19).pendingFreeze = none) ∧
    fillingAt (bound .capturing .live .hold shownRing ready) 19 = none := by decide +kernel

/-- A freeze with tag 8 and a stop with tag 9 waiting on the fill of stream 19. -/
def settling (freeze stop : Option Tag) : State :=
  (ready.modStream 19 (fun u => { u with pendingFreeze := freeze, pendingStop := stop })).modLink
    (fun u => { u with outstanding := [⟨9, .streamStop 19⟩, ⟨8, .streamFreeze 19⟩] })

theorem witness_Settle :
    (∀ f ∈ [none, some (8 : Tag)], ∀ p ∈ [none, some (9 : Tag)],
      ((settling f p).stream 19).pendingFreeze = f ∧ ((settling f p).stream 19).pendingStop = p) ∧
    (let es := (settling none none).link.outstanding
     es.find? (fun e => e.tag = 8) = some ⟨8, .streamFreeze 19⟩ ∧ es.find? (fun e => e.tag = 9) = some ⟨9, .streamStop 19⟩ ∧
      (es.eraseP (fun e => e.tag = 8)).find? (fun e => e.tag = 9) = some ⟨9, .streamStop 19⟩) := by decide +kernel

theorem witness_SourceSetup :
    ∀ body ∈ ([[15, 64, 0, 32, 0, 10, 0, 2], [15, 128, 7, 64, 4, 208, 7, 16], [15, 64, 0, 32, 0, 0, 0, 0]] : List (List Byte)),
      WaitingFor (asking .sourceSetup 7 body ready) .sourceSetup 7 body ∧ body.length = 8 ∧
        fieldsInRange .sourceSetup body = true ∧ field body 0 = (15 : SourceIx).val := by decide +kernel

theorem witness_FrameStart :
    (ready.resetAsserted = false ∧ (ready.capturePort 3).line = none ∧ (ready.source (sourceOf 3 3)).state = .unset) ∧
    (∀ ph ∈ [FramePhase.skipping, .inFrame 32], let s := sourced .present ph ready
      (s.source (sourceOf 3 3)).state ≠ .unset ∧ (s.source (sourceOf 3 3)).phase = ph) ∧
    (∀ st ∈ [SourceState.silent, .lost, .present], let s := sourced st .out ready
      (s.capturePort 3).line = none ∧ (s.source (sourceOf 3 3)).setup = some smallSource ∧
        (s.source (sourceOf 3 3)).state = st ∧ (s.source (sourceOf 3 3)).phase = .out) ∧
    (let s : Nat → State := fun n =>
      { (sourced .present .out ready).modSource 15 (fun u => { u with lastStart := some 0 }) with deviceTime := BitVec.ofNat 32 n }
     ((s 4).source (sourceOf 3 3)).lastStart = some 0 ∧ 2 * ((s 4).deviceTime - 0).toNat < smallSource.period ∧
      ((s 5).source (sourceOf 3 3)).lastStart = some 0 ∧ smallSource.period ≤ 2 * ((s 5).deviceTime - 0).toNat) := by
  decide +kernel

theorem witness_LineStart :
    (ready.resetAsserted = false ∧ (ready.capturePort 3).line = none ∧ (ready.source (sourceOf 3 3)).setup = none) ∧
    (let s := sourced .present .skipping ready
     (s.source (sourceOf 3 3)).setup ≠ none ∧ (s.source (sourceOf 3 3)).phase = .skipping) ∧
    (∀ c ∈ [31, 32], let s := sourced .present (.inFrame c) ready
     (s.source (sourceOf 3 3)).phase = .inFrame c) ∧ 31 < smallSource.height ∧ smallSource.height ≤ 32 ∧
    isPixelByte 0x0C = true ∧ markerCommand 3 0x0B [] = some (.frameEnd 3 3) := by decide +kernel

theorem witness_GoodLine :
    let s := bound .capturing .live .hold fillingRing ready
    (s.stream 19).binding = some ⟨15, .full, 64, 32, 2, .hold⟩ ∧ s.ring 19 = some fillingRing ∧
      fillingRing.filling = some 0 ∧ fillingRing.slots[0]? = some ⟨30, .filling 0, 0⟩ ∧
      s.store.format = some ⟨1920, 1088⟩ ∧ (s.stream 19).writer.group = [] ∧ Memory.wf s.dram = true ∧
      fillingAt ready 19 = none := by decide +kernel

/-- A line of source 15 being collected on port 3, in the given phase of its source. -/
def collecting (n : Nat) (ph : FramePhase) (s : State) : State :=
  (s.modSource 15 (fun u => { u with phase := ph })).modCapturePort 3 (fun u => { u with line := some (3, List.replicate n 16) })

theorem witness_LineJudged :
    (∀ ph ∈ [FramePhase.inFrame 1, .out, .skipping], ∀ n ∈ [127, 128],
      let s := collecting n ph (bound .capturing .live .hold fillingRing ready)
      s.resetAsserted = false ∧ (s.capturePort 3).line = some (3, List.replicate n 16) ∧
        (s.source (sourceOf 3 3)).setup = some smallSource ∧ (s.source (sourceOf 3 3)).phase = ph) ∧
    (List.replicate 128 (16 : Byte)).length = 2 * smallSource.width ∧
    (let s := bound .capturing .live .hold fillingRing ready
     lineInRange (List.replicate 128 16) 15 s = true ∧
      lineInRange (List.replicate 128 16) 15 { s with store := { s.store with capacity := none } } = false) := by decide +kernel

theorem witness_ScaledLine :
    (let s := (bound .capturing .live .hold fillingRing ready).modStream 19 (fun u => { u with
      binding := some ⟨15, .third, 21, 10, 2, .hold⟩ })
     (s.stream 19).binding = some ⟨15, .third, 21, 10, 2, .hold⟩ ∧
      ((s.stream 19).writer.group ++ [[]]).length < Scale.third.k) ∧
    (let s := (bound .capturing .live .hold fillingRing ready).modStream 19 (fun u => { u with
      binding := some ⟨15, .half, 32, 16, 2, .hold⟩, writer := ⟨[[]], 31⟩ })
     ((s.stream 19).writer.group ++ [[]]).length = Scale.half.k) ∧
    Scale.half ≠ .full ∧ 20 < 21 ∧ 2 * 9 + 1 < 21 ∧ 21 % 2 = 1 ∧ [255] ≠ ([] : List Nat) := by decide +kernel

theorem witness_FrameEnd :
    (ready.resetAsserted = false ∧ (ready.capturePort 3).line = none ∧ (ready.source (sourceOf 3 3)).setup = none) ∧
    (let s := sourced .present .skipping ready
     (s.source (sourceOf 3 3)).setup ≠ none ∧ (s.source (sourceOf 3 3)).phase = .skipping) ∧
    (let s := sourced .present (.inFrame 32) ready
     (s.source (sourceOf 3 3)).setup = some smallSource ∧
      (s.source (sourceOf 3 3)).phase = .inFrame smallSource.height) ∧
    (let s := sourced .present (.inFrame 31) ready
     (s.source (sourceOf 3 3)).phase = .inFrame 31 ∧ 31 < smallSource.height) := by decide +kernel

theorem witness_LossTimer :
    (∀ ph ∈ [FramePhase.out, .skipping, .inFrame 0, .inFrame 32],
      let s := (sourced .present ph ready).modSource 15 (fun u => { u with lossTimer := some 0 })
      s.resetAsserted = false ∧ (s.source 15).state = .present ∧ (s.source 15).lossTimer = some 0 ∧
        (s.deviceTime - 0).toNat < 2147483648 ∧ (s.source 15).phase = ph) ∧
    (ready.source 15).lossTimer = none := by decide +kernel

theorem witness_Retirement :
    (∀ fz ∈ [FreezeState.live, .freezePending, .frozen], ∀ policy ∈ [LossPolicy.hold, .blank],
      let s := bound .capturing fz policy shownRing ready
      (s.stream 19).binding = some ⟨15, .full, 64, 32, 2, policy⟩ ∧ (s.stream 19).freeze = fz ∧ s.ring 19 = some shownRing) ∧
    (let s := bound .capturing .live .blank ⟨[⟨30, .ready 1 0, 1⟩, ⟨31, .ready 2 5, 0⟩], [0, 1], 3⟩ ready
     s.ring 19 = some ⟨[⟨30, .ready 1 0, 1⟩, ⟨31, .ready 2 5, 0⟩], [0, 1], 3⟩) := by decide +kernel

theorem witness_ListEdit :
    let new := List.replicate 12 (⟨.stream 19, some 255⟩ : ListEntry)
    let body : List Byte := [5, 1, 0, 0] ++ new.flatMap ListEntry.bytes
    WaitingFor (asking .listEdit 7 body (laned 5 .ready ready)) .listEdit 7 body ∧ new.length ≤ 12 ∧
      (∀ e ∈ new, ∀ d ∈ e.dwell, 1 ≤ d ∧ d ≤ 255) ∧ edited 1 0 0 new (List.replicate 36 blankEntry) ≠ none ∧
      edited 1 0 0 new (List.replicate 37 blankEntry) = none ∧ edited 2 36 0 new (List.replicate 36 blankEntry) ≠ none ∧
      edited 3 36 0 new (List.replicate 48 blankEntry) ≠ none ∧ edited 4 0 48 [] (List.replicate 48 blankEntry) = some [] := by
  decide +kernel

theorem witness_CommitOfReadyLane :
    let s := asking .listCommit 7 [5, 1] (laned 5 .ready ready)
    WaitingFor s .listCommit 7 [5, Timing.atCycle.code] ∧ tagHeld s.link 7 = false ∧ (s.lane 5).state = .ready ∧
      (s.list 5).commit = none := by decide +kernel

theorem witness_CommitPending :
    ∀ st ∈ [LaneState.ready, .starting, .running, .stopping],
      let s := asking .listCommit 7 [5, 0] ((laned 5 st ready).modList 5 (fun u => { u with commit := some (8, .atCycle) }))
      WaitingFor s .listCommit 7 [5, Timing.atFrame.code] ∧ tagHeld s.link 7 = false ∧ (s.lane 5).state ≠ .unset ∧
        (s.list 5).commit ≠ none := by decide +kernel

/-- The staged list of lane 5 names an UNBOUND stream. -/
theorem witness_CommitFails :
    ∀ st ∈ [LaneState.ready, .starting, .running, .stopping],
      let s := asking .listCommit 7 [5, 0] ((laned 5 st ready).modList 5 (fun u => { u with staged := [⟨.stream 19, some 1⟩] }))
      WaitingFor s .listCommit 7 [5, Timing.atFrame.code] ∧ tagHeld s.link 7 = false ∧ (s.lane 5).state ≠ .unset ∧
        (s.list 5).commit = none ∧ listFailure s (s.list 5).staged = some (0, .unboundStream) := by decide +kernel

theorem witness_PassedList :
    listFailure ready [blankEntry, ⟨.blank .half, some 255⟩, ⟨.blank .half, none⟩, ⟨.blank .half, none⟩,
      ⟨.blank .half, none⟩] = none := by decide +kernel

/-- A FULL group before an entry of each kind at which the walk fails: the first entry of a group, or a later one of a HALF group. -/
theorem witness_FailingList :
    (let s := bound .stopped .live .hold emptyRing ready
     (s.stream 18).state = .unbound ∧ (s.stream 19).state ≠ .unbound ∧ entryScale s ⟨.stream 18, some 1⟩ = none ∧
      entryScale s ⟨.stream 19, none⟩ = some .full) ∧
    ([[blankEntry]] : List (List ListEntry)).flatten.length = 1 ∧ entryScale ready blankEntry = some .full ∧
    entryScale ready ⟨.blank .half, some 1⟩ = some .half ∧ entryScale ready ⟨.blank .half, none⟩ = some .half ∧
    (List.replicate 2 (⟨.blank .half, none⟩ : ListEntry)).length + 1 < Scale.half.groupSize ∧
    (List.replicate 2 (⟨.blank .half, none⟩ : ListEntry)).length + 2 ≤ Scale.half.groupSize ∧
    Scale.half.groupSize ≤ (List.replicate 3 (⟨.blank .third, none⟩ : ListEntry)).length + 1 ∧
    entryScale ready ⟨.stream 19, none⟩ = none ∧ Scale.third ≠ .half ∧
    (⟨.blank .half, some 1⟩ : ListEntry).dwell ≠ none := by decide +kernel

theorem witness_Reads :
    (let s := asking .listRead 7 [5, 1, 0, 12] ready
     WaitingFor s .listRead 7 [5, if true then 1 else 0, 0, 12] ∧ 1 ≤ (12 : Byte).toNat ∧ (12 : Byte).toNat ≤ 12) ∧
    WaitingFor (asking .identify 7 [] ready) .identify 7 [] ∧
    ∀ body ∈ ([[0, 0], [0, 255], [1, 15], [2, 19], [3, 5], [4, 2]] : List (List Byte)),
      WaitingFor (asking .status 7 body ready) .status 7 body := by decide +kernel

theorem witness_SlotHolder : ∀ i, 31 ∉ poolsOf (ready.ring i) := fun i => by
  rw [show ∀ i, ready.ring i = none by decide +kernel]; simp [poolsOf]

theorem witness_LaneSetup :
    let body : List Byte := [5, 128, 7, 64, 4, 208, 7, 1, 2, 1, 16, 128, 128]
    (body.length = 13 ∧ fieldsInRange .laneSetup body = true ∧ field body 0 = (5 : LaneIx).val ∧
      field body 8 = (2 : PortIx).val ∧ body.drop 10 = [16, 128, 128]) ∧
    (∀ x ∈ ((laned 0 .ready ready).outPort 2).carried, x ≠ 5 → ((laned 0 .ready ready).lane x).setup.map LaneSetup.period = some 10) ∧
    (WaitingFor (asking .laneSetup 7 body (laned 5 .running ready)) .laneSetup 7 body ∧
      ((laned 5 .running ready).lane 5).state ∈ [LaneState.starting, .running, .stopping]) ∧
    (((roled 5 .leader (laned 5 .ready ready)).lock 5).role ≠ .free) ∧
    (WaitingFor (asking .laneSetup 7 body ready) .laneSetup 7 body ∧ (ready.lane 5).state ∈ [LaneState.unset, .ready] ∧
      (ready.lock 5).role = .free ∧ ((ready.outPort 2).carried.filter (fun x => x ≠ 5)).length ≤ 1) := by decide +kernel

theorem witness_LaneSetupRefused :
    let body : List Byte := [5, 128, 7, 64, 4, 11, 0, 1, 2, 1, 16, 128, 128]
    (body.length = 13 ∧ fieldsInRange .laneSetup body = true ∧ field body 0 = (5 : LaneIx).val ∧
      field body 8 = (2 : PortIx).val ∧ WaitingFor (asking .laneSetup 7 body (laned 0 .running ready)) .laneSetup 7 body) ∧
    (let s := laned 0 .running ready
     0 ∈ (s.outPort 2).carried ∧ (0 : LaneIx) ≠ 5 ∧ (s.lane 0).setup = some (smallLane .cycle true) ∧
      (smallLane .cycle true).period ≠ field2 body 5) ∧
    (let s := (laned 0 .running (laned 1 .ready ready)).modOutPort 2 (fun u => u)
     2 ≤ ((s.outPort 2).carried.filter (fun x => x ≠ 5)).length ∧
      (∀ x ∈ (s.outPort 2).carried, (s.lane x).setup.map LaneSetup.period = some 10) ∧
      field2 [5, 128, 7, 64, 4, 10, 0, 1, 2, 1, 16, 128, 128] 5 = 10 ∧
      (s.lane 5).state ∈ [LaneState.unset, .ready] ∧ (s.lock 5).role = .free) := by decide +kernel

theorem witness_Setters :
    (let s := asking .streamFill 7 [19, 1, 2, 255] (bound .stopped .live .hold emptyRing ready)
     WaitingFor s .streamFill 7 [19, 1, 2, 255] ∧ (s.stream 19).state ≠ .unbound) ∧
    (let ws : List Half := [1, 2, 3, 65535]
     let body : List Byte := 19 :: byte ws.length :: ws.flatMap (fun w => u16 w.toNat)
     let s := asking .streamStamp 7 body (bound .stopped .live .hold emptyRing ready)
     WaitingFor s .streamStamp 7 body ∧ ws.length ≤ 4 ∧ (s.stream 19).state ≠ .unbound) ∧
    WaitingFor (asking .portSetup 7 [2, 16] ready) .portSetup 7 [2, WidthMode.w16.code] ∧
    WaitingFor (asking .linkSet 7 [31] ready) .linkSet 7 [(0x1F : BitVec 5).setWidth 8] := by decide +kernel

theorem witness_LaneStart :
    let s := asking .laneStart 7 [5] (laned 5 .ready ready)
    WaitingFor s .laneStart 7 [5] ∧ tagHeld s.link 7 = false ∧ (s.lane 5).state = .ready ∧ (s.lane 5).port ≠ none ∧
      (s.lane 5).setup = some (smallLane .cycle true) ∧ (s.lock 5).role = .free ∧
      ((roled 5 .leader s).lock 5).role = .leader ∧ claimTotal s.claims + demand 10 1 ≤ 1000 := by decide +kernel

theorem witness_LaneStartRefused :
    (∀ st ∈ [LaneState.unset, .starting, .running, .stopping],
      let s := asking .laneStart 7 [5] (laned 5 st ready)
      WaitingFor s .laneStart 7 [5] ∧ tagHeld s.link 7 = false ∧ (s.lane 5).state ≠ .ready) ∧
    (let s := asking .laneStart 7 [5] (ready.modLane 5 (fun u => { u with state := .ready }))
     WaitingFor s .laneStart 7 [5] ∧ tagHeld s.link 7 = false ∧ (s.lane 5).port = none) ∧
    (∀ role ∈ [LockRole.free, .leader, .follower 0],
      let s : State := { asking .laneStart 7 [5] (roled 5 role (laned 5 .ready ready)) with
        claims := [⟨.lane 0, 360⟩, ⟨.lane 1, 281⟩] }
      WaitingFor s .laneStart 7 [5] ∧ tagHeld s.link 7 = false ∧ (s.lane 5).state = .ready ∧ (s.lane 5).port ≠ none ∧
        (s.lane 5).setup = some (smallLane .cycle true) ∧ (s.lock 5).role = role ∧
        1000 < claimTotal s.claims + demand 10 1) := by decide +kernel

theorem witness_LaneStop :
    (∀ role ∈ [LockRole.free, .follower 0, .joining 0 .finishing 8],
      let s := asking .laneStop 7 [5, 0] (roled 5 role (laned 5 .stopping ready))
      WaitingFor s .laneStop 7 [5, 0] ∧ tagHeld s.link 7 = false ∧ (s.lane 5).state = .stopping ∧ (s.lock 5).role = role ∧
        ∀ ld tag, role ≠ .joining ld .waiting tag) ∧
    (∀ st ∈ [LaneState.ready, .starting],
      let s := asking .laneStop 7 [5, 1] (laned 5 st ready)
      WaitingFor s .laneStop 7 [5, if true then 1 else 0] ∧ tagHeld s.link 7 = false ∧ (s.lane 5).state = st) ∧
    (∀ st ∈ [LaneState.running, .stopping], ∀ role ∈ [LockRole.free, .leader, .follower 0],
      let s := asking .laneStop 7 [5, 1] (roled 5 role (laned 5 st ready))
      WaitingFor s .laneStop 7 [5, 1] ∧ tagHeld s.link 7 = false ∧ (s.lane 5).state = st ∧
        (s.lock 5).role.joins = false) ∧
    (∀ st ∈ [LaneState.running, .stopping], ∀ phase ∈ [JoinPhase.finishing, .waiting], ∀ stop ∈ [none, some (9 : Tag)],
      let s := asking .laneStop 7 [5, 1] (((roled 5 (.joining 0 phase 8) (laned 5 st ready)).modLane 5
        (fun u => { u with pendingStop := stop })).modLink
        (fun u => { u with outstanding := [⟨8, .lockJoin 5⟩, ⟨9, .laneStop 5⟩] }))
      WaitingFor s .laneStop 7 [5, if true then 1 else 0] ∧ tagHeld s.link 7 = false ∧ (s.lane 5).state = st ∧
        (s.lock 5).role = .joining 0 phase 8 ∧ (s.link.outstanding.map Entry.tag).Nodup ∧
        s.link.outstanding.find? (fun y => y.tag = 8) = some ⟨8, .lockJoin 5⟩) := by
  decide +kernel

/-- Lane 5 with a commit of tag 10 pending, and an operation of tag 8 outstanding beside it. -/
def committing (op : Pending) (s : State) : State :=
  (s.modList 5 (fun u => { u with staged := [blankEntry], commit := some (10, .atCycle) })).modLink
    (fun u => { u with outstanding := [⟨10, .listCommit 5⟩, ⟨8, op⟩] })

/-- The operation outstanding beside a pending commit is still there once the commit is applied. -/
theorem witness_CommitPendingAtTheEnd :
    (∀ c ∈ [(LaneState.starting, Pending.laneStart 5), (.running, .laneStop 5), (.stopping, .laneStop 5)],
      let s := (committing c.2 (laned 5 c.1 ready)).modLane 5 (fun u => { u with pendingStart := some 8, pendingStop := some 8 })
      (s.lane 5).pendingStart = some 8 ∧ (s.lane 5).pendingStop = some 8 ∧ (s.list 5).commit ≠ none ∧
        (applyPending 5 s).link.outstanding.find? (fun y => y.tag = 8) = some ⟨8, c.2⟩ ∧
        (applyPending 5 { s with link := { s.link with inbound := s.link.inbound.tail } }).link.outstanding.find?
          (fun y => y.tag = 8) = some ⟨8, c.2⟩) ∧
    (let s := asking .cancel 7 [8] (committing (.laneStart 5) (laned 5 .starting ready))
     WaitingFor s .cancel 7 [8] ∧ s.link.outstanding.find? (fun y => y.tag = 8) = some ⟨8, .laneStart 5⟩ ∧
      (applyPending 5 { s with link := { s.link with inbound := s.link.inbound.tail } }).link.outstanding.find?
        (fun y => y.tag = 8) = some ⟨8, .laneStart 5⟩) := by decide +kernel

/-- A tile of the position named. -/
def aTile (i : StreamIx) (p : Nat) : Tile := ⟨0, .default, .shown i p 1 0 0 false false false []⟩

theorem witness_Unpin :
    (aTile 19 1).names = some (19, 1) ∧ (⟨0, .default, .blank⟩ : Tile).names = none ∧
    (let s := bound .capturing .live .hold shownRing ready
     s.ring 19 = some shownRing ∧ shownRing.slots[1]? = some ⟨31, .ready 1 0, 0⟩) := by decide +kernel

theorem witness_Boundary :
    (let s := (laned 5 .running ready).modLane 5 (fun u => { u with timer := some 0 })
     s.resetAsserted = false ∧ (s.lane 5).timer = some 0 ∧ (s.deviceTime - 0).toNat < 2147483648 ∧
      (s.lane 5).state = .running ∧ (s.lock 5).role = .free ∧ ((roled 5 .leader s).lock 5).role = .leader) ∧
    (let s := holding 8 (.laneStop 5)
      ((laned 5 .stopping ready).modLane 5 (fun u => { u with timer := some 0, pendingStop := some 8 }))
     (s.lane 5).timer = some 0 ∧ (s.lane 5).state = .stopping ∧ (s.lock 5).role = .free ∧
      ((roled 5 .leader s).lock 5).role = .leader ∧
      (s.lane 5).pendingStop = some 8 ∧ (s.list 5).commit = none ∧
      s.link.outstanding.find? (fun y => y.tag = 8) = some ⟨8, .laneStop 5⟩) ∧
    (ready.lane 5).timer = none := by decide +kernel

theorem witness_OutputStep : ((laned 5 .running ready).lane 5).setup = some (smallLane .cycle true) := by decide +kernel

theorem witness_Position :
    (ready.list 5).active = [] ∧
    (∀ m ∈ [ListMode.cycle, .once],
      let s := listed [⟨.blank .full, some 1⟩, ⟨.blank .full, some 2⟩]
        ((laned 5 .running ready).modLane 5 (fun u => { u with setup := some (smallLane m true) }))
      (s.lane 5).setup = some (smallLane m true) ∧
        ((s.list 5).active.drop (s.lane 5).groupStart).head? = some ⟨.blank .full, some 1⟩ ∧
        entryScale s ⟨.blank .full, some 1⟩ = some .full ∧ (s.lane 5).drained = false ∧
        1 ≤ (s.lane 5).framesShown + 1 ∧ (s.lane 5).groupStart + Scale.full.groupSize < (s.list 5).active.length) ∧
    (let s := (listed [blankEntry, ⟨.blank .full, some 2⟩] (laned 5 .running ready)).modLane 5 (fun u => { u with groupStart := 1 })
     ((s.list 5).active.drop (s.lane 5).groupStart).head? = some ⟨.blank .full, some 2⟩ ∧ (s.lane 5).framesShown + 1 < 2 ∧
      (s.list 5).active.length ≤ (s.lane 5).groupStart + Scale.full.groupSize) ∧
    (let s := listed [blankEntry] (laned 5 .running ready)
     ((s.list 5).active.drop (s.lane 5).groupStart).head? = some blankEntry ∧ 1 ≤ (s.lane 5).framesShown + 1 ∧
      (s.list 5).active.length ≤ (s.lane 5).groupStart + Scale.full.groupSize) ∧
    (let s := (laned 5 .running ready).modList 5 (fun u => { u with commit := some (7, .atFrame) })
     commitDue false 5 s = true ∧ commitDue false 5 ready = false ∧ ((laned 5 .stopping ready).lane 5).state = .stopping) := by
  decide +kernel

theorem witness_CommitDue :
    (ready.list 5).commit = none ∧
    (∀ tm ∈ [Timing.atFrame, .atCycle],
      let s := (committing (.laneStop 5) (laned 5 .running ready)).modList 5 (fun u => { u with commit := some (10, tm) })
      (s.list 5).commit = some (10, tm) ∧
        s.link.outstanding.find? (fun y => y.tag = 10) = some ⟨10, .listCommit 5⟩) ∧
    (let s := listed [blankEntry, ⟨.blank .full, some 255⟩] ((committing (.laneStop 5) (laned 5 .running ready)).modLane 5
      (fun u => { u with groupStart := 1, framesShown := 254 }))
     ((s.list 5).active.drop (s.lane 5).groupStart).head? = some ⟨.blank .full, some 255⟩ ∧
      entryScale s ⟨.blank .full, some 255⟩ = some .full ∧ (s.lane 5).drained = false ∧
      (s.list 5).active.length ≤ (s.lane 5).groupStart + Scale.full.groupSize ∧ (s.lane 5).framesShown + 1 = 255) ∧
    ((ready.modLane 5 (fun u => { u with drained := true })).lane 5).drained = true ∧ (ready.list 5).active = [] := by
  decide +kernel

theorem witness_StreamTile :
    (let s := bound .capturing .live .hold shownRing ready
     s.store.state = .ready ∧ s.ring 19 = some shownRing ∧ shownRing.ready.getLast? = some 1 ∧
      shownRing.slots[1]? = some ⟨31, .ready 1 0, 0⟩) ∧
    ({ ready with store := { ready.store with state := .fault .access } } : State).store.state ≠ .ready ∧
    (bound .armed .live .hold emptyRing ready).ring 19 = some emptyRing ∧ emptyRing.ready = [] := by decide +kernel

theorem witness_Composed :
    (let s := listed [⟨.stream 19, some 1⟩] (bound .capturing .live .hold shownRing (laned 5 .running ready))
     (s.lane 5).drained = false ∧ ((s.list 5).active.drop (s.lane 5).groupStart).head? = some ⟨.stream 19, some 1⟩ ∧
      entryScale s ⟨.stream 19, some 1⟩ = some .full ∧ (s.lane 5).setup = some (smallLane .cycle true) ∧
      (s.stream 19).binding = some ⟨15, .full, 64, 32, 2, .hold⟩ ∧ s.ring 19 = some shownRing ∧
      shownRing.slots[1]? = some ⟨31, .ready 1 0, 0⟩ ∧ s.store.format = some ⟨1920, 1088⟩ ∧ s.store.capacity = some 128) ∧
    (∀ k ∈ [1, 2, 3], (List.replicate (k * k) (⟨0, .default, .blank⟩ : Tile)).length = k * k ∧
      k * ((smallLane .cycle true).height / k) ≤ 64 ∧ 62 < k * ((smallLane .cycle true).height / k)) ∧
    (96 / 2 ≤ 64 ∧ ¬ 96 ≤ 64 ∧ 64 % 2 = 0 ∧ 21 % 2 = 1) := by decide +kernel

theorem witness_LineInCapacity : 31 * (1920 * 1088 * 2) + 31 * (1920 * 2) + 2 * 64 ≤ 128 * 1048576 := by decide

def aTrailer : Trailer := ⟨1, 0, 0, 0, 0, 1, 0, false, false, false, []⟩

theorem witness_OutputFrame :
    (let s := ((laned 5 .running ready).modOut 5 (fun _ => ⟨some ⟨.lines, none⟩, [], []⟩)).setTrailer 5 (some aTrailer)
     s.resetAsserted = false ∧ (s.out 5).frame = some ⟨.lines, none⟩ ∧ s.trailer 5 = some aTrailer ∧
      (s.lane 5).setup = some (smallLane .cycle true) ∧ (smallLane .cycle true).stamp = true) ∧
    (let s := (laned 5 .running ready).modOut 5 (fun _ => ⟨some ⟨.trailer [], some 0⟩, [], []⟩)
     (s.out 5).frame = some ⟨.trailer [], some 0⟩ ∧ (s.lane 5).port = some 2) ∧
    (let s := (laned 5 .running ready).modOut 5 (fun _ => ⟨some ⟨.trailer [1, 2], none⟩, [], []⟩)
     (s.out 5).frame = some ⟨.trailer [1, 2], none⟩ ∧ (s.lane 5).port = some 2 ∧ ([1, 2] : List Half) ≠ []) ∧
    (let s := (laned 5 .running ready).modLane 5 (fun u => { u with setup := some (smallLane .once false) })
     (s.lane 5).setup = some (smallLane .once false) ∧ (smallLane .once false).stamp = false ∧
      (s.lane 5).port = some 2) ∧
    (let s := laned 5 .running ready
     (s.lane 5).port = some 2 ∧ (s.lane 5).setup = some (smallLane .cycle true)) ∧
    (ready.out 5).frame = none ∧ (ready.outPort 2).carried[0]? = none ∧
    (let s := laned 5 .ready ready
     (s.outPort 2).carried[0]? = some 5 ∧ (s.out 5).frame = none) := by decide +kernel

theorem witness_JoinAndLeave :
    (∀ role ∈ [LockRole.free, .leader, .follower 1, .joining 1 .waiting 9],
      let s := asking .lockJoin 7 [5, 0] (roled 0 role (laned 5 .ready (laned 0 .running ready)))
      WaitingFor s .lockJoin 7 [5, 0] ∧ tagHeld s.link 7 = false ∧ (s.lane 5).state = .ready ∧ (s.lane 0).state ≠ .unset ∧
        (s.lock 5).role = .free ∧ (s.lock 0).role = role ∧
        (s.lane 5).setup.map LaneSetup.period = (s.lane 0).setup.map LaneSetup.period) ∧
    (∀ st ∈ [LaneState.ready, .starting, .running, .stopping],
      let s := asking .lockLeave 7 [5] (roled 0 .leader ((laned 5 st ready).modLock 5 (fun _ => ⟨.follower 0, some 0⟩)))
      WaitingFor s .lockLeave 7 [5] ∧ (s.lock 5).role = .follower 0 ∧ (s.lock 5).role.leaderNamed = some 0 ∧
        (s.lane 5).state = st ∧ (s.lock 5).lastRelayed = some 0 ∧ (s.lane 5).setup = some (smallLane .cycle true)) ∧
    (∀ phase ∈ [JoinPhase.finishing, .waiting],
      let s := asking .lockLeave 7 [5] (holding 8 (.lockJoin 5) (roled 5 (.joining 0 phase 8) (laned 5 .running ready)))
      WaitingFor s .lockLeave 7 [5] ∧ (s.lock 5).role = .joining 0 phase 8 ∧ (s.lock 5).role.leaderNamed = some 0 ∧
        s.link.outstanding.find? (fun y => y.tag = 8) = some ⟨8, .lockJoin 5⟩) ∧
    (WaitingFor (asking .lockLeave 7 [5] ready) .lockLeave 7 [5] ∧ (ready.lock 5).role ∈ [LockRole.free, .leader]) := by
  decide +kernel

theorem witness_JoinRefused :
    let s := asking .lockJoin 7 [5, 0] (laned 5 .running (laned 0 .running ready))
    WaitingFor s .lockJoin 7 [5, 0] ∧ tagHeld s.link 7 = false ∧ (5 : LaneIx) ≠ 0 ∧
      (∀ role ∈ [LockRole.leader, .follower 1, .joining 1 .waiting 9], ((roled 5 role s).lock 5).role ≠ .free) ∧
      (∀ role ∈ [LockRole.follower 1, .joining 1 .finishing 9],
        ((roled 0 role s).lock 0).role ∉ [LockRole.free, .leader]) ∧
      (let u := s.modLane 5 (fun r => { r with setup := some { smallLane .cycle true with period := 11 } })
       (u.lane 5).setup.map LaneSetup.period ≠ (u.lane 0).setup.map LaneSetup.period) := by decide +kernel

theorem witness_Relay :
    (∀ st ∈ [LaneState.unset, .ready, .starting, .running, .stopping],
      let s := (laned 5 st ready).modLock 5 (fun _ => ⟨.follower 0, some 3⟩)
      (s.lock 5).role = .follower 0 ∧ (s.lock 5).lastRelayed = some 3 ∧ (s.lane 5).state = st) ∧
    (∀ ph ∈ [JoinPhase.finishing, .waiting],
      let s := holding 7 (.lockJoin 5) (roled 5 (.joining 0 ph 7) ready)
      (s.lock 5).role = .joining 0 ph 7 ∧ s.link.outstanding.find? (fun y => y.tag = 7) = some ⟨7, .lockJoin 5⟩) ∧
    (∀ st ∈ [LaneState.running, .stopping],
      let s := (roled 5 (.joining 0 .finishing 7) (laned 5 st ready)).modLane 5 (fun u => { u with timer := some 0 })
      s.resetAsserted = false ∧ (s.lane 5).timer = some 0 ∧ (s.deviceTime - 0).toNat < 2147483648 ∧
        (s.lane 5).state = st ∧ (s.lock 5).role = .joining 0 .finishing 7) ∧
    (let s := holding 7 (.laneStart 5) ((laned 5 .starting ready).modLane 5 (fun u => { u with pendingStart := some 7 }))
     (s.lane 5).pendingStart = some 7 ∧ s.link.outstanding.find? (fun y => y.tag = 7) = some ⟨7, .laneStart 5⟩ ∧
      (applyPending 5 s).link.outstanding.find? (fun y => y.tag = 7) = some ⟨7, .laneStart 5⟩) := by decide +kernel

theorem witness_Bringup :
    ∀ st ∈ [BringupStage.probe, .training, .sizing],
      let s : State := { ready with deviceTime := 40, store := ⟨.bringup st 40, none, none, 0, []⟩ }
      s.resetAsserted = false ∧ s.store.state = .bringup st 40 ∧ (s.deviceTime - 40).toNat < 2147483648 := by decide +kernel

theorem witness_AccessFailure :
    ready.resetAsserted = false ∧ ready.store.state = .ready ∧
      ({ ready with store := ⟨.bringup .probe 40, none, none, 0, []⟩ } : State).store.state ≠ .ready := by decide +kernel

/-- A fill on which a freeze of tag 8 and a stop of tag 9 wait, beside streams with no fill. -/
theorem witness_AccessFailureSettles :
    let s := (bound .stopping .freezePending .hold fillingRing ready).modStream 19 (fun u => { u with
      pendingFreeze := some 8, pendingStop := some 9 })
    let t := s.modLink (fun u => { u with outstanding := [⟨9, .streamStop 19⟩, ⟨8, .streamFreeze 19⟩, ⟨7, .laneStop 5⟩] })
    t.resetAsserted = false ∧ t.store.state = .ready ∧ fillingAt t 19 ≠ none ∧ fillingAt t 0 = none ∧
      (t.link.outstanding.map Entry.tag).Nodup ∧
      (∀ i, ∀ tag ∈ (t.stream i).pendingFreeze, ⟨tag, .streamFreeze i⟩ ∈ t.link.outstanding) ∧
      (∀ i, ∀ tag ∈ (t.stream i).pendingStop, ⟨tag, .streamStop i⟩ ∈ t.link.outstanding) := by decide +kernel

theorem witness_FaultReachesFrames :
    (∀ fl ∈ [none, some 64], let s := (laned 5 .running ready).modOut 5 (fun _ => ⟨some ⟨.lines, fl⟩, [], []⟩)
      (s.out 5).frame = some ⟨.lines, fl⟩ ∧ (s.lane 5).setup = some (smallLane .cycle true)) ∧
    ∀ fl, (ready.out 5).frame ≠ some ⟨.lines, fl⟩ := by
  refine ⟨by decide +kernel, fun fl => ?_⟩
  rw [show (ready.out 5).frame = none by decide +kernel]; simp

theorem witness_StoreConfig :
    WaitingFor (asking .storeConfig 7 [128, 7, 64, 4, 64] ready) .storeConfig 7 [128, 7, 64, 4, 64] ∧
      ([128, 7, 64, 4, 64] : List Byte).length = 5 := by decide +kernel

theorem witness_Counters :
    ∀ c ∈ [(0, 15), (1, 19), (2, 5), (3, 2), (4, 0)], let body : List Byte := [byte c.1, byte c.2, if true then 1 else 0]
      WaitingFor (asking .counters 7 body ready) .counters 7 body := by decide +kernel

theorem witness_Cancel :
    (WaitingFor (asking .cancel 7 [255] ready) .cancel 7 [255] ∧ ready.link.outstanding.find? (fun x => x.tag = 255) = none) ∧
    (∀ op ∈ [Pending.streamStop 19, .streamFreeze 19, .listCommit 5, .laneStart 5, .laneStop 5, .lockJoin 5],
      ∀ phase ∈ [JoinPhase.finishing, .waiting],
      let s := asking .cancel 7 [255] (holding 255 op (roled 5 (.joining 0 phase 255) (laned 5 .starting ready)))
      WaitingFor s .cancel 7 [255] ∧ s.link.outstanding.find? (fun x => x.tag = 255) = some ⟨255, op⟩ ∧
        (s.lane 5).state = .starting ∧ (s.lock 5).role = .joining 0 phase 255) := by
  decide +kernel

theorem witness_RaisedNotice :
    (NoticeBody.lockLost 5 0).maskBit = some 4 ∧ (0x0F : BitVec 5).getLsbD 4 = false ∧
      ready.notices.mask.getLsbD 4 = true ∧
      (let s := noticed [] (List.replicate 32 (aNotice 0)) ready
       32 ≤ s.notices.transmitted.length + s.notices.untransmitted.length) ∧
      (let s := noticed (List.replicate 31 (aNotice 0)) [] ready
       s.notices.transmitted.length + s.notices.untransmitted.length < 32) := by decide +kernel

theorem witness_Ack :
    (let s := asking .noticeAck 7 [255, 255] (noticed [aNotice 0] [aNotice 65535] ready)
     WaitingFor s .noticeAck 7 (u16 (65535 : Half).toNat) ∧ ∀ n ∈ s.notices.transmitted, n.seq ≠ 65535) ∧
    (let s := asking .noticeAck 7 [255, 255] (noticed [aNotice 65534, aNotice 65535, aNotice 0] [] ready)
     WaitingFor s .noticeAck 7 (u16 (65535 : Half).toNat) ∧
      s.notices.transmitted = [aNotice 65534] ++ aNotice 65535 :: [aNotice 0] ∧ (aNotice 65535).seq = 65535 ∧
      ∀ m ∈ [aNotice 65534], m.seq ≠ 65535) ∧
    WaitingFor (asking .noticeResend 7 [] ready) .noticeResend 7 [] := by decide +kernel

/-- Every slot of the default pool is free, and nothing else is. -/
theorem ready_slotUses (n : Nat) : slotUses ready n = if n < 32 then 1 else 0 := by
  have hr : ∀ i, ready.ring i = none := by decide +kernel
  have hc : ready.store.free.count n = if n < 32 then 1 else 0 := by
    show (List.range 32).count n = _
    by_cases h : n < 32
    · rw [if_pos h]; exact List.count_eq_one_of_mem List.nodup_range (List.mem_range.mpr h)
    · rw [if_neg h]; exact List.count_eq_zero.mpr (fun m => h (List.mem_range.mp m))
  simp [slotUses, hr, poolsOf, hc]

theorem ready_pool : PoolLaw ready :=
  ⟨ready_slotUses, by decide +kernel, by decide +kernel, by decide +kernel, by decide +kernel⟩

/-- A state in which stream 19 holds a claim and a position that lane 5 shows. -/
def showing : State :=
  let s := (bound .capturing .live .hold ⟨[⟨30, .empty, 0⟩, ⟨31, .ready 1 0, 1⟩], [1], 2⟩ ready).modStream 19
    (fun u => { u with admitted := some 360 })
  listed [⟨.stream 19, some 1⟩] ((laned 5 .running { s with claims := [⟨.stream 19, 360⟩] }).modLane 5
    (fun u => { u with tiles := [aTile 19 1] }))

theorem showing_claims : ClaimLaw showing where
  once := by decide +kernel
  recorded := by
    intro h u
    match h with
    | .stream i =>
      by_cases hi : i = 19
      · subst hi
        rw [show showing.claims = [⟨.stream 19, 360⟩] from rfl, show demandIn showing (.stream 19) = some 360 by decide +kernel]
        simp [eq_comm]
      · rw [show showing.claims = [⟨.stream 19, 360⟩] from rfl,
          show ∀ i : StreamIx, i ≠ 19 → demandIn showing (.stream i) = none by decide +kernel, ]
        · simp [hi]
        · exact hi
    | .lane l =>
      rw [show showing.claims = [⟨.stream 19, 360⟩] from rfl, show ∀ l, demandIn showing (.lane l) = none by decide +kernel]
      simp
  idleStream := by decide +kernel
  idleLane := by decide +kernel

theorem showing_pins : PinLaw showing where
  counted := by
    intro i p
    have h5 : ∀ l : LaneIx, (showing.lane l).tiles = if l = 5 then [aTile 19 1] else [] := by decide +kernel
    have hr : ∀ i : StreamIx, i ≠ 19 → showing.ring i = none := by decide +kernel
    have hs : showing.ring 19 = some ⟨[⟨30, .empty, 0⟩, ⟨31, .ready 1 0, 1⟩], [1], 2⟩ := by decide +kernel
    have hn : tilesNaming showing i p = if i = 19 ∧ p = 1 then 1 else 0 := by
      have hl : List.finRange 6 = [0, 1, 2, 3, 4, 5] := by decide
      by_cases hi : i = 19 <;> by_cases hp : p = 1 <;>
        simp [tilesNaming, h5, hl, Tile.names, aTile, hi, hp, eq_comm]
    rw [hn]
    by_cases hi : i = 19
    · subst hi
      match p with
      | 0 => simp [pinsAt, hs]
      | 1 => simp [pinsAt, hs]
      | n + 2 => simp [pinsAt, hs]
    · simp [pinsAt, hr i hi, hi]
  running := by decide +kernel
  waiting := by decide +kernel
  listed := by
    intro l x hx i p hn
    have h5 : ∀ l : LaneIx, (showing.lane l).tiles = if l = 5 then [aTile 19 1] else [] := by decide +kernel
    rw [h5] at hx
    by_cases hl : l = 5
    · subst hl
      simp at hx
      subst hx
      cases hn
      decide +kernel
    · simp [hl] at hx
  unbound := by decide +kernel
  joining := by decide +kernel

theorem witness_ClaimsAndPins : (∃ t, step { showing with pending := [.identify 7 []] } = .next t) ∧
    ClaimLaw showing ∧ PinLaw showing := ⟨⟨_, rfl⟩, showing_claims, showing_pins⟩

theorem witness_Invariants :
    (∃ t, step { ready with pending := [.identify 7 []] } = .next t) ∧ Memory.wf ready.dram = true ∧
      BudgetLaw ready.claims ∧ LinkLaw ready.link ∧ NoticeLaw ready.notices ∧
      (∀ i r, (bound .capturing .live .hold shownRing ready).ring i = some r → RingLaw r) ∧ PoolLaw ready := by
  refine ⟨⟨_, rfl⟩, by decide +kernel, by decide +kernel, by decide +kernel, by decide +kernel, ?_, ready_pool⟩
  intro i r h
  by_cases hi : i = 19
  · subst hi; cases h; exact shownRing_law
  · have : ∀ i : StreamIx, i ≠ 19 → (bound .capturing .live .hold shownRing ready).ring i = none := by decide +kernel
    rw [this i hi] at h; cases h

/-- Stream 19 in the middle of a frame of source 15, one line stored and the next being collected: position 0 is FILLING in slot 30,
position 1 READY in slot 31. -/
def filling : State :=
  let s := (bound .capturing .live .hold (twoSlots (.filling 0) (.ready 1 0) [1]) ready).modSource 15
    (fun u => { u with phase := .inFrame 2 })
  let t := (s.modStream 19 (fun u => { u with writer := ⟨[], 1⟩ })).modCapturePort 3
    (fun u => { u with line := some (3, List.replicate 128 16) })
  { t with store := { t.store with free := List.range 30 } }

theorem filling_ring (i : StreamIx) (r : Ring) (h : filling.ring i = some r) :
    i = 19 ∧ r = twoSlots (.filling 0) (.ready 1 0) [1] := by
  by_cases hi : i = 19
  · subst hi; cases h; exact ⟨rfl, rfl⟩
  · rw [show ∀ i : StreamIx, i ≠ 19 → filling.ring i = none by decide +kernel] at h
    · cases h
    · exact hi

theorem filling_fills (i : StreamIx) (r : Ring) (p : Nat) (h : filling.ring i = some r) (hp : r.fills p = true) :
    i = 19 ∧ p = 0 := by
  obtain ⟨hi, hr⟩ := filling_ring i r h
  subst hr
  match p with
  | 0 => exact ⟨hi, rfl⟩
  | 1 => exact absurd hp (by decide)
  | n + 2 => simp [Ring.fills, twoSlots] at hp

theorem filling_writer : WriterLaw filling where
  one := fun i r p q h hp hq => (filling_fills i r p h hp).2.trans (filling_fills i r q h hq).2.symm
  filling := fun i r p h hp => by
    obtain ⟨hi, -⟩ := filling_fills i r p h hp
    subst hi
    exact ⟨⟨15, .full, 64, 32, 2, .hold⟩, 2, by decide +kernel, by decide +kernel, by decide +kernel⟩
  known := by decide +kernel
  counted := fun n c h => by
    by_cases hn : n = 15
    · subst hn; cases h; exact ⟨smallSource, by decide +kernel, by decide⟩
    · rw [show ∀ n : SourceIx, n ≠ 15 → (filling.source n).phase = .out by decide +kernel] at h
      · cases h
      · exact hn
  fits := fun i b h => by
    by_cases hi : i = 19
    · subst hi; cases h
      exact ⟨by decide +kernel, by decide +kernel, smallSource, ⟨1920, 1088⟩, by decide +kernel, by decide +kernel,
        by decide, by decide, by decide, by decide⟩
    · rw [show ∀ i : StreamIx, i ≠ 19 → (filling.stream i).binding = none by decide +kernel] at h
      · cases h
      · exact hi
  formatted := by decide +kernel
  asserted := by decide +kernel

theorem filling_pool : PoolLaw filling := by
  refine ⟨fun n => ?_, by decide +kernel, by decide +kernel, by decide +kernel, by decide +kernel⟩
  have hr : ∀ i, poolsOf (filling.ring i) = if i = 19 then [30, 31] else [] := by decide +kernel
  have hl : List.finRange 20 = [0, 1, 2, 3, 4, 5, 6, 7, 8, 9, 10, 11, 12, 13, 14, 15, 16, 17, 18, 19] := by decide
  have hs : slotUses filling n = (List.range 30).count n + [30, 31].count n := by
    simp [slotUses, hr, hl, show filling.store.free = List.range 30 from rfl]
  rw [hs, ← List.count_append, show filling.store.count = 32 from rfl, show List.range 30 ++ [30, 31] = List.range 32 by decide]
  by_cases h : n < 32
  · rw [if_pos h]; exact List.count_eq_one_of_mem List.nodup_range (List.mem_range.mpr h)
  · rw [if_neg h]; exact List.count_eq_zero.mpr (fun m => h (List.mem_range.mp m))

theorem filling_steps : ∃ t, step { filling with pending := [.lineStart 3 3 []] } = .next t := by
  have h : (match step { filling with pending := [.lineStart 3 3 []] } with | .next _ => true | _ => false) = true := by
    decide +kernel
  revert h
  generalize step _ = o
  cases o with
  | next t => exact fun _ => ⟨t, rfl⟩
  | fault f => exact fun h => nomatch h
  | refused r => exact fun h => nomatch h

/-- The next marker of port 3 stores the line being collected: a step in the middle of a frame, with a completed frame beside it. -/
theorem witness_NoFrameIsTorn :
    (∃ t, step { filling with pending := [.lineStart 3 3 []] } = .next t) ∧ WriterLaw filling ∧ PoolLaw filling ∧ Memory.wf filling.dram = true ∧
      filling.ring 19 = some (twoSlots (.filling 0) (.ready 1 0) [1]) ∧ filling.store.format = some ⟨1920, 1088⟩ ∧
      (∀ a ∈ [31 * (1920 * 1088 * 2), 32 * (1920 * 1088 * 2) - 1],
        31 * (1920 * 1088 * 2) ≤ a ∧ a < (31 + 1) * (1920 * 1088 * 2) ∧
          (a < 30 * (1920 * 1088 * 2) ∨ (30 + 1) * (1920 * 1088 * 2) ≤ a)) :=
  ⟨filling_steps, filling_writer, filling_pool, by decide +kernel, by decide +kernel, by decide +kernel, by decide⟩

end Sys2Proof.Tests
end

section
/-! The invariants through a step: every law the statements carry is kept by a step where it is kept by every command. -/

namespace Sys2Proof.Machine

open Sys2Proof

/-- A step is a tick, or the command at the front run on the queue's rest. -/
theorem step_cases {s t : State} (h : step s = .next t) :
    t = tick s ∨ ∃ c rest, exec c { s with pending := rest } = .next t := by
  unfold step at h
  cases hp : s.pending with
  | nil => rw [hp] at h; exact .inl (by simpa using h.symm)
  | cons c rest => rw [hp] at h; exact .inr ⟨c, rest, h⟩

/-- A law that neither the waiting commands nor a tick bear on, and that every command keeps, is kept by every step. -/
theorem step_keeps {P : State → Prop} (hp : ∀ s rest, P s → P { s with pending := rest }) (ht : ∀ s, P s → P (tick s))
    (he : ∀ c s t, exec c s = .next t → P s → P t) {s t : State} (h : step s = .next t) (hs : P s) : P t := by
  rcases step_cases h with rfl | ⟨c, rest, hc⟩
  · exact ht s hs
  · exact he c _ t hc (hp s rest hs)

/-- A tick writes device time alone. -/
theorem tick_eq (s : State) : tick s = { s with deviceTime := (tick s).deviceTime } := by
  unfold tick
  split <;> rfl

/-- An event is a next state: nothing while RESET_N is asserted, else its action. -/
theorem whileReleased_cases {s u t : State} (h : whileReleased s u = .next t) : t = s ∨ t = u := by
  unfold whileReleased at h
  split at h <;> cases h
  · exact .inl rfl
  · exact .inr rfl

/-! ### The law of the rings -/

/-- R2, R3, R11: the ring law holds of every ring. -/
def RingsLawful (s : State) : Prop := ∀ i r, s.ring i = some r → RingLaw r

namespace RingsLawful

theorem of_rings {s t : State} (h : RingsLawful s) (e : t.rings = s.rings) : RingsLawful t := by
  intro i r hr
  exact h i r (by simpa only [State.ring, e] using hr)

/-- No stream has a ring. -/
theorem of_none {s : State} (h : ∀ i, s.ring i = none) : RingsLawful s := by
  intro i r hr
  rw [h] at hr
  exact nomatch hr

/-- One ring is written with a lawful one, or removed. -/
theorem written {s t : State} {i : StreamIx} {o : Option Ring} (h : RingsLawful s) (ho : ∀ r, o = some r → RingLaw r)
    (e : t.rings = wr s.rings i o) : RingsLawful t := by
  intro j r hr
  simp only [State.ring, e, rd_wr] at hr
  split at hr
  · exact ho r hr
  · exact h j r hr

/-- A change moves rings by their moves alone. -/
theorem change {w : Prop} {s t : State} (c : Change w s t) : RingsLawful s → RingsLawful t := by
  induction c with
  | refl => exact id
  | trans _ _ h k => exact fun hs => k (h hs)
  | records h => exact fun hs => hs.of_rings h.rings
  | ring i hr m _ => exact fun hs => hs.written (fun r e => by cases e; exact m.law (hs i _ hr)) rfl
  | raised b s => exact fun hs => hs.of_rings (by rw [raise_eq])
  | completed tag res fields s => exact fun hs => hs.of_rings (by rw [complete_eq])
  | stopped => exact id
  | readied => exact id
  | written => exact id

theorem effect {w g : Prop} {s t : State} (e : Effect w g s t) : RingsLawful s → RingsLawful t := by
  induction e with
  | change c => exact change c
  | trans _ _ h k => exact fun hs => k (h hs)
  | offered r s =>
    intro hs
    unfold offer
    split
    · exact hs
    · exact hs.of_rings (by rw [raise_eq]; rfl)
  | bound i n sc d pol gm s => exact fun hs => hs.written (fun r e => by cases e; exact Ring.create_law _) rfl
  | unbound i s => exact fun hs => hs.written (fun _ e => by cases e) rfl
  | acked n s =>
    intro hs
    unfold reportLost
    split <;> exact hs
  | bringupFinished mib stage d s =>
    intro hs
    unfold finishBringup
    exact hs.of_rings (by rw [raise_eq])
  | softReset tag s => exact fun _ => of_none (fun i => softReset_ring tag s i)
  | hardReset s => exact fun _ => of_none (fun i => rd_replicate none i)
  | _ => exact id

/-- Every step keeps the law of every ring. -/
theorem step {s t : State} (h : step s = .next t) (hs : RingsLawful s) : RingsLawful t :=
  step_keeps (P := RingsLawful) (fun _ _ hs => hs) (fun s hs => by rw [tick_eq]; exact hs)
    (fun c _ _ hc hs => effect (exec_effect (w := True) (fun _ => trivial) hc) hs) h hs

end RingsLawful

/-! ### The law of the pins -/

namespace PinLaw

/-- The parts the law speaks of, as the state holds them. -/
theorem of_records {s t : State} (h : PinLaw s) (hr : t.rings = s.rings) (hs : t.streams = s.streams)
    (hl : t.lanes = s.lanes) (hk : t.locks = s.locks) (hi : t.lists = s.lists) : PinLaw t :=
  h.of_same (fun _ => by simp only [State.ring, hr]) (fun _ => by simp only [State.stream, hs])
    (fun _ => by simp only [State.lane, hl]) (fun _ => by simp only [State.lock, hk])
    (fun _ => by simp only [State.list, hi])

/-- No stream has a ring, and every lane and lock holds its initial record. -/
theorem of_initial {s : State} (hr : ∀ i, s.ring i = none) (hl : ∀ l, s.lane l = Lane.initial)
    (hk : ∀ l, s.lock l = Lock.initial) : PinLaw s where
  counted := fun i p => by
    simp [pinsAt, tilesNaming, hr, hl, Lane.initial]
  running := fun l _ => by rw [hl]; rfl
  waiting := fun l _ => by rw [hl]; rfl
  listed := fun l x hx => by rw [hl] at hx; exact nomatch hx
  unbound := fun i _ => hr i
  joining := fun l h => by rw [hk] at h; exact nomatch h

/-- A stream record's update that makes no stream UNBOUND. -/
theorem streamMoved {s : State} (i : StreamIx) (f : Stream → Stream) (h : PinLaw s)
    (hf : (f (s.stream i)).state = .unbound → (s.stream i).state = .unbound) : PinLaw (s.modStream i f) where
  counted := h.counted
  running := h.running
  waiting := h.waiting
  listed := h.listed
  unbound := fun j hj => by
    refine h.unbound j ?_
    by_cases hij : i = j
    · subst hij; exact hf (by simpa using hj)
    · simpa [hij] using hj
  joining := h.joining

/-! Requests of the streams, the sources and the lists. -/

theorem streamBind {tag : Tag} {body : List Byte} {u v : State} (h : streamBind tag body u = .ok v) (hu : PinLaw u) :
    PinLaw v := by
  unfold Machine.streamBind refuse okReply at h
  repeat' split at h
  all_goals first | (cases h; done) | skip
  rename_i hs _ _ _ _
  cases h
  exact (hu.bound _ _ _ _ _ _ (by simpa using hs)).replied _

theorem streamUnbind {tag : Tag} {body : List Byte} {u v : State} (h : streamUnbind tag body u = .ok v) (hu : PinLaw u) :
    PinLaw v := by
  unfold Machine.streamUnbind refuse okReply at h
  repeat' split at h
  all_goals first | (cases h; done) | skip
  rename_i hn
  cases h
  exact (hu.unbounded _ (by simpa using hn)).replied _

theorem streamStart {tag : Tag} {body : List Byte} {u v : State} (h : streamStart tag body u = .ok v) (hu : PinLaw u) :
    PinLaw v := by
  unfold Machine.streamStart refuse okReply at h
  repeat' split at h
  all_goals first | (cases h; done) | skip
  cases h
  exact ((hu.streamMoved _ _ (fun e => by cases e)).admitted _ _).replied _

theorem streamStop {tag : Tag} {body : List Byte} {u v : State} (h : streamStop tag body u = .ok v) (hu : PinLaw u) :
    PinLaw v := by
  unfold Machine.streamStop refuse okReply at h
  repeat' split at h
  all_goals cases h
  · exact hu.replied _
  · exact (calm (.stopped _ u) hu).replied _
  · exact (calm (.stopped _ u) hu).replied _
  · exact (calm (.discardStop _ u) hu).replied _
  · exact (hu.streamMoved _ _ (fun e => by cases e)).deferred _ _
  · exact (calm (.discardStop _ u) hu).replied _

theorem streamFreeze {tag : Tag} {body : List Byte} {u v : State} (h : streamFreeze tag body u = .ok v) (hu : PinLaw u) :
    PinLaw v := by
  unfold Machine.streamFreeze refuse okReply at h
  repeat' split at h
  all_goals cases h
  · exact hu.replied _
  · exact (hu.streamMoved _ _ id).replied _
  · exact (hu.streamMoved _ _ id).deferred _ _

theorem streamThaw {tag : Tag} {body : List Byte} {u v : State} (h : streamThaw tag body u = .ok v) (hu : PinLaw u) :
    PinLaw v := by
  unfold Machine.streamThaw refuse okReply at h
  repeat' split at h
  all_goals cases h
  · exact hu.replied _
  · exact (calm (.retireOnThaw _ _) (hu.streamMoved _ _ id)).replied _
  · exact (calm (.withdrawFreeze _ u) hu).replied _

theorem streamFill {tag : Tag} {body : List Byte} {u v : State} (h : streamFill tag body u = .ok v) (hu : PinLaw u) :
    PinLaw v := by
  unfold Machine.streamFill refuse okReply at h
  repeat' split at h
  all_goals cases h
  exact (hu.streamMoved _ _ id).replied _

theorem streamStamp {tag : Tag} {body : List Byte} {u v : State} (h : streamStamp tag body u = .ok v) (hu : PinLaw u) :
    PinLaw v := by
  unfold Machine.streamStamp refuse okReply at h
  repeat' split at h
  all_goals cases h
  exact (hu.streamMoved _ _ id).replied _

theorem sourceSetup {tag : Tag} {body : List Byte} {u v : State} (h : sourceSetup tag body u = .ok v) (hu : PinLaw u) :
    PinLaw v := by
  unfold Machine.sourceSetup refuse okReply at h
  dsimp only at h
  repeat' split at h
  all_goals first | (cases h; done) | skip
  cases h
  exact hu.of_records rfl rfl rfl rfl rfl

theorem listEdit {tag : Tag} {body : List Byte} {u v : State} (h : listEdit tag body u = .ok v) (hu : PinLaw u) :
    PinLaw v := by
  unfold Machine.listEdit refuse okReply at h
  repeat' split at h
  all_goals cases h
  exact (hu.calm (.modList u _ _ rfl)).replied _

theorem listRead {tag : Tag} {body : List Byte} {u v : State} (h : listRead tag body u = .ok v) (hu : PinLaw u) :
    PinLaw v := by
  unfold Machine.listRead refuse okReply at h
  dsimp only at h
  repeat' split at h
  all_goals cases h
  all_goals exact hu.replied _

theorem portSetup {tag : Tag} {body : List Byte} {u v : State} (h : portSetup tag body u = .ok v) (hu : PinLaw u) :
    PinLaw v := by
  unfold Machine.portSetup refuse okReply at h
  repeat' split at h
  all_goals cases h
  exact (hu.calm (.modOutPort u _ _)).replied _

/-! Requests of the store, the link controller and the notice unit. -/

theorem storeConfig {tag : Tag} {body : List Byte} {u v : State} (h : storeConfig tag body u = .ok v) (hu : PinLaw u) :
    PinLaw v := by
  unfold Machine.storeConfig refuse okReply at h
  dsimp only at h
  repeat' split at h
  all_goals first | (cases h; done) | skip
  cases h
  exact hu.of_records rfl rfl rfl rfl rfl

theorem identify {tag : Tag} {body : List Byte} {u v : State} (h : identify tag body u = .ok v) (hu : PinLaw u) :
    PinLaw v := by
  unfold Machine.identify refuse okReply at h
  split at h
  all_goals cases h
  exact hu.replied _

theorem status {tag : Tag} {body : List Byte} {u v : State} (h : status tag body u = .ok v) (hu : PinLaw u) :
    PinLaw v := by
  unfold Machine.status refuse okReply at h
  repeat' split at h
  all_goals cases h
  exact hu.replied _

theorem clearCounters {s : State} (x : CounterHolder) (h : PinLaw s) : PinLaw (clearCounters x s) := by
  unfold Machine.clearCounters
  split
  · exact h.of_records rfl rfl rfl rfl rfl
  · exact h.streamMoved _ _ id
  · exact h.calm (.modLane s _ _ rfl rfl (.inl rfl))
  · exact h.of_records rfl rfl rfl rfl rfl
  · exact h.linked _

theorem counters {tag : Tag} {body : List Byte} {u v : State} (h : counters tag body u = .ok v) (hu : PinLaw u) :
    PinLaw v := by
  unfold Machine.counters refuse okReply at h
  split at h
  · split at h
    · rename_i x _ _ _
      cases h
      refine PinLaw.replied _ ?_
      split
      · exact (calm (Effect.clearFlag x u) hu).clearCounters x
      · exact calm (Effect.clearFlag x u) hu
    · cases h
  · cases h

theorem linkSet {tag : Tag} {body : List Byte} {u v : State} (h : linkSet tag body u = .ok v) (hu : PinLaw u) :
    PinLaw v := by
  unfold Machine.linkSet refuse okReply at h
  repeat' split at h
  all_goals first | (cases h; done) | skip
  cases h
  exact hu.of_records rfl rfl rfl rfl rfl

theorem cancel {tag : Tag} {body : List Byte} {u v : State} (h : cancel tag body u = .ok v) (hu : PinLaw u) :
    PinLaw v := by
  unfold Machine.cancel refuse okReply at h
  repeat' split at h
  all_goals cases h
  exact (hu.withdraw _).replied _

/-- R156: a soft reset leaves no ring, and every lane and lock at its initial record. -/
theorem softReset (tag : Tag) (s : State) : PinLaw (softReset tag s) :=
  of_initial (softReset_ring tag s) (fun l => rd_replicate Lane.initial l) (fun l => rd_replicate Lock.initial l)

theorem hardReset (s : State) : PinLaw (hardReset s) :=
  of_initial (fun i => rd_replicate none i) (fun l => rd_replicate Lane.initial l) (fun l => rd_replicate Lock.initial l)

theorem reset {tag : Tag} {body : List Byte} {u v : State} (h : reset tag body u = .ok v) : PinLaw v := by
  unfold Machine.reset refuse at h
  split at h
  all_goals cases h
  exact softReset tag u

theorem noticeAck {tag : Tag} {body : List Byte} {u v : State} (h : noticeAck tag body u = .ok v) (hu : PinLaw u) :
    PinLaw v := by
  unfold Machine.noticeAck refuse okReply reportLost at h
  repeat' split at h
  all_goals cases h
  · exact hu.of_records rfl rfl rfl rfl rfl
  · exact hu.of_records rfl rfl rfl rfl rfl

theorem noticeResend {tag : Tag} {body : List Byte} {u v : State} (h : noticeResend tag body u = .ok v) (hu : PinLaw u) :
    PinLaw v := by
  unfold Machine.noticeResend refuse okReply at h
  split at h
  all_goals cases h
  exact hu.of_records rfl rfl rfl rfl rfl

/-! The events of the link and of the store. -/

theorem takenByte {s : State} (b : Byte) (h : PinLaw s) : PinLaw (takeByte b s) := by
  unfold takeByte
  split
  · split
    · exact h.linked _
    · exact h
  · unfold frameByte
    dsimp only
    split
    · exact (h.linked _).raised _
    · split
      · unfold judgeFrame
        split
        · exact PinLaw.offered _ (h.linked _)
        · exact (h.linked _).raised _
      · exact h.linked _

theorem movedBytes (bs : List Byte) : ∀ {s : State}, PinLaw s → PinLaw (moveBytes bs s) := by
  induction bs with
  | nil => exact id
  | cons b bs ih => exact fun h => ih ((h.shifted 1).takenByte b)

theorem outboundFrameStart {s : State} (h : PinLaw s) : PinLaw (outboundFrameStart s) := by
  unfold Machine.outboundFrameStart
  split
  · exact h
  · exact h.movedBytes [idleByte]

theorem replyTransmitted {s : State} (h : PinLaw s) : PinLaw (replyTransmitted s) := by
  unfold Machine.replyTransmitted
  split
  · exact h.movedBytes _
  · exact h

theorem noticeTransmitted {s : State} (h : PinLaw s) : PinLaw (noticeTransmitted s) := by
  unfold Machine.noticeTransmitted
  split
  · exact h.movedBytes _
  · exact h.movedBytes _
  · exact h

/-- R146, R153: the end of a transfer. -/
theorem lcsRisen {s t : State} (h : execLcsNRise s = .next t) (hs : PinLaw s) : PinLaw t := by
  have hl : PinLaw { s with lcsLow := false } := hs.of_records rfl rfl rfl rfl rfl
  cases h
  split
  · exact hl
  · unfold interrupt truncate
    repeat' split
    · exact hl
    · exact (hl.linked _).raised _
    · exact hl.linked _
    · exact ((hl.linked _).raised _).linked _

theorem stored {s : State} (x : Store) (h : PinLaw s) : PinLaw { s with store := x } := h.of_records rfl rfl rfl rfl rfl

theorem failBringup {s : State} (c : StoreCause) (h : PinLaw s) : PinLaw (failBringup c s) :=
  (calm (.forAll _ (fun l u => .failComposing l u) _) (h.stored _)).raised _

theorem probeDone {s : State} (b : Bool) (h : PinLaw s) : PinLaw (probeDone b s) := by
  unfold Machine.probeDone
  split
  · split
    · exact h.stored _
    · exact h.failBringup _
  · exact h

theorem trainingDone {s : State} (b : Bool) (h : PinLaw s) : PinLaw (trainingDone b s) := by
  unfold Machine.trainingDone
  split
  · split
    · exact h.stored _
    · exact h.failBringup _
  · exact h

theorem sizingDone {s : State} (mib : Nat) (h : PinLaw s) : PinLaw (sizingDone mib s) := by
  unfold Machine.sizingDone
  split
  · split
    · exact (h.stored _).raised _
    · exact h.failBringup _
  · exact h

theorem deadlineExpiry {s : State} (h : PinLaw s) : PinLaw (deadlineExpiry s) := by
  unfold Machine.deadlineExpiry
  split
  · split
    · exact h.failBringup _
    · exact h
  · exact h

theorem accessFailure {s : State} (h : PinLaw s) : PinLaw (accessFailure s) := by
  unfold Machine.accessFailure
  split
  · exact (calm ((Calm.forAll _ (fun l u => .failComposing l u) _).trans
      (.forAll _ (fun i u => .streamDiscard .access i u) _)) (h.stored _)).raised _
  · exact h

/-- R46: a marker and what it does, from what its action can do. -/
theorem marker {port : CaptureIx} {act : State → State} {s t : State} (h : marker port act s = .next t)
    (ha : ∀ u, Calm True u (act u)) (hs : PinLaw s) : PinLaw t := by
  unfold Machine.marker at h
  split at h
  · cases h; exact hs
  · split at h
    · cases h; exact calm ((Calm.closeLine trivial port s).trans (ha _)) hs
    · cases h

/-- An event that acts only while RESET_N is released. -/
theorem released {s u t : State} (h : whileReleased s u = .next t) (hs : PinLaw s) (hu : PinLaw u) : PinLaw t := by
  rcases whileReleased_cases h with rfl | rfl
  · exact hs
  · exact hu

/-- Every command keeps the law of the pins. -/
theorem exec {c : Instr} {s t : State} (h : exec c s = .next t) (hs : PinLaw s) : PinLaw t := by
  cases c with
  | streamBind => exact requested (fun _ _ => streamBind) h hs
  | streamUnbind => exact requested (fun _ _ => streamUnbind) h hs
  | streamStart => exact requested (fun _ _ => streamStart) h hs
  | streamStop => exact requested (fun _ _ => streamStop) h hs
  | streamFreeze => exact requested (fun _ _ => streamFreeze) h hs
  | streamThaw => exact requested (fun _ _ => streamThaw) h hs
  | streamFill => exact requested (fun _ _ => streamFill) h hs
  | sourceSetup => exact requested (fun _ _ => sourceSetup) h hs
  | listEdit => exact requested (fun _ _ => listEdit) h hs
  | listRead => exact requested (fun _ _ => listRead) h hs
  | listCommit => exact requested (fun _ _ => listCommit) h hs
  | laneSetup => exact requested (fun _ _ => laneSetup) h hs
  | portSetup => exact requested (fun _ _ => portSetup) h hs
  | laneStart => exact requested (fun _ _ => laneStart) h hs
  | laneStop => exact requested (fun _ _ => laneStop) h hs
  | lockJoin => exact requested (fun _ _ => lockJoin) h hs
  | lockLeave => exact requested (fun _ _ => lockLeave) h hs
  | streamStamp => exact requested (fun _ _ => streamStamp) h hs
  | storeConfig => exact requested (fun _ _ => storeConfig) h hs
  | identify => exact requested (fun _ _ => identify) h hs
  | status => exact requested (fun _ _ => status) h hs
  | counters => exact requested (fun _ _ => counters) h hs
  | linkSet => exact requested (fun _ _ => linkSet) h hs
  | cancel => exact requested (fun _ _ => cancel) h hs
  | reset => exact requested (fun _ _ hv _ => reset hv) h hs
  | noticeAck => exact requested (fun _ _ => noticeAck) h hs
  | noticeResend => exact requested (fun _ _ => noticeResend) h hs
  | unknownRequest kind tag body =>
    simp only [Machine.exec, execUnknownRequest] at h
    split at h
    · cases h; exact hs
    · exact dispatched (fun _ hu => hu.replied _) h hs
  | inboundFrame bytes => exact released h hs (hs.movedBytes bytes)
  | lcsNRise => exact lcsRisen h hs
  | outboundFrameStart => exact released h hs hs.outboundFrameStart
  | replyTransmitted => exact released h hs hs.replyTransmitted
  | noticeTransmitted => exact released h hs hs.noticeTransmitted
  | resetNAssert => cases h; exact hardReset s
  | resetNRelease =>
    cases h
    split
    · exact hs.of_records rfl rfl rfl rfl rfl
    · exact hs
  | bringupProbeDone b => exact released h hs (hs.probeDone b)
  | bringupTrainingDone b => exact released h hs (hs.trainingDone b)
  | bringupSizingDone mib => exact released h hs (hs.sizingDone mib)
  | bringupDeadlineExpiry => exact released h hs hs.deadlineExpiry
  | dramAccessFailure => exact released h hs hs.accessFailure
  | captureFrameStart port index => exact marker h (fun u => .captureFrameStart trivial port index u) hs
  | lineStart port index data => exact marker h (fun u => .lineStart trivial port index data u) hs
  | frameEnd port index => exact marker h (fun u => .frameEnd trivial port index u) hs
  | sourceLossTimerExpiry n =>
    refine released h hs ?_
    split
    · exact calm (.sourceLoss trivial n s) hs
    · exact hs
  | pacingTimerExpiry l =>
    refine released h hs ?_
    split
    · exact hs.pacingExpiry l
    · exact hs
  | outputTrailerStart l => exact released h hs (calm (.trailerStart l s) hs)
  | outputFrameEnd l => exact released h hs (calm (.frameEnded l s) hs)

theorem step {s t : State} (h : step s = .next t) (hs : PinLaw s) : PinLaw t :=
  step_keeps (P := PinLaw) (fun _ _ hs => hs.of_records rfl rfl rfl rfl rfl)
    (fun s hs => by rw [tick_eq]; exact hs.of_records rfl rfl rfl rfl rfl) (fun _ _ _ => exec) h hs

end PinLaw

/-- Settles O59: the moves of a ring keep its law, and every command keeps the law of the pins. -/
theorem ringLawIsKept : Obligations.RingLawIsKept :=
  ⟨fun _ _ h hs => RingsLawful.step h hs, fun _ _ h hs => hs.step h⟩

end Sys2Proof.Machine
end

section
/-! No frame is ever torn: what a command does to the frame store, and which bytes a step may change. -/

namespace Sys2Proof.Machine

open Sys2Proof

/-! ### The canonical form of the memory -/

/-- Log 10: a change writes the memory by stored lines alone, and they keep its canonical form. -/
theorem Change.wf {w : Prop} {s t : State} (c : Change w s t) : Memory.wf s.dram = true → Memory.wf t.dram = true := by
  induction c with
  | trans _ _ h k => exact fun hs => k (h hs)
  | records h => rw [h.dram]; exact id
  | raised b s => rw [raise_dram]; exact id
  | completed t r f s => rw [complete_dram]; exact id
  | written _ s a bs => exact Memory.wf_writeBytes bs a
  | _ => exact id

theorem Effect.wf {w g : Prop} {s t : State} (e : Effect w g s t) : Memory.wf s.dram = true → Memory.wf t.dram = true := by
  induction e with
  | change c => exact c.wf
  | trans _ _ h k => exact fun hs => k (h hs)
  | offered r s => unfold offer; split <;> simp
  | bringupFinished => unfold finishBringup; simp
  | softReset => simp
  | acked => unfold reportLost; split <;> exact id
  | _ => exact id

/-- Every step keeps the canonical form. -/
theorem step_wf {s t : State} (h : step s = .next t) (hs : Memory.wf s.dram = true) : Memory.wf t.dram = true :=
  step_keeps (P := fun s => Memory.wf s.dram = true) (fun _ _ hs => hs) (fun s hs => by rw [tick_eq]; exact hs)
    (fun _ _ _ hc => (exec_effect (w := True) (fun _ => trivial) hc).wf) h hs

/-! ### The writer, confined to the slots of FILLING positions -/

namespace WriterLaw

/-- Every command keeps the writer's law and changes no byte outside the slots of the FILLING positions. A command that carries no
frame in stores nothing; a marker stores the line it ends. -/
theorem exec {c : Instr} {s t : State} (h : exec c s = .next t) (hs : WriterLaw s) :
    WriterLaw t ∧ (Memory.wf s.dram = true → ∀ a, OutsideFills s a → t.dram.read a = s.dram.read a) := by
  by_cases hf : feeds c = true
  · cases c with
    | captureFrameStart port index =>
      exact hs.marker h (fun _ hu hl => hu.captureFrameStart port index (collecting_none hl index))
    | lineStart port index data => exact hs.marker h (fun _ hu hl => hu.lineStart port index data hl)
    | frameEnd port index => exact hs.marker h (fun _ hu _ => hu.frameEnd port index)
    | sourceLossTimerExpiry n =>
      rcases whileReleased_cases h with rfl | rfl
      · exact ⟨hs, fun _ _ _ => rfl⟩
      · split
        · rename_i hd
          simp only [lossDue, Bool.and_eq_true, decide_eq_true_eq] at hd
          obtain ⟨hw, hm⟩ := hs.sourceLoss n hd.1
          exact ⟨hw, fun _ _ _ => by rw [hm]⟩
        · exact ⟨hs, fun _ _ _ => rfl⟩
    | _ => exact nomatch hf
  · have e := exec_effect (w := False) (fun e => hf e) h
    exact ⟨effect e hs, fun _ _ _ => by rw [e.dram]⟩

/-- What the writer's law says of a step, for the state and for the frame store. -/
theorem step {s t : State} (h : step s = .next t) (hs : WriterLaw s) :
    WriterLaw t ∧ (Memory.wf s.dram = true → ∀ a, OutsideFills s a → t.dram.read a = s.dram.read a) := by
  rcases step_cases h with rfl | ⟨c, rest, hc⟩
  · rw [tick_eq]
    exact ⟨hs.of_same (fun _ => rfl) (fun _ => rfl) (fun _ => rfl) (fun _ => rfl) rfl rfl, fun _ _ _ => rfl⟩
  · have hq : WriterLaw { s with pending := rest } :=
      hs.of_same (fun _ => rfl) (fun _ => rfl) (fun _ => rfl) (fun _ => rfl) rfl rfl
    exact (hq.exec hc :)

end WriterLaw

/-- R1: a byte of the slot of a position that is not FILLING stands in no slot of a FILLING position, for no two positions share
a slot. -/
theorem PoolLaw.outsideFills {s : State} (h : PoolLaw s) {i : StreamIx} {r : Ring} {p : Nat} {x : Slot} {f : SlotFormat}
    {a : Nat} (hr : s.ring i = some r) (hx : r.slots[p]? = some x) (hf : x.fill.isFilling = false)
    (hs : s.store.format = some f) (hlo : x.pool * f.bytes ≤ a) (hhi : a < (x.pool + 1) * f.bytes) :
    WriterLaw.OutsideFills s a := by
  intro j q k y f' hq hy hfill hf'
  rw [hs, Option.some.injEq] at hf'
  subst hf'
  have hne : x.pool ≠ y.pool := by
    intro he
    obtain ⟨rfl, rfl⟩ := h.distinct hr hq hx hy he
    rw [hr, Option.some.injEq] at hq
    subst hq
    simp [Ring.fills, hx, hf] at hfill
  rcases Nat.lt_or_gt_of_ne hne with hlt | hlt
  · exact .inl (Nat.lt_of_lt_of_le hhi (Nat.mul_le_mul_right _ hlt))
  · exact .inr (Nat.le_trans (Nat.mul_le_mul_right _ hlt) hlo)

/-- Settles O55: a step stores lines inside the slots of FILLING positions, which no completed frame's position shares. -/
theorem memoryStaysCanonical : Obligations.MemoryStaysCanonical := by
  refine ⟨fun _ _ => step_wf, fun s t h hs => (hs.step h).1, fun s t a h hm hs ho => ?_,
    fun s t i r p x q c f a h hm hs hp hr hx hfill hf hlo hhi => ?_⟩
  · refine (hs.step h).2 hm a (fun i r p x f hr hx hfill hf => ho i r p x f hr hx ?_ hf)
    simpa [Ring.fills, hx] using hfill
  · refine (hs.step h).2 hm a (hp.outsideFills hr hx ?_ hf hlo hhi)
    rcases hfill with e | e <;> simp [e, Fill.isFilling]

/-! ### The state after a hard reset -/

/-- R128: no slot is configured, none is free, and no ring holds one. -/
theorem PoolLaw.reset : PoolLaw State.reset := by
  refine ⟨fun n => ?_, List.Pairwise.nil, fun i _ => rd_replicate none i, fun _ => rfl, fun _ => rfl⟩
  have hr : ∀ i, State.reset.ring i = none := fun i => rd_replicate none i
  have hs : State.reset.store = Store.offline := rfl
  simp [slotUses, hr, hs, poolsOf, Store.offline]

/-- R135: no claim, and no admitted demand in any record. -/
theorem ClaimLaw.reset : ClaimLaw State.reset := by
  have hs : ∀ i, State.reset.stream i = Stream.initial := fun i => rd_replicate _ i
  have hl : ∀ l, State.reset.lane l = Lane.initial := fun l => rd_replicate _ l
  refine ⟨List.nodup_nil, fun x u => ?_, fun i _ => by rw [hs]; rfl, fun l _ => by rw [hl]; rfl⟩
  have hc : State.reset.claims = [] := rfl
  cases x <;> simp [demandIn, hs, hl, hc, Stream.initial, Lane.initial]

/-- Settles O3: a hard reset of the reset state is that state, and it holds every law. -/
theorem resetStateKeepsEveryLaw : Obligations.ResetStateKeepsEveryLaw :=
  ⟨rfl, by decide, by decide, by decide, RingsLawful.of_none (fun i => rd_replicate none i), PoolLaw.reset, ClaimLaw.reset,
    PinLaw.hardReset State.reset, WriterLaw.hardReset State.reset⟩

end Sys2Proof.Machine
end

section
/-! The requests of a stream that act at once: STREAM_BIND, STREAM_UNBIND, STREAM_FREEZE and STREAM_THAW. -/

namespace Sys2Proof.Machine

open Sys2Proof

/-! ### The state in which a request is judged -/

@[simp] theorem taken_stream (s : State) (i : StreamIx) : (taken s).stream i = s.stream i := rfl
@[simp] theorem taken_source (s : State) (n : SourceIx) : (taken s).source n = s.source n := rfl
@[simp] theorem taken_store (s : State) : (taken s).store = s.store := rfl
@[simp] theorem taken_lane (s : State) (l : LaneIx) : (taken s).lane l = s.lane l := rfl
@[simp] theorem taken_lock (s : State) (l : LaneIx) : (taken s).lock l = s.lock l := rfl
@[simp] theorem taken_fillingAt (s : State) (i : StreamIx) : fillingAt (taken s) i = fillingAt s i := rfl

/-! ### STREAM_BIND -/

theorem flatMap_u8 (xs : List Nat) : xs.flatMap u8 = xs.map byte := by
  induction xs with
  | nil => rfl
  | cons x xs ih => simp [u8, ih]

/-- R28: a geometry does not fit exactly where a slot format stands and it is wider or taller than that. -/
theorem geometryFits_false (s : State) (n : SourceIx) (sc : Scale) : geometryFits s n sc = false ↔
    ∃ g f, (s.source n).setup = some g ∧ s.store.format = some f ∧ (f.width < g.width / sc.k ∨ f.height < g.height / sc.k) := by
  unfold geometryFits storedGeometry
  cases (s.source n).setup with
  | none => simp
  | some g =>
    cases s.store.format with
    | none => simp
    | some f => simp; omega

/-- R28, R29: STREAM_BIND with its fields in range: the conditions in their order. -/
theorem streamBind_eq (tag : Tag) {bi bn bd : Byte} (sc : Scale) (pol : LossPolicy) {i : StreamIx} {n : SourceIx} (s : State)
    (hi : bi.toNat = i.val) (hn : bn.toNat = n.val) (h2 : 2 ≤ bd.toNat) (h6 : bd.toNat ≤ 6) :
    streamBind tag [bi, bn, sc.code, bd, pol.code] s =
      if geometryFits s n sc = false then refuse .badParam
      else if s.store.state ≠ .ready then refuse .notReady
      else if (s.stream i).state ≠ .unbound then refuse .badState
      else match (s.source n).setup with
        | none => refuse .badState
        | some g =>
          if s.store.free.length < bd.toNat then refuse .noSlots
          else okReply .streamBind tag (u8 bd.toNat ++ (s.store.free.take bd.toNat).flatMap u8)
            (bindStream i n sc bd.toNat pol g s) := by
  unfold streamBind
  simp only [index?_val i hi, index?_val n hn, scale?_code, policy?_code, h2, h6, and_self, not_true, if_false,
    Bool.not_eq_true] <;> rfl

/-- Settles O19: STREAM_BIND judges its conditions in order, and binds the lowest slots of the rising free list. -/
theorem bindTakesTheLowestSlots : Obligations.BindTakesTheLowestSlots := by
  have he : ∀ {s : State} {tag : Tag} {bi bn bd : Byte} {sc : Scale} {pol : LossPolicy} {i : StreamIx} {n : SourceIx},
      WaitingFor s .streamBind tag [bi, bn, sc.code, bd, pol.code] → bi.toNat = i.val → bn.toNat = n.val →
      2 ≤ bd.toNat → bd.toNat ≤ 6 → exec (.streamBind tag [bi, bn, sc.code, bd, pol.code]) s = _ :=
    fun hw hi hn h2 h6 => (request_waiting streamBind hw).trans (by rw [streamBind_eq _ _ _ _ hi hn h2 h6])
  refine ⟨fun s tag bi bn bd sc pol i n hw hi hn h2 h6 => ?_, fun s tag bi bn bd sc pol i n g hw hi hn h2 h6 hs hu hg hf => ?_⟩
  · have hfit : geometryFits (taken s) n sc = false ↔ _ := geometryFits_false s n sc
    refine ⟨fun hlarge => ?_, fun hlarge hs => ?_, fun hlarge hs hb => ?_⟩
    all_goals dsimp only
    · rw [he hw hi hn h2 h6, if_pos (hfit.mpr hlarge)]
      rfl
    · rw [he hw hi hn h2 h6, if_neg (mt hfit.mp hlarge), taken_store, if_pos hs]
      rfl
    · rw [he hw hi hn h2 h6, if_neg (mt hfit.mp hlarge), taken_store, if_neg (not_not.mpr hs), taken_stream, taken_source]
      split
      · rfl
      · rename_i hu
        rw [hb.resolve_left hu]
        rfl
  · have hlarge : geometryFits (taken s) n sc ≠ false := fun e => by
      obtain ⟨g', f, hg', hf', hx⟩ := (geometryFits_false s n sc).mp e
      rw [hg, Option.some.injEq] at hg'
      subst hg'
      have := hf f hf'
      omega
    rw [he hw hi hn h2 h6, if_neg hlarge, taken_store, if_neg (not_not.mpr hs), taken_stream, if_neg (not_not.mpr hu),
      taken_source, hg]
    dsimp only
    by_cases hfree : s.store.free.length < bd.toNat
    · rw [if_pos hfree, if_pos hfree]
      rfl
    · rw [if_neg hfree, if_neg hfree, flatMap_u8]
      rfl

/-! ### STREAM_UNBIND -/

theorem mem_insertSlot (x n : Nat) (ys : List Nat) : n ∈ insertSlot x ys ↔ n = x ∨ n ∈ ys := by
  induction ys with
  | nil => simp [insertSlot]
  | cons y ys ih =>
    unfold insertSlot
    split
    · simp
    · split
      · rename_i hxy
        subst hxy
        simp
      · simp only [List.mem_cons, ih]
        tauto

theorem mem_insertSlots (ps : List Nat) : ∀ (fs : List Nat) (n : Nat),
    n ∈ ps.foldl (fun fs p => insertSlot p fs) fs ↔ n ∈ fs ∨ n ∈ ps := by
  induction ps with
  | nil => simp
  | cons p ps ih =>
    intro fs n
    rw [List.foldl_cons, ih, mem_insertSlot, List.mem_cons]
    tauto

/-- R30: a list that names the stream, entry by entry. -/
theorem namedBy_iff (i : StreamIx) (es : List ListEntry) : namedBy i es = true ↔ ∃ e ∈ es, e.kind = .stream i := by
  simp [namedBy]

theorem listsName_iff (s : State) (i : StreamIx) : listsName s i = true ↔
    ∃ l, (∃ e ∈ (s.list l).active, e.kind = .stream i) ∨
      ((s.list l).commit ≠ none ∧ ∃ e ∈ (s.list l).staged, e.kind = .stream i) := by
  simp only [listsName, List.any_eq_true, List.mem_finRange, true_and, Bool.or_eq_true, Bool.and_eq_true, namedBy_iff,
    Option.isSome_iff_ne_none]

/-- R30: the ring is gone, and each of its slots is inserted in the free list. -/
theorem unbindStream_eq (i : StreamIx) (s : State) : unbindStream i s = { s with
    streams := wr s.streams i { Stream.initial with counters := (s.stream i).counters, dropFlag := (s.stream i).dropFlag }
    rings := wr s.rings i none
    store := { s.store with free := (poolsOf (s.ring i)).foldl (fun fs p => insertSlot p fs) s.store.free } } := by
  unfold unbindStream poolsOf
  cases s.ring i <;> rfl

/-- R30: STREAM_UNBIND with its field in range. -/
theorem streamUnbind_eq (tag : Tag) {bi : Byte} {i : StreamIx} (s : State) (hi : bi.toNat = i.val) :
    streamUnbind tag [bi] s =
      if (s.stream i).state ≠ .stopped then refuse .badState
      else if listsName s i then refuse .inUse
      else okReply .streamUnbind tag [] (unbindStream i s) := by
  simp only [streamUnbind, index?_val i hi]

/-- Settles O20: STREAM_UNBIND inserts each slot of the ring in the free list, unless a list names the stream. -/
theorem unbindReturnsTheSlots : Obligations.UnbindReturnsTheSlots := by
  have he : ∀ (s : State) (tag : Tag) (bi : Byte) (i : StreamIx), WaitingFor s .streamUnbind tag [bi] → bi.toNat = i.val →
      exec (.streamUnbind tag [bi]) s = .next (answer .streamUnbind tag (taken s)
        (if (s.stream i).state ≠ .stopped then refuse .badState
         else if listsName s i then refuse .inUse
         else okReply .streamUnbind tag [] (unbindStream i (taken s)))) := fun s tag bi i hw hi =>
    (request_waiting streamUnbind hw).trans (by rw [streamUnbind_eq tag (taken s) hi]; rfl)
  refine ⟨fun s tag bi i hw hi hs => ?_, fun s tag bi i hw hi hs => ⟨fun hn => ?_, fun hn => ?_⟩⟩
  · rw [he s tag bi i hw hi, if_pos hs]
    rfl
  · rw [he s tag bi i hw hi, if_neg (not_not.mpr hs), if_pos ((listsName_iff s i).mpr hn)]
    rfl
  · have hl : ¬ listsName s i = true := by
      rw [listsName_iff]
      rintro ⟨l, ⟨e, hm, hk⟩ | ⟨hc, e, hm, hk⟩⟩
      · exact (hn l).1 e hm hk
      · exact (hn l).2 hc e hm hk
    refine ⟨(poolsOf (s.ring i)).foldl (fun fs p => insertSlot p fs) s.store.free, mem_insertSlots _ _, ?_⟩
    rw [he s tag bi i hw hi, if_neg (not_not.mpr hs), if_neg hl, unbindStream_eq]
    rfl

/-! ### STREAM_FREEZE and STREAM_THAW -/

/-- R36, R37: STREAM_FREEZE of a bound stream under a tag no entry holds. -/
theorem streamFreeze_eq (tag : Tag) {bi : Byte} {i : StreamIx} (s : State) (ht : tagHeld s.link tag = false)
    (hi : bi.toNat = i.val) (hu : (s.stream i).state ≠ .unbound) :
    streamFreeze tag [bi] s =
      match (s.stream i).freeze with
      | .freezePending => refuse .badState
      | .frozen => okReply .streamFreeze tag (atOnce (newestSeq s i)) s
      | .live =>
        if (fillingAt s i).isNone then
          okReply .streamFreeze tag (atOnce (newestSeq s i)) (s.modStream i (fun r => { r with freeze := .frozen }))
        else if tableFull s.link then refuse .busy
        else .ok (defer tag (.streamFreeze i)
          (s.modStream i (fun r => { r with freeze := .freezePending, pendingFreeze := some tag }))) := by
  simp only [streamFreeze, ht, index?_val i hi, hu, Bool.false_eq_true, if_false] <;> rfl

/-- R39: STREAM_THAW of a bound stream. -/
theorem streamThaw_eq (tag : Tag) {bi : Byte} {i : StreamIx} (s : State) (hi : bi.toNat = i.val)
    (hu : (s.stream i).state ≠ .unbound) :
    streamThaw tag [bi] s =
      match (s.stream i).freeze with
      | .live => okReply .streamThaw tag [] s
      | .frozen => okReply .streamThaw tag [] (retireOnThaw i (s.modStream i (fun r => { r with freeze := .live })))
      | .freezePending => okReply .streamThaw tag [] (withdrawFreeze i s) := by
  simp only [streamThaw, index?_val i hi, hu, if_false] <;> rfl

/-- R14: under HOLD, and while FROZEN, a loss leaves the ring. -/
theorem retireOnLoss_kept {s : State} {i : StreamIx} {b : Binding} (hb : (s.stream i).binding = some b)
    (h : b.policy = .hold ∨ (s.stream i).freeze = .frozen) : retireOnLoss i s = s := by
  unfold retireOnLoss
  rw [hb]
  dsimp only
  refine if_neg ?_
  rintro ⟨hp, hf⟩
  rcases h with h | h
  · rw [hp] at h; exact nomatch h
  · exact hf h

/-- R14: under BLANK and not FROZEN, a loss retires the ring. -/
theorem retireOnLoss_blank {s : State} {i : StreamIx} {b : Binding} {r : Ring} (hb : (s.stream i).binding = some b)
    (hp : b.policy = .blank) (hf : (s.stream i).freeze ≠ .frozen) (hr : s.ring i = some r) :
    retireOnLoss i s = s.setRing i (some r.retire) := by
  unfold retireOnLoss
  rw [hb]
  dsimp only
  rw [if_pos ⟨hp, hf⟩]
  simp only [State.modRing, hr, Option.map_some]

/-- R14: retirement slot by slot: a READY position is emptied where no pin stands on it, else RETIRED. -/
theorem Ring.retire_eq (r : Ring) : r.retire = ⟨r.slots.map (fun x => match x.fill with
    | .ready q c => { x with fill := if x.pins = 0 then .empty else .retired q c }
    | _ => x), [], r.nextSeq⟩ := rfl

/-- R17: a thaw leaves the ring, unless the source is LOST and the policy BLANK. -/
theorem retireOnThaw_kept {s : State} {i : StreamIx} {b : Binding} (hb : (s.stream i).binding = some b)
    (h : (s.source b.source).state ≠ .lost ∨ b.policy = .hold) : retireOnThaw i s = s := by
  unfold retireOnThaw
  rw [hb]
  dsimp only
  split
  · rename_i hl
    exact retireOnLoss_kept hb (.inl (h.resolve_left (not_not.mpr hl)))
  · rfl

theorem retireOnThaw_lost {s : State} {i : StreamIx} {b : Binding} (hb : (s.stream i).binding = some b)
    (hl : (s.source b.source).state = .lost) : retireOnThaw i s = retireOnLoss i s := by
  unfold retireOnThaw
  rw [hb]
  exact if_pos hl

/-- `complete` of an operation whose entry is found. -/
theorem complete_found {t : Tag} {e : Entry} {s : State} (res : Result) (fields : List Byte)
    (h : s.link.outstanding.find? (fun x => x.tag = t) = some e) :
    complete t res fields s = { s with link := { s.link with
      outstanding := s.link.outstanding.eraseP (fun x => x.tag = t)
      replies := s.link.replies ++ [⟨replyKind e.op.kind.code, t, .final, res, fields⟩] } } := by
  unfold complete
  rw [h]
  rfl

/-- Settles O24: both requests by the freeze state they find. -/
theorem freezeAndThawAtOnce : Obligations.FreezeAndThawAtOnce := by
  refine ⟨fun s tag bi i hw ht hi hu => ?_, fun s tag bi i b hw hi hu hb => ?_⟩
  · have he : exec (.streamFreeze tag [bi]) s = _ :=
      (request_waiting streamFreeze hw).trans (by rw [streamFreeze_eq tag (taken s) ht hi hu])
    refine ⟨fun h => ?_, fun h => ?_, fun h hf => ?_⟩
    · rw [he, taken_stream, h]
      rfl
    · rw [he, taken_stream, h]
      rfl
    · rw [he, taken_stream, h]
      dsimp only
      rw [taken_fillingAt, hf]
      rfl
  · have he : exec (.streamThaw tag [bi]) s = _ :=
      (request_waiting streamThaw hw).trans (by rw [streamThaw_eq tag (taken s) hi hu])
    have hb' : (((taken s).modStream i (fun r => { r with freeze := .live })).stream i).binding = some b :=
      (congrArg Stream.binding (modStream_stream_same _ _ _)).trans hb
    refine ⟨fun h => ?_, fun h hk => ?_, fun r h hl hp hr => ?_, fun t e h hp hx => ?_⟩
    · rw [he, taken_stream, h]
      rfl
    · rw [he, taken_stream, h]
      dsimp only
      rw [retireOnThaw_kept hb' hk]
      rfl
    · rw [he, taken_stream, h]
      dsimp only
      rw [retireOnThaw_lost hb' hl, retireOnLoss_blank hb' hp (by simp) hr, Ring.retire_eq]
      rfl
    · rw [he, taken_stream, h]
      dsimp only [withdrawFreeze]
      rw [taken_stream, hp]
      dsimp only [completeIf]
      rw [complete_found (s := (taken s).modStream i _) _ _ hx, answer_okReply]
      simp only [firstReply, queueReply, State.modLink, List.append_assoc]
      rfl

end Sys2Proof.Machine
end

section
/-! The slot ring protocol: the writer's choice, a frame reaching a stream, the settling after a fill, the loss of a source. -/

namespace Sys2Proof.Machine

open Sys2Proof

/-! ### The writer's choice (R5) -/

theorem Fill.isFilling_iff (f : Fill) : f.isFilling = true ↔ ∃ t, f = .filling t := by
  cases f <;> simp [Fill.isFilling]

theorem Ring.eligible_iff (r : Ring) (p : Nat) : r.eligible p = true ↔
    ∃ x, r.slots[p]? = some x ∧ (∀ t, x.fill ≠ .filling t) ∧ x.pins = 0 ∧ r.ready.getLast? ≠ some p := by
  unfold Ring.eligible Ring.newest
  cases r.slots[p]? with
  | none => simp
  | some x => cases hx : x.fill <;> simp [hx, Fill.isFilling]

theorem Ring.filling_some {r : Ring} {p : Nat} (h : r.filling = some p) :
    ∃ x t, r.slots[p]? = some x ∧ x.fill = .filling t := by
  obtain ⟨x, hx, hf⟩ := Ring.filling_spec h
  obtain ⟨t, ht⟩ := (Fill.isFilling_iff _).mp hf
  exact ⟨x, t, hx, ht⟩

theorem Ring.not_filling {r : Ring} (h : r.filling = none) {x : Slot} (hx : x ∈ r.slots) (t : Time) : x.fill ≠ .filling t := by
  intro hf
  have := List.findIdx?_eq_none_iff.mp h x hx
  simp [hf, Fill.isFilling] at this

/-- The first search of R5: the lowest eligible EMPTY position. -/
def Ring.lowestEmpty (r : Ring) : Option Nat :=
  (List.range r.slots.length).find? (fun p => r.eligible p && (r.slots[p]?.any (fun x => x.fill.isEmpty)))

theorem Ring.choose_eq (r : Ring) : r.choose = r.lowestEmpty.or (r.ready.find? (fun p => r.eligible p)) := by
  unfold Ring.choose Ring.lowestEmpty
  split <;> rename_i h <;> rw [h] <;> rfl

/-- The first search finds an eligible EMPTY position, and none below it is one. -/
theorem Ring.lowestEmpty_some {r : Ring} {p : Nat} (h : r.lowestEmpty = some p) :
    r.eligible p = true ∧ (∃ x, r.slots[p]? = some x ∧ x.fill.isEmpty = true) ∧
      ∀ q y, r.slots[q]? = some y → r.eligible q = true → y.fill.isEmpty = true → p ≤ q := by
  obtain ⟨hp, -, hlow⟩ := List.find?_range_eq_some.mp h
  simp only [Bool.and_eq_true, Option.any_eq_true] at hp
  refine ⟨hp.1, hp.2, fun q y hq he hy => ?_⟩
  by_contra hlt
  have := hlow q (by omega)
  simp [he, hq, hy] at this

/-- The first search finds nothing: no eligible position is EMPTY. -/
theorem Ring.lowestEmpty_none {r : Ring} (h : r.lowestEmpty = none) {q : Nat} {y : Slot} (hq : r.slots[q]? = some y)
    (he : r.eligible q = true) : y.fill.isEmpty = false := by
  have := List.find?_eq_none.mp h q (List.mem_range.mpr (List.getElem?_eq_some_iff.mp hq).1)
  simpa [he, hq] using this

/-- R2, R5: an eligible position that is not EMPTY is READY, and so stands in the ready order. -/
theorem RingLaw.eligible_ready {r : Ring} (h : RingLaw r) {p : Nat} {x : Slot} (hx : r.slots[p]? = some x)
    (he : r.eligible p = true) (hne : x.fill.isEmpty = false) : p ∈ r.ready := by
  obtain ⟨-, hready, hslots, -⟩ := h
  obtain ⟨x', hx', hfill, hpins, -⟩ := (r.eligible_iff p).mp he
  rw [hx, Option.some.injEq] at hx'
  subst hx'
  have hl := (hslots x (List.mem_of_getElem? hx)).1
  rw [hready, hx]
  cases hf : x.fill with
  | empty => rw [hf] at hne; exact nomatch hne
  | filling t => exact absurd hf (hfill t)
  | ready q c => rw [Option.any_some, hf]; rfl
  | retired q c => simp [Slot.pinsLawful, hf, hpins] at hl

/-- Settles O25: the two searches of R5, and what they leave out. -/
theorem writerSparesPinnedAndNewest : Obligations.WriterSparesPinnedAndNewest := by
  refine ⟨Ring.eligible_iff, fun r => ⟨fun p => Ring.filling_some, fun h x hx t => Ring.not_filling h hx t⟩,
    fun s i => ⟨fun h => by simp [fillingAt, newestSeq, h], fun r hr => ⟨by simp [fillingAt, hr], fun h => ?_,
      fun p x q t hp hx hf => ?_⟩⟩, fun r h => ⟨fun p hp => ?_, fun p q x y hp hx hy hq he => ?_, fun p x hp hx he => ?_,
      fun hn p => ?_⟩⟩
  · simp [newestSeq, hr, Ring.newestSeq, Ring.newest, h]
  · simp [newestSeq, hr, Ring.newestSeq, Ring.newest, hp, hx, hf, Fill.seq]
  · rw [Ring.choose_eq] at hp
    cases hl : r.lowestEmpty with
    | some p' =>
      rw [hl, Option.some_or, Option.some.injEq] at hp
      exact hp ▸ (Ring.lowestEmpty_some hl).1
    | none =>
      rw [hl, Option.none_or] at hp
      exact List.find?_some hp
  · rw [Ring.choose_eq] at hp
    cases hl : r.lowestEmpty with
    | some p' =>
      rw [hl, Option.some_or, Option.some.injEq] at hp
      subst hp
      obtain ⟨-, ⟨x', hx', he'⟩, hlow⟩ := Ring.lowestEmpty_some hl
      rw [hx, Option.some.injEq] at hx'
      exact ⟨hx' ▸ he', hlow q y hy hq he⟩
    | none =>
      have := Ring.lowestEmpty_none hl hy hq
      rw [he] at this
      exact nomatch this
  · rw [Ring.choose_eq] at hp
    cases hl : r.lowestEmpty with
    | some p' =>
      rw [hl, Option.some_or, Option.some.injEq] at hp
      subst hp
      obtain ⟨-, ⟨x', hx', he'⟩, -⟩ := Ring.lowestEmpty_some hl
      rw [hx, Option.some.injEq] at hx'
      rw [hx', he'] at he
      exact nomatch he
    | none =>
      rw [hl, Option.none_or] at hp
      exact hp
  · by_contra hp
    have hp : r.eligible p = true := by simpa using hp
    rw [Ring.choose_eq, Option.or_eq_none_iff] at hn
    obtain ⟨x, hx, -⟩ := (r.eligible_iff p).mp hp
    exact List.find?_eq_none.mp hn.2 p (h.eligible_ready hx hp (Ring.lowestEmpty_none hn.1 hx hp)) hp

/-! ### A frame reaching a stream (R4, R7, R8) -/

/-- R27: a drop is noted by raising CAPTURE_DROP where the flag was clear; the flag is then set. -/
theorem noteDrop_eq (reason : DropReason) (i : StreamIx) (s : State) :
    noteDrop reason i s =
      if (s.stream i).dropFlag then s.modStream i (fun r => { r with dropFlag := true })
      else raise (.captureDrop i reason) (s.modStream i (fun r => { r with dropFlag := true })) := by
  unfold noteDrop
  split
  · rename_i h
    have hs : { s.stream i with dropFlag := true } = s.stream i := by rw [← h]
    rw [State.modStream, hs, State.stream, wr_rd]
  · rfl

/-- R4: a frame start at a stream that is ARMED or CAPTURING, condition by condition. -/
theorem streamFrameStart_eq (t : Time) (i : StreamIx) (s : State) (h : (s.stream i).state ∈ [StreamState.armed, .capturing]) :
    streamFrameStart t i s =
      let u := s.modStream i (fun r => { r with state := .capturing })
      if (s.stream i).freeze = .frozen then dropFrozen i u
      else if s.store.state ≠ .ready then dropStore i u
      else match (s.ring i).bind Ring.choose with
        | some p => (u.modRing i (fun r => r.begin p t)).modStream i (fun r => { r with writer := .initial })
        | none => dropStall i u := by
  have h' : (s.stream i).state = .armed ∨ (s.stream i).state = .capturing := by simpa using h
  unfold streamFrameStart choosePosition
  rw [if_pos h']
  simp only [modStream_stream_same, modStream_store, modStream_ring_at]
  rfl

/-- R7: a completion at the FILLING position. -/
theorem streamComplete_filling {s : State} {i : StreamIx} {r : Ring} {p : Nat} {x : Slot} {t : Time} (hr : s.ring i = some r)
    (hp : r.filling = some p) (hx : r.slots[p]? = some x) (hf : x.fill = .filling t) :
    streamComplete i s = settle (.completed r.nextSeq) i
      ((s.setRing i (some (r.finish p t))).modStreamCounters i (fun c => { c with captured := satInc c.captured })) := by
  simp [streamComplete, hr, hp, hx, hf, Fill.captured]

/-- R8: a discard at the FILLING position. -/
theorem streamDiscard_filling {s : State} {i : StreamIx} {r : Ring} {p : Nat} (c : Cause) (hr : s.ring i = some r)
    (hp : r.filling = some p) :
    streamDiscard c i s = settle (.discarded c) i
      ((s.setRing i (some (r.abandon p))).modStreamCounters i (fun k => { k with discarded := satInc k.discarded })) := by
  simp [streamDiscard, fillingAt, hr, hp, State.modRing]

theorem streamDiscard_none {s : State} {i : StreamIx} (c : Cause) (h : fillingAt s i = none) : streamDiscard c i s = s := by
  simp [streamDiscard, h]

theorem streamComplete_none {s : State} {i : StreamIx} (h : fillingAt s i = none) : streamComplete i s = s := by
  unfold streamComplete
  cases hr : s.ring i with
  | none => rfl
  | some r =>
    have : r.filling = none := by simpa [fillingAt, hr] using h
    simp only [this]

/-! ### Settling (R33, R37, R40) -/

theorem settleFreeze_none {x : Settle} {i : StreamIx} {s : State} (h : (s.stream i).pendingFreeze = none) :
    settleFreeze x i s = s := by
  simp [settleFreeze, h]

theorem settleStop_none {x : Settle} {i : StreamIx} {s : State} (h : (s.stream i).pendingStop = none) :
    settleStop x i s = s := by
  simp [settleStop, h]

theorem settleFreeze_some {x : Settle} {i : StreamIx} {s : State} {t : Tag} {e : Entry}
    (h : (s.stream i).pendingFreeze = some t) (he : s.link.outstanding.find? (fun y => y.tag = t) = some e) :
    settleFreeze x i s = { s with
      streams := wr s.streams i { s.stream i with freeze := .frozen, pendingFreeze := none }
      link := { s.link with
        outstanding := s.link.outstanding.eraseP (fun y => y.tag = t)
        replies := s.link.replies ++
          [⟨replyKind e.op.kind.code, t, .final, .ok, x.code ++ seqBytes (newestSeq s i)⟩] } } := by
  unfold settleFreeze
  rw [h]
  exact complete_found _ _ he

theorem settleStop_some {x : Settle} {i : StreamIx} {s : State} {t : Tag} {e : Entry}
    (h : (s.stream i).pendingStop = some t) (he : s.link.outstanding.find? (fun y => y.tag = t) = some e) :
    settleStop x i s = { s with
      streams := wr s.streams i { s.stream i with state := .stopped, admitted := none, pendingStop := none }
      claims := s.claims.filter (fun c => c.holder ≠ .stream i)
      link := { s.link with
        outstanding := s.link.outstanding.eraseP (fun y => y.tag = t)
        replies := s.link.replies ++ [⟨replyKind e.op.kind.code, t, .final, .ok, x.stopFields⟩] } } := by
  unfold settleStop
  rw [h]
  exact complete_found _ _ he

/-- R174: a stop settled otherwise than by COMPLETED carries sequence number 0. -/
theorem Settle.stopFields_discarded (c : Cause) : (Settle.discarded c).stopFields = [2, c.code] ++ [0, 0, 0, 0] :=
  congrArg ([2, c.code] ++ ·) (show seqBytes none = [0, 0, 0, 0] by decide)

/-- Settles O26: the events of a fill by the conditions of their rules, and the settling after them, the freeze first. -/
theorem fillFollowsTheFrame : Obligations.FillFollowsTheFrame := by
  refine ⟨fun s i t hs => ?_, fun s i t hs => ?_, fun s i r p x t hr hp hx hf => ?_, fun s i r p c hr hp => ?_,
    fun s i c h => ⟨streamComplete_none h, streamDiscard_none c h⟩, fun s i x => ?_⟩
  · have he := streamFrameStart_eq t i s hs
    dsimp only at he ⊢
    refine ⟨fun h => ?_, fun h hst => ?_, fun r h hst hr hc => ?_, fun r p h hst hr hc => ?_⟩
    · rw [he, if_pos h]
      simp [dropFrozen, State.modStreamCounters, State.modStream, State.stream]
    · rw [he, if_neg h, if_pos hst]
      simp only [dropStore, noteDrop_eq, State.modStreamCounters, State.modStream, State.stream, rd_wr_same, wr_wr]
      rfl
    · rw [he, if_neg h, if_neg (not_not.mpr hst), hr, Option.bind_some, hc]
      simp only [dropStall, noteDrop_eq, State.modStreamCounters, State.modStream, State.stream, rd_wr_same, wr_wr]
      rfl
    · rw [he, if_neg h, if_neg (not_not.mpr hst), hr, Option.bind_some, hc]
      simp only [State.modRing, modStream_ring_at, hr, Option.map_some]
      simp only [State.modStream, State.setRing, State.stream, rd_wr_same, wr_wr]
      rfl
  · unfold streamFrameStart
    rw [if_neg]
    rintro (h | h) <;> simp [h] at hs
  · rw [streamComplete_filling hr hp hx hf]
    rfl
  · rw [streamDiscard_filling c hr hp]
    rfl
  · refine ⟨fun hf hs => ?_, fun tf ef hf hs he => ?_, fun ts es hf hs he => ?_, fun tf ef ts es hf hs he he' => ?_⟩
    · rw [settle, settleFreeze_none hf, settleStop_none hs]
    · rw [settle, settleFreeze_some hf he, settleStop_none (by simpa [State.stream] using hs)]
      cases x <;> rfl
    · rw [settle, settleFreeze_none hf, settleStop_some hs he]
      cases x with
      | completed q => rfl
      | discarded c => rw [Settle.stopFields_discarded]
    · rw [settle, settleFreeze_some hf he, settleStop_some (by simpa [State.stream] using hs) he']
      simp only [State.stream, rd_wr_same, wr_wr, List.append_assoc]
      cases x with
      | completed q => rfl
      | discarded c => rw [Settle.stopFields_discarded]; rfl

/-! ### The loss of a source (R14, R56) -/

/-- The settling of a stream writes stream records, claims and the link. -/
theorem settle_frame (x : Settle) (i : StreamIx) (s : State) : settle x i s = { s with
    streams := (settle x i s).streams
    claims := (settle x i s).claims
    link := (settle x i s).link } := by
  unfold settle
  rw [settleStop_eq, completeIf_eq, settleFreeze_eq, completeIf_eq]

theorem streamDiscard_sources (c : Cause) (i : StreamIx) (s : State) : (streamDiscard c i s).sources = s.sources := by
  unfold streamDiscard
  split
  · rfl
  · rw [settle_frame]
    rfl

theorem streamDiscards_sources (c : Cause) (xs : List StreamIx) : ∀ s : State,
    (xs.foldl (fun t i => streamDiscard c i t) s).sources = s.sources := by
  induction xs with
  | nil => exact fun _ => rfl
  | cons i xs ih => exact fun s => (ih _).trans (streamDiscard_sources c i s)

/-- R58: which streams a source's events reach depends on the streams' bindings alone. -/
theorem boundStreams_congr {s t : State} (h : ∀ i, (t.stream i).binding = (s.stream i).binding) (n : SourceIx) :
    boundStreams t n = boundStreams s n := by
  simp only [boundStreams, h]

/-- R56: a frame in progress at the expiry: each bound stream discards, the cause is counted, the frame is skipped. -/
theorem loseFrame_inFrame {s : State} {n : SourceIx} {c : Nat} (h : (s.source n).phase = .inFrame c) :
    loseFrame n s = { (boundStreams s n).foldl (fun t i => streamDiscard .lostMidFrame i t) s with
      sources := wr s.sources n { s.source n with
        phase := .skipping
        counters := { (s.source n).counters with lostMidFrame := satInc (s.source n).counters.lostMidFrame } } } := by
  unfold loseFrame
  rw [h]
  simp only [discardFrame, handOver, State.modSourceCounters, State.modSource, State.source,
    streamDiscards_sources, rd_wr_same, wr_wr]
  rfl

theorem loseFrame_outside {s : State} {n : SourceIx} (h : (s.source n).phase ∈ [FramePhase.out, .skipping]) :
    loseFrame n s = s := by
  unfold loseFrame
  split
  · rename_i hp
    simp [hp] at h
  · rfl

/-- R56: no stream's binding changes before the loss is handed over. -/
theorem loseFrame_bindings (n : SourceIx) (s : State) (i : StreamIx) :
    ((loseFrame n s).stream i).binding = (s.stream i).binding := by
  unfold loseFrame
  split
  · exact ((Change.each (fun i u => Change.calm (.streamDiscard .lostMidFrame i u)) (boundStreams s n) s).input.stream i).1
  · rfl

/-- R56: the loss handed to the streams bound to the source. -/
theorem sourceLoss_eq (n : SourceIx) (s : State) : sourceLoss n s = raise (.sourceLost n)
    ((boundStreams s n).foldl (fun t i => retireOnLoss i t)
      ((loseFrame n s).modSource n (fun r => { r with state := .lost, lossTimer := none }))) := by
  have hb : boundStreams ((loseFrame n s).modSource n (fun r => { r with state := .lost, lossTimer := none })) n =
      boundStreams s n := boundStreams_congr (fun i => loseFrame_bindings n s i) n
  unfold sourceLoss handOver
  rw [hb]

theorem execSourceLossTimerExpiry_due {s : State} {n : SourceIx} (ha : s.resetAsserted = false) (h : lossDue s n = true) :
    exec (.sourceLossTimerExpiry n) s = .next (sourceLoss n s) := by
  show whileReleased s (if lossDue s n then sourceLoss n s else s) = _
  rw [whileReleased, if_neg (by simp [ha]), if_pos h]

/-- Settles O32: the expiry of a due timer in each frame phase, and retirement ring by ring. -/
theorem lossTimerMakesTheSourceLost : Obligations.LossTimerMakesTheSourceLost := by
  refine ⟨fun s n e ha hp ht hd => ?_, fun s n ha ht => ?_, fun s i b hb => ⟨retireOnLoss_kept hb, fun r hp hf hr => ?_⟩⟩
  · have hdue : lossDue s n = true := by
      simp only [lossDue, hp, ht, Option.any_some, due, elapsed, hd, decide_true, Bool.and_self]
    refine ⟨fun hph => ?_, fun c hph => ?_⟩
    · rw [execSourceLossTimerExpiry_due ha hdue, sourceLoss_eq, loseFrame_outside hph]
      rfl
    · rw [execSourceLossTimerExpiry_due ha hdue, sourceLoss_eq, loseFrame_inFrame hph]
      simp only [State.modSource, State.source, rd_wr_same, wr_wr]
  · show whileReleased s (if lossDue s n then sourceLoss n s else s) = _
    have hdue : lossDue s n = false := by simp [lossDue, ht]
    rw [hdue]
    simp [whileReleased, ha]
  · rw [retireOnLoss_blank hb hp hf hr, Ring.retire_eq]
    rfl

end Sys2Proof.Machine
end

section
/-! The tiles of a boundary, and the picture composed of them. -/

namespace Sys2Proof.Machine

open Sys2Proof

/-! ### The tiles of a boundary (R89, R90) -/

/-- R89: the tiles in increasing index, one entry after another. -/
theorem selectTiles_eq_foldl (l : LaneIx) (t : Time) (es : List ListEntry) : ∀ (j : Nat) (s : State),
    selectTiles l t es j s = (es.zipIdx j).foldl (fun u x => selectTile l t x.2 x.1 u) s := by
  induction es with
  | nil => exact fun _ _ => rfl
  | cons e es ih => exact fun j s => ih (j + 1) (selectTile l t j e s)

/-- R64: the size of the current group is that of its first entry's scale. -/
theorem groupSizeAt_eq {s : State} {l : LaneIx} {e : ListEntry} {sc : Scale}
    (he : ((s.list l).active.drop (s.lane l).groupStart).head? = some e) (hs : entryScale s e = some sc) :
    groupSizeAt s l = sc.groupSize := by
  obtain ⟨es, hes⟩ := List.head?_eq_some_iff.mp he
  simp [groupSizeAt, groupEntries, hes, hs]

/-- R10: the answer to a pin claim while the store is READY and the newest position holds a frame. -/
theorem pinAnswer_some {s : State} {i : StreamIx} {r : Ring} {p : Nat} {x : Slot} {q : Word} {c : Time}
    (hst : s.store.state = .ready) (hr : s.ring i = some r) (hp : r.ready.getLast? = some p) (hx : r.slots[p]? = some x)
    (hf : x.fill = .ready q c) : pinAnswer s i = some (p, q, c) := by
  simp [pinAnswer, hst, hr, Ring.newest, hp, hx, hf]

/-- R10: nothing is pinned while the store is not READY, or where no frame is READY. -/
theorem pinAnswer_none {s : State} {i : StreamIx} (h : s.store.state ≠ .ready ∨ ∀ r, s.ring i = some r → r.ready = []) :
    pinAnswer s i = none := by
  unfold pinAnswer
  split
  · rename_i hst
    cases hr : s.ring i with
    | none => rfl
    | some r => simp [Ring.newest, h.resolve_left (not_not.mpr hst) r hr]
  · rfl

/-- R89, R90: the tile of a STREAM entry with a frame to show. -/
theorem selectTile_shown {s : State} {e : ListEntry} {i : StreamIx} {p : Nat} {q : Word} {c : Time} (l : LaneIx) (t : Time)
    (j : Nat) (he : e.kind = .stream i) (hp : pinAnswer s i = some (p, q, c)) :
    selectTile l t j e s =
      let rep := decide (lastShownAt s l j = some q)
      { s with
        rings := wr s.rings i ((s.ring i).map (fun r => r.pin p))
        lanes := wr s.lanes l { s.lane l with
          tiles := (s.lane l).tiles ++ [⟨j, (s.stream i).fill, .shown i p q c (ageAt t c) rep
            (decide ((s.stream i).freeze = .frozen)) (streamLost s i) (s.stream i).words⟩]
          lastShown := (s.lane l).lastShown.set j (some q)
          counters := if rep then { (s.lane l).counters with repeats := satInc (s.lane l).counters.repeats }
            else (s.lane l).counters } } := by
  unfold selectTile
  simp only [he, hp, addTile, State.modRing, State.setRing, State.modLane, State.lane, rd_wr_same, wr_wr]

/-- R89: the tile of a STREAM entry with nothing to show. -/
theorem selectTile_fill {s : State} {e : ListEntry} {i : StreamIx} (l : LaneIx) (t : Time) (j : Nat) (he : e.kind = .stream i)
    (hp : pinAnswer s i = none) :
    selectTile l t j e s = { s with lanes := wr s.lanes l { s.lane l with
      tiles := (s.lane l).tiles ++ [⟨j, (s.stream i).fill, .fill i (decide ((s.stream i).freeze = .frozen)) (streamLost s i)⟩]
      counters := { (s.lane l).counters with fills := satInc (s.lane l).counters.fills } } } := by
  unfold selectTile
  simp only [he, hp, addTile, State.modLaneCounters, State.modLane, State.lane, rd_wr_same, wr_wr]

/-! ### The picture (R91, R92) -/

theorem solid_eq (c : Colour) (n : Nat) : solid c n = (List.replicate (n / 2) [c.cb, c.y, c.cr, c.y]).flatten := rfl

/-- A run of k elements from a on, taken one position at a time. -/
theorem flatMap_take_drop {α β : Type} (f : α → List β) (xs : List α) (a k : Nat) :
    ((xs.drop a).take k).flatMap f = (List.range k).flatMap (fun j => match xs[a + j]? with
      | none => []
      | some x => f x) := by
  induction k with
  | zero => simp
  | succ k ih =>
    rw [List.range_succ, List.flatMap_append, ← ih, List.take_add_one, List.flatMap_append, List.getElem?_drop]
    cases hx : xs[a + k]? <;> simp [hx]

/-- R91: k × k tiles stand in the scale k. -/
theorem tileScale_sq {k : Nat} (h : k ∈ [1, 2, 3]) : tileScale (k * k) = k := by
  fin_cases h <;> rfl

/-- R92: a line comes after the line on which the store failed. -/
theorem failed_eq (fl : Option Nat) (y : Nat) : fl.any (fun n => decide (n ≤ y)) = decide (∃ n ∈ fl, n ≤ y) := by
  cases fl <;> simp

/-- R124: a run of bytes lies in the detected capacity. -/
theorem Store.holds_iff (st : Store) (a n : Nat) :
    st.holds a n = true ↔ ∃ mib, st.capacity = some mib ∧ a + n ≤ mib * 1048576 := by
  unfold Store.holds
  cases st.capacity with
  | none => simp
  | some c => exact decide_eq_true_iff.trans (by simp [Config.mib])

/-- R91, R92: a line of a STREAM tile whose stream holds the position. -/
theorem shownLine_eq {s : State} {i : StreamIx} {p : Nat} {b : Binding} {r : Ring} {x : Slot} {f : SlotFormat} (y tw : Nat)
    (c : Colour) (hb : (s.stream i).binding = some b) (hr : s.ring i = some r) (hx : r.slots[p]? = some x)
    (hf : s.store.format = some f) :
    shownLine s i p y tw c =
      if b.storedHeight ≤ y then solid c tw
      else if s.store.holds (lineAddress f x.pool y) (2 * b.storedWidth) then
        placeLine (s.dram.readBytes (lineAddress f x.pool y) (2 * b.storedWidth)) b.storedWidth tw c
      else solid c tw := by
  simp [shownLine, hb, hr, hx, hf]

/-- Settles O44: the tiles entry by entry, and the picture line by line. -/
theorem streamTileShowsTheNewest : Obligations.StreamTileShowsTheNewest := by
  refine ⟨fun s l t => ⟨fun h => ?_, fun e sc hd he hs => ?_⟩, fun s l t j e i r p x q c he hst hr hp hx hf => ?_,
    fun s l t j e i he h => selectTile_fill l t j he (pinAnswer_none h), fun s l t j sc d g hg => ?_, fun s i => ?_,
    fun s g tiles fl y k => ⟨fun h => ?_, fun hk hlen => ⟨fun hy => ?_, fun hy => ?_⟩⟩,
    fun s failed j y tw c i fz lost => ⟨rfl, rfl⟩, fun s j y tw p age c i q at_ rep fz lost ws b r x f hb hr hx hf => ?_⟩
  · rw [tileStep, if_pos (by simpa using h)]
  · have hne : (s.list l).active ≠ [] := by
      rintro hn
      simp [hn] at he
    rw [tileStep, if_neg (by simp [hd, hne]), groupSizeAt_eq he hs, selectTiles_eq_foldl]
    rfl
  · rw [selectTile_shown l t j he (pinAnswer_some hst hr hp hx hf), hr]
    rfl
  · simp [selectTile, addTile, State.modLane, hg]
  · simp [streamLost, Option.any_eq_true]
  · simp [composedLine, h, solid_eq]
  · have hs : tileScale tiles.length = k := by rw [hlen, tileScale_sq hk]
    simp [composedLine, hs, tileHeight, hy, solid_eq]
  · have hs : tileScale tiles.length = k := by rw [hlen, tileScale_sq hk]
    have hne : tiles ≠ [] := by
      rintro rfl
      fin_cases hk <;> simp at hlen
    unfold composedLine
    simp only [hs, tileHeight, tileWidth]
    rw [if_neg (by simp [hne, hy]), flatMap_take_drop, failed_eq]
    refine congrArg (List.flatMap · _ ++ _) (funext fun j => ?_)
    cases tiles[y / (g.height / k) * k + j]? <;> rfl
  · have hline := shownLine_eq y tw c hb hr hx hf
    have hin : s.store.holds (lineAddress f x.pool y) (2 * b.storedWidth) = true ↔ _ := Store.holds_iff _ _ _
    refine ⟨rfl, fun h => hline.trans ?_, fun hy h => hline.trans ?_⟩
    · split
      · rfl
      · rename_i hy
        rw [if_neg (mt hin.mp (h.resolve_left hy))]
        rfl
    · rw [if_neg (by omega), if_pos (hin.mpr h)]
      rfl

end Sys2Proof.Machine
end

section
/-! LANE_STOP: what has been done of a lane when its run ends, the end itself, and each stop that acts at once. -/

namespace Sys2Proof.Machine

open Sys2Proof

/-! ### The outstanding table -/

/-- What `complete` makes of the link depends on the link alone. -/
theorem complete_link_congr {s u : State} (t : Tag) (res : Result) (fields : List Byte) (h : u.link = s.link) :
    (complete t res fields u).link = (complete t res fields s).link := by
  unfold complete
  rw [h]
  split
  · exact h
  · simp [queueReply, State.modLink, h]

theorem completeIf_link_congr {s u : State} (t : Option Tag) (res : Result) (fields : List Byte) (h : u.link = s.link) :
    (completeIf t res fields u).link = (completeIf t res fields s).link := by
  cases t with
  | none => exact h
  | some t => exact complete_link_congr t res fields h

/-- R150: no two entries share a tag, so one entry alone has the tag of an entry. -/
theorem filter_tag {es : List Entry} (hn : (es.map Entry.tag).Nodup) {e : Entry} (he : e ∈ es) :
    es.filter (fun y => decide (y.tag = e.tag)) = [e] := by
  induction es with
  | nil => cases he
  | cons x es ih =>
    rw [List.map_cons, List.nodup_cons] at hn
    have hx : ∀ y ∈ es, y.tag ≠ x.tag := fun y hy hyx => hn.1 (hyx ▸ List.mem_map_of_mem hy)
    rcases List.mem_cons.mp he with rfl | hm
    · rw [List.filter_cons_of_pos (by simp), List.filter_eq_nil_iff.mpr (fun y hy => by simpa using hx y hy)]
    · rw [List.filter_cons_of_neg (by simpa using (hx e hm).symm), ih hn.2 hm]

/-- The completion of an operation that may be absent, in a table without two entries of one tag. -/
theorem completeIf_nodup (p : Option Tag) (res : Result) (fields : List Byte) (s : State)
    (hn : (s.link.outstanding.map Entry.tag).Nodup) :
    (completeIf p res fields s).link = { s.link with
      outstanding := s.link.outstanding.filter (fun y => p ≠ some y.tag)
      replies := s.link.replies ++ (s.link.outstanding.filter (fun y => p = some y.tag)).map
        (fun y => ⟨replyKind y.op.kind.code, y.tag, .final, res, fields⟩) } := by
  cases p with
  | none => simp [completeIf]
  | some t =>
    simp only [completeIf, ne_eq, Option.some.injEq, eq_comm (a := t)]
    by_cases hm : ∃ e ∈ s.link.outstanding, e.tag = t
    · obtain ⟨⟨t', op⟩, hm, rfl⟩ := hm
      rw [complete_of_mem _ op res fields s hn hm, filter_tag hn hm]
      rfl
    · have hne : ∀ y ∈ s.link.outstanding, ¬ y.tag = t := fun y hy e => hm ⟨y, hy, e⟩
      have hnone : complete t res fields s = s := by
        rcases complete_cases t res fields s with h | ⟨e, he, ht, -⟩
        · exact h
        · exact absurd ht (hne e he)
      rw [hnone, List.filter_eq_self.mpr (fun y hy => by simpa using hne y hy),
        List.filter_eq_nil_iff.mpr (fun y hy => by simpa using hne y hy)]
      simp

/-! ### The application of a commit -/

theorem applyPending_none {l : LaneIx} {s : State} (h : (s.list l).commit = none) : applyPending l s = s := by
  simp [applyPending, h]

theorem applyPending_some {l : LaneIx} {s : State} {t : Tag} {tm : Timing} (h : (s.list l).commit = some (t, tm)) :
    applyPending l s = { adoptList l s with
      link := (complete t .ok (u16 ((s.list l).generation + 1).toNat) s).link } := by
  unfold applyPending
  rw [h]
  dsimp only
  rw [complete_eq, complete_link_congr (s := s) (u := adoptList l s) _ _ _ rfl]

/-- R75: after it no commit is pending. -/
theorem applyPending_commit (l : LaneIx) (s : State) : ((applyPending l s).list l).commit = none := by
  cases h : (s.list l).commit with
  | none => rw [applyPending_none h, h]
  | some c =>
    obtain ⟨t, tm⟩ := c
    rw [applyPending_some h]
    simp [adoptList, State.list, State.modList, State.modLane]

theorem applyPending_lane_ne {l x : LaneIx} (s : State) (h : x ≠ l) : (applyPending l s).lane x = s.lane x := by
  cases hc : (s.list l).commit with
  | none => rw [applyPending_none hc]
  | some c =>
    obtain ⟨t, tm⟩ := c
    rw [applyPending_some hc]
    simp [adoptList, State.lane, State.modList, State.modLane, h.symm]

/-- What it writes depends on the lists, the link and the lane's own record, of which it leaves tile records and timer. -/
theorem applyPending_congr {l : LaneIx} {s v : State} {a : List Tile} {b : Option Time} (hl : v.lists = s.lists)
    (hk : v.link = s.link) (hr : v.lane l = { s.lane l with tiles := a, timer := b }) :
    (applyPending l v).lists = (applyPending l s).lists ∧ (applyPending l v).link = (applyPending l s).link ∧
      (applyPending l v).lane l = { (applyPending l s).lane l with tiles := a, timer := b } := by
  have hv : v.list l = s.list l := by simp only [State.list, hl]
  cases hc : (s.list l).commit with
  | none => rw [applyPending_none hc, applyPending_none (hv ▸ hc)]; exact ⟨hl, hk, hr⟩
  | some c =>
    obtain ⟨t, tm⟩ := c
    rw [applyPending_some hc, applyPending_some (hv ▸ hc), hv]
    refine ⟨?_, complete_link_congr _ _ _ hk, ?_⟩
    · simp only [adoptList, State.modList, State.modLane, hv, hl]
    · have ha : ∀ (u : State) (f : ListUnit → ListUnit), (u.modList l f).lane l = u.lane l := fun _ _ => rfl
      show (adoptList l v).lane l = { (adoptList l s).lane l with tiles := a, timer := b }
      simp only [adoptList, modLane_lane_same, ha, hr, hv]

theorem applyPending_tags (l : LaneIx) (s : State) (h : (s.link.outstanding.map Entry.tag).Nodup) :
    ((applyPending l s).link.outstanding.map Entry.tag).Nodup := by
  cases hc : (s.list l).commit with
  | none => rw [applyPending_none hc]; exact h
  | some c =>
    obtain ⟨t, tm⟩ := c
    rw [applyPending_some hc]
    exact complete_tags _ _ _ s h

/-! ### The end of a run -/

/-- R74, R76: the commit, then READY, then the final reply of the start or stop that was pending. -/
def endRun (p : Option Tag) (res : Result) (l : LaneIx) (s : State) : State :=
  completeIf p res [] (makeReady l (applyPending l s))

theorem finishStop_eq_endRun (l : LaneIx) (s : State) : finishStop l s = endRun (s.lane l).pendingStop .ok l s := rfl

theorem makeReady_lane_same (l : LaneIx) (s : State) : (makeReady l s).lane l = { s.lane l with
    state := .ready, drained := false, admitted := none, timer := none, pendingStart := none, pendingStop := none } := by
  simp [makeReady, releaseClaim, State.lane, State.modLane]

theorem makeReady_lane_ne {l x : LaneIx} (s : State) (h : x ≠ l) : (makeReady l s).lane x = s.lane x := by
  simp [makeReady, releaseClaim, State.lane, State.modLane, h.symm]

/-- The end of a run writes the list unit, the lane, the claims and the link. -/
theorem endRun_frame (p : Option Tag) (res : Result) (l : LaneIx) (s : State) : endRun p res l s = { s with
    lanes := (endRun p res l s).lanes, lists := (endRun p res l s).lists
    claims := (endRun p res l s).claims, link := (endRun p res l s).link } := by
  unfold endRun makeReady releaseClaim State.modLane
  rw [completeIf_eq, applyPending_frame]

theorem endRun_lane (p : Option Tag) (res : Result) (l x : LaneIx) (s : State) :
    (endRun p res l s).lane x = (makeReady l (applyPending l s)).lane x := by
  unfold endRun
  rw [completeIf_eq]
  rfl

/-- What a stop may have done before the run ends: of the lane's own record tile records and timer may differ, and the rest it may
have written are the rings, the output, the locks and the link. -/
structure Prepared (l : LaneIx) (s w : State) : Prop where
  lane : ∃ b, w.lane l = { s.lane l with tiles := (w.lane l).tiles, timer := b }
  others : ∀ x, x ≠ l → w.lane x = s.lane x
  rest : w = { s with
    lanes := w.lanes, locks := w.locks, rings := w.rings, outs := w.outs, trailers := w.trailers, outPorts := w.outPorts
    link := w.link, freeCount := w.freeCount }

namespace Prepared

variable {l : LaneIx} {s w : State}

/-- A record of the lane's own that is the one before but for tile records and timer. -/
theorem pendingStop (h : Prepared l s w) : (w.lane l).pendingStop = (s.lane l).pendingStop := by
  obtain ⟨b, hb⟩ := h.lane
  rw [hb]

/-- The commit applied then is the commit applied to the state before, with the link as it stands then. -/
theorem applied (h : Prepared l s w) :
    (applyPending l w).lists = (applyPending l { s with link := w.link }).lists ∧
      (applyPending l w).link = (applyPending l { s with link := w.link }).link ∧
      ∃ b, (applyPending l w).lane l =
        { (applyPending l { s with link := w.link }).lane l with tiles := (w.lane l).tiles, timer := b } := by
  obtain ⟨b, hb⟩ := h.lane
  have hl : w.lists = s.lists := by rw [h.rest]
  obtain ⟨h1, h2, h3⟩ := applyPending_congr (s := { s with link := w.link }) hl rfl hb
  exact ⟨h1, h2, b, h3⟩

theorem lists (h : Prepared l s w) (p : Option Tag) (res : Result) :
    (endRun p res l w).lists = (applyPending l { s with link := w.link }).lists := by
  unfold endRun
  rw [completeIf_eq]
  exact h.applied.1

theorem link (h : Prepared l s w) (p : Option Tag) (res : Result) :
    (endRun p res l w).link = (completeIf p res [] (applyPending l { s with link := w.link })).link :=
  completeIf_link_congr p res [] h.applied.2.1

theorem lane_same (h : Prepared l s w) (p : Option Tag) (res : Result) :
    (endRun p res l w).lane l = { (applyPending l { s with link := w.link }).lane l with
      state := .ready, drained := false, admitted := none, timer := none, tiles := (w.lane l).tiles, pendingStart := none
      pendingStop := none } := by
  obtain ⟨-, -, b, hb⟩ := h.applied
  rw [endRun_lane, makeReady_lane_same, hb]

theorem lane_ne (h : Prepared l s w) (p : Option Tag) (res : Result) (x : LaneIx) (hx : x ≠ l) :
    (endRun p res l w).lane x = s.lane x := by
  rw [endRun_lane, makeReady_lane_ne _ hx, applyPending_lane_ne w hx, h.others x hx]

theorem claims (h : Prepared l s w) (p : Option Tag) (res : Result) :
    (endRun p res l w).claims = s.claims.filter (fun c => c.holder ≠ .lane l) := by
  have hc : (applyPending l w).claims = s.claims := by rw [applyPending_frame, h.rest]
  unfold endRun
  rw [completeIf_eq, ← hc]
  rfl

/-- A request taken: nothing but the link differs. -/
theorem of_link (l : LaneIx) (s : State) (k : Link) : Prepared l s { s with link := k } :=
  ⟨⟨(s.lane l).timer, rfl⟩, fun _ _ => rfl, rfl⟩

end Prepared

end Sys2Proof.Machine
end

section
/-! LANE_STOP, judged: at once, of a STARTING lane, IMMEDIATE, and of a JOINING lane. -/

namespace Sys2Proof.Machine

open Sys2Proof

/-! ### One unpin -/

theorem unpinTile_unnamed {x : Tile} (s : State) (h : x.names = none) : unpinTile x s = s := by
  unfold unpinTile
  cases hx : x.body with
  | shown i p => simp [Tile.names, hx] at h
  | blank => rfl
  | fill => rfl

theorem unpinTile_named {x : Tile} {i : StreamIx} {p : Nat} (s : State) (h : x.names = some (i, p)) :
    unpinTile x s = s.modRing i (fun r => r.unpin p) := by
  unfold unpinTile
  cases hx : x.body with
  | shown j q =>
    simp only [Tile.names, hx, Option.some.injEq, Prod.mk.injEq] at h
    rw [h.1, h.2]
  | blank => simp [Tile.names, hx] at h
  | fill => simp [Tile.names, hx] at h

/-- R11: one pin less, and a RETIRED position without a pin left is emptied. -/
theorem Slot.unpin_eq (y : Slot) : y.unpin = { y with
    pins := y.pins - 1
    fill := match y.fill with
      | .retired q c => if y.pins ≤ 1 then .empty else .retired q c
      | f => f } := by
  have hp : y.pins - 1 = 0 ↔ y.pins ≤ 1 := by omega
  unfold Slot.unpin
  cases y.fill <;> simp only [hp]

/-- What is written at a position depends on the element that stands there. -/
theorem modify_at {α : Type} {xs : List α} {p : Nat} {y : α} (f : α → α) (h : xs[p]? = some y) :
    xs.modify p f = xs.modify p (fun _ => f y) := by
  refine List.ext_getElem? fun q => ?_
  by_cases hq : p = q
  · subst hq
    simp [h]
  · simp [hq]

/-- Unpins read and write the rings alone. -/
theorem unpinTiles_rings (xs : List Tile) : ∀ {s u : State}, u.rings = s.rings →
    (xs.foldl (fun t x => unpinTile x t) u).rings = (xs.foldl (fun t x => unpinTile x t) s).rings := by
  induction xs with
  | nil => exact fun h => h
  | cons x xs ih =>
    refine fun {s u} h => ih ?_
    cases hx : x.names with
    | none => simp only [unpinTile_unnamed _ hx, h]
    | some n => simp only [unpinTile_named _ hx, State.modRing, State.setRing, State.ring, h]

/-! ### What comes before the end of a run -/

/-- R98: the frame aborted, the tiles unpinned, the timer off. -/
def cutRun (l : LaneIx) (s : State) : State :=
  (releaseTiles l (abortFrame l countAborted s)).modLane l (fun r => { r with timer := none })

theorem stopNow_eq (l : LaneIx) (s : State) : stopNow l s = finishStop l (completeJoin l (cutRun l s)) := rfl

/-- R98: all that is done before the end of the run; the request alone has left the link. -/
theorem cutRun_taken (l : LaneIx) (s : State) : cutRun l (taken s) = { s with
    rings := ((s.lane l).tiles.foldl (fun u x => unpinTile x u) s).rings
    lanes := wr s.lanes l { s.lane l with tiles := [], timer := none }
    outs := (abortFrame l countAborted s).outs
    trailers := (abortFrame l countAborted s).trailers
    outPorts := (abortFrame l countAborted s).outPorts
    freeCount := (abortFrame l countAborted s).freeCount
    link := (taken s).link } := by
  have ha := abortFrame_eq l countAborted s
  unfold cutRun releaseTiles
  rw [taken, State.modLink, abortFrame_link, unpinTiles_eq]
  simp only [State.modLane]
  rw [unpinTiles_rings (s := s) _ (by rw [ha])]
  rw [ha]
  simp [State.lane]

theorem cutRun_writes (l : LaneIx) (s : State) :
    (cutRun l (taken s)).link = (taken s).link ∧ (cutRun l (taken s)).locks = s.locks ∧
      ((cutRun l (taken s)).lane l).tiles = [] ∧
      (cutRun l (taken s)).rings = ((s.lane l).tiles.foldl (fun u x => unpinTile x u) s).rings ∧
      (cutRun l (taken s)).outs = (abortFrame l countAborted s).outs ∧
      (cutRun l (taken s)).trailers = (abortFrame l countAborted s).trailers ∧
      (cutRun l (taken s)).outPorts = (abortFrame l countAborted s).outPorts := by
  rw [cutRun_taken]
  exact ⟨rfl, rfl, congrArg Lane.tiles (rd_wr_same _ _ _), rfl, rfl, rfl, rfl⟩

/-- R112: the join completed: the role FOLLOWER, and the final OK of the join. -/
theorem completeJoin_joining {s : State} {l ld : LaneIx} {phase : JoinPhase} {t : Tag} {x : Entry}
    (hr : (s.lock l).role = .joining ld phase t) (hx : s.link.outstanding.find? (fun y => y.tag = t) = some x) :
    completeJoin l s = { s with
      locks := wr s.locks l { s.lock l with role := .follower ld }
      link := { s.link with
        outstanding := s.link.outstanding.eraseP (fun y => y.tag = t)
        replies := s.link.replies ++ [⟨replyKind x.op.kind.code, t, .final, .ok, []⟩] } } := by
  unfold completeJoin
  rw [hr]
  exact complete_found _ _ hx

theorem completeJoin_none {s : State} {l : LaneIx} (h : (s.lock l).role.joins = false) : completeJoin l s = s := by
  unfold completeJoin
  split
  · rename_i hr
    rw [hr] at h
    exact nomatch h
  · rfl

/-- The request's own first reply after the end of the run: the lane, the list unit, the claims and the link differ. -/
theorem endRun_answered_frame (p : Option Tag) (res : Result) (l : LaneIx) (s : State) (k : Kind) (tag : Tag) :
    let t := firstReply k tag .ok [] (endRun p res l s)
    t = { s with lanes := t.lanes, lists := t.lists, claims := t.claims, link := t.link } := by
  have he := endRun_frame p res l s
  generalize endRun p res l s = e at he ⊢
  rw [he]
  rfl

/-- What the end of the run leaves as it was. -/
theorem endRun_keeps (p : Option Tag) (res : Result) (l : LaneIx) (s : State) :
    (endRun p res l s).rings = s.rings ∧ (endRun p res l s).outs = s.outs ∧ (endRun p res l s).trailers = s.trailers ∧
      (endRun p res l s).outPorts = s.outPorts ∧ (endRun p res l s).locks = s.locks := by
  rw [endRun_frame]
  exact ⟨rfl, rfl, rfl, rfl, rfl⟩

namespace Prepared

variable {l : LaneIx} {s w : State}

theorem cut (l : LaneIx) (s : State) : Prepared l s (cutRun l (taken s)) := by
  rw [cutRun_taken]
  refine ⟨⟨none, ?_⟩, fun x hx => ?_, rfl⟩
  · simp [State.lane]
  · simp [State.lane, hx.symm]

theorem joined (h : Prepared l s w) : Prepared l s (completeJoin l w) := by
  obtain ⟨⟨b, hb⟩, hother, hrest⟩ := h
  refine ⟨⟨b, ?_⟩, fun x hx => ?_, ?_⟩
  · rw [completeJoin_lane, hb]
  · rw [completeJoin_lane, hother x hx]
  · rw [completeJoin_frame]
    generalize completeJoin l w = v
    rw [hrest]

theorem finishStop (h : Prepared l s w) : finishStop l w = endRun (s.lane l).pendingStop .ok l w := by
  rw [finishStop_eq_endRun, h.pendingStop]

variable (p : Option Tag) (res : Result) (k : Kind) (tag : Tag)

theorem commit (h : Prepared l s w) : ((endRun p res l w).list l).commit = none := by
  rw [State.list, h.lists]
  exact applyPending_commit l _

/-- All that the end of the run, and the request's own first reply after it, may have written. -/
theorem frame (h : Prepared l s w) :
    let t := firstReply k tag .ok [] (endRun p res l w)
    t = { s with
      lanes := t.lanes, lists := t.lists, locks := t.locks, rings := t.rings, outs := t.outs, trailers := t.trailers
      outPorts := t.outPorts, claims := t.claims, link := t.link, freeCount := t.freeCount } := by
  have he := endRun_answered_frame p res l w k tag
  dsimp only at he ⊢
  generalize firstReply k tag .ok [] (endRun p res l w) = t at he ⊢
  rw [he, h.rest]

/-- Where the lock unit was left before the end of the run, the whole stop has left it. -/
theorem frame_of_locks (h : Prepared l s w) (hl : w.locks = s.locks) :
    let t := firstReply k tag .ok [] (endRun p res l w)
    t = { s with
      lanes := t.lanes, lists := t.lists, rings := t.rings, outs := t.outs, trailers := t.trailers
      outPorts := t.outPorts, claims := t.claims, link := t.link, freeCount := t.freeCount } := by
  have he := endRun_answered_frame p res l w k tag
  dsimp only at he ⊢
  generalize firstReply k tag .ok [] (endRun p res l w) = t at he ⊢
  rw [he, h.rest, hl]

/-- No operation was pending: the commit's replies, and the request's own. -/
theorem link_none (h : Prepared l s w) :
    (firstReply k tag .ok [] (endRun none res l w)).link =
      let u := applyPending l { s with link := w.link }
      { u.link with replies := u.link.replies ++ [⟨replyKind k.code, tag, .first, .ok, []⟩] } := by
  show Link.mk .. = _
  rw [h.link]
  rfl

/-- The start or stop that was pending is answered after the commit and before the request. -/
theorem link_some (h : Prepared l s w) {old : Tag} {x : Entry}
    (hx : (applyPending l { s with link := w.link }).link.outstanding.find? (fun y => y.tag = old) = some x) :
    (firstReply k tag .ok [] (endRun (some old) res l w)).link =
      let u := applyPending l { s with link := w.link }
      { u.link with
        outstanding := u.link.outstanding.eraseP (fun y => y.tag = old)
        replies := u.link.replies ++
          [⟨replyKind x.op.kind.code, old, .final, res, []⟩, ⟨replyKind k.code, tag, .first, .ok, []⟩] } := by
  show Link.mk .. = _
  rw [h.link, completeIf, complete_found _ _ hx]
  simp

end Prepared

/-! ### LANE_STOP, judged -/

theorem option?_code (b : Bool) : option? (if b then 1 else 0) = some b := by cases b <;> rfl

section

variable {s : State} {tag : Tag} {bl bo : Byte} {l : LaneIx} {immediate : Bool}

theorem laneStop_ready (ht : tagHeld s.link tag = false) (hl : bl.toNat = l.val) (ho : option? bo = some immediate)
    (hs : (s.lane l).state = .ready) : laneStop tag [bl, bo] s = okReply .laneStop tag [] s := by
  simp [laneStop, ht, index?_val l hl, ho, hs]

theorem laneStop_starting (ht : tagHeld s.link tag = false) (hl : bl.toNat = l.val) (ho : option? bo = some immediate)
    (hs : (s.lane l).state = .starting) : laneStop tag [bl, bo] s =
      okReply .laneStop tag [] (endRun (s.lane l).pendingStart .cancelled l s) := by
  simp [laneStop, ht, index?_val l hl, ho, hs, endRun]

/-- R112: a lane JOINING in WAITING is stopped at once, with either option. -/
theorem laneStop_waiting (ht : tagHeld s.link tag = false) (hl : bl.toNat = l.val) (ho : option? bo = some immediate)
    (hs : (s.lane l).state ∈ [LaneState.running, .stopping]) (hw : (s.lock l).waiting = true) :
    laneStop tag [bl, bo] s = .ok (stopWaiting tag l s) := by
  have hs' : (s.lane l).state = .running ∨ (s.lane l).state = .stopping := by simpa using hs
  rcases hs' with hs' | hs' <;> simp [laneStop, ht, index?_val l hl, ho, hs', hw]

theorem laneStop_immediate (ht : tagHeld s.link tag = false) (hl : bl.toNat = l.val) (ho : option? bo = some true)
    (hs : (s.lane l).state ∈ [LaneState.running, .stopping]) (hw : (s.lock l).waiting = false) :
    laneStop tag [bl, bo] s = .ok (immediateStop tag l s) := by
  have hs' : (s.lane l).state = .running ∨ (s.lane l).state = .stopping := by simpa using hs
  rcases hs' with hs' | hs' <;> simp [laneStop, ht, index?_val l hl, ho, hs', hw]

theorem laneStop_again (ht : tagHeld s.link tag = false) (hl : bl.toNat = l.val) (ho : option? bo = some false)
    (hs : (s.lane l).state = .stopping) (hw : (s.lock l).waiting = false) :
    laneStop tag [bl, bo] s = refuse .badState := by
  simp [laneStop, ht, index?_val l hl, ho, hs, hw]

end

theorem Lock.waiting_false {k : Lock} (h : ∀ ld t, k.role ≠ .joining ld .waiting t) : k.waiting = false := by
  unfold Lock.waiting
  split
  · rename_i hk
    exact absurd hk (h _ _)
  · rfl

theorem firstReply_last (k : Kind) (tag : Tag) (r : Result) (fields : List Byte) (s : State) :
    (firstReply k tag r fields s).link.replies.getLast? = some ⟨replyKind k.code, tag, .first, r, fields⟩ :=
  List.getLast?_concat

/-- R97: a stop of a STARTING lane. -/
theorem laneStop_starting_ends {s : State} {tag : Tag} {bl : Byte} {l : LaneIx} {immediate : Bool}
    (hw : WaitingFor s .laneStop tag [bl, if immediate then 1 else 0]) (ht : tagHeld s.link tag = false)
    (hl : bl.toNat = l.val) (hs : (s.lane l).state = .starting) :
    exec (.laneStop tag [bl, if immediate then 1 else 0]) s =
      .next (firstReply .laneStop tag .ok [] (endRun (s.lane l).pendingStart .cancelled l (taken s))) :=
  (request_waiting laneStop hw).trans
    (by rw [laneStop_starting (s := taken s) ht hl (option?_code _) hs, answer_okReply]; rfl)

/-- R98, R109: an IMMEDIATE stop of a lane that joins no group; a leader's group is dissolved after it. -/
theorem laneStop_immediate_ends {s : State} {tag : Tag} {bl : Byte} {l : LaneIx}
    (hw : WaitingFor s .laneStop tag [bl, 1]) (ht : tagHeld s.link tag = false) (hl : bl.toNat = l.val)
    (hs : (s.lane l).state ∈ [LaneState.running, .stopping]) (hj : (s.lock l).role.joins = false) :
    let t := firstReply .laneStop tag .ok [] (endRun (s.lane l).pendingStop .ok l (cutRun l (taken s)))
    exec (.laneStop tag [bl, 1]) s =
      .next (if (s.lock l).role = .leader then dissolve (dissolveImmediate l s.deviceTime) l t else t) := by
  have hwait : (s.lock l).waiting = false := Lock.waiting_false (fun ld t hr => by simp [hr, LockRole.joins] at hj)
  have hc : Prepared l s (cutRun l (taken s)) := .cut l s
  have hj' : ((cutRun l (taken s)).lock l).role.joins = false := by
    rw [cutRun_taken]
    exact hj
  refine (request_waiting laneStop hw).trans ?_
  rw [laneStop_immediate (s := taken s) ht hl rfl hs hwait, answer, immediateStop, stopNow_eq, completeJoin_none hj', hc.finishStop]
  rfl

/-- R112: what is done before the join of a lane that is stopped is completed. -/
def beforeJoin : JoinPhase → LaneIx → State → State
  | .finishing, l, s => cutRun l s
  | .waiting, _, s => s

/-- R112: a stop of a JOINING lane. -/
theorem laneStop_joining_ends {s : State} {tag old : Tag} {bl : Byte} {l ld : LaneIx} {immediate : Bool} {phase : JoinPhase}
    (hw : WaitingFor s .laneStop tag [bl, if immediate then 1 else 0]) (ht : tagHeld s.link tag = false)
    (hl : bl.toNat = l.val) (hs : (s.lane l).state ∈ [LaneState.running, .stopping])
    (hr : (s.lock l).role = .joining ld phase old) (hp : phase = .waiting ∨ immediate = true) :
    exec (.laneStop tag [bl, if immediate then 1 else 0]) s = .next (firstReply .laneStop tag .ok []
      (finishStop l (completeJoin l (beforeJoin phase l (taken s))))) := by
  refine (request_waiting laneStop hw).trans ?_
  cases phase with
  | waiting =>
    rw [laneStop_waiting (s := taken s) ht hl (option?_code _) hs (by simp [Lock.waiting, hr])]
    rfl
  | finishing =>
    obtain rfl : immediate = true := by simpa using hp
    rw [laneStop_immediate (s := taken s) ht hl rfl hs (by simp [Lock.waiting, hr]), answer, immediateStop,
      if_neg (by simp [hr])]
    rfl

namespace Prepared

theorem beforeJoin (phase : JoinPhase) (l : LaneIx) (s : State) : Prepared l s (beforeJoin phase l (taken s)) := by
  cases phase with
  | waiting => exact .of_link l s _
  | finishing => exact .cut l s

end Prepared

/-- What is done before the join leaves the lock unit, and of the link takes the request alone. -/
theorem beforeJoin_frame (phase : JoinPhase) (l : LaneIx) (s : State) :
    (beforeJoin phase l (taken s)).locks = s.locks ∧ (beforeJoin phase l (taken s)).link = (taken s).link := by
  cases phase with
  | waiting => exact ⟨rfl, rfl⟩
  | finishing =>
    rw [beforeJoin, cutRun_taken]
    exact ⟨rfl, rfl⟩

/-- R112: the join completed on the way to the end of the run: what has been written until then. -/
theorem joined_writes {s : State} {old : Tag} {l ld : LaneIx} {phase : JoinPhase} {x : Entry}
    (hr : (s.lock l).role = .joining ld phase old) (hx : s.link.outstanding.find? (fun y => y.tag = old) = some x) :
    let w := completeJoin l (beforeJoin phase l (taken s))
    w.link = { s.link with
      inbound := s.link.inbound.tail
      outstanding := s.link.outstanding.eraseP (fun y => y.tag = old)
      replies := s.link.replies ++ [⟨replyKind x.op.kind.code, old, .final, .ok, []⟩] } ∧
    w.locks = wr s.locks l { s.lock l with role := .follower ld } ∧
    (phase = .finishing → (w.lane l).tiles = [] ∧ w.rings = ((s.lane l).tiles.foldl (fun u y => unpinTile y u) s).rings ∧
      w.outs = (abortFrame l countAborted s).outs ∧ w.trailers = (abortFrame l countAborted s).trailers ∧
      w.outPorts = (abortFrame l countAborted s).outPorts) ∧
    (phase = .waiting → (w.lane l).tiles = (s.lane l).tiles ∧ w.rings = s.rings ∧ w.outs = s.outs ∧
      w.trailers = s.trailers ∧ w.outPorts = s.outPorts) := by
  obtain ⟨hlocks, hlink⟩ := beforeJoin_frame phase l s
  have hrole : ((beforeJoin phase l (taken s)).lock l).role = .joining ld phase old := by
    rw [State.lock, hlocks]
    exact hr
  dsimp only
  rw [completeJoin_joining hrole (by rw [hlink]; exact hx), hlink, State.lock, hlocks]
  refine ⟨rfl, rfl, ?_, ?_⟩
  · rintro rfl
    exact (cutRun_writes l s).2.2
  · rintro rfl
    exact ⟨rfl, rfl, rfl, rfl, rfl⟩

/-- Settles O40: the stop in each lane state and role, and one unpin. -/
theorem laneStopEndsTheRun : Obligations.LaneStopEndsTheRun := by
  refine ⟨fun s tag bl l hw ht hl hs hr => ?_, fun s tag bl l immediate hw ht hl => ⟨fun hs => ?_, fun hs => ?_⟩,
    fun s tag bl l hw ht hl hs hj => ?_, fun s tag old bl l ld immediate phase x hw ht hl hs hr hp' hx hn => ?_,
    fun s x => unpinTile_unnamed s, fun s x i p r y hx hr hy => ?_⟩
  · refine (request_waiting laneStop hw).trans ?_
    rw [laneStop_again (s := taken s) ht hl rfl hs (Lock.waiting_false hr)]
    rfl
  · refine (request_waiting laneStop hw).trans ?_
    rw [laneStop_ready (s := taken s) ht hl (option?_code _) hs]
    rfl
  · have hp : Prepared l s (taken s) := .of_link l s _
    have hlane := hp.lane_same (s.lane l).pendingStart .cancelled
    have htiles : ((taken s).lane l).tiles = ((applyPending l (taken s)).lane l).tiles := (applyPending_tiles l _).symm
    rw [htiles] at hlane
    refine ⟨_, laneStop_starting_ends hw ht hl hs, congrArg Lane.state hlane, congrArg Lane.pendingStart hlane,
      congrArg Lane.admitted hlane, hp.commit _ _, hp.claims _ _, firstReply_last _ _ _ _ _, hp.lane_ne _ _,
      ⟨hp.lists _ _, hlane, fun old x hold hx => ?_⟩, ?_⟩
    · rw [hold]
      exact hp.link_some _ _ _ hx
    · exact endRun_answered_frame _ _ _ _ _ _
  · have hp : Prepared l s (cutRun l (taken s)) := .cut l s
    obtain ⟨hlink, hlocks, htiles, hrings', houts', htrailers', hports'⟩ := cutRun_writes l s
    have hlane := hp.lane_same (s.lane l).pendingStop .ok
    obtain ⟨hrings, houts, htrailers, hports, -⟩ := endRun_keeps (s.lane l).pendingStop .ok l (cutRun l (taken s))
    have houts := houts.trans houts'
    have hports := hports.trans hports'
    rw [htiles, hlink] at hlane
    refine ⟨_, laneStop_immediate_ends hw ht hl hs hj, congrArg Lane.state hlane, congrArg Lane.tiles hlane,
      congrArg Lane.timer hlane, congrArg Lane.admitted hlane, congrArg Lane.drained hlane, congrArg Lane.pendingStop hlane,
      hp.commit _ _, (congrArg (fun v => (rd v l).frame) houts).trans (abortFrame_frame l _ s), hp.claims _ _,
      firstReply_last _ _ _ _ _,
      fun p hport => (congrArg (fun v => rd v p) hports).trans (abortFrame_outPort l _ s p hport),
      hrings.trans hrings', ⟨houts, htrailers.trans htrailers', hports⟩,
      ⟨?_, hlane, fun hold => ?_, fun old x hold hx => ?_⟩, hp.lane_ne _ _,
      hp.frame_of_locks _ _ _ _ hlocks⟩
    · exact (hp.lists _ _).trans (by rw [hlink]; rfl)
    · rw [hold, hp.link_none, hlink]
      rfl
    · rw [hold, hp.link_some _ _ _ (by rw [hlink]; exact hx), hlink]
      rfl
  · intro u earlier
    have hp := (Prepared.beforeJoin phase l s).joined
    have hexec := laneStop_joining_ends hw ht hl hs hr hp'
    rw [hp.finishStop] at hexec
    obtain ⟨hjlink, hjlocks, hcut, hkept⟩ := joined_writes hr hx
    obtain ⟨hrings, houts, htrailers, hports, hlocks⟩ := endRun_keeps (s.lane l).pendingStop .ok l
      (completeJoin l (beforeJoin phase l (taken s)))
    have hlocks := hlocks.trans hjlocks
    have hlane := hp.lane_same (s.lane l).pendingStop .ok
    have hlists := hp.lists (s.lane l).pendingStop .ok
    have hlink := hp.link (s.lane l).pendingStop .ok
    rw [hjlink] at hlane hlists hlink
    rw [completeIf_nodup _ _ _ _ (applyPending_tags _ _ (hn.sublist (List.eraseP_sublist.map _)))] at hlink
    refine ⟨_, hexec, congrArg Lane.state hlane, congrArg Lane.timer hlane, congrArg Lane.admitted hlane,
      congrArg Lane.drained hlane, ?_, hp.claims _ _, fun hph => ?_, fun hph => ?_, hlists, (congrArg Lane.counters hlane :),
      (congrArg Lane.lastShown hlane :), ?_, fun y hy => ⟨hp.lane_ne _ _ y hy, ?_⟩, hp.frame _ _ _ _⟩
    · exact (congrArg (fun v => (rd v l).role) hlocks).trans (by rw [rd_wr_same])
    · obtain ⟨htiles, hr', ho', ht', hp'⟩ := hcut hph
      have houts := houts.trans ho'
      exact ⟨(congrArg Lane.tiles hlane).trans htiles, (congrArg (fun v => (rd v l).frame) houts).trans (abortFrame_frame l _ s),
        ⟨houts, htrailers.trans ht', hports.trans hp'⟩, hrings.trans hr'⟩
    · obtain ⟨htiles, hr', ho', ht', hp'⟩ := hkept hph
      exact ⟨(congrArg Lane.tiles hlane).trans htiles, hrings.trans hr', houts.trans ho', htrailers.trans ht', hports.trans hp'⟩
    · show Link.mk .. = _
      rw [hlink]
    · exact (congrArg (fun v => rd v y) hlocks).trans (rd_wr_ne _ _ hy.symm)
  · rw [unpinTile_named s hx, State.modRing, hr, Option.map_some, State.setRing, Ring.unpin, modify_at Slot.unpin hy]
    exact congrArg (fun z => { s with rings := wr s.rings i (some { r with slots := r.slots.modify p (fun _ => z) }) })
      y.unpin_eq

end Sys2Proof.Machine
end

section
/-! The judging of a request by its kind: the ranges of its fields, and targets that are unbound or not set up. -/

namespace Sys2Proof.Machine

open Sys2Proof

/-! ### The owner of each kind -/

/-- 10_ Requests and their owners: the judging of a request by the block that owns its kind. -/
def judgeOf : Kind → Tag → List Byte → State → Verdict
  | .streamBind => streamBind | .streamUnbind => streamUnbind | .streamStart => streamStart | .streamStop => streamStop
  | .streamFreeze => streamFreeze | .streamThaw => streamThaw | .streamFill => streamFill | .sourceSetup => sourceSetup
  | .listEdit => listEdit | .listRead => listRead | .listCommit => listCommit | .laneSetup => laneSetup
  | .portSetup => portSetup | .laneStart => laneStart | .laneStop => laneStop | .lockJoin => lockJoin
  | .lockLeave => lockLeave | .streamStamp => streamStamp | .storeConfig => storeConfig | .identify => identify
  | .status => status | .counters => counters | .linkSet => linkSet | .cancel => cancel | .reset => reset
  | .noticeAck => noticeAck | .noticeResend => noticeResend

theorem exec_commandOf (k : Kind) (tag : Tag) (body : List Byte) (s : State) :
    exec (commandOf k tag body) s = request k (judgeOf k) tag body s := by
  cases k <;> rfl

/-- R148: a waiting request is answered with what its owner judges of it. -/
theorem exec_commandOf_waiting {k : Kind} {tag : Tag} {body : List Byte} {s : State} (h : WaitingFor s k tag body) :
    exec (commandOf k tag body) s = .next (answer k tag (taken s) (judgeOf k tag body (taken s))) :=
  (exec_commandOf k tag body s).trans (request_waiting (judgeOf k) h)

/-- R148: a refusal of the owner is the answer, with nothing else changed. -/
theorem exec_commandOf_refused {k : Kind} {tag : Tag} {body : List Byte} {s : State} {r : Result}
    (h : WaitingFor s k tag body) (hj : judgeOf k tag body (taken s) = refuse r) :
    exec (commandOf k tag body) s = .next (s.answered k tag r []) := by
  rw [exec_commandOf_waiting h, hj, answer_refuse]

/-! ### The readers of fields answer exactly in their ranges (R172) -/

theorem index?_iff {n : Nat} {b : Byte} : (∃ i, index? n b = some i) ↔ b.toNat < n := by
  refine ⟨fun ⟨i, h⟩ => ?_, fun h => ⟨_, index?_isSome h⟩⟩
  by_contra hb
  rw [index?_none hb] at h
  exact nomatch h

theorem index?_toNat {n : Nat} {b : Byte} {i : Fin n} (h : index? n b = some i) : i.val = b.toNat := by
  rw [index?_isSome (index?_iff.mp ⟨i, h⟩), Option.some.injEq] at h
  rw [← h]

theorem byte_eq_iff {b : Byte} {n : Nat} (h : n < 256) : b = BitVec.ofNat 8 n ↔ b.toNat = n := by
  rw [← BitVec.toNat_inj, BitVec.toNat_ofNat, Nat.mod_eq_of_lt h]

/-- A reader with the codes 0 and 1. -/
theorem two_codes_iff {α : Type} {b : Byte} {x y : α} :
    (∃ z, (if b = 0 then some x else if b = 1 then some y else none) = some z) ↔ b.toNat < 2 := by
  have h0 : b = 0 ↔ b.toNat = 0 := byte_eq_iff (by decide)
  have h1 : b = 1 ↔ b.toNat = 1 := byte_eq_iff (by decide)
  simp only [h0, h1]
  split
  · simp; omega
  · split <;> simp <;> omega

theorem policy?_iff {b : Byte} : (∃ z, policy? b = some z) ↔ b.toNat < 2 := two_codes_iff
theorem option?_iff {b : Byte} : (∃ z, option? b = some z) ↔ b.toNat < 2 := two_codes_iff
theorem timing?_iff {b : Byte} : (∃ z, timing? b = some z) ↔ b.toNat < 2 := two_codes_iff
theorem mode?_iff {b : Byte} : (∃ z, mode? b = some z) ↔ b.toNat < 2 := two_codes_iff

theorem scale?_iff {b : Byte} : (∃ z, scale? b = some z) ↔ b.toNat < 3 := by
  have h0 : b = 0 ↔ b.toNat = 0 := byte_eq_iff (by decide)
  have h1 : b = 1 ↔ b.toNat = 1 := byte_eq_iff (by decide)
  have h2 : b = 2 ↔ b.toNat = 2 := byte_eq_iff (by decide)
  simp only [scale?, h0, h1, h2]
  split
  · simp; omega
  · split
    · simp; omega
    · split <;> simp <;> omega

theorem width?_iff {b : Byte} : (∃ z, width? b = some z) ↔ b.toNat = 8 ∨ b.toNat = 16 := by
  have h0 : b = 8 ↔ b.toNat = 8 := byte_eq_iff (by decide)
  have h1 : b = 16 ↔ b.toNat = 16 := byte_eq_iff (by decide)
  simp only [width?, h0, h1]
  split
  · simp; omega
  · split <;> simp <;> omega

/-- A reader that passes an index on answers where the index is in range. -/
theorem index?_map_iff {α : Type} {n : Nat} {b : Byte} {f : Fin n → α} :
    (∃ z, (index? n b).map f = some z) ↔ b.toNat < n := by
  rw [← index?_iff]
  cases index? n b <;> simp

theorem port?_iff {b : Byte} : (∃ z, port? b = some z) ↔ b.toNat < 3 ∨ b.toNat = 255 := by
  have h0 : b = 0xFF ↔ b.toNat = 255 := byte_eq_iff (by decide)
  simp only [port?, h0]
  split
  · simp; omega
  · rw [index?_map_iff]
    omega

theorem holder?_iff {kind index : Byte} : (∃ z, holder? kind index = some z) ↔
    (kind.toNat = 0 ∧ index.toNat < 16) ∨ (kind.toNat = 1 ∧ index.toNat < 20) ∨ (kind.toNat = 2 ∧ index.toNat < 6) ∨
      (kind.toNat = 3 ∧ index.toNat < 3) ∨ (kind.toNat = 4 ∧ index.toNat = 0) := by
  have h0 : kind = 0 ↔ kind.toNat = 0 := byte_eq_iff (by decide)
  have h1 : kind = 1 ↔ kind.toNat = 1 := byte_eq_iff (by decide)
  have h2 : kind = 2 ↔ kind.toNat = 2 := byte_eq_iff (by decide)
  have h3 : kind = 3 ↔ kind.toNat = 3 := byte_eq_iff (by decide)
  have h4 : kind = 4 ↔ kind.toNat = 4 := byte_eq_iff (by decide)
  have hi : index = 0 ↔ index.toNat = 0 := byte_eq_iff (by decide)
  simp only [holder?, h0, h1, h2, h3, h4, hi]
  split
  · rw [index?_map_iff]; omega
  split
  · rw [index?_map_iff]; omega
  split
  · rw [index?_map_iff]; omega
  split
  · rw [index?_map_iff]; omega
  split
  · split <;> simp <;> omega
  · simp; omega

theorem statusView_iff {s : State} {view index : Byte} : (∃ z, statusView s view index = some z) ↔
    view.toNat = 0 ∨ (view.toNat = 1 ∧ index.toNat < 16) ∨ (view.toNat = 2 ∧ index.toNat < 20) ∨
      (view.toNat = 3 ∧ index.toNat < 6) ∨ (view.toNat = 4 ∧ index.toNat < 3) := by
  have h0 : view = 0 ↔ view.toNat = 0 := byte_eq_iff (by decide)
  have h1 : view = 1 ↔ view.toNat = 1 := byte_eq_iff (by decide)
  have h2 : view = 2 ↔ view.toNat = 2 := byte_eq_iff (by decide)
  have h3 : view = 3 ↔ view.toNat = 3 := byte_eq_iff (by decide)
  have h4 : view = 4 ↔ view.toNat = 4 := byte_eq_iff (by decide)
  simp only [statusView, h0, h1, h2, h3, h4]
  split
  · simp; omega
  split
  · rw [index?_map_iff]; omega
  split
  · rw [index?_map_iff]; omega
  split
  · rw [index?_map_iff]; omega
  split
  · rw [index?_map_iff]; omega
  · simp; omega

/-- R63, R172: an entry is read where its kind and what it shows are in range. -/
theorem entry?_iff {kind what dwell : Byte} : (∃ z, entry? kind what dwell = some z) ↔
    ((kind == 0 && decide (what.toNat < 20)) || (kind == 1 && decide (what.toNat < 3))) = true := by
  simp only [Bool.or_eq_true, Bool.and_eq_true, beq_iff_eq, decide_eq_true_eq, entry?]
  by_cases h0 : kind = 0
  · subst h0
    rw [if_pos rfl, index?_map_iff]
    simp
  · by_cases h1 : kind = 1
    · subst h1
      rw [if_neg h0, if_pos rfl, ← scale?_iff]
      cases scale? what <;> simp
    · rw [if_neg h0, if_neg h1]
      tauto

/-- R172: the entries of a LIST_EDIT are read where each is in range. -/
theorem entries?_iff : ∀ bs : List Byte, bs.length % 3 = 0 → ((∃ es, entries? bs = some es) ↔ entriesInRange bs = true)
  | [], _ => by simp [entries?, entriesInRange]
  | [_], h => by simp at h
  | [_, _], h => by simp at h
  | k :: w :: d :: rest, h => by
    have ih := entries?_iff rest (by simp only [List.length_cons] at h; omega)
    have he := entry?_iff (kind := k) (what := w) (dwell := d)
    rw [entriesInRange, Bool.and_eq_true, ← ih, ← he, entries?]
    cases entry? k w d <;> cases entries? rest <;> simp

/-- R172: three bytes make an entry. -/
theorem entries?_length : ∀ {bs : List Byte} {es : List ListEntry}, entries? bs = some es → bs.length = 3 * es.length
  | [], es, h => by simp_all [entries?]
  | [_], es, h => by simp [entries?] at h
  | [_, _], es, h => by simp [entries?] at h
  | k :: w :: d :: rest, es, h => by
    rw [entries?] at h
    split at h
    · rename_i e es' he hr
      have := entries?_length hr
      rw [Option.some.injEq] at h
      subst h
      simp
      omega
    · exact nomatch h

/-! ### Fields out of range, kind by kind

In each the reading of the fields stands before every other condition; where they are read, the ranges hold, and the condition
on a range that no reader has is the next one. -/

section

variable {tag : Tag} {s : State}

/-- A request whose first field is an index, and whose only range is that. -/
theorem index?_out {n : Nat} {b : Byte} {body : List Byte} (h : decide (field (b :: body) 0 < n) = false) :
    index? n b = none := index?_none (of_decide_eq_false h)

theorem streamBind_badParam {bi bn bsc bd bp : Byte} (h : fieldsInRange .streamBind [bi, bn, bsc, bd, bp] = false) :
    streamBind tag [bi, bn, bsc, bd, bp] s = refuse .badParam := by
  dsimp only [streamBind]
  split
  · rename_i hi hn hsc hp
    refine if_pos (fun hd => of_decide_eq_false h ?_)
    exact ⟨index?_iff.mp ⟨_, hi⟩, index?_iff.mp ⟨_, hn⟩, scale?_iff.mp ⟨_, hsc⟩, hd.1, hd.2, policy?_iff.mp ⟨_, hp⟩⟩
  · rfl

theorem streamStop_badParam {bi bo : Byte} (ht : tagHeld s.link tag = false) (h : fieldsInRange .streamStop [bi, bo] = false) :
    streamStop tag [bi, bo] s = refuse .badParam := by
  dsimp only [streamStop]
  rw [ht, if_neg Bool.false_ne_true]
  split
  · rename_i hi ho
    exact absurd ⟨index?_iff.mp ⟨_, hi⟩, option?_iff.mp ⟨_, ho⟩⟩ (of_decide_eq_false h)
  · rfl

/-- R49: a period or loss factor read as 0 stands for its default; read otherwise it is itself in range. -/
theorem orDefault_range {v d lo hi : Nat} (h : lo ≤ orDefault v d ∧ orDefault v d ≤ hi) : v = 0 ∨ (lo ≤ v ∧ v ≤ hi) := by
  unfold orDefault at h
  split at h
  · exact .inl ‹_›
  · exact .inr h

theorem sourceSetup_badParam {bn w0 w1 h0 h1 p0 p1 bf : Byte}
    (h : fieldsInRange .sourceSetup [bn, w0, w1, h0, h1, p0, p1, bf] = false) :
    sourceSetup tag [bn, w0, w1, h0, h1, p0, p1, bf] s = refuse .badParam := by
  dsimp only [sourceSetup]
  split
  · rfl
  · rename_i n hn
    refine if_pos (fun ⟨hw, hw', hh, hh', hp, hp', hf, hf'⟩ => of_decide_eq_false h ?_)
    exact ⟨index?_iff.mp ⟨_, hn⟩, hw, hw', hh, hh', orDefault_range ⟨hp, hp'⟩, orDefault_range ⟨hf, hf'⟩⟩

/-- R66: the edit table has the operations 0 to 4. -/
theorem edited_none {op : Nat} (h : 5 ≤ op) (i c : Nat) (new old : List ListEntry) : edited op i c new old = none := by
  obtain ⟨n, rfl⟩ := Nat.exists_eq_add_of_le' h
  rfl

theorem listEdit_badParam {bl bo bi bc : Byte} {rest : List Byte} (hr : rest.length % 3 = 0)
    (h : fieldsInRange .listEdit (bl :: bo :: bi :: bc :: rest) = false) :
    listEdit tag (bl :: bo :: bi :: bc :: rest) s = refuse .badParam := by
  dsimp only [listEdit]
  rw [if_neg (not_not.mpr hr)]
  split
  · rename_i l new hl hn
    split
    · rfl
    · rename_i hlen
      have hop : 5 ≤ bo.toNat := by
        by_contra hop
        refine Bool.false_ne_true (h.symm.trans ?_)
        have hlen' := entries?_length hn
        refine Bool.and_eq_true_iff.mpr ⟨decide_eq_true ⟨index?_iff.mp ⟨_, hl⟩, Nat.lt_of_not_le hop, ?_⟩,
          (entries?_iff rest hr).mp ⟨_, hn⟩⟩
        simp only [List.length_cons, Config.editEntries] at hlen ⊢
        omega
      rw [edited_none hop]
  · rfl

theorem listRead_badParam {bl bw bi bc : Byte} (h : fieldsInRange .listRead [bl, bw, bi, bc] = false) :
    listRead tag [bl, bw, bi, bc] s = refuse .badParam := by
  dsimp only [listRead]
  split
  · rfl
  · rename_i l hl
    split
    · rfl
    · rename_i hw
      refine if_pos (.inl fun hc => of_decide_eq_false h ?_)
      exact ⟨index?_iff.mp ⟨_, hl⟩, Nat.lt_succ_of_le (Nat.le_of_not_lt hw), hc.1, hc.2⟩

theorem listCommit_badParam {bl bt : Byte} (ht : tagHeld s.link tag = false) (h : fieldsInRange .listCommit [bl, bt] = false) :
    listCommit tag [bl, bt] s = refuse .badParam := by
  dsimp only [listCommit]
  rw [ht, if_neg Bool.false_ne_true]
  split
  · rename_i hl hm
    exact absurd ⟨index?_iff.mp ⟨_, hl⟩, timing?_iff.mp ⟨_, hm⟩⟩ (of_decide_eq_false h)
  · rfl

theorem laneSetup_badParam {bl w0 w1 h0 h1 p0 p1 bm bp bs y cb cr : Byte}
    (h : fieldsInRange .laneSetup [bl, w0, w1, h0, h1, p0, p1, bm, bp, bs, y, cb, cr] = false) :
    laneSetup tag [bl, w0, w1, h0, h1, p0, p1, bm, bp, bs, y, cb, cr] s = refuse .badParam := by
  dsimp only [laneSetup]
  split
  · rename_i hl hm hp hs
    refine if_pos (fun hg => of_decide_eq_false h ?_)
    simp only [LaneSetup.inRange, Bool.and_eq_true, decide_eq_true_eq] at hg
    obtain ⟨⟨⟨⟨⟨⟨hw, hw'⟩, he⟩, hh⟩, hh'⟩, hq⟩, hq'⟩ := hg
    exact ⟨index?_iff.mp ⟨_, hl⟩, hw, hw', he, hh, hh', hq, hq', mode?_iff.mp ⟨_, hm⟩, port?_iff.mp ⟨_, hp⟩,
      option?_iff.mp ⟨_, hs⟩⟩
  · rfl

theorem portSetup_badParam {bp bw : Byte} (h : fieldsInRange .portSetup [bp, bw] = false) :
    portSetup tag [bp, bw] s = refuse .badParam := by
  dsimp only [portSetup]
  split
  · rename_i hp hw
    exact absurd ⟨index?_iff.mp ⟨_, hp⟩, width?_iff.mp ⟨_, hw⟩⟩ (of_decide_eq_false h)
  · rfl

theorem laneStop_badParam {bl bo : Byte} (ht : tagHeld s.link tag = false) (h : fieldsInRange .laneStop [bl, bo] = false) :
    laneStop tag [bl, bo] s = refuse .badParam := by
  dsimp only [laneStop]
  rw [ht, if_neg Bool.false_ne_true]
  split
  · rename_i hl ho
    exact absurd ⟨index?_iff.mp ⟨_, hl⟩, option?_iff.mp ⟨_, ho⟩⟩ (of_decide_eq_false h)
  · rfl

theorem lockJoin_badParam {bf bl : Byte} (ht : tagHeld s.link tag = false) (h : fieldsInRange .lockJoin [bf, bl] = false) :
    lockJoin tag [bf, bl] s = refuse .badParam := by
  dsimp only [lockJoin]
  rw [ht, if_neg Bool.false_ne_true]
  split
  · rename_i l ld hl hld
    refine if_pos (by_contra fun hne => of_decide_eq_false h ?_)
    refine ⟨index?_iff.mp ⟨_, hl⟩, index?_iff.mp ⟨_, hld⟩, fun he => hne (Fin.ext ?_)⟩
    rw [index?_toNat hl, index?_toNat hld]
    exact he
  · rfl

theorem streamStamp_badParam {bi bc : Byte} {rest : List Byte} (hr : rest.length = 2 * bc.toNat)
    (h : fieldsInRange .streamStamp (bi :: bc :: rest) = false) :
    streamStamp tag (bi :: bc :: rest) s = refuse .badParam := by
  dsimp only [streamStamp]
  rw [if_neg (not_not.mpr hr)]
  split
  · rfl
  · rename_i i hi
    exact if_pos (by_contra fun hc => of_decide_eq_false h ⟨index?_iff.mp ⟨_, hi⟩, Nat.le_of_not_lt hc⟩)

theorem storeConfig_badParam {w0 w1 h0 h1 bc : Byte} (h : fieldsInRange .storeConfig [w0, w1, h0, h1, bc] = false) :
    storeConfig tag [w0, w1, h0, h1, bc] s = refuse .badParam := if_pos (of_decide_eq_false h)

theorem status_badParam {bv bi : Byte} (h : fieldsInRange .status [bv, bi] = false) :
    status tag [bv, bi] s = refuse .badParam := by
  dsimp only [status]
  split
  · rfl
  · rename_i hv
    exact absurd (statusView_iff.mp ⟨_, hv⟩) (of_decide_eq_false h)

theorem counters_badParam {bk bi bo : Byte} (h : fieldsInRange .counters [bk, bi, bo] = false) :
    counters tag [bk, bi, bo] s = refuse .badParam := by
  dsimp only [counters]
  split
  · rename_i hh ho
    exact absurd ⟨holder?_iff.mp ⟨_, hh⟩, option?_iff.mp ⟨_, ho⟩⟩ (of_decide_eq_false h)
  · rfl

theorem linkSet_badParam {bm : Byte} (h : fieldsInRange .linkSet [bm] = false) :
    linkSet tag [bm] s = refuse .badParam := if_pos (Nat.le_of_not_lt (of_decide_eq_false h))

end

/-- R148: whatever the kind, a request of a length it takes with a field out of its range is refused by its owner. -/
theorem judgeOf_badParam {k : Kind} {tag : Tag} {body : List Byte} {s : State}
    (hl : lengthTaken k body.length (field body 1) = true) (ht : k.deferrable = true → tagHeld s.link tag = false)
    (h : fieldsInRange k body = false) : judgeOf k tag body s = refuse .badParam := by
  cases k
  case identify | cancel | reset | noticeAck | noticeResend => exact nomatch h
  case streamBind =>
    match body, beq_iff_eq.mp hl with
    | [_, _, _, _, _], _ => exact streamBind_badParam h
  case streamUnbind =>
    match body, beq_iff_eq.mp hl with
    | [_], _ => simp only [judgeOf, streamUnbind, index?_out h]
  case streamStart =>
    match body, beq_iff_eq.mp hl with
    | [_], _ => simp only [judgeOf, streamStart, index?_out h]
  case streamStop =>
    match body, beq_iff_eq.mp hl with
    | [_, _], _ => exact streamStop_badParam (ht rfl) h
  case streamFreeze =>
    match body, beq_iff_eq.mp hl with
    | [_], _ => simp only [judgeOf, streamFreeze, ht rfl, index?_out h, Bool.false_eq_true, if_false]
  case streamThaw =>
    match body, beq_iff_eq.mp hl with
    | [_], _ => simp only [judgeOf, streamThaw, index?_out h]
  case streamFill =>
    match body, beq_iff_eq.mp hl with
    | [_, _, _, _], _ => simp only [judgeOf, streamFill, index?_out h]
  case sourceSetup =>
    match body, beq_iff_eq.mp hl with
    | [_, _, _, _, _, _, _, _], _ => exact sourceSetup_badParam h
  case listEdit =>
    obtain ⟨hn, hm⟩ := Bool.and_eq_true_iff.mp hl
    match body, of_decide_eq_true hn with
    | _ :: _ :: _ :: _ :: _, _ => exact listEdit_badParam (beq_iff_eq.mp hm) h
  case listRead =>
    match body, beq_iff_eq.mp hl with
    | [_, _, _, _], _ => exact listRead_badParam h
  case listCommit =>
    match body, beq_iff_eq.mp hl with
    | [_, _], _ => exact listCommit_badParam (ht rfl) h
  case laneSetup =>
    match body, beq_iff_eq.mp hl with
    | [_, _, _, _, _, _, _, _, _, _, _, _, _], _ => exact laneSetup_badParam h
  case portSetup =>
    match body, beq_iff_eq.mp hl with
    | [_, _], _ => exact portSetup_badParam h
  case laneStart =>
    match body, beq_iff_eq.mp hl with
    | [_], _ => simp only [judgeOf, laneStart, ht rfl, index?_out h, Bool.false_eq_true, if_false]
  case laneStop =>
    match body, beq_iff_eq.mp hl with
    | [_, _], _ => exact laneStop_badParam (ht rfl) h
  case lockJoin =>
    match body, beq_iff_eq.mp hl with
    | [_, _], _ => exact lockJoin_badParam (ht rfl) h
  case lockLeave =>
    match body, beq_iff_eq.mp hl with
    | [_], _ => simp only [judgeOf, lockLeave, index?_out h]
  case streamStamp =>
    obtain ⟨hn, hm⟩ := Bool.and_eq_true_iff.mp hl
    match body, of_decide_eq_true hn with
    | _ :: bc :: rest, _ =>
      have hr : rest.length + 2 = 2 + 2 * bc.toNat := beq_iff_eq.mp hm
      exact streamStamp_badParam (by omega) h
  case storeConfig =>
    match body, beq_iff_eq.mp hl with
    | [_, _, _, _, _], _ => exact storeConfig_badParam h
  case status =>
    match body, beq_iff_eq.mp hl with
    | [_, _], _ => exact status_badParam h
  case counters =>
    match body, beq_iff_eq.mp hl with
    | [_, _, _], _ => exact counters_badParam h
  case linkSet =>
    match body, beq_iff_eq.mp hl with
    | [_], _ => exact linkSet_badParam h

/-- Settles O17: the reading of the fields stands first in every owner's conditions. -/
theorem fieldsOutOfRangeAreBadParam : Obligations.FieldsOutOfRangeAreBadParam := fun _ _ _ _ hw hl ht h =>
  exec_commandOf_refused hw (judgeOf_badParam hl ht h)

/-! ### Requests that name an UNBOUND stream or an UNSET lane -/

/-- R30, R31, R32, R36, R39, R41, R119: the seven kinds refuse an UNBOUND stream. -/
theorem judgeOf_unbound {k : Kind} {tag : Tag} {body : List Byte} {i : StreamIx} {s : State}
    (hk : k ∈ [Kind.streamUnbind, .streamStart, .streamStop, .streamFreeze, .streamThaw, .streamFill, .streamStamp])
    (hl : lengthTaken k body.length (field body 1) = true) (hr : fieldsInRange k body = true)
    (ht : k.deferrable = true → tagHeld s.link tag = false) (hi : field body 0 = i.val) (hu : (s.stream i).state = .unbound) :
    judgeOf k tag body s = refuse .badState := by
  simp only [List.mem_cons, List.not_mem_nil, or_false] at hk
  rcases hk with rfl | rfl | rfl | rfl | rfl | rfl | rfl
  · match body, beq_iff_eq.mp hl with
    | [bi], _ => simp [judgeOf, streamUnbind, index?_val (b := bi) i hi, hu]
  · match body, beq_iff_eq.mp hl with
    | [bi], _ => simp [judgeOf, streamStart, index?_val (b := bi) i hi, hu]
  · match body, beq_iff_eq.mp hl with
    | [bi, bo], _ =>
      obtain ⟨discard, ho⟩ := option?_iff.mpr (of_decide_eq_true hr).2
      simp [judgeOf, streamStop, ht rfl, index?_val (b := bi) i hi, show option? bo = some discard from ho, hu]
  · match body, beq_iff_eq.mp hl with
    | [bi], _ => simp [judgeOf, streamFreeze, ht rfl, index?_val (b := bi) i hi, hu]
  · match body, beq_iff_eq.mp hl with
    | [bi], _ => simp [judgeOf, streamThaw, index?_val (b := bi) i hi, hu]
  · match body, beq_iff_eq.mp hl with
    | [bi, _, _, _], _ => simp [judgeOf, streamFill, index?_val (b := bi) i hi, hu]
  · obtain ⟨hn, hm⟩ := Bool.and_eq_true_iff.mp hl
    match body, of_decide_eq_true hn with
    | bi :: bc :: rest, _ =>
      have hrest : rest.length + 2 = 2 + 2 * bc.toNat := beq_iff_eq.mp hm
      have hc : bc.toNat ≤ 4 := (of_decide_eq_true hr).2
      have hlen : rest.length = 2 * bc.toNat := by omega
      simp [judgeOf, streamStamp, hlen, index?_val (b := bi) i hi, hu, hc]

/-- R69, R95, R97, R105: the four kinds refuse an UNSET lane. -/
theorem judgeOf_unset {k : Kind} {tag : Tag} {body : List Byte} {l : LaneIx} {s : State}
    (hk : k ∈ [Kind.listCommit, .laneStart, .laneStop, .lockJoin]) (hl : lengthTaken k body.length (field body 1) = true)
    (hr : fieldsInRange k body = true) (ht : tagHeld s.link tag = false) (hi : field body 0 = l.val)
    (hu : (s.lane l).state = .unset) : judgeOf k tag body s = refuse .badState := by
  simp only [List.mem_cons, List.not_mem_nil, or_false] at hk
  rcases hk with rfl | rfl | rfl | rfl
  · match body, beq_iff_eq.mp hl with
    | [bl, bt], _ =>
      obtain ⟨tm, hm⟩ := timing?_iff.mpr (of_decide_eq_true hr).2
      simp [judgeOf, listCommit, ht, index?_val (b := bl) l hi, show timing? bt = some tm from hm, hu]
  · match body, beq_iff_eq.mp hl with
    | [bl], _ => simp [judgeOf, laneStart, ht, index?_val (b := bl) l hi, hu]
  · match body, beq_iff_eq.mp hl with
    | [bl, bo], _ =>
      obtain ⟨immediate, ho⟩ := option?_iff.mpr (of_decide_eq_true hr).2
      simp [judgeOf, laneStop, ht, index?_val (b := bl) l hi, show option? bo = some immediate from ho, hu]
  · match body, beq_iff_eq.mp hl with
    | [bf, bl], _ =>
      obtain ⟨-, hld, hne⟩ := of_decide_eq_true hr
      have hl' : l ≠ ⟨bl.toNat, hld⟩ := fun he => hne (hi.trans (congrArg Fin.val he))
      simp [judgeOf, lockJoin, ht, index?_val (b := bf) l hi, index?_isSome (b := bl) hld, hl', hu]

/-- R105: the leader named is UNSET. -/
theorem lockJoin_leader_unset {tag : Tag} {bf bl : Byte} {l ld : LaneIx} {s : State} (ht : tagHeld s.link tag = false)
    (hf : bf.toNat = l.val) (hl : bl.toNat = ld.val) (hne : l ≠ ld) (hu : (s.lane ld).state = .unset) :
    lockJoin tag [bf, bl] s = refuse .badState := by
  simp [lockJoin, ht, index?_val l hf, index?_val ld hl, hne, hu]

/-- R63, R172: an entry whose dwell fits its byte is read back from its bytes. -/
theorem entry?_bytes {e : ListEntry} (h : ∀ d ∈ e.dwell, 1 ≤ d ∧ d ≤ 255) :
    ∃ k w d, e.bytes = [k, w, d] ∧ entry? k w d = some e := by
  obtain ⟨kind, dwell⟩ := e
  have hd : (if byte (dwell.getD 0) = 0 then none else some (byte (dwell.getD 0)).toNat) = dwell := by
    cases dwell with
    | none => rfl
    | some d =>
      have hd := h d rfl
      have hb : (byte d).toNat = d := by simp [byte]; omega
      have hz : byte d ≠ 0 := fun e => by rw [e] at hb; simp at hb; omega
      rw [Option.getD_some, if_neg hz, hb]
  cases kind with
  | stream i =>
    have hi : (byte i.val).toNat = i.val := by simp [byte]; omega
    exact ⟨_, _, _, rfl, by rw [entry?, hd, if_pos rfl, index?_val i hi]; rfl⟩
  | blank sc => exact ⟨_, _, _, rfl, by rw [entry?, hd, if_neg (by decide), if_pos rfl, scale?_code]; rfl⟩

theorem entries?_bytes : ∀ {es : List ListEntry}, (∀ e ∈ es, ∀ d ∈ e.dwell, 1 ≤ d ∧ d ≤ 255) →
    entries? (es.flatMap ListEntry.bytes) = some es
  | [], _ => rfl
  | e :: es, h => by
    obtain ⟨k, w, d, hb, he⟩ := entry?_bytes (h e List.mem_cons_self)
    have ih := entries?_bytes (es := es) (fun x hx => h x (List.mem_cons_of_mem e hx))
    rw [List.flatMap_cons, hb]
    simp only [List.cons_append, List.nil_append, entries?, he, ih]

/-- R65: a LIST_EDIT of an operation its table takes, of an UNSET lane. -/
theorem listEdit_unset {tag : Tag} {bl op index count : Byte} {l : LaneIx} {new es : List ListEntry} {s : State}
    (hl : bl.toNat = l.val) (hn : new.length ≤ 12) (hd : ∀ e ∈ new, ∀ d ∈ e.dwell, 1 ≤ d ∧ d ≤ 255)
    (he : edited op.toNat index.toNat count.toNat new (s.list l).staged = some es) (hu : (s.lane l).state = .unset) :
    listEdit tag ([bl, op, index, count] ++ new.flatMap ListEntry.bytes) s = refuse .badState := by
  have hb := entries?_bytes hd
  have hlen : (new.flatMap ListEntry.bytes).length % 3 = 0 := by rw [entries?_length hb]; omega
  have hmax : ¬ Config.editEntries < new.length := Nat.not_lt.mpr hn
  simp only [List.cons_append, List.nil_append, listEdit, hlen, index?_val l hl, hb, he, hu, ne_eq, not_true, hmax, if_false,
    if_true]

/-- Settles O18: the target is judged next after the fields and the tag. -/
theorem unboundOrUnsetTargetIsBadState : Obligations.UnboundOrUnsetTargetIsBadState := by
  refine ⟨fun k tag body i s hw hk hl hr ht hi hu => ?_, fun k tag body l s hw hk hl hr ht hi hu => ?_,
    fun tag bf bl l ld s hw ht hf hl hne hu => ?_, fun tag bl op index count l new es s hw hl hn hd he hu => ?_⟩
  · exact exec_commandOf_refused hw (judgeOf_unbound hk hl hr ht hi hu)
  · exact exec_commandOf_refused hw (judgeOf_unset hk hl hr ht hi hu)
  · exact exec_commandOf_refused (k := .lockJoin) hw (lockJoin_leader_unset ht hf hl hne hu)
  · exact exec_commandOf_refused (k := .listEdit) hw (listEdit_unset hl hn hd he hu)

end Sys2Proof.Machine
end

section
/-! The run of a stream: STREAM_START and its demand, and the stops that act at once. -/

namespace Sys2Proof.Machine

open Sys2Proof

/-! ### STREAM_START (R31, R136, R137) -/

/-- R136: the demand is the least number of units whose product with the period and k² reaches 3600. -/
theorem demand_ceil {p k : Nat} (hp : 0 < p) (hk : 0 < k) :
    3600 ≤ demand p k * (p * (k * k)) ∧ (demand p k - 1) * (p * (k * k)) < 3600 := by
  have hm : 0 < p * (k * k) := Nat.mul_pos hp (Nat.mul_pos hk hk)
  have hlow := Nat.lt_div_mul_add (a := 3600 + p * (k * k) - 1) hm
  have hhigh := Nat.div_mul_le_self (3600 + p * (k * k) - 1) (p * (k * k))
  rw [Nat.sub_mul, demand]
  omega

/-- R31: STREAM_START with its field in range. -/
theorem streamStart_eq (tag : Tag) {bi : Byte} {i : StreamIx} (s : State) (hi : bi.toNat = i.val) :
    streamStart tag [bi] s =
      if (s.stream i).state ≠ .stopped then refuse .badState
      else if ¬ fits s (streamDemand s i) then refuse .noBandwidth
      else okReply .streamStart tag [] (admitClaim (.stream i) (streamDemand s i)
        (s.modStream i (fun r => { r with state := .armed, admitted := some (streamDemand s i) }))) := by
  simp only [streamStart, index?_val i hi]

theorem streamDemand_bound {s : State} {i : StreamIx} {b : Binding} {g : SourceSetup} (hb : (s.stream i).binding = some b)
    (hg : (s.source b.source).setup = some g) : streamDemand s i = demand g.period b.scale.k := by
  simp [streamDemand, hb, hg]

theorem fits_iff (s : State) (units : Nat) : fits s units = true ↔ claimTotal s.claims + units ≤ 1000 := decide_eq_true_iff

/-- Settles O21: the demand as a ceiling, and its admission by the total of the claims. -/
theorem streamStartClaimsItsDemand : Obligations.StreamStartClaimsItsDemand := by
  have he : ∀ {s : State} {tag : Tag} {bi : Byte} {i : StreamIx}, WaitingFor s .streamStart tag [bi] → bi.toNat = i.val →
      exec (.streamStart tag [bi]) s = _ :=
    fun hw hi => (request_waiting streamStart hw).trans (by rw [streamStart_eq _ _ hi])
  refine ⟨fun p k => demand_ceil, rfl, fun _ => rfl, fun s tag bi i hw hi hs => ?_, fun s tag bi i b g hw hi hs hb hg => ?_⟩
  · rw [he hw hi, taken_stream, if_pos hs]
    rfl
  · rw [he hw hi, taken_stream, if_neg (not_not.mpr hs), streamDemand_bound (s := taken s) hb hg]
    have hf : fits (taken s) (demand g.period b.scale.k) = true ↔ _ := fits_iff s _
    by_cases h : claimTotal s.claims + demand g.period b.scale.k ≤ 1000
    · rw [if_neg (not_not.mpr (hf.mpr h)), if_pos h]
      rfl
    · rw [if_pos (mt hf.mp h), if_neg h]
      rfl

/-! ### STREAM_STOP at once (R32, R34, R35) -/

/-- R32 to R35: STREAM_STOP under a tag no entry holds, with its fields in range. -/
theorem streamStop_eq (tag : Tag) {bi bo : Byte} {i : StreamIx} {discard : Bool} (s : State)
    (ht : tagHeld s.link tag = false) (hi : bi.toNat = i.val) (ho : option? bo = some discard) :
    streamStop tag [bi, bo] s =
      match (s.stream i).state with
      | .unbound => refuse .badState
      | .stopped => okReply .streamStop tag (atOnce none) s
      | .armed => okReply .streamStop tag (atOnce none) (stopStream i s)
      | .capturing =>
        if (fillingAt s i).isNone then okReply .streamStop tag (atOnce none) (stopStream i s)
        else if discard then okReply .streamStop tag (atOnce none) (discardStop i s)
        else if tableFull s.link then refuse .busy
        else .ok (defer tag (.streamStop i)
          (s.modStream i (fun r => { r with state := .stopping, pendingStop := some tag })))
      | .stopping =>
        if discard then okReply .streamStop tag (atOnce none) (discardStop i s) else refuse .badState := by
  simp only [streamStop, ht, index?_val i hi, ho, Bool.false_eq_true, if_false] <;> rfl

theorem atOnce_none : atOnce none = [0, 0, 0, 0, 0, 0] := by decide

/-- `completeIf` writes the link, from the link alone. -/
theorem completeIf_record {s u : State} (t : Option Tag) (res : Result) (fields : List Byte) (h : u.link = s.link) :
    completeIf t res fields u = { u with link := (completeIf t res fields s).link } := by
  rw [completeIf_eq, completeIf_link_congr t res fields h]

/-- R37: what the settling of a freeze writes. -/
theorem settleFreeze_writes (x : Settle) (i : StreamIx) (s : State) : settleFreeze x i s = { s with
    streams := wr s.streams i { s.stream i with
      pendingFreeze := none
      freeze := if (s.stream i).pendingFreeze = none then (s.stream i).freeze else .frozen }
    link := (completeIf (s.stream i).pendingFreeze .ok (x.code ++ seqBytes (newestSeq s i)) s).link } :=
  (settleFreeze_eq x i s).trans (completeIf_record _ _ _ rfl)

/-- R40: what the settling of a fill writes: the stream's record, its claim where a stop was pending, and the link, where the
freeze is answered first. -/
theorem settle_eq (x : Settle) (i : StreamIx) (s : State) : settle x i s = { s with
    streams := wr s.streams i { s.stream i with
      state := if (s.stream i).pendingStop = none then (s.stream i).state else .stopped
      admitted := if (s.stream i).pendingStop = none then (s.stream i).admitted else none
      freeze := if (s.stream i).pendingFreeze = none then (s.stream i).freeze else .frozen
      pendingStop := none, pendingFreeze := none }
    claims := if (s.stream i).pendingStop = none then s.claims else s.claims.filter (fun c => c.holder ≠ .stream i)
    link := (completeIf (s.stream i).pendingStop .ok x.stopFields
      (completeIf (s.stream i).pendingFreeze .ok (x.code ++ seqBytes (newestSeq s i)) s)).link } := by
  have hl : (settleFreeze x i s).link =
      (completeIf (s.stream i).pendingFreeze .ok (x.code ++ seqBytes (newestSeq s i)) s).link := by
    rw [settleFreeze_writes]
  refine ((settleStop_eq x i _).trans (completeIf_record _ _ _ hl)).trans ?_
  rw [settleFreeze_writes]
  simp only [State.stream, rd_wr_same, wr_wr]
  rfl

/-- R8, R40: what the discard of a fill writes. -/
theorem streamDiscard_writes {s : State} {i : StreamIx} {r : Ring} {p : Nat} (c : Cause) (hr : s.ring i = some r)
    (hp : r.filling = some p) : streamDiscard c i s = { s with
      rings := wr s.rings i (some (r.setFill p .empty))
      streams := wr s.streams i { s.stream i with
        state := if (s.stream i).pendingStop = none then (s.stream i).state else .stopped
        admitted := if (s.stream i).pendingStop = none then (s.stream i).admitted else none
        freeze := if (s.stream i).pendingFreeze = none then (s.stream i).freeze else .frozen
        pendingStop := none, pendingFreeze := none
        counters := { (s.stream i).counters with discarded := satInc (s.stream i).counters.discarded } }
      claims := if (s.stream i).pendingStop = none then s.claims else s.claims.filter (fun c => c.holder ≠ .stream i)
      link := (completeIf (s.stream i).pendingStop .ok ([2, c.code] ++ [0, 0, 0, 0])
        (completeIf (s.stream i).pendingFreeze .ok ([2, c.code] ++ seqBytes (newestSeq s i)) s)).link } := by
  let u := (s.setRing i (some (r.abandon p))).modStreamCounters i (fun k => { k with discarded := satInc k.discarded })
  have hn : newestSeq u i = newestSeq s i := by
    have hu : u.ring i = some (r.setFill p .empty) := setRing_ring_same s i _
    simp only [newestSeq, hu, hr, Option.bind_some, Ring.newestSeq_setFill r p hp]
  have hl : (completeIf (s.stream i).pendingFreeze .ok ([2, c.code] ++ seqBytes (newestSeq s i)) u).link = _ :=
    completeIf_link_congr (s := s) _ _ _ rfl
  have hu : u.stream i = { s.stream i with
      counters := { (s.stream i).counters with discarded := satInc (s.stream i).counters.discarded } } :=
    modStream_stream_same _ _ _
  rw [streamDiscard_filling _ hr hp]
  refine (settle_eq _ i u).trans ?_
  rw [Settle.stopFields_discarded, hn, hu, Settle.code]
  dsimp only
  rw [completeIf_link_congr _ _ _ hl]
  simp only [u, State.modStreamCounters, State.modStream, State.stream, State.setRing, wr_wr]
  rfl

/-- R34: what a DISCARD stop that finds a fill writes, whether an earlier stop waited on the fill or not. -/
theorem discardStop_filling {s : State} {i : StreamIx} {r : Ring} {p : Nat} (hr : s.ring i = some r)
    (hp : r.filling = some p) (hs : (s.stream i).state ≠ .stopped) : discardStop i s = { s with
      rings := wr s.rings i (some (r.setFill p .empty))
      streams := wr s.streams i { s.stream i with
        state := .stopped, admitted := none, pendingStop := none, pendingFreeze := none
        freeze := if (s.stream i).pendingFreeze = none then (s.stream i).freeze else .frozen
        counters := { (s.stream i).counters with discarded := satInc (s.stream i).counters.discarded } }
      claims := s.claims.filter (fun c => c.holder ≠ .stream i)
      link := (completeIf (s.stream i).pendingStop .ok [2, 7, 0, 0, 0, 0]
        (completeIf (s.stream i).pendingFreeze .ok ([2, 7] ++ seqBytes (newestSeq s i)) s)).link } := by
  unfold discardStop
  rw [streamDiscard_writes _ hr hp]
  cases hps : (s.stream i).pendingStop with
  | none =>
    rw [if_neg (by simpa [State.stream] using hs)]
    simp [stopStream, releaseClaim, State.modStream, State.stream]
    rfl
  | some t =>
    rw [if_pos (by simp [State.stream])]
    rfl

/-- R150: the entries under a tag that may be absent, where the one that may be there is known. -/
theorem filter_tag_of_pending {es : List Entry} {p : Option Tag} {op : Pending} (hn : (es.map Entry.tag).Nodup)
    (h : ∀ old, p = some old → ⟨old, op⟩ ∈ es) :
    es.filter (fun y => decide (p = some y.tag)) = p.toList.map (fun old => ⟨old, op⟩) := by
  cases p with
  | none => simp
  | some t =>
    simp only [Option.some.injEq, eq_comm (a := t)]
    exact filter_tag hn (h t rfl)

/-- R34, R40: the link after the freeze and then the stop that waited on a fill have been answered. -/
theorem settled_link {s : State} {i : StreamIx} {p q : Option Tag} (f g : List Byte)
    (hn : (s.link.outstanding.map Entry.tag).Nodup) (hp : ∀ old, p = some old → ⟨old, .streamFreeze i⟩ ∈ s.link.outstanding)
    (hq : ∀ old, q = some old → ⟨old, .streamStop i⟩ ∈ s.link.outstanding) :
    (completeIf q .ok g (completeIf p .ok f s)).link = { s.link with
      outstanding := s.link.outstanding.filter (fun e => decide (p ≠ some e.tag ∧ q ≠ some e.tag))
      replies := s.link.replies ++ p.toList.map (fun old => ⟨0x85, old, .final, .ok, f⟩) ++
        q.toList.map (fun old => ⟨0x84, old, .final, .ok, g⟩) } := by
  have hfreeze := completeIf_nodup p .ok f s hn
  have hn' : ((completeIf p .ok f s).link.outstanding.map Entry.tag).Nodup := by
    rw [hfreeze]
    exact hn.sublist (List.filter_sublist.map _)
  have hq' : ∀ old, q = some old → ⟨old, .streamStop i⟩ ∈ (completeIf p .ok f s).link.outstanding := fun old ho => by
    rw [hfreeze]
    refine List.mem_filter.mpr ⟨hq old ho, decide_eq_true fun hpo => ?_⟩
    exact nomatch entry_unique hn (hp old hpo) (hq old ho) rfl
  rw [completeIf_nodup q .ok g _ hn', filter_tag_of_pending hn' hq', hfreeze, filter_tag_of_pending hn hp]
  have hk : replyKind (Pending.streamFreeze i).kind.code = 0x85 := show replyKind Kind.streamFreeze.code = 0x85 by decide
  have hk' : replyKind (Pending.streamStop i).kind.code = 0x84 := show replyKind Kind.streamStop.code = 0x84 by decide
  simp only [List.map_map, Function.comp_def, List.filter_filter, Bool.decide_and, Bool.and_comm, hk, hk']

/-- Settles O22: STREAM_STOP in each stream state, and the fill a DISCARD ends. -/
theorem streamStopAtOnce : Obligations.StreamStopAtOnce := by
  refine ⟨fun s tag bi i hw ht hi hs => ?_, fun s tag bi i discard hw ht hi => ⟨fun hs => ?_, fun hs => ?_⟩,
    fun s tag bi i r p hw ht hi hr hp hs => ?_⟩
  · refine (request_waiting streamStop hw).trans ?_
    rw [streamStop_eq tag (taken s) ht hi rfl, taken_stream, hs]
    rfl
  · refine (request_waiting streamStop hw).trans ?_
    rw [streamStop_eq tag (taken s) ht hi (option?_code _), taken_stream, hs, atOnce_none]
    rfl
  · refine (request_waiting streamStop hw).trans ?_
    rw [streamStop_eq tag (taken s) ht hi (option?_code _), taken_stream, atOnce_none]
    rcases hs with hs | ⟨hs, hf⟩
    · rw [hs]
      rfl
    · rw [hs, taken_fillingAt, hf]
      rfl
  · have hfill : fillingAt s i = some p := by simp [fillingAt, hr, hp]
    have hstop : (s.stream i).state ≠ .stopped := by rcases hs with h | h <;> simp [h]
    have hj : streamStop tag [bi, 1] (taken s) = okReply .streamStop tag [0, 0, 0, 0, 0, 0] (discardStop i (taken s)) := by
      rw [streamStop_eq tag (taken s) ht hi rfl, taken_stream, taken_fillingAt, hfill, atOnce_none]
      rcases hs with h | h <;> rw [h] <;> rfl
    refine ⟨(firstReply .streamStop tag .ok [0, 0, 0, 0, 0, 0] (discardStop i (taken s))).link, ?_,
      firstReply_last _ _ _ _ _, fun hn hfreeze hstopping => ?_⟩
    · refine (request_waiting streamStop hw).trans ?_
      rw [hj, answer_okReply, discardStop_filling (s := taken s) hr hp hstop]
      simp only [Option.isSome_iff_ne_none, ne_eq, ite_not]
      rfl
    · rw [discardStop_filling (s := taken s) hr hp hstop]
      dsimp only [firstReply, queueReply, State.modLink]
      rw [taken_stream, settled_link (s := taken s) _ _ hn hfreeze hstopping]
      rfl

end Sys2Proof.Machine
end

section
/-! Requests whose outcome is still to come, and requests that set one field of a record. -/

namespace Sys2Proof.Machine

open Sys2Proof

/-! ### BUSY, or the entry with its PENDING reply (R150) -/

/-- R148, R150: step 6 and what follows it, as the answer to a deferrable request. -/
theorem answer_defer {s t v : State} {tag : Tag} (op : Pending) (h : defer tag op t = v) :
    answer op.kind tag (taken s) (if tableFull (taken s).link then refuse .busy else .ok (defer tag op t)) =
      if 8 ≤ s.link.outstanding.length then s.answered op.kind tag .busy [] else v := by
  have hf : tableFull (taken s).link = true ↔ 8 ≤ s.link.outstanding.length := decide_eq_true_iff
  by_cases hb : 8 ≤ s.link.outstanding.length
  · rw [if_pos (hf.mpr hb), if_pos hb]
    rfl
  · rw [if_neg (mt hf.mp hb), if_neg hb]
    exact h

/-- R69: LIST_COMMIT of a busy lane, of a list that passes the walk. -/
theorem listCommit_busy {s : State} {tag : Tag} {bl : Byte} {l : LaneIx} {tm : Timing} (ht : tagHeld s.link tag = false)
    (hl : bl.toNat = l.val) (hs : (s.lane l).state ∈ [LaneState.starting, .running, .stopping])
    (hc : (s.list l).commit = none) (hf : listFailure s (s.list l).staged = none) :
    listCommit tag [bl, tm.code] s =
      if tableFull s.link then refuse .busy
      else .ok (defer tag (.listCommit l) (s.modList l (fun u => { u with commit := some (tag, tm) }))) := by
  have hu : (s.lane l).state ≠ .unset := fun e => by simp [e] at hs
  have hr : (s.lane l).state ≠ .ready := fun e => by simp [e] at hs
  simp [listCommit, ht, index?_val l hl, hu, hr, hc, hf]

/-- R95, R96: LANE_START of a follower whose claim fits. -/
theorem laneStart_follower {s : State} {tag : Tag} {bl : Byte} {l ld : LaneIx} {g : LaneSetup}
    (ht : tagHeld s.link tag = false) (hl : bl.toNat = l.val) (hs : (s.lane l).state = .ready)
    (hp : (s.lane l).port ≠ none) (hg : (s.lane l).setup = some g) (hr : (s.lock l).role = .follower ld)
    (hf : claimTotal s.claims + demand g.period 1 ≤ 1000) :
    laneStart tag [bl] s =
      if tableFull s.link then refuse .busy
      else .ok (defer tag (.laneStart l)
        ((claimLane l s).modLane l (fun r => { r with state := .starting, pendingStart := some tag }))) := by
  have hd : laneDemand s l = demand g.period 1 := by simp [laneDemand, hg]
  simp [laneStart, ht, index?_val l hl, hs, hp, hd, (fits_iff s _).mpr hf, hr]

/-- R96, R137: what the start of a follower writes before its entry. -/
theorem claimLane_modLane (l : LaneIx) (f : Lane → Lane) (s : State) : (claimLane l s).modLane l f = { s with
    lanes := wr s.lanes l (f { s.lane l with admitted := some (laneDemand s l) })
    claims := s.claims ++ [⟨.lane l, laneDemand s l⟩] } := by
  simp only [claimLane, admitClaim, State.modLane, State.lane, rd_wr_same, wr_wr]

/-- R106: what a join that waits for its frame writes before its entry. -/
theorem makeLeader_joining {l ld : LaneIx} (k : Lock) (s : State) (h : l ≠ ld) :
    makeLeader ld (s.modLock l (fun _ => k)) =
      { s with locks := wr (wr s.locks l k) ld { s.lock ld with role := .leader } } := by
  simp only [makeLeader, State.modLock, State.lock, rd_wr_ne _ _ h]

/-- R97: a NORMAL stop of a RUNNING lane. -/
theorem laneStop_running {s : State} {tag : Tag} {bl : Byte} {l : LaneIx} (ht : tagHeld s.link tag = false)
    (hl : bl.toNat = l.val) (hs : (s.lane l).state = .running) (hw : (s.lock l).waiting = false) :
    laneStop tag [bl, 0] s =
      if tableFull s.link then refuse .busy
      else .ok (defer tag (.laneStop l) (s.modLane l (fun r => { r with state := .stopping, pendingStop := some tag }))) := by
  have ho : option? 0 = some false := rfl
  simp only [laneStop, ht, index?_val l hl, ho, hs, hw, Bool.false_eq_true, if_false]

/-- R106: a LOCK_JOIN of a lane whose frames go on. -/
theorem lockJoin_running {s : State} {tag : Tag} {bf bl : Byte} {l ld : LaneIx} (ht : tagHeld s.link tag = false)
    (hf : bf.toNat = l.val) (hl : bl.toNat = ld.val) (hne : l ≠ ld) (hs : (s.lane l).state ∈ [LaneState.running, .stopping])
    (hu : (s.lane ld).state ≠ .unset) (hld : (s.lock ld).role ∈ [LockRole.free, .leader]) (hr : (s.lock l).role = .free)
    (hp : (s.lane l).setup.map LaneSetup.period = (s.lane ld).setup.map LaneSetup.period) :
    lockJoin tag [bf, bl] s =
      if tableFull s.link then refuse .busy
      else .ok (defer tag (.lockJoin l)
        (makeLeader ld (s.modLock l (fun _ => ⟨.joining ld .finishing tag, none⟩)))) := by
  have hs' : (s.lane l).state = .running ∨ (s.lane l).state = .stopping := by simpa using hs
  have hset : (s.lane l).state ≠ .unset := fun e => by simp [e] at hs
  have hfollows : (s.lock ld).follows = false := by
    have hld' : (s.lock ld).role = .free ∨ (s.lock ld).role = .leader := by simpa using hld
    rcases hld' with h | h <;> simp [Lock.follows, h]
  simp [lockJoin, ht, index?_val l hf, index?_val ld hl, hne, hset, hu, hfollows, hr, equalPeriods, hp, hs']

/-- Settles O23: the six requests in the conditions under which their outcome is still to come. -/
theorem deferredRequestsEnterTheTable : Obligations.DeferredRequestsEnterTheTable := by
  refine ⟨fun s tag bi i hw ht hi hs hf => ?_, fun s tag bi i hw ht hi hu hz hf => ?_,
    fun s tag bl l tm hw ht hl hs hc hf => ?_, fun s tag bl l ld g hw ht hl hs hp hg hr hf => ?_,
    fun s tag bl l hw ht hl hs hr => ?_, fun s tag bf bl l ld hw ht hf hl hne hs hu hld hr hp => ?_⟩
  · refine (request_waiting streamStop hw).trans (congrArg _ ?_)
    have hn : (fillingAt s i).isNone = false := Option.isNone_eq_false_iff.mpr (Option.isSome_iff_ne_none.mpr hf)
    rw [streamStop_eq tag (taken s) ht hi rfl, taken_stream, hs]
    dsimp only
    rw [taken_fillingAt, hn]
    exact answer_defer (.streamStop i) rfl
  · refine (request_waiting streamFreeze hw).trans (congrArg _ ?_)
    have hn : (fillingAt s i).isNone = false := Option.isNone_eq_false_iff.mpr (Option.isSome_iff_ne_none.mpr hf)
    rw [streamFreeze_eq tag (taken s) ht hi hu, taken_stream, hz]
    dsimp only
    rw [taken_fillingAt, hn]
    exact answer_defer (.streamFreeze i) rfl
  · refine (request_waiting listCommit hw).trans (congrArg _ ?_)
    rw [listCommit_busy (s := taken s) ht hl hs hc ((listFailure_taken s _).trans hf)]
    exact answer_defer (.listCommit l) rfl
  · refine (request_waiting laneStart hw).trans (congrArg _ ?_)
    have hd : laneDemand (taken s) l = demand g.period 1 := by simp [laneDemand, hg]
    rw [laneStart_follower (s := taken s) ht hl hs hp hg hr hf, claimLane_modLane, hd]
    exact answer_defer (.laneStart l) rfl
  · refine (request_waiting laneStop hw).trans (congrArg _ ?_)
    rw [laneStop_running (s := taken s) ht hl hs (Lock.waiting_false hr)]
    exact answer_defer (.laneStop l) rfl
  · refine (request_waiting lockJoin hw).trans (congrArg _ ?_)
    rw [lockJoin_running (s := taken s) ht hf hl hne hs hu hld hr hp, makeLeader_joining _ _ hne]
    exact answer_defer (.lockJoin l) rfl

/-! ### Requests that set one field (R41, R85, R119, R160) -/

/-- R41: STREAM_FILL of a bound stream. -/
theorem streamFill_bound {s : State} {bi : Byte} {i : StreamIx} (tag : Tag) (y cb cr : Byte) (hi : bi.toNat = i.val)
    (hu : (s.stream i).state ≠ .unbound) : streamFill tag [bi, y, cb, cr] s =
      okReply .streamFill tag [] (s.modStream i (fun r => { r with fill := ⟨y, cb, cr⟩ })) := by
  simp [streamFill, index?_val i hi, hu]

/-- R119: user words are read back from their bytes. -/
theorem words_bytes (ws : List Half) : words (ws.flatMap (fun w => u16 w.toNat)) = ws := by
  induction ws with
  | nil => rfl
  | cons w ws ih =>
    show BitVec.ofNat 16 (le16 (byte w.toNat) (byte (w.toNat / 256))) :: words (ws.flatMap (fun w => u16 w.toNat)) = _
    rw [ofNat_le16_u16, ih]

theorem words_bytes_length (ws : List Half) : (ws.flatMap (fun w => u16 w.toNat)).length = 2 * ws.length := by
  induction ws with
  | nil => rfl
  | cons w ws ih =>
    rw [List.flatMap_cons, List.length_append, ih, List.length_cons]
    show 2 + 2 * ws.length = _
    omega

/-- R119: STREAM_STAMP of a bound stream. -/
theorem streamStamp_bound {s : State} {bi : Byte} {i : StreamIx} (tag : Tag) {ws : List Half} (hn : ws.length ≤ 4)
    (hi : bi.toNat = i.val) (hu : (s.stream i).state ≠ .unbound) :
    streamStamp tag (bi :: byte ws.length :: ws.flatMap (fun w => u16 w.toNat)) s =
      okReply .streamStamp tag [] (s.modStream i (fun r => { r with words := ws })) := by
  have hc : (byte ws.length).toNat = ws.length := by simp [byte]; omega
  simp only [streamStamp, hc, words_bytes_length, words_bytes, index?_val i hi, hu, Nat.not_lt.mpr hn, ne_eq, not_true,
    if_false]

/-- R82: a busy lane by its state. -/
theorem Lane.busy_iff (r : Lane) : r.busy = true ↔ r.state ∈ [LaneState.starting, .running, .stopping] := by
  cases h : r.state <;> simp [Lane.busy, h]

/-- R85: PORT_SETUP with its fields in range. -/
theorem portSetup_eq (tag : Tag) {bp : Byte} {p : PortIx} (w : WidthMode) (s : State) (hp : bp.toNat = p.val) :
    portSetup tag [bp, w.code] s =
      if ∃ l ∈ (s.outPort p).carried, (s.lane l).state ∈ [LaneState.starting, .running, .stopping] then refuse .badState
      else okReply .portSetup tag [] (s.modOutPort p (fun r => { r with width := w })) := by
  have hb : ((s.outPort p).carried.any (fun l => (s.lane l).busy)) = true ↔
      ∃ l ∈ (s.outPort p).carried, (s.lane l).state ∈ [LaneState.starting, .running, .stopping] := by
    simp only [List.any_eq_true, Lane.busy_iff]
  simp only [portSetup, index?_val p hp, width?_code, hb]

/-- R160: LINK_SET of a mask of five bits. -/
theorem linkSet_mask (tag : Tag) (mask : BitVec 5) (s : State) : linkSet tag [mask.setWidth 8] s =
    okReply .linkSet tag [mask.setWidth 8] { s with notices := { s.notices with mask := mask } } := by
  have hm : ¬ 32 ≤ (mask.setWidth 8).toNat := by
    have := mask.isLt
    simp only [BitVec.toNat_setWidth]
    omega
  have hback : (mask.setWidth 8).setWidth 5 = mask := by
    apply BitVec.eq_of_toNat_eq
    have := mask.isLt
    simp only [BitVec.toNat_setWidth]
    omega
  simp only [linkSet, hm, hback, if_false]

/-- Settles O38: each setter performed in a bound or free record. -/
theorem settersWriteTheirField : Obligations.SettersWriteTheirField := by
  refine ⟨fun s tag bi y cb cr i hw hi hu => ?_, fun s tag bi ws i hw hn hi hu => ?_, fun s tag bp p w hw hp => ?_,
    fun s tag mask hw => ?_⟩
  · refine (request_waiting streamFill hw).trans ?_
    rw [streamFill_bound (s := taken s) tag y cb cr hi hu]
    rfl
  · refine (request_waiting streamStamp hw).trans ?_
    rw [streamStamp_bound (s := taken s) tag hn hi hu]
    rfl
  · refine (request_waiting portSetup hw).trans (congrArg _ ?_)
    rw [portSetup_eq tag w (taken s) hp]
    by_cases hb : ∃ l ∈ (s.outPort p).carried, (s.lane l).state ∈ [LaneState.starting, .running, .stopping]
    · rw [if_pos hb]
      exact congrArg (answer .portSetup tag (taken s)) (if_pos hb)
    · rw [if_neg hb]
      exact congrArg (answer .portSetup tag (taken s)) (if_neg hb)
  · refine (request_waiting linkSet hw).trans ?_
    rw [linkSet_mask tag mask (taken s)]
    rfl

end Sys2Proof.Machine
end

section
/-! Counters and CANCEL, and the records after a hard reset. -/

namespace Sys2Proof.Machine

open Sys2Proof

/-! ### Counters (R26, R59, R159) -/

/-- 00_scope.md: an event counter rises by one and holds at its largest value. -/
theorem satInc_toNat {w : Nat} (x : BitVec w) : (satInc x).toNat = min (x.toNat + 1) (2 ^ w - 1) := by
  have hpos : 0 < 2 ^ w := Nat.two_pow_pos w
  have hx := x.isLt
  have hmax : x = BitVec.allOnes w ↔ x.toNat = 2 ^ w - 1 := by rw [← BitVec.toNat_inj, BitVec.toNat_allOnes]
  unfold satInc
  by_cases h : x = BitVec.allOnes w
  · rw [if_pos h, hmax.mp h]
    omega
  · have hne := mt hmax.mpr h
    have hone : (1 : BitVec w).toNat = 1 % 2 ^ w := BitVec.toNat_ofNat 1 w
    rw [if_neg h, BitVec.toNat_add, hone, Nat.mod_eq_of_lt (a := 1) (by omega), Nat.mod_eq_of_lt (by omega)]
    omega

/-- R159: COUNTERS of a holder in range. -/
theorem counters_holder (tag : Tag) {kind index : Byte} {x : CounterHolder} (clear : Bool) (s : State)
    (hx : holder? kind index = some x) : counters tag [kind, index, if clear then 1 else 0] s =
      okReply .counters tag (kind :: index :: (countersOf s x).flatMap (fun c => u32 c.toNat))
        (if clear then clearCounters x (clearFlag x s) else clearFlag x s) := by
  simp only [counters, hx, option?_code]
  rfl

/-- Settles O51: COUNTERS holder by holder. -/
theorem countersAreReadThenCleared : Obligations.CountersAreReadThenCleared := by
  have he : ∀ {s : State} {tag : Tag} {kind index : Byte} {clear : Bool} {x : CounterHolder},
      WaitingFor s .counters tag [kind, index, if clear then 1 else 0] → holder? kind index = some x →
      exec (.counters tag [kind, index, if clear then 1 else 0]) s = _ :=
    fun hw hx => (request_waiting counters hw).trans (by rw [counters_holder _ _ _ hx, answer_okReply])
  refine ⟨fun w x => ⟨rfl, satInc_toNat x⟩, fun s tag kind index clear hw =>
    ⟨fun n hk hi => ?_, fun i hk hi => ?_, fun l hk hi => ?_, fun p hk hi => ?_, fun hk hi => ?_⟩⟩
  · subst hk
    rw [he hw (x := .source n) (by simp [holder?, index?_val n hi])]
    cases clear
    · rfl
    · simp only [if_true, clearFlag, clearCounters, State.modSource, State.source, rd_wr_same, wr_wr]
      rfl
  · subst hk
    rw [he hw (x := .stream i) (by simp [holder?, index?_val i hi])]
    cases clear
    · rfl
    · simp only [if_true, clearFlag, clearCounters, State.modStream, State.stream, rd_wr_same, wr_wr]
      rfl
  · subst hk
    rw [he hw (x := .lane l) (by simp [holder?, index?_val l hi])]
    cases clear <;> rfl
  · subst hk
    rw [he hw (x := .port p) (by simp [holder?, index?_val p hi])]
    cases clear <;> rfl
  · subst hk hi
    rw [he hw (x := .link) rfl]
    cases clear <;> rfl

/-! ### CANCEL (R155) -/

/-- R155: a CANCEL of a tag an entry holds is answered after its owner has withdrawn the operation. -/
theorem exec_cancel_found {s : State} {tag t : Tag} {e : Entry} (hw : WaitingFor s .cancel tag [t])
    (he : s.link.outstanding.find? (fun x => x.tag = t) = some e) :
    exec (.cancel tag [t]) s = .next (firstReply .cancel tag .ok [] (withdraw e (taken s))) := by
  refine (request_waiting cancel hw).trans ?_
  have he' : (taken s).link.outstanding.find? (fun x => x.tag = t) = some e := he
  simp only [cancel, he', answer_okReply]

/-- R155: the entry leaves the table with CANCELLED, and the CANCEL is answered after it. -/
theorem cancelled_and_answered {v : State} {tag t : Tag} {e : Entry}
    (he : v.link.outstanding.find? (fun x => x.tag = t) = some e) :
    firstReply .cancel tag .ok [] (complete t .cancelled [] v) = { v with link := { v.link with
      outstanding := v.link.outstanding.eraseP (fun x => x.tag = t)
      replies := v.link.replies ++ [⟨replyKind e.op.kind.code, t, .final, .cancelled, []⟩,
        ⟨replyKind Kind.cancel.code, tag, .first, .ok, []⟩] } } := by
  rw [complete_found _ _ he]
  simp only [firstReply, queueReply, State.modLink, List.append_assoc]
  rfl

/-- R103: a lane names a leader exactly where its lock role does. -/
theorem namesLeader_iff (s : State) (ld l : LaneIx) : namesLeader s ld l = true ↔ (s.lock l).role.leaderNamed = some ld := by
  unfold namesLeader LockRole.leaderNamed
  split <;> simp_all

/-- R103, R111: a lane of a group becomes FREE, and its leader with it where no other lane names it. -/
theorem freeLeader_freed {s v : State} {l : LaneIx} (ld : LaneIx) (hv : v.locks = wr s.locks l ⟨.free, none⟩) :
    freeLeader ld v = { v with
      locks := if ∀ x, x ≠ l → (s.lock x).role.leaderNamed ≠ some ld then wr (wr s.locks l ⟨.free, none⟩) ld ⟨.free, none⟩
        else wr s.locks l ⟨.free, none⟩ } := by
  have hx : ∀ x, v.lock x = if l = x then ⟨.free, none⟩ else s.lock x := fun x => by
    rw [State.lock, hv, rd_wr]
    rfl
  have hnone : leadsNone v ld = true ↔ ∀ x, x ≠ l → (s.lock x).role.leaderNamed ≠ some ld := by
    simp only [leadsNone, List.all_eq_true, List.mem_finRange, true_implies, Bool.not_eq_true', ← Bool.not_eq_true,
      namesLeader_iff, hx]
    refine forall_congr' fun x => ?_
    by_cases h : l = x
    · simp [h, LockRole.leaderNamed]
    · simp [h, Ne.symm h]
  unfold freeLeader
  by_cases h : ∀ x, x ≠ l → (s.lock x).role.leaderNamed ≠ some ld
  · rw [if_pos (hnone.mpr h), if_pos h, ← hv]
    rfl
  · rw [if_neg (mt hnone.mp h), if_neg h, ← hv]

/-- Settles O52: the withdrawal of each pending operation. -/
theorem cancelWithdrawsTheOperation : Obligations.CancelWithdrawsTheOperation := by
  refine fun s tag t hw => ⟨fun hnone => ?_, fun e he => ?_⟩
  · have hnone' : (taken s).link.outstanding.find? (fun x => x.tag = t) = none := hnone
    refine exec_commandOf_refused (k := .cancel) hw ?_
    simp only [judgeOf, cancel, hnone']
  · obtain rfl : e.tag = t := by simpa using List.find?_some he
    refine ⟨fun i hop => ?_, fun i hop => ?_, fun l hop => ?_, fun l hop => ?_, fun l hop hs => ?_,
      fun l ld phase old hop hr => ?_⟩
    all_goals rw [exec_cancel_found hw he, withdraw, hop]
    all_goals dsimp only
    · rw [cancelStreamStop, cancelled_and_answered (v := (taken s).modStream i _) he, hop]
      rfl
    · rw [cancelStreamFreeze, cancelled_and_answered (v := (taken s).modStream i _) he, hop]
      rfl
    · rw [cancelCommit, cancelled_and_answered (v := (taken s).modList l _) he, hop]
      rfl
    · rw [cancelLaneStop, cancelled_and_answered (v := (taken s).modLane l _) he, hop]
      rfl
    · intro hu
      have hclaims : (makeReady l (applyPending l (taken s))).claims = s.claims.filter (fun c => c.holder ≠ .lane l) := by
        show (applyPending l (taken s)).claims.filter _ = _
        rw [applyPending_frame]
        rfl
      rw [cancelLaneStart, taken_lane, if_pos hs, cancelled_and_answered (v := makeReady l (applyPending l (taken s))) hu, hop,
        hclaims]
      rfl
    · rw [cancelJoin, taken_lock, hr]
      dsimp only
      rw [complete_found (s := freeLane l (taken s)) _ _ he, freeLeader_freed (s := s) (l := l) ld rfl, hop]
      cases phase with
      | finishing =>
        simp only [firstReply, queueReply, State.modLink, freeLane, State.modLock, List.append_assoc]
        rfl
      | waiting => rfl

/-- Settles O2: the records of the state after a hard reset. -/
theorem resetLeavesInitialRecords : Obligations.ResetLeavesInitialRecords := by
  refine ⟨rfl, rfl, fun n => ?_, fun p j => ?_, fun i => ?_, fun i => ?_, fun l => ?_, fun l => ?_, fun l => ?_, fun p => ?_,
    fun l => ⟨?_, ?_⟩, rfl, rfl, rfl, rfl, rfl, rfl, rfl, rfl⟩
  · exact rd_replicate Source.initial n
  · exact (congrArg (fun c : CapturePort => rd c.unclaimed j) (rd_replicate CapturePort.initial p)).trans (rd_replicate 0 j)
  · exact rd_replicate Stream.initial i
  · exact rd_replicate none i
  · exact rd_replicate ListUnit.initial l
  · exact rd_replicate Lane.initial l
  · exact rd_replicate Lock.initial l
  · exact rd_replicate OutPort.initial p
  · exact congrArg LaneOut.frame (rd_replicate LaneOut.initial l)
  · exact rd_replicate none l

end Sys2Proof.Machine
end

section
/-! A line of a capture port: its judging at the next marker, and the line it makes in the frame store. -/

namespace Sys2Proof.Machine

open Sys2Proof

/-! ### What is handed over leaves the capture ports -/

/-- What each of a list of steps keeps, all of them keep. -/
theorem foldl_keeps {α β : Type} {f : α → State → State} (g : State → β) (h : ∀ a t, g (f a t) = g t) (xs : List α) :
    ∀ s, g (xs.foldl (fun t a => f a t) s) = g s := by
  induction xs with
  | nil => exact fun _ => rfl
  | cons x xs ih => exact fun s => (ih (f x s)).trans (h x s)

theorem streamLine_frame (line : List Byte) (i : StreamIx) (s : State) : streamLine line i s = { s with
    streams := (streamLine line i s).streams, dram := (streamLine line i s).dram } := by
  unfold streamLine
  split
  · split <;> rfl
  · rfl

theorem streamDiscard_frame (c : Cause) (i : StreamIx) (s : State) : streamDiscard c i s = { s with
    streams := (streamDiscard c i s).streams, rings := (streamDiscard c i s).rings
    claims := (streamDiscard c i s).claims, link := (streamDiscard c i s).link } := by
  unfold streamDiscard
  split
  · rfl
  · rw [settle_frame]
    rfl

/-- A state in which no line is being collected on the port, and RESET_N is released. -/
def LineEnded (port : CaptureIx) (s : State) : Prop := s.resetAsserted = false ∧ (s.capturePort port).line = none

theorem LineEnded.congr {port : CaptureIx} {s t : State} (h : LineEnded port s) (hr : t.resetAsserted = s.resetAsserted)
    (hc : t.capturePorts = s.capturePorts) : LineEnded port t :=
  ⟨hr.trans h.1, (congrArg (fun v => (rd v port).line) hc).trans h.2⟩

theorem LineEnded.streamLines {port : CaptureIx} {s : State} (h : LineEnded port s) (line : List Byte) (xs : List StreamIx) :
    LineEnded port (xs.foldl (fun t i => streamLine line i t) s) :=
  h.congr (foldl_keeps State.resetAsserted (fun i t => by rw [streamLine_frame]) xs s)
    (foldl_keeps State.capturePorts (fun i t => by rw [streamLine_frame]) xs s)

theorem LineEnded.streamDiscards {port : CaptureIx} {s : State} (h : LineEnded port s) (c : Cause) (xs : List StreamIx) :
    LineEnded port (xs.foldl (fun t i => streamDiscard c i t) s) :=
  h.congr (foldl_keeps State.resetAsserted (fun i t => by rw [streamDiscard_frame]) xs s)
    (foldl_keeps State.capturePorts (fun i t => by rw [streamDiscard_frame]) xs s)

/-! ### The end of a line at a marker (R46, R54, R59) -/

/-- R46: every marker command is its own act after the port's line has been judged. -/
theorem exec_marker {port at_ : CaptureIx} {more : List Byte} {cmd : Instr}
    (h : cmd ∈ [Instr.captureFrameStart port at_, .lineStart port at_ more, .frameEnd port at_]) :
    ∃ act, ∀ s, exec cmd s = marker port act s := by
  simp only [List.mem_cons, List.not_mem_nil, or_false] at h
  rcases h with rfl | rfl | rfl <;> exact ⟨_, fun _ => rfl⟩

theorem marker_ended {port : CaptureIx} (act : State → State) {s : State} (h : LineEnded port s) :
    marker port act s = .next (act s) := by
  obtain ⟨hr, hl⟩ := h
  simp [marker, closeLineInRange, closeLine, hr, hl]

/-- R46: a marker acts on the state in which the line has been judged. -/
theorem exec_closed {port at_ : CaptureIx} {more : List Byte} {cmd : Instr} {s v : State}
    (hcmd : cmd ∈ [Instr.captureFrameStart port at_, .lineStart port at_ more, .frameEnd port at_])
    (hr : s.resetAsserted = false) (hin : closeLineInRange port s = true) (hv : closeLine port s = v)
    (hend : LineEnded port v) : exec cmd s = exec cmd v := by
  obtain ⟨act, hact⟩ := exec_marker hcmd
  rw [hact, hact, marker_ended act hend, marker, hr, hin, hv]
  rfl

/-- R59: a frame error is reported where the flag was clear; the flag is then set. -/
theorem frameError_eq (c : Cause) (n : SourceIx) (s : State) : frameError c n s =
    if (s.source n).errorFlag then s.modSource n (fun r => { r with errorFlag := true })
    else raise (.frameError n c) (s.modSource n (fun r => { r with errorFlag := true })) := by
  unfold frameError
  split
  · rename_i h
    have hs : { s.source n with errorFlag := true } = s.source n := by rw [← h]
    rw [State.modSource, hs, State.source, wr_rd]
  · rfl

/-- R51 to R56: a discard of the frame in progress: every bound stream's fill, then the source's record. -/
theorem discardFrame_eq (c : Cause) (next : FramePhase) (n : SourceIx) (s : State) : discardFrame c next n s =
    { (boundStreams s n).foldl (fun t i => streamDiscard c i t) s with
      sources := wr s.sources n { s.source n with phase := next, counters := countCause c (s.source n).counters } } := by
  simp only [discardFrame, handOver, State.modSourceCounters, State.modSource, State.source, streamDiscards_sources, rd_wr_same,
    wr_wr]

/-- The port's line has ended and nothing else has happened. -/
def endLine (port : CaptureIx) (s : State) : State := s.modCapturePort port (fun c => { c with line := none })

theorem LineEnded.endLine (port : CaptureIx) {s : State} (h : s.resetAsserted = false) : LineEnded port (endLine port s) :=
  ⟨h, congrArg CapturePort.line (modCapturePort_capturePort_same s port _)⟩

/-- R54, R59: a line of a wrong length: the frame is discarded as BAD_LINE, counted, and reported where the flag was clear. -/
theorem badLine_eq (n : SourceIx) (s : State) : frameError .badLine n (discardFrame .badLine .skipping n s) =
    let u : State := { (boundStreams s n).foldl (fun v i => streamDiscard .badLine i v) s with
      sources := wr s.sources n { s.source n with
        phase := .skipping, errorFlag := true
        counters := { (s.source n).counters with badLine := satInc (s.source n).counters.badLine } } }
    if (s.source n).errorFlag then u else raise (.frameError n .badLine) u := by
  rw [frameError_eq, discardFrame_eq]
  simp only [State.modSource, State.source, rd_wr_same, wr_wr, countCause]
  rfl

section

variable {s : State} {port index at_ : CaptureIx} {line more : List Byte} {cmd : Instr}
  (hr : s.resetAsserted = false) (h : (s.capturePort port).line = some (index, line))
  (hcmd : cmd ∈ [Instr.captureFrameStart port at_, .lineStart port at_ more, .frameEnd port at_])

include h

theorem closeLineInRange_inFrame {g : SourceSetup} {c : Nat} (hg : (s.source (sourceOf port index)).setup = some g)
    (hp : (s.source (sourceOf port index)).phase = .inFrame c) : closeLineInRange port s =
      (decide (line.length ≠ 2 * g.width) || lineInRange line (sourceOf port index) s) := by
  unfold closeLineInRange
  rw [h]
  dsimp only
  rw [hg, hp]

theorem closeLine_inFrame {g : SourceSetup} {c : Nat} (hg : (s.source (sourceOf port index)).setup = some g)
    (hp : (s.source (sourceOf port index)).phase = .inFrame c) : closeLine port s =
      if line.length = 2 * g.width then
        (boundStreams s (sourceOf port index)).foldl (fun v i => streamLine line i v) (endLine port s)
      else frameError .badLine (sourceOf port index)
        (discardFrame .badLine .skipping (sourceOf port index) (endLine port s)) := by
  unfold closeLine
  rw [h]
  dsimp only
  rw [hg, hp]
  rfl

/-- R54: outside its source's frame a line is dropped. -/
theorem closeLine_outside (hd : (s.source (sourceOf port index)).setup = none ∨
      (s.source (sourceOf port index)).phase ∈ [FramePhase.out, .skipping]) :
    closeLine port s = endLine port s ∧ closeLineInRange port s = true := by
  have hno : ∀ c g, (s.source (sourceOf port index)).phase = .inFrame c →
      (s.source (sourceOf port index)).setup = some g → False := by
    intro c g hp hg
    rcases hd with hd | hd
    · exact nomatch hd.symm.trans hg
    · simp [hp] at hd
  unfold closeLine closeLineInRange
  rw [h]
  constructor
  · dsimp only
    split
    · exact (hno _ _ ‹_› ‹_›).elim
    · rfl
  · dsimp only
    split
    · exact (hno _ _ ‹_› ‹_›).elim
    · rfl

include hr hcmd

theorem exec_goodLine {g : SourceSetup} {c : Nat} (hg : (s.source (sourceOf port index)).setup = some g)
    (hp : (s.source (sourceOf port index)).phase = .inFrame c) (hl : line.length = 2 * g.width)
    (hin : lineInRange line (sourceOf port index) s = true) : exec cmd s =
      exec cmd ((boundStreams s (sourceOf port index)).foldl (fun v i => streamLine line i v) (endLine port s)) := by
  refine exec_closed hcmd hr ?_ ((closeLine_inFrame h hg hp).trans (if_pos hl)) ((LineEnded.endLine port hr).streamLines line _)
  rw [closeLineInRange_inFrame h hg hp, hin, Bool.or_true]

/-- Log 12: a good line that would be stored beyond the detected capacity. -/
theorem exec_goodLine_outOfRange {g : SourceSetup} {c : Nat} (hg : (s.source (sourceOf port index)).setup = some g)
    (hp : (s.source (sourceOf port index)).phase = .inFrame c) (hl : line.length = 2 * g.width)
    (hin : lineInRange line (sourceOf port index) s = false) : exec cmd s = .fault .dramRange := by
  obtain ⟨act, hact⟩ := exec_marker hcmd
  have hout : closeLineInRange port s = false := by
    rw [closeLineInRange_inFrame h hg hp, hin, Bool.or_false]
    exact decide_eq_false (not_not.mpr hl)
  rw [hact, marker, hr, hout]
  rfl

theorem exec_badLine {g : SourceSetup} {c : Nat} (hg : (s.source (sourceOf port index)).setup = some g)
    (hp : (s.source (sourceOf port index)).phase = .inFrame c) (hl : line.length ≠ 2 * g.width) : exec cmd s =
      exec cmd (frameError .badLine (sourceOf port index)
        (discardFrame .badLine .skipping (sourceOf port index) (endLine port s))) := by
  refine exec_closed hcmd hr ?_ ((closeLine_inFrame h hg hp).trans (if_neg hl)) ?_
  · rw [closeLineInRange_inFrame h hg hp, decide_eq_true hl, Bool.true_or]
  · have hu := (LineEnded.endLine port hr).streamDiscards .badLine (boundStreams (endLine port s) (sourceOf port index))
    rw [badLine_eq]
    dsimp only
    split
    · exact hu.congr rfl rfl
    · exact hu.congr (by rw [raise_eq]) (by rw [raise_eq])

theorem exec_droppedLine (hd : (s.source (sourceOf port index)).setup = none ∨
      (s.source (sourceOf port index)).phase ∈ [FramePhase.out, .skipping]) : exec cmd s = exec cmd (endLine port s) := by
  obtain ⟨hclose, hin⟩ := closeLine_outside h hd
  exact exec_closed hcmd hr hin hclose (.endLine port hr)

end

/-! ### One line reaching a stream (R24) -/

section

variable {s : State} {i : StreamIx} {line : List Byte}

theorem streamLine_none (h : fillingAt s i = none) : streamLine line i s = s := by
  simp [streamLine, h]

variable {b : Binding} {r : Ring} {p : Nat} {x : Slot} {f : SlotFormat} (hb : (s.stream i).binding = some b)
  (hr : s.ring i = some r) (hp : r.filling = some p) (hx : r.slots[p]? = some x) (hf : s.store.format = some f)

include hb hr hp hx hf

/-- R24, R124: the line a group makes, and its place in the slot. -/
theorem lineStore_filling : lineStore line i s =
    if ((s.stream i).writer.group ++ [line]).length = b.scale.k then
      some (lineAddress f x.pool (s.stream i).writer.stored,
        storedLine b.scale b.storedWidth ((s.stream i).writer.group ++ [line]))
    else none := by
  simp [lineStore, hb, hr, hf, hp, hx]

theorem streamLine_accumulates (hk : ((s.stream i).writer.group ++ [line]).length < b.scale.k) :
    streamLine line i s =
      s.modStream i (fun v => { v with writer := { v.writer with group := v.writer.group ++ [line] } }) := by
  have hfill : fillingAt s i = some p := by simp [fillingAt, hr, hp]
  rw [streamLine, hfill, lineStore_filling hb hr hp hx hf, if_neg (Nat.ne_of_lt hk)]
  rfl

theorem streamLine_stores (hk : ((s.stream i).writer.group ++ [line]).length = b.scale.k) :
    streamLine line i s =
      { (s.modStream i (fun v => { v with writer := ⟨[], v.writer.stored + 1⟩ })) with
        dram := s.dram.writeBytes (lineAddress f x.pool (s.stream i).writer.stored)
          (storedLine b.scale b.storedWidth ((s.stream i).writer.group ++ [line])) } := by
  have hfill : fillingAt s i = some p := by simp [fillingAt, hr, hp]
  rw [streamLine, hfill, lineStore_filling hb hr hp hx hf, if_pos hk]
  rfl

end

/-- R24: at FULL the one line of a group is stored itself. -/
theorem storedLine_group {sc : Scale} {group : List (List Byte)} {line : List Byte} (w : Nat)
    (hk : (group ++ [line]).length = sc.k) :
    storedLine sc w (group ++ [line]) = if sc = .full then line else storedLine sc w (group ++ [line]) := by
  cases sc
  · obtain rfl : group = [] := by simpa [Scale.k] using hk
    rfl
  · rfl
  · rfl


/-! ### The bytes of a stored line at HALF and THIRD (R24) -/

/-- The stored bytes of one pair of pixels: Cb, Y, Cr, Y. -/
def storedPair (k : Nat) (group : List (List Byte)) (q : Nat) : List Byte :=
  [groupMean cbAt group (span (k * q) k), storedLuma k group (2 * q),
   groupMean crAt group (span (k * q) k), storedLuma k group (2 * q + 1)]

/-- The stored bytes of a last pixel without a partner: Cb, Y. -/
def storedLone (k : Nat) (group : List (List Byte)) (x : Nat) : List Byte :=
  [groupMean cbAt group (lonePairs k x), storedLuma k group x]

theorem storedLine_scaled {sc : Scale} (w : Nat) (group : List (List Byte)) (h : sc ≠ .full) :
    storedLine sc w group = (List.range (w / 2)).flatMap (storedPair sc.k group) ++
      (if w % 2 = 1 then storedLone sc.k group (w - 1) else []) := by
  cases sc
  · exact absurd rfl h
  · rfl
  · rfl

/-- Blocks of four, one after the other. -/
theorem flatMap_four_length {α : Type} {f : Nat → List α} (hf : ∀ q, (f q).length = 4) (n : Nat) :
    ((List.range n).flatMap f).length = 4 * n := by
  induction n with
  | zero => rfl
  | succ n ih => simp [List.range_succ, ih, hf]; omega

theorem flatMap_four_getElem? {α : Type} {f : Nat → List α} (hf : ∀ q, (f q).length = 4) {n q j : Nat} (hq : q < n)
    (hj : j < 4) : ((List.range n).flatMap f)[4 * q + j]? = (f q)[j]? := by
  induction n with
  | zero => omega
  | succ n ih =>
    have hlen := flatMap_four_length hf n
    rw [List.range_succ, List.flatMap_append, List.flatMap_singleton]
    rcases Nat.lt_succ_iff_lt_or_eq.mp hq with h | rfl
    · rw [List.getElem?_append_left (by omega), ih h]
    · rw [List.getElem?_append_right (by omega), hlen, Nat.add_sub_cancel_left]

section

variable {sc : Scale} {w : Nat} (group : List (List Byte)) (h : sc ≠ .full)

include h

theorem storedLine_length : (storedLine sc w group).length = 2 * w := by
  rw [storedLine_scaled w group h, List.length_append, flatMap_four_length (f := storedPair sc.k group) (fun _ => rfl)]
  split
  · show _ + 2 = _
    omega
  · show _ + 0 = _
    omega

/-- The bytes of a pair of stored pixels. -/
theorem storedLine_pair {q j : Nat} (hq : 2 * q + 1 < w) (hj : j < 4) :
    (storedLine sc w group)[4 * q + j]? = (storedPair sc.k group q)[j]? := by
  have hlen := flatMap_four_length (f := storedPair sc.k group) (fun _ => rfl) (w / 2)
  rw [storedLine_scaled w group h, List.getElem?_append_left (by omega),
    flatMap_four_getElem? (fun _ => rfl) (by omega) hj]

/-- The bytes of a last stored pixel without a partner. -/
theorem storedLine_lone (hw : w % 2 = 1) (j : Nat) :
    (storedLine sc w group)[2 * (w - 1) + j]? = (storedLone sc.k group (w - 1))[j]? := by
  have hlen := flatMap_four_length (f := storedPair sc.k group) (fun _ => rfl) (w / 2)
  rw [storedLine_scaled w group h, if_pos hw, List.getElem?_append_right (by omega), hlen]
  congr 1
  omega

theorem storedLine_luma {x : Nat} (hx : x < w) : (storedLine sc w group)[2 * x + 1]? = some (storedLuma sc.k group x) := by
  by_cases hlone : x + 1 = w ∧ w % 2 = 1
  · obtain ⟨hlast, hw⟩ := hlone
    obtain rfl : x = w - 1 := by omega
    exact storedLine_lone group h hw 1
  · rcases Nat.even_or_odd' x with ⟨q, rfl | rfl⟩
    · rw [show 2 * (2 * q) + 1 = 4 * q + 1 by omega]
      exact storedLine_pair group h (by omega) (by decide)
    · rw [show 2 * (2 * q + 1) + 1 = 4 * q + 3 by omega]
      exact storedLine_pair group h (by omega) (by decide)

end

/-- The numbers below n that lie from a up to b. -/
theorem filter_range_eq_span {n a b : Nat} (hab : a ≤ b) (hb : b ≤ n) :
    (List.range n).filter (fun c => decide (a ≤ c ∧ c < b)) = span a (b - a) := by
  obtain ⟨d, rfl⟩ := Nat.exists_eq_add_of_le hab
  obtain ⟨e, rfl⟩ := Nat.exists_eq_add_of_le hb
  have hlow : (List.range a).filter (fun c => decide (a ≤ c ∧ c < a + d)) = [] :=
    List.filter_eq_nil_iff.mpr fun c hc => by have := List.mem_range.mp hc; simp; omega
  have hmid : ((List.range d).map (a + ·)).filter (fun c => decide (a ≤ c ∧ c < a + d)) = (List.range d).map (a + ·) :=
    List.filter_eq_self.mpr fun c hc => by
      obtain ⟨x, hx, rfl⟩ := List.mem_map.mp hc
      have := List.mem_range.mp hx
      simp; omega
  have hhigh : ((List.range e).map (a + d + ·)).filter (fun c => decide (a ≤ c ∧ c < a + d)) = [] :=
    List.filter_eq_nil_iff.mpr fun c hc => by
      obtain ⟨x, -, rfl⟩ := List.mem_map.mp hc
      simp
  rw [List.range_add, List.range_add, List.filter_append, List.filter_append, hlow, hmid, hhigh, List.nil_append,
    List.append_nil, Nat.add_sub_cancel_left, span]

/-- R24: the source pairs of a last pixel without a partner are those its block overlaps. -/
theorem lonePairs_eq {k w : Nat} (hk : 0 < k) (hw : 0 < w) : lonePairs k (w - 1) =
    (List.range (k * w)).filter (fun c => decide (k * (w - 1) < 2 * c + 2 ∧ 2 * c < k * w)) := by
  obtain ⟨x, rfl⟩ : ∃ x, w = x + 1 := ⟨w - 1, by omega⟩
  have hkx : k * (x + 1) = k * x + k := Nat.mul_succ k x
  rw [Nat.add_sub_cancel, lonePairs, ← filter_range_eq_span (n := k * (x + 1)) (by omega) (by omega)]
  refine List.filter_congr fun c _ => decide_eq_decide.mpr ?_
  omega

/-- R24: the mean rounded to nearest, a half up, of samples of one byte. -/
theorem roundedMean_bounds {xs : List Nat} (hne : xs ≠ []) (hx : ∀ x ∈ xs, x ≤ 255) :
    2 * (roundedMean xs).toNat * xs.length ≤ 2 * xs.sum + xs.length ∧
      2 * xs.sum + xs.length < 2 * ((roundedMean xs).toNat + 1) * xs.length := by
  have hpos : 0 < xs.length := List.length_pos_iff.mpr hne
  have hsum : xs.sum ≤ xs.length * 255 := by simpa using List.sum_le_card_nsmul xs 255 hx
  have hlow := Nat.div_mul_le_self (2 * xs.sum + xs.length) (2 * xs.length)
  have hhigh := Nat.lt_div_mul_add (a := 2 * xs.sum + xs.length) (b := 2 * xs.length) (by omega)
  have hbyte : (2 * xs.sum + xs.length) / (2 * xs.length) < 256 := (Nat.div_lt_iff_lt_mul (by omega)).mpr (by omega)
  have hmean : (roundedMean xs).toNat = (2 * xs.sum + xs.length) / (2 * xs.length) := by
    rw [roundedMean, byte, BitVec.toNat_ofNat, Nat.mod_eq_of_lt hbyte]
  rw [hmean]
  generalize (2 * xs.sum + xs.length) / (2 * xs.length) = m at hlow hhigh
  constructor
  · linarith
  · linarith


/-- Settles O30: the marker rule `exec_closed` with what `closeLine` does; a group's store by `streamLine_stores`; the stored
bytes by place. -/
theorem goodLineIsStoredWhole : Obligations.GoodLineIsStoredWhole := by
  refine ⟨?judging, ?storing, ?notFilling, ?stored, ?rounding⟩
  case judging =>
    intro s port index at_ line more cmd hr h hcmd
    exact ⟨fun g c hg hp hl hin => exec_goodLine hr h hcmd hg hp hl hin,
      fun g c hg hp hl hin => exec_goodLine_outOfRange hr h hcmd hg hp hl hin,
      fun g c hg hp hl => (exec_badLine hr h hcmd hg hp hl).trans (congrArg (exec cmd) (badLine_eq _ (endLine port s))),
      fun hd => exec_droppedLine hr h hcmd hd⟩
  case storing =>
    intro s i line b r p x f hb hring hp hx hf hm
    refine ⟨fun hk => streamLine_accumulates hb hring hp hx hf hk, fun hk => ?_⟩
    have hstore := (lineStore_filling (line := line) hb hring hp hx hf).trans (if_pos hk)
    have hline := streamLine_stores hb hring hp hx hf hk
    refine ⟨?_, ?_, ?_⟩
    · exact hstore.trans (congrArg (fun bytes => some (_, bytes)) (storedLine_group _ hk))
    · intro a bytes hab
      obtain ⟨rfl, rfl⟩ := Prod.mk.inj (Option.some.inj (hstore.symm.trans hab))
      rw [hline]
      exact ⟨fun j hj => Memory.read_writeBytes_inside _ _ j hm hj,
        fun c hc => Memory.read_writeBytes_outside _ _ c hm hc⟩
    · rw [hline]
      rfl
  case notFilling => exact fun _ _ _ h => streamLine_none h
  case stored =>
    intro sc w group h
    have hk : 0 < sc.k := by cases sc <;> decide
    refine ⟨storedLine_length group h, fun x hx => storedLine_luma group h hx, fun q hq => ⟨?_, ?_⟩, fun hw => ?_⟩
    · exact storedLine_pair group h hq (j := 0) (by decide)
    · exact storedLine_pair group h hq (j := 2) (by decide)
    · rw [← lonePairs_eq hk (by omega)]
      exact storedLine_lone group h hw 0
  case rounding => exact fun _ hne hx => roundedMean_bounds hne hx

end Sys2Proof.Machine
end

section
/-! The sources and the capture ports: SOURCE_SETUP, and the frame start, line start and frame end markers on a port with no
line being collected. -/

namespace Sys2Proof.Machine

open Sys2Proof

/-! ### SOURCE_SETUP (R49) -/

theorem setupSource_eq (n : SourceIx) (g : SourceSetup) (s : State) : setupSource n g s = { s with
    sources := wr s.sources n { s.source n with
      state := .silent, setup := some g, lastStart := none, lossTimer := none
      phase := if (s.source n).phase = .out then .out else .skipping } } := by
  unfold setupSource State.modSource
  cases hp : (s.source n).phase <;> simp only [hp, if_true, if_false, reduceCtorEq]

/-- R49, R172: a value in range, or the code 0 of a default in range, reads as a value in range. -/
theorem orDefault_inRange {v d lo hi : Nat} (hd : lo ≤ d ∧ d ≤ hi) (h : v = 0 ∨ (lo ≤ v ∧ v ≤ hi)) :
    lo ≤ orDefault v d ∧ orDefault v d ≤ hi := by
  unfold orDefault
  split
  · exact hd
  · exact h.resolve_left ‹_›

/-- R49: SOURCE_SETUP with its fields in range. -/
theorem sourceSetup_eq (tag : Tag) {bn w0 w1 h0 h1 p0 p1 bf : Byte} {n : SourceIx} (s : State)
    (hr : fieldsInRange .sourceSetup [bn, w0, w1, h0, h1, p0, p1, bf] = true) (hn : bn.toNat = n.val) :
    sourceSetup tag [bn, w0, w1, h0, h1, p0, p1, bf] s =
      if boundStreams s n = [] then okReply .sourceSetup tag [] (setupSource n
        ⟨le16 w0 w1, le16 h0 h1, orDefault (le16 p0 p1) 40, orDefault bf.toNat 4⟩ s)
      else refuse .inUse := by
  obtain ⟨-, hw, hw', hh, hh', hp, hf⟩ := of_decide_eq_true hr
  obtain ⟨hp, hp'⟩ := orDefault_inRange (d := 40) (by decide) hp
  obtain ⟨hf, hf'⟩ := orDefault_inRange (d := 4) (by decide) hf
  simp only [sourceSetup, index?_val n hn]
  rw [if_neg (not_not.mpr ⟨hw, hw', hh, hh', hp, hp', hf, hf'⟩)]
  simp only [List.isEmpty_iff, ite_not]

/-- Settles O27: the setup is judged in the state with the request taken, which has the same records. -/
theorem sourceSetupMakesSilent : Obligations.SourceSetupMakesSilent := by
  intro s tag body n hw hl hr hn
  match body, hl with
  | [bn, w0, w1, h0, h1, p0, p1, bf], _ =>
    refine (request_waiting sourceSetup hw).trans (congrArg _ ?_)
    rw [sourceSetup_eq tag (taken s) hr hn]
    by_cases hb : boundStreams s n = []
    · rw [if_pos hb, if_pos (show boundStreams (taken s) n = [] from hb), setupSource_eq]
      rfl
    · rw [if_neg hb, if_neg (show boundStreams (taken s) n ≠ [] from hb), answer_refuse]

/-! ### A marker where no line is being collected (R46) -/

section

variable {port : CaptureIx} {s : State} (h : LineEnded port s) (index : CaptureIx)

include h

theorem exec_captureFrameStart_ended :
    exec (.captureFrameStart port index) s = .next (captureFrameStart port index s) := marker_ended _ h

theorem exec_lineStart_ended (data : List Byte) :
    exec (.lineStart port index data) s = .next (lineStart port index data s) := marker_ended _ h

theorem exec_frameEnd_ended : exec (.frameEnd port index) s = .next (frameEnd port index s) := marker_ended _ h

end

/-- R47: the count of unclaimed markers is the one thing that changes. -/
theorem unclaimed_eq (port index : CaptureIx) (s : State) : unclaimed port index s = s.oneUnclaimed port index := rfl

/-! ### A frame discarded and reported (R51, R53 to R55, R59) -/

/-- R59: a discard of the frame in progress, reported where the error-notice flag was clear. -/
theorem discardFrame_reported (c : Cause) (next : FramePhase) (n : SourceIx) (s : State) :
    frameError c n (discardFrame c next n s) =
      let u : State := { (boundStreams s n).foldl (fun t i => streamDiscard c i t) s with
        sources := wr s.sources n { s.source n with
          phase := next, errorFlag := true, counters := countCause c (s.source n).counters } }
      if (s.source n).errorFlag then u else raise (.frameError n c) u := by
  rw [frameError_eq, discardFrame_eq]
  simp only [State.modSource, State.source, rd_wr_same, wr_wr]
  rfl

theorem discardFrame_source (c : Cause) (next : FramePhase) (n : SourceIx) (s : State) :
    (discardFrame c next n s).source n =
      { s.source n with phase := next, counters := countCause c (s.source n).counters } := by
  rw [discardFrame_eq]
  exact rd_wr_same _ _ _

theorem LineEnded.discardFrame {port : CaptureIx} {s : State} (h : LineEnded port s) (c : Cause) (next : FramePhase)
    (n : SourceIx) : LineEnded port (discardFrame c next n s) := by
  rw [discardFrame_eq]
  exact (h.streamDiscards c _).congr rfl rfl

theorem frameError_source (c : Cause) (n : SourceIx) (s : State) :
    (frameError c n s).source n = { s.source n with errorFlag := true } := by
  rw [frameError_eq]
  split
  · exact modSource_source_same s n _
  · rw [raise_source, modSource_source_same]

theorem LineEnded.frameError {port : CaptureIx} {s : State} (h : LineEnded port s) (c : Cause) (n : SourceIx) :
    LineEnded port (frameError c n s) := by
  rw [frameError_eq]
  split
  · exact h.congr rfl rfl
  · exact h.congr (raise_resetAsserted _ _) (by rw [raise_eq]; rfl)

/-! ### The end of an old frame at a frame start (R50, R51) -/

theorem endOldFrame_out {n : SourceIx} {s : State} (hp : (s.source n).phase = .out) : endOldFrame n s = s := by
  simp only [endOldFrame, hp]

theorem endOldFrame_skipping {n : SourceIx} {s : State} (hp : (s.source n).phase = .skipping) :
    endOldFrame n s = s.modSource n (fun r => { r with phase := .out }) := by
  simp only [endOldFrame, hp]

theorem endOldFrame_inFrame {n : SourceIx} {s : State} {c : Nat} (hp : (s.source n).phase = .inFrame c) :
    endOldFrame n s = frameError .broken n (discardFrame .broken .out n s) := by
  simp only [endOldFrame, hp]

/-- R50, R51: the old frame's end leaves the source's state, and the source out of frame. -/
theorem endOldFrame_source (n : SourceIx) (s : State) :
    ((endOldFrame n s).source n).state = (s.source n).state ∧ ((endOldFrame n s).source n).phase = .out := by
  cases hp : (s.source n).phase with
  | out => rw [endOldFrame_out hp]; exact ⟨rfl, hp⟩
  | skipping => rw [endOldFrame_skipping hp, modSource_source_same]; exact ⟨rfl, rfl⟩
  | inFrame c => rw [endOldFrame_inFrame hp, frameError_source, discardFrame_source]; exact ⟨rfl, rfl⟩

theorem LineEnded.endOldFrame {port : CaptureIx} {s : State} (h : LineEnded port s) (n : SourceIx) :
    LineEnded port (endOldFrame n s) := by
  cases hp : (s.source n).phase with
  | out => rw [endOldFrame_out hp]; exact h
  | skipping => rw [endOldFrame_skipping hp]; exact h.congr rfl rfl
  | inFrame c => rw [endOldFrame_inFrame hp]; exact (h.discardFrame _ _ n).frameError _ n

/-! ### A frame start (R50, R52) -/

theorem captureFrameStart_unset {port index : CaptureIx} {s : State} (h : (s.source (sourceOf port index)).state = .unset) :
    captureFrameStart port index s = s.oneUnclaimed port index := (if_pos h).trans (unclaimed_eq port index s)

theorem captureFrameStart_set {port index : CaptureIx} {s : State} (h : (s.source (sourceOf port index)).state ≠ .unset) :
    captureFrameStart port index s = judgeStart (sourceOf port index) (endOldFrame (sourceOf port index) s) := if_neg h

/-- R50, R51: the start is judged as it is once the old frame, or the skip, has ended. -/
theorem exec_captureFrameStart_endOldFrame {port index : CaptureIx} {s : State} (h : LineEnded port s)
    (hu : (s.source (sourceOf port index)).state ≠ .unset) : exec (.captureFrameStart port index) s =
      exec (.captureFrameStart port index) (endOldFrame (sourceOf port index) s) := by
  obtain ⟨hstate, hout⟩ := endOldFrame_source (sourceOf port index) s
  rw [exec_captureFrameStart_ended h, exec_captureFrameStart_ended (h.endOldFrame _), captureFrameStart_set hu,
    captureFrameStart_set (hstate ▸ hu), endOldFrame_out hout]

/-- What `raise` does and what is done to a source's record do not meet. -/
theorem raise_modSource (b : NoticeBody) (s : State) (n : SourceIx) (f : Source → Source) :
    raise b (s.modSource n f) = (raise b s).modSource n f := by
  rw [raise_congr b (s := s) (t := s.modSource n f) rfl rfl]
  conv_rhs => rw [raise_eq b s]
  rfl

theorem modSource_modSource (s : State) (n : SourceIx) (f f' : Source → Source) :
    (s.modSource n f).modSource n f' = s.modSource n (fun r => f' (f r)) := by
  simp only [State.modSource, State.source, rd_wr_same, wr_wr]

/-- R50: the record of a source whose start is accepted now. -/
def Source.started (now : Time) (g : SourceSetup) (r : Source) : Source :=
  { r with
    state := .present, lastStart := some now, phase := .inFrame 0
    lossTimer := some (now + BitVec.ofNat 32 (g.period * g.factor))
    counters := { r.counters with accepted := satInc r.counters.accepted } }

theorem lossExpiry_eq {r : Source} {g : SourceSetup} (now : Time) (hg : r.setup = some g) :
    lossExpiry now r = some (now + BitVec.ofNat 32 (g.period * g.factor)) := by
  rw [lossExpiry, hg]
  rfl

/-- R50: an accepted start: the record, then the frame start to every bound stream. -/
theorem acceptStart_eq {n : SourceIx} {s : State} {g : SourceSetup} (hg : (s.source n).setup = some g) :
    acceptStart n s = (boundStreams s n).foldl (fun t i => streamFrameStart s.deviceTime i t)
      (s.modSource n (Source.started s.deviceTime g)) := by
  unfold acceptStart handOver Source.started State.modSource
  dsimp only
  rw [lossExpiry_eq _ hg]
  rfl

/-- R50: the first start of a SILENT or LOST source, accepted after its notice. -/
theorem acceptStart_present {n : SourceIx} {s : State} {g : SourceSetup} (hg : (s.source n).setup = some g) :
    acceptStart n (raise (.sourcePresent n) (s.modSource n (fun r => { r with state := .present }))) =
      (boundStreams s n).foldl (fun t i => streamFrameStart s.deviceTime i t)
        (raise (.sourcePresent n) (s.modSource n (Source.started s.deviceTime g))) := by
  have hb : boundStreams (raise (.sourcePresent n) (s.modSource n (fun r => { r with state := .present }))) n =
      boundStreams s n := boundStreams_congr (fun i => by rw [raise_stream, modSource_stream_at]) n
  rw [acceptStart_eq (g := g) (by rw [raise_source, modSource_source_same]; exact hg), hb, raise_deviceTime,
    modSource_deviceTime, ← raise_modSource, modSource_modSource]
  rfl

/-- R52: a start rejected as OVER_RATE. -/
theorem rejectStart_eq {n : SourceIx} {s : State} {g : SourceSetup} (hg : (s.source n).setup = some g) :
    rejectStart n s =
      let u : State := { s with sources := wr s.sources n { s.source n with
        phase := .skipping, errorFlag := true
        lossTimer := some (s.deviceTime + BitVec.ofNat 32 (g.period * g.factor))
        counters := { (s.source n).counters with overRate := satInc (s.source n).counters.overRate } } }
      if (s.source n).errorFlag then u else raise (.frameError n .overRate) u := by
  rw [rejectStart, frameError_eq, modSource_modSource, modSource_source_same]
  simp only [State.modSource, lossExpiry_eq _ hg]
  rfl

/-- R52: a start is early exactly where half a period has not passed since the last accepted one. -/
theorem overRate_iff {now : Time} {r : Source} {g : SourceSetup} (hg : r.setup = some g) :
    overRate now r = true ↔ ∃ t, r.lastStart = some t ∧ 2 * (now - t).toNat < g.period := by
  unfold overRate
  rw [hg]
  cases r.lastStart with
  | none => simp
  | some t =>
    simp only [Option.some.injEq, exists_eq_left']
    exact decide_eq_true_iff

theorem judgeStart_absent {n : SourceIx} {s : State} (h : (s.source n).state ≠ .present) : judgeStart n s =
    acceptStart n (raise (.sourcePresent n) (s.modSource n (fun r => { r with state := .present }))) := if_neg h

theorem judgeStart_present {n : SourceIx} {s : State} (h : (s.source n).state = .present) : judgeStart n s =
    if overRate s.deviceTime (s.source n) then rejectStart n s else acceptStart n s := if_pos h

/-- Settles O28: the old frame's end first, and then the judging of a start that finds the source out of frame. -/
theorem frameStartIsJudged : Obligations.FrameStartIsJudged := by
  intro s port index hr hl
  have h : LineEnded port s := ⟨hr, hl⟩
  refine ⟨fun hu => ?unset, fun hu hp => ?skipping, fun c hu hp => ?inFrame, fun g hg hp => ?outOfFrame⟩
  case unset => rw [exec_captureFrameStart_ended h, captureFrameStart_unset hu]
  case skipping =>
    rw [exec_captureFrameStart_endOldFrame h hu, endOldFrame_skipping hp]
    rfl
  case inFrame =>
    rw [exec_captureFrameStart_endOldFrame h hu, endOldFrame_inFrame hp, discardFrame_reported]
    rfl
  case outOfFrame =>
    have hjudge : (s.source (sourceOf port index)).state ≠ .unset →
        exec (.captureFrameStart port index) s = .next (judgeStart (sourceOf port index) s) := fun hu => by
      rw [exec_captureFrameStart_ended h, captureFrameStart_set hu, endOldFrame_out hp]
    refine ⟨fun hs => ?absent, fun hs hlate => ?accepted, fun t hs ht hearly => ?overRate⟩
    case absent =>
      have hu : (s.source (sourceOf port index)).state ≠ .unset := fun e => by simp [e] at hs
      have hn : (s.source (sourceOf port index)).state ≠ .present := fun e => by simp [e] at hs
      rw [hjudge hu, judgeStart_absent hn, acceptStart_present hg]
      rfl
    case accepted =>
      have hin : ¬ overRate s.deviceTime (s.source (sourceOf port index)) = true := by
        rw [overRate_iff hg]
        exact fun ⟨t, ht, hearly⟩ => absurd (hlate t ht) (Nat.not_le.mpr hearly)
      rw [hjudge (by rw [hs]; decide), judgeStart_present hs, if_neg hin, acceptStart_eq hg]
      rfl
    case overRate =>
      rw [hjudge (by rw [hs]; decide), judgeStart_present hs, if_pos ((overRate_iff hg).mpr ⟨t, ht, hearly⟩),
        rejectStart_eq hg]

/-! ### A line start (R47, R53) -/

section

variable {port index : CaptureIx} {data : List Byte} {s : State}

theorem lineStart_unclaimed
    (h : (s.source (sourceOf port index)).setup = none ∨ (s.source (sourceOf port index)).phase = .out) :
    lineStart port index data s = s.oneUnclaimed port index := by
  unfold lineStart
  dsimp only
  rcases h with hg | hp
  · rw [hg]
    exact unclaimed_eq port index s
  · rw [hp]
    cases (s.source (sourceOf port index)).setup <;> exact unclaimed_eq port index s

theorem lineStart_skipping (hg : (s.source (sourceOf port index)).setup ≠ none)
    (hp : (s.source (sourceOf port index)).phase = .skipping) : lineStart port index data s = s := by
  obtain ⟨g, hg⟩ := Option.ne_none_iff_exists'.mp hg
  simp only [lineStart, hg, hp]

theorem lineStart_inFrame {g : SourceSetup} {c : Nat} (hg : (s.source (sourceOf port index)).setup = some g)
    (hp : (s.source (sourceOf port index)).phase = .inFrame c) : lineStart port index data s =
      if g.height ≤ c then
        frameError .long (sourceOf port index) (discardFrame .long .skipping (sourceOf port index) s)
      else (s.modSource (sourceOf port index) (fun r => { r with phase := .inFrame (c + 1) })).modCapturePort port
        (fun p => { p with line := some (index, data) }) := by
  simp only [lineStart, hg, hp]

end

/-! ### The bytes of a capture port (R46, R175) -/

/-- R175: the command of a marker by its kind. -/
def markerOfKind (port index : CaptureIx) (data : List Byte) : Nat → Option Instr
  | 0 => some (.captureFrameStart port index)
  | 1 => some (.lineStart port index data)
  | 2 => some (.frameEnd port index)
  | _ => none

/-- R175: the code of a marker is 4 × kind + local index. -/
theorem markerCommand_code (port index : CaptureIx) (data : List Byte) {b : Byte} {kind : Nat}
    (hb : b.toNat = 4 * kind + index.val) : markerCommand port b data = markerOfKind port index data kind := by
  have hkind : b.toNat / 4 = kind := by omega
  have hindex : (⟨b.toNat % 4, by omega⟩ : CaptureIx) = index := Fin.ext (by simp only; omega)
  unfold markerCommand
  rw [hkind, hindex]
  rfl

theorem byte_toNat {n : Nat} (h : n < 256) : (byte n).toNat = n := by
  rw [byte, BitVec.toNat_ofNat, Nat.mod_eq_of_lt h]

/-- R46: a pixel byte is no marker. -/
theorem markerCommand_pixel (port : CaptureIx) {b : Byte} (data : List Byte) (h : isPixelByte b = true) :
    markerCommand port b data = none := by
  have hb : 12 ≤ b.toNat := of_decide_eq_true h
  obtain ⟨k, hk⟩ : ∃ k, b.toNat = 4 * (k + 3) + b.toNat % 4 := ⟨b.toNat / 4 - 3, by omega⟩
  exact markerCommand_code port ⟨b.toNat % 4, by omega⟩ data hk

theorem captureCommands_marker {port : CaptureIx} {b : Byte} {bs : List Byte} {c : Instr}
    (h : markerCommand port b (captureCommands port bs).1 = some c) :
    captureCommands port (b :: bs) = ([], c :: (captureCommands port bs).2) := by
  simp only [captureCommands, h]

theorem captureCommands_data {port : CaptureIx} {b : Byte} {bs : List Byte}
    (h : markerCommand port b (captureCommands port bs).1 = none) :
    captureCommands port (b :: bs) = (b :: (captureCommands port bs).1, (captureCommands port bs).2) := by
  simp only [captureCommands, h]

/-- Settles O29: a line start in each phase of its source's frame, and the bytes of a port code by code. -/
theorem lineStartBeginsALine : Obligations.LineStartBeginsALine := by
  refine ⟨fun s port index data hr hl => ?marker, fun port index data => ?codes, fun port b bs => ?bytes⟩
  case marker =>
    have h : LineEnded port s := ⟨hr, hl⟩
    refine ⟨fun hd => ?_, fun hg hp => ?_, fun g c hg hp hc => ?_, fun g c hg hp hc => ?_⟩
    · rw [exec_lineStart_ended h, lineStart_unclaimed hd]
    · rw [exec_lineStart_ended h, lineStart_skipping hg hp]
    · rw [exec_lineStart_ended h, lineStart_inFrame hg hp, if_neg (Nat.not_le.mpr hc)]
      rfl
    · rw [exec_lineStart_ended h, lineStart_inFrame hg hp, if_pos hc, discardFrame_reported]
      rfl
  case codes =>
    have hi : index.val < 4 := index.isLt
    exact ⟨markerCommand_code (kind := 0) port index data ((byte_toNat (by omega)).trans (by omega)),
      markerCommand_code (kind := 1) port index data ((byte_toNat (by omega)).trans (by omega)),
      markerCommand_code (kind := 2) port index data ((byte_toNat (by omega)).trans (by omega)),
      fun b hb => markerCommand_pixel port data hb⟩
  case bytes =>
    exact ⟨fun hb => captureCommands_data (markerCommand_pixel port _ hb), fun c hc => captureCommands_marker hc⟩

/-! ### A frame end (R47, R55, R58) -/

/-- R58: the streams bound to a source are taken in increasing number. -/
theorem boundStreams_increasing (s : State) (n : SourceIx) : (boundStreams s n).Pairwise (· < ·) :=
  (List.pairwise_lt_finRange 20).filter _

theorem streamComplete_sources (i : StreamIx) (s : State) : (streamComplete i s).sources = s.sources := by
  unfold streamComplete
  split
  · rfl
  · split
    · rfl
    · rw [settle_frame]
      rfl

section

variable {port index : CaptureIx} {s : State}

theorem frameEnd_unclaimed
    (h : (s.source (sourceOf port index)).setup = none ∨ (s.source (sourceOf port index)).phase = .out) :
    frameEnd port index s = s.oneUnclaimed port index := by
  unfold frameEnd
  dsimp only
  rcases h with hg | hp
  · rw [hg]
    exact unclaimed_eq port index s
  · rw [hp]
    cases (s.source (sourceOf port index)).setup <;> exact unclaimed_eq port index s

theorem frameEnd_skipping (hg : (s.source (sourceOf port index)).setup ≠ none)
    (hp : (s.source (sourceOf port index)).phase = .skipping) :
    frameEnd port index s = s.modSource (sourceOf port index) (fun r => { r with phase := .out }) := by
  obtain ⟨g, hg⟩ := Option.ne_none_iff_exists'.mp hg
  simp only [frameEnd, hg, hp]

/-- R55: a frame of its whole height is handed to every bound stream as complete. -/
theorem frameEnd_whole {g : SourceSetup} (hg : (s.source (sourceOf port index)).setup = some g)
    (hp : (s.source (sourceOf port index)).phase = .inFrame g.height) : frameEnd port index s =
      { (boundStreams s (sourceOf port index)).foldl (fun t i => streamComplete i t) s with
        sources := wr s.sources (sourceOf port index) { s.source (sourceOf port index) with phase := .out } } := by
  have hend : frameEnd port index s = (handOver (sourceOf port index) streamComplete s).modSource (sourceOf port index)
      (fun r => { r with phase := .out }) := by simp only [frameEnd, hg, hp, if_true]
  have hkept := foldl_keeps State.sources streamComplete_sources (boundStreams s (sourceOf port index)) s
  rw [hend]
  simp only [handOver, State.modSource, State.source, hkept]

theorem frameEnd_short {g : SourceSetup} {c : Nat} (hg : (s.source (sourceOf port index)).setup = some g)
    (hp : (s.source (sourceOf port index)).phase = .inFrame c) (hc : c ≠ g.height) : frameEnd port index s =
      frameError .short (sourceOf port index) (discardFrame .short .out (sourceOf port index) s) := by
  simp only [frameEnd, hg, hp, if_neg hc]

end

/-- Settles O31: a frame end in each phase of its source's frame. -/
theorem frameEndCompletesOrIsShort : Obligations.FrameEndCompletesOrIsShort := by
  refine ⟨fun _ _ => rfl, fun s n => ⟨boundStreams_increasing s n, fun i => WriterLaw.mem_boundStreams⟩,
    fun s port index hr hl => ?_⟩
  have h : LineEnded port s := ⟨hr, hl⟩
  refine ⟨fun hd => ?_, fun hg hp => ?_, fun g hg hp => ?_, fun g c hg hp hc => ?_⟩
  · rw [exec_frameEnd_ended h, frameEnd_unclaimed hd]
  · rw [exec_frameEnd_ended h, frameEnd_skipping hg hp]
    rfl
  · rw [exec_frameEnd_ended h, frameEnd_whole hg hp]
  · rw [exec_frameEnd_ended h, frameEnd_short hg hp (Nat.ne_of_lt hc), discardFrame_reported]
    rfl

end Sys2Proof.Machine
end

section
/-! The sequence lists: LIST_EDIT by its table, the commit walk over whole groups, and LIST_COMMIT where it is answered at once. -/

namespace Sys2Proof.Machine

open Sys2Proof

@[simp] theorem taken_list (s : State) (l : LaneIx) : (taken s).list l = s.list l := rfl

/-! ### LIST_EDIT (R65, R66, R78) -/

/-- R65, R78: LIST_EDIT with its fields in range. -/
theorem listEdit_eq (tag : Tag) {bl op index count : Byte} {l : LaneIx} {new : List ListEntry} (s : State)
    (hl : bl.toNat = l.val) (hn : new.length ≤ 12) (hd : ∀ e ∈ new, ∀ d ∈ e.dwell, 1 ≤ d ∧ d ≤ 255) :
    listEdit tag ([bl, op, index, count] ++ new.flatMap ListEntry.bytes) s =
      (edited op.toNat index.toNat count.toNat new (s.list l).staged).elim (refuse .badParam) (fun es =>
        if (s.lane l).state = .unset then refuse .badState
        else if (s.list l).commit.isSome then refuse .commitPending
        else okReply .listEdit tag (u8 es.length) (s.modList l (fun u => { u with staged := es }))) := by
  have hb := entries?_bytes hd
  have hlen : (new.flatMap ListEntry.bytes).length % 3 = 0 := by rw [entries?_length hb]; omega
  have hmax : ¬ Config.editEntries < new.length := Nat.not_lt.mpr hn
  simp only [List.cons_append, List.nil_append, listEdit, hlen, index?_val l hl, hb, ne_eq, not_true, hmax, if_false]
  cases edited op.toNat index.toNat count.toNat new (s.list l).staged <;> rfl

section

variable (i c : Nat) (new old : List ListEntry)

theorem edited_clear : edited 0 i c new old = if new ≠ [] then none else some [] := by
  simp [edited]

theorem edited_append :
    edited 1 i c new old = if new = [] ∨ 48 < old.length + new.length then none else some (old ++ new) := by
  simp [edited, Config.listPlaces]

theorem edited_insert : edited 2 i c new old =
    if new = [] ∨ old.length < i ∨ 48 < old.length + new.length then none
    else some (old.take i ++ new ++ old.drop i) := by
  simp [edited, Config.listPlaces]

theorem edited_replace : edited 3 i c new old =
    if new = [] ∨ old.length < i + new.length then none
    else some (old.take i ++ new ++ old.drop (i + new.length)) := by
  simp [edited]

theorem edited_remove : edited 4 i c new old =
    if new ≠ [] ∨ c = 0 ∨ 48 < c ∨ old.length < i + c then none
    else some (old.take i ++ old.drop (i + c)) := by
  simp [edited]

end

/-- What an operation answers where its row of R66 does not refuse it, and that it is refused exactly there. -/
theorem refusal_iff {α : Type} {p : Prop} [Decidable p] {x : α} {o : Option α} (h : o = if p then none else some x) :
    (¬ p → o = some x) ∧ (o = none ↔ p) := by
  subst h
  by_cases hp : p <;> simp [hp]

/-- Settles O33: the request judged in the order of R65, and each row of R66. -/
theorem listEditFollowsItsTable : Obligations.ListEditFollowsItsTable := by
  refine ⟨fun s tag bl op index count l new hw hl hn hd => ?_, fun i c new old => ?_⟩
  · refine (request_waiting listEdit hw).trans (congrArg _ ?_)
    rw [listEdit_eq tag (taken s) hl hn hd, taken_list]
    cases edited op.toNat index.toNat count.toNat new (s.list l).staged with
    | none => rfl
    | some es =>
      rw [Option.elim_some, taken_lane]
      dsimp only
      split
      · rfl
      · have hp : (s.list l).commit.isSome = true ↔ (s.list l).commit ≠ none := Option.isSome_iff_ne_none
        by_cases hc : (s.list l).commit = none
        · rw [if_pos hc, if_neg (mt hp.mp (not_not.mpr hc))]
          rfl
        · rw [if_neg hc, if_pos (hp.mpr hc)]
          rfl
  · obtain ⟨clear, noClear⟩ := refusal_iff (edited_clear i c new old)
    obtain ⟨append, noAppend⟩ := refusal_iff (edited_append i c new old)
    obtain ⟨insert, noInsert⟩ := refusal_iff (edited_insert i c new old)
    obtain ⟨replace, noReplace⟩ := refusal_iff (edited_replace i c new old)
    obtain ⟨remove, noRemove⟩ := refusal_iff (edited_remove i c new old)
    refine ⟨fun h => clear (by simp [h]), fun h hn => append (by simp [h, hn]), fun h hi hn => insert (by simp [h, hi, hn]),
      fun h hn => replace (by simp [h, hn]), fun h h1 h48 hn => remove (by simp [h, h48, hn]; omega),
      noClear, noAppend, noInsert, noReplace, noRemove, fun op hop => edited_none hop i c new old⟩

/-! ### The commit walk (R63, R64, R70) -/

/-- R64: an entry of a group after its first: of the group's scale, and without a dwell. -/
def Follows (s : State) (sc : Scale) (x : ListEntry) : Prop := entryScale s x = some sc ∧ x.dwell = none

/-- R64: the entries of one group of a scale, the first of which carries the dwell. -/
def WholeGroup (s : State) (g : List ListEntry) : Prop :=
  ∃ (sc : Scale) (e : ListEntry) (rest : List ListEntry), g = e :: rest ∧ g.length = sc.groupSize ∧
    entryScale s e = some sc ∧ e.dwell ≠ none ∧ ∀ x ∈ rest, Follows s sc x

/-- Entries that follow are walked past. -/
theorem walkRest_append {s : State} {sc : Scale} {passed : List ListEntry} (h : ∀ y ∈ passed, Follows s sc y)
    (es : List ListEntry) (j : Nat) : walkRest s sc (passed ++ es) j = walkRest s sc es (j + passed.length) := by
  induction passed generalizing j with
  | nil => rfl
  | cons y ys ih =>
    obtain ⟨⟨hs, hd⟩, hys⟩ := List.forall_mem_cons.mp h
    rw [List.cons_append, walkRest, hs]
    simp only [ne_eq, not_true, if_false, hd, Option.isSome_none, Bool.false_eq_true, ih hys, List.length_cons]
    congr 1
    omega

theorem walkRest_none_iff (s : State) (sc : Scale) (es : List ListEntry) (j : Nat) :
    walkRest s sc es j = none ↔ ∀ x ∈ es, Follows s sc x := by
  refine ⟨fun h => ?_, fun h => ?_⟩
  · induction es generalizing j with
    | nil => simp
    | cons e es ih =>
      rw [walkRest] at h
      split at h
      · exact nomatch h
      · rename_i sc' hs
        split at h
        · exact nomatch h
        · rename_i hsc
          split at h
          · exact nomatch h
          · rename_i hd
            exact List.forall_mem_cons.mpr
              ⟨⟨hs.trans (congrArg some (not_not.mp hsc)), Option.not_isSome_iff_eq_none.mp hd⟩, ih _ h⟩
  · simpa [walkRest] using walkRest_append h [] j

/-- A first entry with a scale and a dwell, of a group that is not too short: the others decide. -/
theorem walk_group {s : State} {e : ListEntry} {sc : Scale} (fuel : Nat) {rest : List ListEntry} (i : Nat)
    (he : entryScale s e = some sc) (hd : e.dwell ≠ none) (hn : sc.groupSize ≤ rest.length + 1) :
    walk s (fuel + 1) (e :: rest) i = (walkRest s sc (rest.take (sc.groupSize - 1)) (i + 1)).or
      (walk s fuel ((e :: rest).drop sc.groupSize) (i + sc.groupSize)) := by
  rw [walk, he]
  simp only [Option.isNone_eq_false_iff.mpr (Option.isSome_iff_ne_none.mpr hd), Bool.false_eq_true, if_false, List.length_cons,
    Nat.not_lt.mpr hn]
  cases walkRest s sc (rest.take (sc.groupSize - 1)) (i + 1) <;> rfl

theorem Scale.groupSize_pos (sc : Scale) : 0 < sc.groupSize := by cases sc <;> decide

/-- R70: a whole group is walked past. -/
theorem WholeGroup.walk_past {s : State} {g : List ListEntry} (h : WholeGroup s g) (fuel : Nat) (es : List ListEntry) (i : Nat) :
    walk s (fuel + 1) (g ++ es) i = walk s fuel es (i + g.length) := by
  obtain ⟨sc, e, rest, rfl, hlen, hs, hd, hrest⟩ := h
  have hrl : rest.length = sc.groupSize - 1 := by simp only [List.length_cons] at hlen; omega
  rw [List.cons_append, walk_group fuel i hs hd (by simp only [List.length_cons, List.length_append] at hlen ⊢; omega),
    ← hlen, ← List.cons_append, List.drop_left, List.length_cons, Nat.add_sub_cancel, List.take_left,
    (walkRest_none_iff s sc rest (i + 1)).mpr hrest, Option.none_or]

/-- R70: any number of whole groups is walked past. -/
theorem walk_groups {s : State} (groups : List (List ListEntry)) (h : ∀ g ∈ groups, WholeGroup s g) (fuel : Nat)
    (es : List ListEntry) (i : Nat) :
    walk s (groups.length + fuel) (groups.flatten ++ es) i = walk s fuel es (i + groups.flatten.length) := by
  induction groups generalizing i with
  | nil => simp
  | cons g gs ih =>
    obtain ⟨hg, hgs⟩ := List.forall_mem_cons.mp h
    rw [List.flatten_cons, List.append_assoc, List.length_cons, Nat.add_right_comm, hg.walk_past, ih hgs, List.length_append,
      Nat.add_assoc]

theorem WholeGroup.length_pos {s : State} {g : List ListEntry} (h : WholeGroup s g) : 0 < g.length := by
  obtain ⟨sc, e, rest, rfl, -⟩ := h
  exact Nat.succ_pos _

theorem groups_length_le {s : State} {groups : List (List ListEntry)} (h : ∀ g ∈ groups, WholeGroup s g) :
    groups.length ≤ groups.flatten.length := by
  induction groups with
  | nil => exact Nat.le_refl 0
  | cons g gs ih =>
    obtain ⟨hg, hgs⟩ := List.forall_mem_cons.mp h
    have := hg.length_pos
    have := ih hgs
    simp only [List.flatten_cons, List.length_append, List.length_cons]
    omega

/-- R70: after whole groups the walk goes on at the next one, with steps left. -/
theorem listFailure_groups {s : State} {groups : List (List ListEntry)} (h : ∀ g ∈ groups, WholeGroup s g)
    (es : List ListEntry) :
    ∃ fuel, listFailure s (groups.flatten ++ es) = walk s (fuel + 1) es groups.flatten.length := by
  have hle := groups_length_le h
  refine ⟨groups.flatten.length - groups.length + es.length, ?_⟩
  have hfuel : (groups.flatten ++ es).length + 1 =
      groups.length + (groups.flatten.length - groups.length + es.length + 1) := by
    rw [List.length_append]
    omega
  rw [listFailure, hfuel, walk_groups groups h, Nat.zero_add]

/-- R70: a walk that succeeds has gone over whole groups. -/
theorem groups_of_walk {s : State} (fuel : Nat) : ∀ {es : List ListEntry} {i : Nat}, es.length < fuel →
    walk s fuel es i = none → ∃ groups : List (List ListEntry), es = groups.flatten ∧ ∀ g ∈ groups, WholeGroup s g := by
  induction fuel with
  | zero => exact fun h => absurd h (Nat.not_lt_zero _)
  | succ fuel ih =>
    intro es i hlen hwalk
    cases es with
    | nil => exact ⟨[], rfl, by simp⟩
    | cons e es =>
      rw [walk] at hwalk
      split at hwalk
      · exact nomatch hwalk
      rename_i sc hs
      split at hwalk
      · exact nomatch hwalk
      rename_i hd
      split at hwalk
      · exact nomatch hwalk
      rename_i hsize
      split at hwalk
      · exact nomatch hwalk
      rename_i hrest
      have hpos := sc.groupSize_pos
      obtain ⟨groups, hgroups, hwhole⟩ := ih (by simp only [List.length_drop, List.length_cons] at hlen ⊢; omega) hwalk
      have htake : (e :: es).take sc.groupSize = e :: es.take (sc.groupSize - 1) := by
        conv_lhs => rw [← Nat.sub_add_cancel hpos, List.take_succ_cons]
      refine ⟨(e :: es).take sc.groupSize :: groups, ?_, List.forall_mem_cons.mpr ⟨⟨sc, e, _, htake, ?_, hs, ?_, ?_⟩, hwhole⟩⟩
      · rw [List.flatten_cons, ← hgroups, List.take_append_drop]
      · exact List.length_take_of_le (Nat.not_lt.mp hsize)
      · exact fun h => hd (Option.isNone_iff_eq_none.mpr h)
      · exact (walkRest_none_iff s sc _ (i + 1)).mp hrest

/-- R70: the walk passes exactly the lists of whole groups. -/
theorem listFailure_none_iff (s : State) (es : List ListEntry) : listFailure s es = none ↔
    ∃ groups : List (List ListEntry), es = groups.flatten ∧ ∀ g ∈ groups, WholeGroup s g := by
  refine ⟨groups_of_walk _ (Nat.lt_succ_self _), ?_⟩
  rintro ⟨groups, rfl, h⟩
  obtain ⟨fuel, hf⟩ := listFailure_groups h []
  rw [List.append_nil] at hf
  exact hf

/-- R70: past the first entry of a group that is not too short, the first entry that does not follow is judged. -/
theorem walk_at_later {s : State} {e x : ListEntry} {sc : Scale} (fuel i : Nat) {passed later : List ListEntry}
    (he : entryScale s e = some sc) (hd : e.dwell ≠ none) (hn : sc.groupSize ≤ (passed ++ x :: later).length + 1)
    (hx : passed.length + 2 ≤ sc.groupSize) (hp : ∀ y ∈ passed, Follows s sc y) :
    ∃ more, walk s (fuel + 1) (e :: (passed ++ x :: later)) i =
      (walkRest s sc (x :: more) (i + 1 + passed.length)).or
        (walk s fuel ((e :: (passed ++ x :: later)).drop sc.groupSize) (i + sc.groupSize)) := by
  refine ⟨later.take (sc.groupSize - passed.length - 2), ?_⟩
  have htake : (passed ++ x :: later).take (sc.groupSize - 1) =
      passed ++ x :: later.take (sc.groupSize - passed.length - 2) := by
    rw [show sc.groupSize - 1 = passed.length + (sc.groupSize - passed.length - 2 + 1) by omega, List.take_length_add_append,
      List.take_succ_cons]
  rw [walk_group fuel i he hd hn, htake, walkRest_append hp]

/-- Settles O35: whole groups are walked past, and the group after them fails where its first entry that does not pass stands. -/
theorem passedListIsWholeGroups : Obligations.PassedListIsWholeGroups := by
  refine ⟨fun s sc i d => ⟨rfl, fun h => if_pos h, fun h => if_neg h⟩, fun s => ⟨listFailure_none_iff s,
    fun groups e rest h => ?_⟩, rfl, rfl⟩
  obtain ⟨fuel, hf⟩ := listFailure_groups (s := s) h (e :: rest)
  intro i result
  refine ⟨fun he => ?_, fun sc he => ⟨fun hd => ?_, fun hd hn => ?_, ?_⟩⟩
  · refine hf.trans ?_
    rw [walk, he]
  · refine hf.trans ?_
    rw [walk, he]
    simp only [hd, Option.isNone_none, if_true, i]
  · refine hf.trans ?_
    rw [walk, he]
    simp only [Option.isNone_eq_false_iff.mpr (Option.isSome_iff_ne_none.mpr hd), Bool.false_eq_true, if_false, List.length_cons,
      hn, if_true, i]
  · rintro passed x later hd rfl hn hx hp
    obtain ⟨more, hw⟩ := walk_at_later fuel i he hd hn hx hp
    have hresult := hf.trans hw
    refine ⟨fun hs => hresult.trans ?_, fun sc' hs => ⟨fun hne => hresult.trans ?_, fun heq hdx => hresult.trans ?_⟩⟩
    · rw [walkRest, hs]
      rfl
    · simp only [walkRest, hs, ne_eq, hne, not_false_iff, if_true, Option.some_or]
    · simp only [walkRest, hs, heq, ne_eq, not_true, if_false, Option.isSome_iff_ne_none.mpr hdx, if_true, Option.some_or]

/-! ### LIST_COMMIT answered at once (R69, R75, R78) -/

/-- R69, R78: LIST_COMMIT under a tag no entry holds, of a lane that is not UNSET. -/
theorem listCommit_set {s : State} {tag : Tag} {bl : Byte} {l : LaneIx} (tm : Timing) (ht : tagHeld s.link tag = false)
    (hl : bl.toNat = l.val) (hu : (s.lane l).state ≠ .unset) :
    listCommit tag [bl, tm.code] s =
      if (s.list l).commit.isSome then refuse .commitPending
      else (listFailure s (s.list l).staged).elim
        (if (s.lane l).state = .ready then
          okReply .listCommit tag (u16 ((s.list l).generation + 1).toNat) (adoptList l s)
        else if tableFull s.link then refuse .busy
        else .ok (defer tag (.listCommit l) (s.modList l (fun u => { u with commit := some (tag, tm) }))))
        (fun f => .error ⟨.listInvalid, [byte f.1, f.2.code]⟩) := by
  simp only [listCommit, ht, index?_val l hl, timing?_code, hu, Bool.false_eq_true, if_false]
  cases listFailure s (s.list l).staged <;> rfl

/-- The same of a request that waits, while no commit is pending. -/
theorem exec_listCommit_walked {s : State} {tag : Tag} {bl : Byte} {l : LaneIx} {tm : Timing}
    (hw : WaitingFor s .listCommit tag [bl, tm.code]) (ht : tagHeld s.link tag = false) (hl : bl.toNat = l.val)
    (hu : (s.lane l).state ≠ .unset) (hc : (s.list l).commit = none) :
    exec (.listCommit tag [bl, tm.code]) s = .next (answer .listCommit tag (taken s)
      ((listFailure s (s.list l).staged).elim
        (if (s.lane l).state = .ready then
          okReply .listCommit tag (u16 ((s.list l).generation + 1).toNat) (adoptList l (taken s))
        else if tableFull s.link then refuse .busy
        else .ok (defer tag (.listCommit l) ((taken s).modList l (fun u => { u with commit := some (tag, tm) }))))
        (fun f => .error ⟨.listInvalid, [byte f.1, f.2.code]⟩))) := by
  refine (request_waiting listCommit hw).trans ?_
  have hc' : ((taken s).list l).commit.isSome = false := congrArg Option.isSome hc
  rw [listCommit_set (s := taken s) tm ht hl hu, hc', if_neg Bool.false_ne_true, listFailure_taken]
  rfl

/-- Settles O34: the three outcomes in the order in which LIST_COMMIT judges them. -/
theorem commitOfReadyLaneApplies : Obligations.CommitOfReadyLaneApplies := by
  refine ⟨fun s tag bl l tm hw ht hl hu hc => ?_, fun s tag bl l tm i why hw ht hl hu hc hf => ?_,
    fun s tag bl l tm hw ht hl hr hc => ?_⟩
  · refine (request_waiting listCommit hw).trans ?_
    have hc' : ((taken s).list l).commit.isSome = true := Option.isSome_iff_ne_none.mpr hc
    rw [listCommit_set (s := taken s) tm ht hl hu, if_pos hc']
    rfl
  · rw [exec_listCommit_walked hw ht hl hu hc, hf]
    rfl
  · have hu : (s.lane l).state ≠ .unset := fun h => nomatch hr.symm.trans h
    rw [exec_listCommit_walked hw ht hl hu hc, if_pos hr]
    cases listFailure s (s.list l).staged <;> rfl

end Sys2Proof.Machine
end

section
/-! The boundary of a lane: its position in the list, its steps, the end of a run at it, its relay to a group, and the end of a
group. -/

namespace Sys2Proof.Machine

open Sys2Proof

/-! ### The position in the list (R64, R88) -/

/-- R64: the dwell of the current group is that of its first entry. -/
theorem dwellAt_eq {s : State} {l : LaneIx} {e : ListEntry} {d : Nat}
    (he : ((s.list l).active.drop (s.lane l).groupStart).head? = some e) (hd : e.dwell = some d) : dwellAt s l = d := by
  obtain ⟨es, hes⟩ := List.head?_eq_some_iff.mp he
  simp [dwellAt, groupEntries, hes, hd]

/-- R72: the end of a pass, by the current group. -/
theorem endsPass_iff {s : State} {l : LaneIx} {e : ListEntry} {d : Nat} {sc : Scale}
    (he : ((s.list l).active.drop (s.lane l).groupStart).head? = some e) (hd : e.dwell = some d)
    (hs : entryScale s e = some sc) : endsPass s l = true ↔
      (s.list l).active.length ≤ (s.lane l).groupStart + sc.groupSize ∧ (s.lane l).framesShown + 1 = d := by
  rw [endsPass, groupSizeAt_eq he hs, dwellAt_eq he hd, Bool.and_eq_true, decide_eq_true_iff, decide_eq_true_iff]

theorem advance_still {s : State} {l : LaneIx} (h : (s.list l).active = [] ∨ (s.lane l).drained = true) : advance l s = s :=
  if_pos (h.imp List.isEmpty_iff.mpr id)

/-- R88: the position of a lane that shows a group. -/
theorem advance_group {s : State} {l : LaneIx} {e : ListEntry} {d : Nat} {sc : Scale} {g : LaneSetup}
    (hg : (s.lane l).setup = some g) (he : ((s.list l).active.drop (s.lane l).groupStart).head? = some e)
    (hd : e.dwell = some d) (hs : entryScale s e = some sc) (hn : (s.lane l).drained = false) :
    advance l s =
      if (s.lane l).framesShown + 1 < d then s.modLane l (fun r => { r with framesShown := r.framesShown + 1 })
      else if (s.lane l).groupStart + sc.groupSize < (s.list l).active.length then
        s.modLane l (fun r => { r with groupStart := r.groupStart + sc.groupSize, framesShown := 0 })
      else if g.mode = .once then
        raise (.listDone l (s.list l).generation)
          (s.modLane l (fun r => { r with drained := true, groupStart := (s.list l).active.length, framesShown := 0 }))
      else s.modLane l (fun r => { r with groupStart := 0, framesShown := 0, passCount := r.passCount + 1 }) := by
  have hne : (s.list l).active ≠ [] := fun h => by simp [h] at he
  rw [advance, if_neg (by simp [hne, hn]), dwellAt_eq he hd, groupSizeAt_eq he hs, hg, Option.map_some]
  cases g.mode <;> rfl

/-! ### A pending commit (R71 to R75) -/

theorem commitDue_none {s : State} {l : LaneIx} (first : Bool) (h : (s.list l).commit = none) : commitDue first l s = false := by
  rw [commitDue, h]

theorem commitDue_atFrame {s : State} {l : LaneIx} {t : Tag} (first : Bool) (h : (s.list l).commit = some (t, .atFrame)) :
    commitDue first l s = true := by
  rw [commitDue, h]

theorem commitDue_atCycle {s : State} {l : LaneIx} {t : Tag} (first : Bool) (h : (s.list l).commit = some (t, .atCycle)) :
    commitDue first l s = (first || (s.lane l).drained || (s.list l).active.isEmpty || endsPass s l) := by
  rw [commitDue, h]

/-- R73: the first boundary of a run applies what is pending. -/
theorem commitStep_first (l : LaneIx) (s : State) : commitStep true l s = applyPending l s := by
  cases h : (s.list l).commit with
  | none => rw [commitStep, commitDue_none true h, applyPending_none h]; rfl
  | some c =>
    obtain ⟨t, tm⟩ := c
    refine if_pos ?_
    cases tm with
    | atFrame => exact commitDue_atFrame true h
    | atCycle => rw [commitDue_atCycle true h, Bool.true_or, Bool.true_or, Bool.true_or]

/-- R75: the application of a commit whose entry stands in the table. -/
theorem applyPending_found {s : State} {l : LaneIx} {t : Tag} {tm : Timing} {x : Entry} (h : (s.list l).commit = some (t, tm))
    (hx : s.link.outstanding.find? (fun y => y.tag = t) = some x) :
    applyPending l s = { adoptList l s with link := { s.link with
      outstanding := s.link.outstanding.eraseP (fun y => y.tag = t)
      replies := s.link.replies ++
        [⟨replyKind x.op.kind.code, t, .final, .ok, u16 ((s.list l).generation + 1).toNat⟩] } } := by
  rw [applyPending_some h, complete_found _ _ hx]

/-- R94: a boundary of a lane at which its run ends, and one at which it goes on. -/
theorem laneBoundary_eq (l : LaneIx) (t : Time) (s : State) : laneBoundary l t s =
    if (s.lane l).state = .stopping then finishStop l (releaseTiles l (abortFrame l countCut s))
    else outputStep l t (tileStep l t (commitStep false l (releaseTiles l (abortFrame l countCut s)))) := rfl

/-- Settles O43: the position by the dwell and the end of the list, and the commit by its timing. -/
theorem positionAdvancesByTheDwell : Obligations.PositionAdvancesByTheDwell := by
  refine ⟨fun s l => advance_still, fun s l => ⟨fun h => if_pos h, fun h => ?_, commitStep_first l s, (laneBoundary_eq l · s)⟩,
    fun s l t first => ⟨fun h => ⟨commitDue_none first h, applyPending_none h⟩, commitDue_atFrame first,
      fun h => ⟨fun hd => ?_, fun e d sc he hd hs hf hn => ?_⟩, fun tm x h hx => applyPending_found h hx⟩,
    fun s l g e d sc hg he hd hs hn => ?_⟩
  · rw [commitStep, h, if_neg Bool.false_ne_true, if_neg Bool.false_ne_true]
  · rw [commitDue_atCycle first h]
    rcases hd with hd | hd | hd <;> simp [hd]
  · have hne : (s.list l).active ≠ [] := fun h => by simp [h] at he
    rw [commitDue_atCycle first h, hf, hn, List.isEmpty_eq_false_iff.mpr hne, Bool.false_or, Bool.false_or, Bool.false_or,
      endsPass_iff he hd hs]
  · have hadv := advance_group hg he hd hs hn
    refine ⟨fun h => hadv.trans (if_pos h), fun h hl => hadv.trans ?_, fun h hl hm => hadv.trans ?_, fun h hl hm => hadv.trans ?_⟩
    · rw [if_neg (Nat.not_lt.mpr h), if_pos hl]
      rfl
    · rw [if_neg (Nat.not_lt.mpr h), if_neg (Nat.not_lt.mpr hl), if_neg (by rw [hm]; decide)]
      rfl
    · rw [if_neg (Nat.not_lt.mpr h), if_neg (Nat.not_lt.mpr hl), if_pos hm]
      rfl

/-! ### The expiry of a pacing timer (R93) -/

section

variable {s : State} {l : LaneIx} {e : Time} (ha : s.resetAsserted = false) (ht : (s.lane l).timer = some e)
  (hd : (s.deviceTime - e).toNat < 2147483648)

include ha ht hd

/-- Log 5: a timer that is due acts. -/
theorem exec_pacingTimerExpiry_due : exec (.pacingTimerExpiry l) s = .next (pacingExpiry l s) := by
  have hdue : pacingDue s l = true := by
    rw [pacingDue, ht]
    exact decide_eq_true hd
  show whileReleased s _ = _
  rw [whileReleased, ha, hdue]
  rfl

/-- R93: the timer of a FREE lane or a LEADER brings a boundary. -/
theorem exec_pacingTimerExpiry_boundary (hs : (s.lane l).state ∈ [LaneState.running, .stopping])
    (hr : (s.lock l).role ∈ [LockRole.free, .leader]) :
    exec (.pacingTimerExpiry l) s = .next (boundary l s.deviceTime s) := by
  rw [exec_pacingTimerExpiry_due ha ht hd, pacingExpiry, if_pos (by simpa using hs)]
  have hr' : (s.lock l).role = .free ∨ (s.lock l).role = .leader := by simpa using hr
  rcases hr' with hr' | hr' <;> rw [hr']

/-- R107: the timer of a lane JOINING in FINISHING brings the end of its own frame. -/
theorem exec_pacingTimerExpiry_finishing {ld : LaneIx} {tag : Tag} (hs : (s.lane l).state ∈ [LaneState.running, .stopping])
    (hr : (s.lock l).role = .joining ld .finishing tag) :
    exec (.pacingTimerExpiry l) s = .next (joiningFrameEnd l s) := by
  rw [exec_pacingTimerExpiry_due ha ht hd, pacingExpiry, if_pos (by simpa using hs), hr]

end

/-- R93: a timer that is off does not expire. -/
theorem exec_pacingTimerExpiry_off {s : State} {l : LaneIx} (ha : s.resetAsserted = false) (ht : (s.lane l).timer = none) :
    exec (.pacingTimerExpiry l) s = .next s := by
  have hdue : pacingDue s l = false := by simp [pacingDue, ht]
  show whileReleased s _ = _
  rw [whileReleased, ha, hdue]
  rfl

theorem applyPending_frameNumber (l : LaneIx) (s : State) :
    ((applyPending l s).lane l).frameNumber = (s.lane l).frameNumber := by
  unfold applyPending
  split
  · rfl
  · simp [adoptList]

/-! ### The end of a run at a boundary (R74, R76, R94) -/

/-- R94 step 1, R100: the frame cut and the tiles unpinned. -/
def cutFrame (l : LaneIx) (s : State) : State := releaseTiles l (abortFrame l countCut s)

theorem cutFrame_eq (l : LaneIx) (s : State) : cutFrame l s = { s with
    rings := ((s.lane l).tiles.foldl (fun u y => unpinTile y u) s).rings
    lanes := wr s.lanes l { s.lane l with tiles := [] }
    outs := (abortFrame l countCut s).outs
    trailers := (abortFrame l countCut s).trailers
    outPorts := (abortFrame l countCut s).outPorts
    freeCount := (abortFrame l countCut s).freeCount } := by
  have ha := abortFrame_eq l countCut s
  have hl : (abortFrame l countCut s).lane l = s.lane l := by rw [ha]; rfl
  unfold cutFrame releaseTiles
  rw [unpinTiles_eq, hl, unpinTiles_rings (s := s) _ (by rw [ha]), State.modLane]
  rw [ha]
  rfl

theorem cutFrame_writes (l : LaneIx) (s : State) :
    (cutFrame l s).link = s.link ∧ (cutFrame l s).locks = s.locks ∧ ((cutFrame l s).lane l).tiles = [] ∧
      (cutFrame l s).rings = ((s.lane l).tiles.foldl (fun u y => unpinTile y u) s).rings ∧
      (cutFrame l s).outs = (abortFrame l countCut s).outs ∧
      (cutFrame l s).trailers = (abortFrame l countCut s).trailers ∧
      (cutFrame l s).outPorts = (abortFrame l countCut s).outPorts := by
  rw [cutFrame_eq]
  exact ⟨rfl, rfl, congrArg Lane.tiles (rd_wr_same _ _ _), rfl, rfl, rfl, rfl⟩

theorem Prepared.cutFrame (l : LaneIx) (s : State) : Prepared l s (cutFrame l s) := by
  rw [cutFrame_eq]
  refine ⟨⟨(s.lane l).timer, ?_⟩, fun x hx => rd_wr_ne _ _ hx.symm, rfl⟩
  simp [State.lane]

/-- R76: the commit, then READY, then the final OK of the stop that was pending. -/
theorem finishStop_found {s : State} {l : LaneIx} {tag : Tag} {x : Entry} (hp : (s.lane l).pendingStop = some tag)
    (hx : (applyPending l s).link.outstanding.find? (fun y => y.tag = tag) = some x) :
    finishStop l s = { makeReady l (applyPending l s) with link := { (applyPending l s).link with
      outstanding := (applyPending l s).link.outstanding.eraseP (fun y => y.tag = tag)
      replies := (applyPending l s).link.replies ++ [⟨replyKind x.op.kind.code, tag, .final, .ok, []⟩] } } := by
  rw [finishStop, hp]
  exact complete_found (s := makeReady l (applyPending l s)) .ok [] hx

/-- Settles O41: the boundary of a RUNNING lane, and that of a STOPPING one. -/
theorem boundaryTakesItsSteps : Obligations.BoundaryTakesItsSteps := by
  refine ⟨fun s l e ha ht hd hs => ?_, fun s l e tag x ha ht hd hs hr hp => ?_,
    fun s l => exec_pacingTimerExpiry_off, fun s l t => rfl, fun s l => ?_, fun s l tag x hp => finishStop_found hp⟩
  · have hb : laneBoundary l s.deviceTime s = _ := (laneBoundary_eq l s.deviceTime s).trans (if_neg (by rw [hs]; decide))
    refine ⟨fun hr => ?_, fun hr => ?_⟩
    · rw [exec_pacingTimerExpiry_boundary ha ht hd (by simp [hs]) (by simp [hr]), boundary, if_neg (by rw [hr]; decide), hb]
    · rw [exec_pacingTimerExpiry_boundary ha ht hd (by simp [hs]) (by simp [hr]), boundary, if_pos hr,
        if_neg (by rw [hs]; decide), hb]
  · intro u hx t
    have hw : Prepared l s (cutFrame l s) := .cutFrame l s
    obtain ⟨hlink', hlocks', htiles, hrings', houts', htrailers', hports'⟩ := cutFrame_writes l s
    have hend : t = endRun (s.lane l).pendingStop .ok l (cutFrame l s) := hw.finishStop
    have hlane := hw.lane_same (s.lane l).pendingStop .ok
    have hlists := hw.lists (s.lane l).pendingStop .ok
    have hlink := hw.link (s.lane l).pendingStop .ok
    obtain ⟨hrings, houts, htrailers, hports, hlocks⟩ := endRun_keeps (s.lane l).pendingStop .ok l (cutFrame l s)
    have hothers := hw.lane_ne (s.lane l).pendingStop .ok
    have hclaims := hw.claims (s.lane l).pendingStop .ok
    have hrest : (endRun (s.lane l).pendingStop .ok l (cutFrame l s)).streams = s.streams ∧
        (endRun (s.lane l).pendingStop .ok l (cutFrame l s)).dram = s.dram ∧
        (endRun (s.lane l).pendingStop .ok l (cutFrame l s)).notices = s.notices := by
      rw [endRun_frame, cutFrame_eq]
      exact ⟨rfl, rfl, rfl⟩
    rw [htiles, hlink'] at hlane
    rw [hlink'] at hlists
    rw [hlink', hp] at hlink
    rw [← hend] at hlane hlists hrings houts htrailers hports hlocks hothers hclaims hrest
    rw [← hp, ← hend, hp, completeIf, complete_found .ok [] hx] at hlink
    have houts := houts.trans houts'
    refine ⟨?_, hrings.trans hrings', hlocks.trans hlocks', ⟨houts, htrailers.trans htrailers', hports.trans hports'⟩,
      congrArg Lane.state hlane, congrArg Lane.tiles hlane, congrArg Lane.timer hlane, congrArg Lane.admitted hlane,
      congrArg Lane.drained hlane, congrArg Lane.pendingStop hlane,
      (congrArg (fun v => (rd v l).frame) houts).trans (abortFrame_frame l _ s),
      (congrArg Lane.frameNumber hlane).trans (applyPending_frameNumber l s), hclaims, hlists, hlane, hlink, hothers, hrest⟩
    have hb : laneBoundary l s.deviceTime s = t := (laneBoundary_eq l s.deviceTime s).trans (if_pos hs)
    rw [exec_pacingTimerExpiry_boundary ha ht hd (by simp [hs]) hr, boundary, if_pos hs, hb]
  · rw [releaseTiles, unpinTiles_eq]
    rfl

/-! ### The relay of a boundary (R107, R108) -/

section

variable {s : State} {l ld : LaneIx} (t : Time)

theorem relayTo_idle (hr : (s.lock l).role = .follower ld) (hs : (s.lane l).state ∈ [LaneState.unset, .ready]) :
    relayTo t l s = s := by
  have hs' : (s.lane l).state = .unset ∨ (s.lane l).state = .ready := by simpa using hs
  rw [relayTo, hr]
  rcases hs' with hs' | hs' <;> simp only [hs']

theorem relayTo_starting (hr : (s.lock l).role = .follower ld) (hs : (s.lane l).state = .starting) :
    relayTo t l s = noteRelay l t (startRun l t s) := by
  rw [relayTo, hr]
  simp only [hs]

theorem relayTo_busy (hr : (s.lock l).role = .follower ld) (hs : (s.lane l).state ∈ [LaneState.running, .stopping]) :
    relayTo t l s = noteRelay l t (laneBoundary l t s) := by
  have hs' : (s.lane l).state = .running ∨ (s.lane l).state = .stopping := by simpa using hs
  rw [relayTo, hr]
  rcases hs' with hs' | hs' <;> simp only [hs']

theorem relayTo_finishing {tag : Tag} (hr : (s.lock l).role = .joining ld .finishing tag) : relayTo t l s = s := by
  rw [relayTo, hr]

theorem relayTo_waiting {tag : Tag} (hr : (s.lock l).role = .joining ld .waiting tag) :
    relayTo t l s =
      noteRelay l t (laneBoundary l t (complete tag .ok [] (s.modLock l (fun k => { k with role := .follower ld })))) := by
  have hj : completeJoin l s = complete tag .ok [] (s.modLock l (fun k => { k with role := .follower ld })) := by
    rw [completeJoin, hr]
  rw [relayTo, hr]
  simp only [hj]

end

/-! ### The end of a group (R109) -/

/-- R103: what is done to each lane that names a leader. -/
theorem forAll_named (f : LaneIx → State → State) (ld : LaneIx) (s : State) :
    forAll (fun l u => if namesLeader u ld l then f l u else u) s =
      (List.finRange 6).foldl (fun u l => if (u.lock l).role.leaderNamed = some ld then f l u else u) s := by
  simp only [forAll, namesLeader_iff]

section

variable {s : State} {l ld : LaneIx} (t : Time)

theorem dissolve_follower_idle (hr : (s.lock l).role = .follower ld) (hs : (s.lane l).state ∈ [LaneState.unset, .ready]) :
    dissolveStopped ld t l s = lockLost ld l s ∧ dissolveImmediate ld t l s = lockLost ld l s := by
  have hs' : (s.lane l).state = .unset ∨ (s.lane l).state = .ready := by simpa using hs
  rw [dissolveStopped, dissolveImmediate, hr]
  rcases hs' with hs' | hs' <;> simp only [hs', and_self]

theorem dissolve_follower_starting (hr : (s.lock l).role = .follower ld) (hs : (s.lane l).state = .starting) :
    dissolveStopped ld t l s = lockLost ld l (armTimer l t (startRun l t s)) ∧
      dissolveImmediate ld t l s = raise (.lockLost l ld) (startRun l t (freeLane l s)) := by
  rw [dissolveStopped, dissolveImmediate, hr]
  simp only [hs, and_self]

theorem dissolveStopped_running (hr : (s.lock l).role = .follower ld) (hs : (s.lane l).state = .running) :
    dissolveStopped ld t l s = lockLost ld l (armTimer l t (laneBoundary l t s)) := by
  rw [dissolveStopped, hr]
  simp only [hs]

theorem dissolveStopped_stopping (hr : (s.lock l).role = .follower ld) (hs : (s.lane l).state = .stopping) :
    dissolveStopped ld t l s = lockLost ld l (laneBoundary l t s) := by
  rw [dissolveStopped, hr]
  simp only [hs]

theorem dissolveImmediate_busy {e : Time} (hr : (s.lock l).role = .follower ld)
    (hs : (s.lane l).state ∈ [LaneState.running, .stopping]) (he : (s.lock l).lastRelayed = some e) :
    dissolveImmediate ld t l s = lockLost ld l (armTimer l e s) := by
  have hs' : (s.lane l).state = .running ∨ (s.lane l).state = .stopping := by simpa using hs
  have ha : armAfterRelay l s = armTimer l e s := by rw [armAfterRelay, he, Option.getD_some]
  rw [dissolveImmediate, hr]
  rcases hs' with hs' | hs' <;> simp only [hs', ha]

/-- R109: a lane that was JOINING, in both columns. -/
theorem dissolve_joining {phase : JoinPhase} {old : Tag} (hr : (s.lock l).role = .joining ld phase old) :
    ∀ column ∈ [dissolveStopped, dissolveImmediate], column ld t l s = dropJoin t phase old l s := by
  simp [dissolveStopped, dissolveImmediate, hr]

end

/-- R109: a lane that leaves the group with its join. -/
theorem dropJoin_found {s : State} {l : LaneIx} {old : Tag} {x : Entry} (t : Time) (phase : JoinPhase)
    (hx : s.link.outstanding.find? (fun y => y.tag = old) = some x) :
    dropJoin t phase old l s =
      let dropped := { s with
        locks := wr s.locks l ⟨.free, none⟩
        link := { s.link with
          outstanding := s.link.outstanding.eraseP (fun y => y.tag = old)
          replies := s.link.replies ++ [⟨replyKind x.op.kind.code, old, .final, .leaderStopped, []⟩] } }
      if phase = .finishing then dropped else laneBoundary l t dropped := by
  unfold dropJoin
  rw [complete_found _ _ hx]
  cases phase <;> rfl

/-! ### A joining lane's own expiry (R107) -/

/-- R107: the lane's own frame has ended: cut, its tiles unpinned, the timer off. -/
def ownFrameEnded (l : LaneIx) (s : State) : State := (cutFrame l s).modLane l (fun r => { r with timer := none })

theorem ownFrameEnded_eq (l : LaneIx) (s : State) : ownFrameEnded l s =
    { cutFrame l s with lanes := wr (cutFrame l s).lanes l { s.lane l with tiles := [], timer := none } } := by
  have hl : (cutFrame l s).lane l = { s.lane l with tiles := [] } := by rw [cutFrame_eq]; exact rd_wr_same _ _ _
  rw [ownFrameEnded, State.modLane, hl]

theorem ownFrameEnded_lock (l : LaneIx) (s : State) : (ownFrameEnded l s).lock l = s.lock l := by
  rw [ownFrameEnded, cutFrame_eq]
  rfl

theorem joiningFrameEnd_running {s : State} {l ld : LaneIx} {phase : JoinPhase} {tag : Tag}
    (hr : (s.lock l).role = .joining ld phase tag) (hs : (s.lane l).state ≠ .stopping) :
    joiningFrameEnd l s = (ownFrameEnded l s).modLock l (fun k => { k with role := .joining ld .waiting tag }) := by
  have hk : (ownFrameEnded l s).lock l = s.lock l := ownFrameEnded_lock l s
  refine (if_neg hs).trans ?_
  change (ownFrameEnded l s).modLock l _ = _
  simp only [State.modLock, hk, hr]

theorem joiningFrameEnd_stopping {s : State} {l ld : LaneIx} {phase : JoinPhase} {tag : Tag}
    (hr : (s.lock l).role = .joining ld phase tag) (hs : (s.lane l).state = .stopping) :
    joiningFrameEnd l s =
      finishStop l (complete tag .ok [] ((ownFrameEnded l s).modLock l (fun k => { k with role := .follower ld }))) := by
  refine (if_pos hs).trans ?_
  change finishStop l (completeJoin l (ownFrameEnded l s)) = _
  rw [completeJoin, ownFrameEnded_lock, hr]

theorem ownFrameEnded_modLock (l : LaneIx) (s : State) (role : LockRole) :
    (ownFrameEnded l s).modLock l (fun k => { k with role := role }) = { cutFrame l s with
      lanes := wr (cutFrame l s).lanes l { s.lane l with tiles := [], timer := none }
      locks := wr s.locks l { s.lock l with role := role } } := by
  rw [State.modLock, ownFrameEnded_lock, ownFrameEnded_eq]
  obtain ⟨-, hlocks, -⟩ := cutFrame_writes l s
  simp only [hlocks]

/-! ### The start of a run (R73, R96) -/

/-- What the application of a commit makes of the link depends on the lists and the link. -/
theorem applyPending_link_congr {s v : State} (l : LaneIx) (hl : v.lists = s.lists) (hk : v.link = s.link) :
    (applyPending l v).link = (applyPending l s).link := by
  have hv : v.list l = s.list l := by simp only [State.list, hl]
  cases hc : (s.list l).commit with
  | none => rw [applyPending_none hc, applyPending_none (hv ▸ hc), hk]
  | some c =>
    obtain ⟨t, tm⟩ := c
    rw [applyPending_some hc, applyPending_some (hv ▸ hc), hv]
    exact complete_link_congr _ _ _ hk

theorem tileStep_link (l : LaneIx) (t : Time) (s : State) : (tileStep l t s).link = s.link := by
  obtain ⟨rings, tiles, lastShown, counters, -, h⟩ := tileStep_chosen l t s
  rw [h]

theorem tileStep_frameNumber (l : LaneIx) (t : Time) (s : State) :
    ((tileStep l t s).lane l).frameNumber = (s.lane l).frameNumber := by
  obtain ⟨rings, tiles, lastShown, counters, -, h⟩ := tileStep_chosen l t s
  rw [h]
  simp [State.lane]

theorem rearm_link (l : LaneIx) (t : Time) (s : State) : (rearm l t s).link = s.link := by
  unfold rearm
  split <;> rfl

theorem rearm_frameNumber (l : LaneIx) (t : Time) (s : State) :
    ((rearm l t s).lane l).frameNumber = (s.lane l).frameNumber := by
  unfold rearm
  split <;> simp

theorem outputStep_link (l : LaneIx) (t : Time) (s : State) : (outputStep l t s).link = s.link := rearm_link l t _

theorem outputStep_frameNumber (l : LaneIx) (t : Time) (s : State) :
    ((outputStep l t s).lane l).frameNumber = (s.lane l).frameNumber + 1 := by
  simp [outputStep, rearm_frameNumber]

/-- R73: the first boundary answers a pending commit. -/
theorem firstBoundary_link (l : LaneIx) (t : Time) (s : State) : (firstBoundary l t s).link = (applyPending l s).link := by
  rw [firstBoundary, nextFrame, outputStep_link, tileStep_link, commitStep_first]
  exact applyPending_link_congr l rfl rfl

theorem firstBoundary_frameNumber (l : LaneIx) (t : Time) (s : State) :
    ((firstBoundary l t s).lane l).frameNumber = (s.lane l).frameNumber + 1 := by
  rw [firstBoundary, nextFrame, outputStep_frameNumber, tileStep_frameNumber, commitStep_first, applyPending_frameNumber,
    modLane_lane_same]

/-- R96: the start's final OK carries the number of the first frame, and follows that of a commit. -/
theorem startRun_found {s : State} {l : LaneIx} {tag : Tag} {x : Entry} (t : Time) (hp : (s.lane l).pendingStart = some tag)
    (hx : (applyPending l s).link.outstanding.find? (fun y => y.tag = tag) = some x) :
    startRun l t s =
      { firstBoundary l t (s.modLane l (fun r => { r with pendingStart := none })) with
        link := { (applyPending l s).link with
          outstanding := (applyPending l s).link.outstanding.eraseP (fun y => y.tag = tag)
          replies := (applyPending l s).link.replies ++
            [⟨replyKind x.op.kind.code, tag, .final, .ok, u32 ((s.lane l).frameNumber + 1).toNat⟩] } } := by
  have hk : (firstBoundary l t (s.modLane l (fun r => { r with pendingStart := none }))).link = (applyPending l s).link :=
    (firstBoundary_link l t _).trans (applyPending_link_congr l rfl rfl)
  have hn : ((firstBoundary l t (s.modLane l (fun r => { r with pendingStart := none }))).lane l).frameNumber =
      (s.lane l).frameNumber + 1 := by
    rw [firstBoundary_frameNumber, modLane_lane_same]
  rw [startRun, hp, completeIf]
  dsimp only
  rw [complete_found (e := x) .ok _ (by rw [hk]; exact hx), hk, hn]

/-- Settles O47: each receiving lane by its role and state, in a relay, at the end of a group, and at its own expiry. -/
theorem relayActsByRoleAndState : Obligations.RelayActsByRoleAndState := by
  refine ⟨fun s t l ld hr => ⟨relayTo_idle t hr, relayTo_starting t hr, relayTo_busy t hr⟩,
    fun s t l ld tag => ⟨relayTo_finishing t, relayTo_waiting t⟩, fun s tag res fields x => complete_found res fields,
    fun s l ld tag e ha ht hd hr => ⟨fun hs => ?_, fun hs => ?_⟩,
    fun s t ld column => ⟨forAll_named _ ld s, congrArg (freeLane ld) (forAll_named _ ld s)⟩,
    fun s t l ld hr => ⟨dissolve_follower_idle t hr, dissolve_follower_starting t hr, dissolveStopped_running t hr,
      dissolveStopped_stopping t hr, fun e => dissolveImmediate_busy t hr⟩,
    fun s t l ld phase old x hr hx => ?_, fun s t l tag x => startRun_found t⟩
  · rw [exec_pacingTimerExpiry_finishing ha ht hd (by simp [hs]) hr, joiningFrameEnd_running hr (by rw [hs]; decide),
      ownFrameEnded_modLock]
    rfl
  · rw [exec_pacingTimerExpiry_finishing ha ht hd (by simp [hs]) hr, joiningFrameEnd_stopping hr hs, ownFrameEnded_modLock]
    rfl
  · intro dropped column hcolumn
    rw [dissolve_joining t hr column hcolumn, dropJoin_found t phase hx]
    cases phase <;> rfl

end Sys2Proof.Machine
end

section
/-! LIST_READ, IDENTIFY and STATUS: what they read, byte by byte. -/

namespace Sys2Proof.Machine

open Sys2Proof

/-! ### The encoding of a list (R170) -/

/-- R170: a list by the bytes of its items. -/
theorem listBytes_map {α : Type} (enc : α → List Byte) (xs : List α) :
    listBytes enc xs = byte (xs.map enc).length :: (xs.map enc).flatten := by
  rw [listBytes, List.length_map, List.flatMap_def]
  rfl

/-! ### LIST_READ (R68) and IDENTIFY (R157) -/

/-- R68: LIST_READ with its fields in range. -/
theorem listRead_eq (tag : Tag) {bl bi bc : Byte} (active : Bool) {l : LaneIx} (s : State) (hl : bl.toNat = l.val)
    (h1 : 1 ≤ bc.toNat) (h12 : bc.toNat ≤ 12) :
    listRead tag [bl, if active then 1 else 0, bi, bc] s =
      let es := if active then (s.list l).active else (s.list l).staged
      if es.length < bi.toNat then refuse .badParam
      else okReply .listRead tag (listReadFields (s.list l) es bi.toNat bc.toNat) s := by
  cases active <;> simp [listRead, index?_val l hl, h1, h12]

/-! ### The holder of a pool slot (R170) -/

/-- R170: a slot that no ring holds. -/
theorem slotHolder_free {s : State} {n : Nat} (h : ∀ i, n ∉ poolsOf (s.ring i)) : slotHolder s n = 0xFF := by
  have hnone : (List.finRange 20).findSome? (fun i => (s.ring i).bind (fun r =>
      (r.slots.findIdx? (fun x => x.pool = n)).map (fun p => byte (8 * i.val + p)))) = none := by
    refine List.findSome?_eq_none_iff.mpr fun i _ => ?_
    cases hr : s.ring i with
    | none => rfl
    | some r =>
      have hn : ∀ x ∈ r.slots, x.pool ≠ n := fun x hx e => h i (by rw [hr]; exact e ▸ List.mem_map_of_mem hx)
      rw [Option.bind_some, List.findIdx?_eq_none_iff.mpr (by simpa using hn), Option.map_none]
  rw [slotHolder, hnone]
  rfl

/-- R170: the slot of a position is held by that position alone. -/
theorem slotHolder_held {s : State} (h : PoolLaw s) {i : StreamIx} {r : Ring} {p : Nat} {x : Slot} (hr : s.ring i = some r)
    (hx : r.slots[p]? = some x) : slotHolder s x.pool = byte (8 * i.val + p) := by
  unfold slotHolder
  cases hf : (List.finRange 20).findSome? (fun i => (s.ring i).bind (fun r =>
      (r.slots.findIdx? (fun y => y.pool = x.pool)).map (fun p => byte (8 * i.val + p)))) with
  | none =>
    have hi := List.findSome?_eq_none_iff.mp hf i (List.mem_finRange i)
    rw [hr, Option.bind_some, Option.map_eq_none_iff, List.findIdx?_eq_none_iff] at hi
    simpa using hi x (List.mem_of_getElem? hx)
  | some b =>
    obtain ⟨j, -, hj⟩ := List.exists_of_findSome?_eq_some hf
    obtain ⟨g, hg, hj⟩ := Option.bind_eq_some_iff.mp hj
    obtain ⟨q, hq, rfl⟩ := Option.map_eq_some_iff.mp hj
    obtain ⟨hlt, hpool, -⟩ := List.findIdx?_eq_some_iff_getElem.mp hq
    obtain ⟨rfl, rfl⟩ := h.distinct hg hr (List.getElem?_eq_getElem hlt) hx (of_decide_eq_true hpool)
    rfl

/-! ### STATUS (R158) -/

/-- R158: STATUS of a view and index in range. -/
theorem exec_status {s : State} {tag : Tag} {view index : Byte} {fields : List Byte}
    (hw : WaitingFor s .status tag [view, index]) (hv : statusView (taken s) view index = some fields) :
    exec (.status tag [view, index]) s = .next (s.answered .status tag .ok (view :: index :: fields)) := by
  refine (request_waiting status hw).trans ?_
  rw [status, hv]
  rfl

section

variable {s : State} {index : Byte}

theorem statusView_source {n : SourceIx} (h : index.toNat = n.val) : statusView s 1 index = some (sourceView s n) := by
  simp [statusView, index?_val n h]

theorem statusView_stream {i : StreamIx} (h : index.toNat = i.val) : statusView s 2 index = some (streamView s i) := by
  simp [statusView, index?_val i h]

theorem statusView_lane {l : LaneIx} (h : index.toNat = l.val) : statusView s 3 index = some (laneView s l) := by
  simp [statusView, index?_val l h]

theorem statusView_port {p : PortIx} (h : index.toNat = p.val) : statusView s 4 index = some (portView s p) := by
  simp [statusView, index?_val p h]

end

theorem sourceView_taken (s : State) (n : SourceIx) : sourceView (taken s) n = sourceView s n := rfl
theorem streamView_taken (s : State) (i : StreamIx) : streamView (taken s) i = streamView s i := rfl
theorem laneView_taken (s : State) (l : LaneIx) : laneView (taken s) l = laneView s l := rfl
theorem portView_taken (s : State) (p : PortIx) : portView (taken s) p = portView s p := rfl

/-- A value shown where another is present. -/
theorem map_beside {α β γ : Type} (enc : β → γ) (x : Option α) (y : β) :
    (if x.isSome then some y else none).map enc = x.map (fun _ => enc y) := by
  cases x <;> rfl

/-- R64: the groups of a list are counted by the dwells. -/
theorem groupCount_eq (es : List ListEntry) : groupCount es = es.countP (fun e => e.dwell ≠ none) := by
  refine List.countP_congr fun e _ => ?_
  simp [Option.isSome_iff_ne_none]

/-- R64, log 33: the dwell of the current group, 0 where there is none. -/
theorem dwellAt_head (s : State) (l : LaneIx) :
    dwellAt s l = ((((s.list l).active.drop (s.lane l).groupStart).head?).bind ListEntry.dwell).getD 0 := by
  unfold dwellAt groupEntries
  cases (s.list l).active.drop (s.lane l).groupStart <;> rfl

theorem leaderOf_eq (k : LockRole) : k.leaderOf = k.leaderNamed := by
  cases k <;> rfl

theorem namesLeader_eq (s : State) (ld l : LaneIx) :
    namesLeader s ld l = decide ((s.lock l).role.leaderNamed = some ld) := by
  rw [Bool.eq_iff_iff, namesLeader_iff, decide_eq_true_iff]

/-- Settles O36: each reading answered without a change, and the bytes of each view part by part. -/
theorem readsChangeNothing : Obligations.ReadsChangeNothing := by
  refine ⟨fun s tag bl bi bc active l hw hl h1 h12 => ?_, fun s tag hw => ?_, fun s tag view index hw => ?_, fun s n => ?_, ?_⟩
  · refine (request_waiting listRead hw).trans (congrArg _ ?_)
    rw [listRead_eq tag active (taken s) hl h1 h12, taken_list]
    dsimp only
    generalize (if active = true then (s.list l).active else (s.list l).staged) = es
    split <;> rfl
  · exact request_waiting identify hw
  · intro opt flag list time answers
    have hopt : ∀ {α : Type} (enc : α → List Byte) (x : Option α), optional enc x = opt (x.map enc) :=
      fun enc x => by cases x <;> rfl
    have hlist : ∀ {α : Type} (enc : α → List Byte) (xs : List α), listBytes enc xs = list (xs.map enc) := listBytes_map
    have hview : ∀ {fields : List Byte}, statusView (taken s) view index = some fields → answers fields := exec_status hw
    refine ⟨?_, fun n hv hn => ?_, fun i hv hi => ?_, fun l hv hl => ?_, fun p hv hp => ?_⟩
    · rintro rfl
      refine hview (congrArg some ?_)
      refine congrArg₂ (· ++ ·) (congrArg₂ (· ++ ·) (congrArg₂ (· ++ ·) (congrArg₂ (· ++ ·) ?_ ?_) rfl) ?_) ?_
      · simp only [storePart, hopt, hlist, u8, List.append_assoc, List.cons_append, List.nil_append, taken_store]
        cases s.store.state <;> rfl
      · rw [budgetPart, hlist]
        refine congrArg (_ ++ list ·) (List.map_congr_left fun c _ => ?_)
        obtain ⟨_ | _, units⟩ := c <;> rfl
      · simp only [linkPart, hlist, taken, modLink_link, List.length_tail]
        rfl
      · simp only [noticePart, NoticeUnit.headSeq, hopt, u8, Option.map_map, List.append_assoc, List.cons_append,
          List.nil_append]
        rfl
    · subst hv
      refine hview ((statusView_source hn).trans (congrArg some ((sourceView_taken s n).trans ?_)))
      simp only [sourceView, hopt, hlist]
      cases (s.source n).phase <;> rfl
    · subst hv
      refine hview ((statusView_stream hi).trans (congrArg some ((streamView_taken s i).trans ?_)))
      refine congrArg₂ (· ++ ·) ?_ ?_
      · simp only [hopt, map_beside, hlist]
        cases (s.stream i).binding <;> rfl
      · cases s.ring i with
        | none => rfl
        | some g =>
          simp only [ringPart, hlist, Slot.viewBytes, hopt, u8, List.append_assoc, List.cons_append, List.nil_append]
          rfl
    · subst hv
      refine hview ((statusView_lane hl).trans (congrArg some ((laneView_taken s l).trans ?_)))
      refine congrArg₂ (· ++ ·) (congrArg₂ (· ++ ·) (congrArg₂ (· ++ ·) ?_ ?_) ?_) ?_
      · have hplace : (placeOf s l).map u8 = (s.lane l).port.bind (fun p =>
            ((s.outPort p).carried.findIdx? (fun x => x = l)).map (fun n => [byte n])) := Option.map_bind
        simp only [hopt, hplace, dwellAt_head, u8, List.append_assoc, List.cons_append, List.nil_append]
        cases (s.lane l).port <;> rfl
      · rw [hlist]
        refine congrArg list (List.map_congr_left fun x _ => ?_)
        obtain ⟨j, colour, _ | _ | _⟩ := x <;> rfl
      · simp only [lockPart, hopt, namesLeader_eq, leaderOf_eq]
        cases (s.lock l).role with
        | leader =>
          simp only [if_true, Option.map_some, hlist]
          rfl
        | free => rfl
        | follower => rfl
        | joining => rfl
      · simp only [listPart, groupCount_eq, hopt, u8, List.append_assoc, List.cons_append, List.nil_append]
        rfl
    · subst hv
      refine hview ((statusView_port hp).trans (congrArg some ((portView_taken s p).trans ?_)))
      rw [portView, hlist]
      rfl
  · exact ⟨fun i r p x h hr hx hp => hp ▸ slotHolder_held h hr hx, slotHolder_free⟩
  · exact ⟨rfl, fun _ => rfl, rfl, rfl, fun _ _ => rfl, rfl, fun _ _ _ => rfl, rfl, fun _ _ _ => rfl, rfl, rfl, rfl, rfl, rfl, rfl,
      fun _ _ _ => ⟨rfl, rfl⟩⟩

end Sys2Proof.Machine
end

section
/-! The output step of a boundary, and the start of a run: LANE_START of a lane that paces itself. -/

namespace Sys2Proof.Machine

open Sys2Proof

/-! ### The output step (R93, R94, R116) -/

/-- R93: the timer of a FREE lane or a LEADER is armed; that of any other lane stays as it is. -/
theorem rearm_eq (l : LaneIx) (t : Time) (s : State) : rearm l t s = s.modLane l (fun r => { r with
    timer := if (s.lock l).role ∈ [LockRole.free, .leader] then r.setup.map (fun g => after t g.period) else r.timer }) := by
  have hsame : s = s.modLane l (fun r => { r with timer := r.timer }) := by
    change s = { s with lanes := wr s.lanes l (rd s.lanes l) }
    rw [wr_rd]
  unfold rearm
  cases (s.lock l).role with
  | free => rfl
  | leader => rfl
  | follower ld => simpa using hsame
  | joining ld phase tag => simpa using hsame

/-- R94 step 6: what the output step of a lane that is set up writes. -/
theorem outputStep_eq {s : State} {l : LaneIx} {g : LaneSetup} (t : Time) (hg : (s.lane l).setup = some g) :
    let started := { s.lane l with
      frameNumber := (s.lane l).frameNumber + 1
      counters := { (s.lane l).counters with frames := satInc (s.lane l).counters.frames } }
    outputStep l t s = { s with
      lanes := wr s.lanes l { started with timer :=
        if (s.lock l).role ∈ [LockRole.free, .leader] then some (t + BitVec.ofNat 32 g.period) else (s.lane l).timer }
      trailers := wr s.trailers l (if g.stamp then some (takeTrailer l t { s with lanes := wr s.lanes l started }) else none)
      outs := wr s.outs l ⟨some ⟨.lines, none⟩, [markerWord (laneWidth s l) 0x01], (s.out l).sent⟩ } := by
  rw [outputStep, rearm_eq, hg]
  simp only [State.modLane, State.setTrailer, State.modOut, State.lane, State.out, rd_wr_same, wr_wr]
  rw [show (rd s.lanes l).setup = some g from hg]
  rfl

/-- Settles O42: the stamp unit's copy field by field, and the output step of a lane that is set up. -/
theorem outputStepStartsAFrame : Obligations.OutputStepStartsAFrame := by
  refine ⟨fun s l t => ?_, fun s l t g hg => outputStep_eq t hg⟩
  have hempty : (s.list l).active.isEmpty = decide ((s.list l).active = []) := by
    cases (s.list l).active <;> rfl
  rw [takeTrailer, dwellAt_head, hempty]

/-! ### The first boundary of a run (R73, R94) -/

/-- R95: the record of a lane at the first boundary of its run, with what the list unit and the tiles give it. -/
def Lane.started (r : Lane) (tiles : List Tile) (lastShown : List (Option Word)) (counters : LaneCounters) : Lane :=
  { r with
    state := .running, groupStart := 0, framesShown := 0, passCount := 0, drained := false
    tiles := tiles, lastShown := lastShown, counters := counters }

/-- R75: the application of a commit leaves of the lane what the start of a run has set. -/
theorem applyPending_started (l : LaneIx) (shown : List (Option Word)) (s : State) :
    ∃ unit lastShown counters,
      applyPending l (s.modLane l (fun r => r.started r.tiles shown r.counters)) = { s with
        lists := wr s.lists l unit
        lanes := wr s.lanes l ((s.lane l).started (s.lane l).tiles lastShown counters)
        link := (applyPending l s).link } := by
  cases h : (s.list l).commit with
  | none =>
    refine ⟨s.list l, shown, (s.lane l).counters, ?_⟩
    rw [applyPending_none (s := s.modLane l _) h, applyPending_none h, State.list, wr_rd]
    rfl
  | some c =>
    obtain ⟨tag, tm⟩ := c
    refine ⟨{ s.list l with active := (s.list l).staged, generation := (s.list l).generation + 1, commit := none },
      List.replicate (s.list l).staged.length none,
      { (s.lane l).counters with commits := satInc (s.lane l).counters.commits }, ?_⟩
    rw [← applyPending_link_congr (s := s) (v := s.modLane l (fun r => r.started r.tiles shown r.counters)) l rfl rfl,
      applyPending_some (s := s.modLane l _) h]
    simp only [adoptList, State.modList, State.modLane, State.lane, rd_wr_same, wr_wr]
    rfl

/-- R94 steps 3 to 5 at the first boundary of a run, before its output step. -/
theorem firstBoundary_outputStep (l : LaneIx) (t : Time) (s : State) : ∃ rings unit tiles lastShown counters,
    firstBoundary l t s = outputStep l t { s with
      rings := rings
      lists := wr s.lists l unit
      lanes := wr s.lanes l ((s.lane l).started tiles lastShown counters)
      link := (applyPending l s).link } := by
  obtain ⟨unit, shown, counters, hcommit⟩ := applyPending_started l (List.replicate (s.list l).active.length none) s
  have hstart : firstBoundary l t s = outputStep l t (tileStep l t (applyPending l (s.modLane l (fun r =>
      r.started r.tiles (List.replicate (s.list l).active.length none) r.counters)))) :=
    congrArg (fun u => outputStep l t (tileStep l t u)) (commitStep_first l _)
  rw [hcommit] at hstart
  obtain ⟨rings, tiles, shown', counters', -, htiles⟩ := tileStep_chosen l t { s with
    lists := wr s.lists l unit
    lanes := wr s.lanes l ((s.lane l).started (s.lane l).tiles shown counters)
    link := (applyPending l s).link }
  refine ⟨rings, unit, tiles, shown', counters', hstart.trans (congrArg _ (htiles.trans ?_))⟩
  simp only [State.lane, rd_wr_same, wr_wr]
  rfl

/-- R94, R95: what the first boundary of a lane that is set up writes. -/
theorem firstBoundary_eq {s : State} {l : LaneIx} {g : LaneSetup} (t : Time) (hg : (s.lane l).setup = some g) :
    ∃ rings unit tiles lastShown counters trailer, trailer.isSome = g.stamp ∧ firstBoundary l t s = { s with
      rings := rings
      lists := wr s.lists l unit
      lanes := wr s.lanes l { (s.lane l).started tiles lastShown counters with
        frameNumber := (s.lane l).frameNumber + 1
        timer := if (s.lock l).role ∈ [LockRole.free, .leader] then some (t + BitVec.ofNat 32 g.period)
          else (s.lane l).timer }
      trailers := wr s.trailers l trailer
      outs := wr s.outs l ⟨some ⟨.lines, none⟩, [markerWord (laneWidth s l) 0x01], (s.out l).sent⟩
      link := (applyPending l s).link } := by
  obtain ⟨rings, unit, tiles, shown, counters, hstep⟩ := firstBoundary_outputStep l t s
  generalize hv : State.mk .. = v at hstep
  have hlane : v.lane l = (s.lane l).started tiles shown counters := hv ▸ rd_wr_same _ _ _
  have hwidth : laneWidth v l = laneWidth s l := by
    rw [laneWidth, hlane, ← hv]
    rfl
  have hout := hstep.trans (outputStep_eq t (g := g) (hlane ▸ hg))
  refine ⟨rings, unit, tiles, shown, { counters with frames := satInc counters.frames }, ?trailer, ?stamped, hout.trans ?eq⟩
  case eq =>
    rw [hlane, hwidth, ← hv]
    simp only [wr_wr]
    rfl
  case stamped => cases g.stamp <;> rfl

/-! ### LANE_START of a lane that paces itself (R93, R95, R137) -/

section

variable {s : State} {tag : Tag} {bl : Byte} {l : LaneIx} (ht : tagHeld s.link tag = false) (hl : bl.toNat = l.val)

include ht hl

theorem laneStart_badState (hn : (s.lane l).state ≠ .ready ∨ (s.lane l).port = none) :
    laneStart tag [bl] s = refuse .badState := by
  by_cases hs : (s.lane l).state = .ready
  · have hp : (s.lane l).port = none := hn.resolve_left (not_not.mpr hs)
    simp [laneStart, ht, index?_val l hl, hs, hp]
  · simp [laneStart, ht, index?_val l hl, hs]

variable {g : LaneSetup} (hs : (s.lane l).state = .ready) (hp : (s.lane l).port ≠ none) (hg : (s.lane l).setup = some g)

include hs hp hg

theorem laneStart_noBandwidth (hf : 1000 < claimTotal s.claims + demand g.period 1) :
    laneStart tag [bl] s = refuse .noBandwidth := by
  have hfits : fits s (demand g.period 1) = false :=
    Bool.eq_false_iff.mpr fun h => absurd ((fits_iff s _).mp h) (Nat.not_le.mpr hf)
  simp [laneStart, ht, index?_val l hl, hs, hp, laneDemand, hg, hfits]

/-- R95, R108: the claim, the first boundary, the lane's own OK, and then the relay of a leader's boundary. -/
theorem laneStart_paced (hr : (s.lock l).role ∈ [LockRole.free, .leader])
    (hf : claimTotal s.claims + demand g.period 1 ≤ 1000) :
    let t := firstReply .laneStart tag .ok [] (firstBoundary l s.deviceTime (claimLane l s))
    laneStart tag [bl] s = .ok (if (s.lock l).role = .leader then relay l s.deviceTime t else t) := by
  have hr' : (s.lock l).role = .free ∨ (s.lock l).role = .leader := by simpa using hr
  rcases hr' with hr | hr <;>
    simp [laneStart, ht, index?_val l hl, hs, hp, laneDemand, hg, (fits_iff s _).mpr hf, hr, okReply]

end

/-- Settles O39: the refusals of LANE_START, and what its first boundary has written. -/
theorem laneStartTakesTheFirstBoundary : Obligations.LaneStartTakesTheFirstBoundary := by
  refine ⟨fun s tag bl l hw ht hl hn => ?_, fun s tag bl l g hw ht hl hs hp hg hf => ?_,
    fun s tag bl l g hw ht hl hs hp hg hr hf => ?_⟩
  · refine (request_waiting laneStart hw).trans ?_
    rw [laneStart_badState (s := taken s) ht hl hn]
    rfl
  · refine (request_waiting laneStart hw).trans ?_
    rw [laneStart_noBandwidth (s := taken s) ht hl hs hp hg hf]
    rfl
  · intro claimed u t
    have hclaimed : claimLane l (taken s) = claimed := by
      simp only [claimLane, laneDemand, taken_lane, hg]
      rfl
    have hexec : exec (.laneStart tag [bl]) s = .next (if (s.lock l).role = .leader then relay l s.deviceTime t else t) := by
      refine (request_waiting laneStart hw).trans ?_
      rw [laneStart_paced (s := taken s) ht hl hs hp hg hr hf, hclaimed]
      rfl
    have hlane : claimed.lane l = { s.lane l with admitted := some (demand g.period 1) } := rd_wr_same _ _ _
    obtain ⟨rings, unit, tiles, shown, counters, trailer, htrailer, hu⟩ :=
      firstBoundary_eq (s := claimed) s.deviceTime ((congrArg Lane.setup hlane).trans hg)
    rw [hlane] at hu
    have hlanes : t.lanes = _ := (congrArg State.lanes hu :)
    have houts : t.outs = _ := (congrArg State.outs hu :)
    have hlane' : t.lane l = _ := (congrArg (rd · l) hlanes).trans (rd_wr_same _ _ _)
    refine ⟨hexec, congrArg Lane.state hlane', congrArg Lane.admitted hlane', congrArg Lane.groupStart hlane',
      congrArg Lane.framesShown hlane', congrArg Lane.passCount hlane', congrArg Lane.drained hlane',
      congrArg Lane.frameNumber hlane', (congrArg Lane.timer hlane').trans (if_pos hr), ?_, ?_, (congrArg State.claims hu :),
      List.getLast?_concat, fun x hx => ⟨?_, ?_, ?_⟩, (congrArg State.streams hu :), (congrArg State.sources hu :),
      (congrArg State.locks hu :), (congrArg State.outPorts hu :), (congrArg State.store hu :), (congrArg State.dram hu :),
      (congrArg State.notices hu :)⟩
    · exact (congrArg (fun v => (rd v l).frame) houts).trans (by rw [rd_wr_same])
    · exact (congrArg (fun v => (rd v.trailers l).isSome) hu :).trans ((congrArg Option.isSome (rd_wr_same _ _ _)).trans htrailer)
    · exact (congrArg (rd · x) hlanes).trans ((rd_wr_ne _ _ hx.symm).trans (rd_wr_ne _ _ hx.symm))
    · exact (congrArg (rd ·.lists x) hu :).trans (rd_wr_ne _ _ hx.symm)
    · exact (congrArg (rd · x) houts).trans (rd_wr_ne _ _ hx.symm)

end Sys2Proof.Machine
end

section
/-! The output ports: the trailer and the end of a frame, its abort, its words, and the encoding of its trailer packet. -/

namespace Sys2Proof.Machine

open Sys2Proof

/-! ### The markers of a frame (R87, R100, R122) -/

theorem whileReleased_next {s : State} (t : State) (ha : s.resetAsserted = false) : whileReleased s t = .next t := by
  rw [whileReleased, ha]
  rfl

section

variable {s : State} {l : LaneIx} {g : LaneSetup} {fl : Option Nat} (hg : (s.lane l).setup = some g)

include hg

theorem trailerStart_stamped {c : Trailer} (hf : (s.out l).frame = some ⟨.lines, fl⟩) (hc : s.trailer l = some c)
    (hs : g.stamp = true) : trailerStart l s = s.modOut l (fun o => { o with
      frame := some ⟨.trailer (dataWords (laneWidth s l) ((c.packet l).flatMap codeBytes)), fl⟩
      sent := o.sent ++ frameLines s l fl ++ [markerWord (laneWidth s l) 0x03] }) := by
  simp only [trailerStart, hf, hc, hg, hs, if_true, trailerStartCode]

/-- R87: the frame end marker after the words still to be sent: the lines, or what is left of the packet. -/
theorem frameEnded_eq {p : PortIx} {words : List Half} (hp : (s.lane l).port = some p)
    (hw : (∃ fl, (s.out l).frame = some ⟨.lines, fl⟩ ∧ g.stamp = false ∧ words = frameLines s l fl) ∨
      ∃ fl, (s.out l).frame = some ⟨.trailer words, fl⟩ ∧ g.stamp = true) :
    frameEnded l s = { s with
      outPorts := wr s.outPorts p { s.outPort p with ended := satInc (s.outPort p).ended }
      outs := wr s.outs l { s.out l with
        frame := none, sent := (s.out l).sent ++ words ++ [markerWord (laneWidth s l) 0x04] }
      trailers := wr s.trailers l none } := by
  obtain ⟨fl, hf, hs, rfl⟩ | ⟨fl, hf, hs⟩ := hw <;>
    simp only [frameEnded, hf, hg, hs, countOnPort, hp, Bool.false_eq_true, if_true, if_false] <;> rfl

end

theorem abortFrame_some {s : State} {l : LaneIx} {p : PortIx} {fr : OutFrame} (count : OutPort → OutPort)
    (hf : (s.out l).frame = some fr) (hp : (s.lane l).port = some p) : abortFrame l count s = { s with
      outPorts := wr s.outPorts p (count (s.outPort p))
      outs := wr s.outs l { s.out l with
        frame := none, sent := (s.out l).sent ++ goneBeforeAbort s l fr ++ [markerWord (laneWidth s l) 0x05] }
      trailers := wr s.trailers l none
      freeCount := s.freeCount + 1 } := by
  simp only [abortFrame, hf, countOnPort, hp]
  rfl

/-! ### The phases of a port (R86, R87) -/

theorem markerWord_idle (m : WidthMode) : markerWord m idleCode = 0 := by
  cases m <;> rfl

theorem laneWidth_routed {s : State} {l : LaneIx} {p : PortIx} (hp : (s.lane l).port = some p) :
    laneWidth s l = (s.outPort p).width := by
  rw [laneWidth, hp]

theorem frameLines_setup {s : State} {l : LaneIx} {g : LaneSetup} (fl : Option Nat) (hg : (s.lane l).setup = some g) :
    frameLines s l fl = (List.range g.height).flatMap (fun y =>
      lineWords (laneWidth s l) (composedLine s g (s.lane l).tiles fl y)) := by
  rw [frameLines, hg]

/-! ### The trailer packet (R117, R121, R175) -/

/-- R121: four bits below a set bit 4. -/
theorem code_or {n : Nat} (h : n < 16) : (0x10 : Byte) ||| byte n = byte (16 + n) := by
  have hor : 16 ||| n = 16 + n := (Nat.two_pow_add_eq_or_of_lt (i := 4) h 1).symm
  apply BitVec.eq_of_toNat_eq
  rw [BitVec.toNat_or, byte_toNat (by omega), byte_toNat (by omega)]
  exact hor

/-- R121: the upper and then the lower four bits of a packet byte. -/
theorem codeBytes_eq (b : Byte) : codeBytes b = [byte (16 + b.toNat / 16), byte (16 + b.toNat % 16)] := by
  have hb := b.isLt
  have hhigh : b >>> 4 = byte (b.toNat / 16) := by
    apply BitVec.eq_of_toNat_eq
    rw [BitVec.toNat_ushiftRight, byte_toNat (by omega), Nat.shiftRight_eq_div_pow]
  have hlow : b &&& 0x0F = byte (b.toNat % 16) := by
    apply BitVec.eq_of_toNat_eq
    rw [BitVec.toNat_and, byte_toNat (by omega)]
    exact Nat.and_two_pow_sub_one_eq_mod b.toNat 4
  rw [codeBytes, hhigh, hlow]
  exact congrArg₂ (fun x y => [x, y]) (code_or (by omega)) (code_or (by omega))

/-- Settles O45: each marker of a frame, the words between them, and the bytes of its trailer packet. -/
theorem outputFrameReachesItsEnd : Obligations.OutputFrameReachesItsEnd := by
  refine ⟨fun s l g c fl ha hf hc hg hs => ?_, fun s l g p rest fl ha hf hg hs hp => ?_,
    fun s l g p fl ha hf hg hs hp => ?_, fun s l count => abortFrame_none l count s, fun s l p fr count hf hp => ?_,
    fun r => ⟨rfl, rfl⟩, fun s l p g fl hp hg => ⟨laneWidth_routed hp, frameLines_setup fl hg⟩,
    fun a b bs => ⟨rfl, rfl, rfl, rfl, rfl, rfl⟩, fun l c => ?_, fun j p age col i q at_ rep fz lost ws => ?_, codeBytes_eq,
    fun s p place => ⟨fun hn => ?_, fun l hc hf => ?_⟩⟩
  · refine (whileReleased_next _ ha).trans ?_
    rw [trailerStart_stamped hg hf hc hs]
    rfl
  · refine (whileReleased_next _ ha).trans ?_
    rw [frameEnded_eq hg hp (.inr ⟨fl, hf, hs⟩)]
  · refine (whileReleased_next _ ha).trans ?_
    rw [frameEnded_eq hg hp (.inl ⟨fl, hf, hs, rfl⟩)]
  · obtain ⟨n, hn, htake⟩ := goneBeforeAbort_take s l fr
    refine ⟨n, hn, ?_⟩
    rw [abortFrame_some count hf hp, htake]
  · intro content covered
    have hcontent : Trailer.content l c = content := by
      simp only [Trailer.content, u8, List.append_assoc]
      rfl
    rw [Trailer.packet, hcontent]
  · intro flags
    refine ⟨rfl, rfl, ?_⟩
    simp only [Tile.bytes, Nat.add_assoc]
    rfl
  · rw [phaseWord, hn]
    exact markerWord_idle _
  · rw [phaseWord, hc]
    simp only [hf, Option.isNone_none, if_true]
    exact markerWord_idle _

end Sys2Proof.Machine
end

section
/-! LANE_SETUP: its conditions in their order, the setup of the lane, and its place on the ports. -/

namespace Sys2Proof.Machine

open Sys2Proof

/-! ### Routing (R84) -/

/-- R84: what routing writes: the lists of the ports, and the lane's port. -/
theorem route_frame (l : LaneIx) (port : Option PortIx) (s : State) :
    route l port s = { s with lanes := (route l port s).lanes, outPorts := (route l port s).outPorts } := by
  unfold route routeTo unroute
  split
  · rfl
  · cases port <;> cases (s.lane l).port <;> rfl

theorem unroute_lane (l x : LaneIx) (s : State) : (unroute l s).lane x = s.lane x := by
  unfold unroute
  split <;> rfl

theorem routeTo_lane (l x : LaneIx) (port : Option PortIx) (s : State) : (routeTo l port s).lane x = s.lane x := by
  unfold routeTo
  split <;> rfl

theorem route_lane_same (l : LaneIx) (port : Option PortIx) (s : State) :
    (route l port s).lane l = { s.lane l with port := port } := by
  unfold route
  split
  · rename_i h
    rw [← h]
  · rw [modLane_lane_same, routeTo_lane, unroute_lane]

theorem route_lane_ne {l x : LaneIx} (port : Option PortIx) (s : State) (h : x ≠ l) :
    (route l port s).lane x = s.lane x := by
  unfold route
  split
  · rfl
  · rw [modLane_lane_ne _ _ _ _ h.symm, routeTo_lane, unroute_lane]

theorem unroute_outPort (l : LaneIx) (s : State) (p : PortIx) : (unroute l s).outPort p = { s.outPort p with
    carried := if (s.lane l).port = some p then (s.outPort p).carried.filter (fun x => x ≠ l)
      else (s.outPort p).carried } := by
  unfold unroute
  cases hq : (s.lane l).port with
  | none => simp
  | some q =>
    by_cases h : q = p
    · subst h; simp
    · simp [h]

theorem routeTo_outPort (l : LaneIx) (port : Option PortIx) (s : State) (p : PortIx) :
    (routeTo l port s).outPort p = { s.outPort p with
      carried := (s.outPort p).carried ++ if port = some p then [l] else [] } := by
  unfold routeTo
  cases port with
  | none => simp
  | some q =>
    by_cases h : q = p
    · subst h; simp
    · simp [h]

/-- R84: the lane leaves the list of its old port, then stands at the end of that of its new one. -/
theorem route_outPort (l : LaneIx) (port : Option PortIx) (s : State) (p : PortIx) : (route l port s).outPort p =
    if (s.lane l).port = port then s.outPort p
    else { s.outPort p with carried :=
      (if (s.lane l).port = some p then (s.outPort p).carried.filter (fun x => x ≠ l) else (s.outPort p).carried) ++
        (if port = some p then [l] else []) } := by
  unfold route
  split
  · rfl
  · rw [modLane_outPort_at, routeTo_outPort, unroute_outPort]

/-! ### The setup performed (R84) -/

theorem setupLane_lane_same (l : LaneIx) (g : LaneSetup) (s : State) : (setupLane l g s).lane l =
    if (s.lane l).state = .unset then
      { s.lane l with state := .ready, setup := some g, groupStart := 0, framesShown := 0, passCount := 0, lastShown := []
                      frameNumber := 0, drained := false }
    else { s.lane l with state := .ready, setup := some g } := modLane_lane_same _ _ _

theorem setupLane_port (l : LaneIx) (g : LaneSetup) (s : State) : ((setupLane l g s).lane l).port = (s.lane l).port := by
  rw [setupLane_lane_same]
  split <;> rfl

/-! ### LANE_SETUP, judged (R83) -/

/-- R83: another lane on the chosen port has another period. -/
def otherPeriod (s : State) (l : LaneIx) (port : Option PortIx) (period : Nat) : Bool :=
  (otherLanes s l port).any (fun x => (s.lane x).setup.any (fun o => o.period ≠ period))

theorem otherPeriod_iff (s : State) (l : LaneIx) (port : Option PortIx) (period : Nat) :
    otherPeriod s l port period = true ↔ ∃ p, port = some p ∧
      ∃ x o, x ∈ (s.outPort p).carried ∧ x ≠ l ∧ (s.lane x).setup = some o ∧ o.period ≠ period := by
  cases port with
  | none => simp [otherPeriod, otherLanes]
  | some p => simp [otherPeriod, otherLanes, Option.any_eq_true]

theorem otherPeriod_false {s : State} {l : LaneIx} {port : Option PortIx} {period : Nat} (h : ∀ p, port = some p →
    ∀ x o, x ∈ (s.outPort p).carried → x ≠ l → (s.lane x).setup = some o → o.period = period) :
    otherPeriod s l port period = false := by
  refine Bool.eq_false_iff.mpr fun ho => ?_
  obtain ⟨p, hp, x, o, hx, hne, hset, hperiod⟩ := (otherPeriod_iff s l port period).mp ho
  exact hperiod (h p hp x o hx hne hset)

theorem byte_lt_two {b : Byte} (h : b.toNat < 2) : b = 0 ∨ b = 1 := by
  have h0 : b = 0 ↔ b.toNat = 0 := byte_eq_iff (by decide)
  have h1 : b = 1 ↔ b.toNat = 1 := byte_eq_iff (by decide)
  rw [h0, h1]
  omega

theorem mode?_eq {b : Byte} (h : b.toNat < 2) : mode? b = some (if b.toNat = 0 then .cycle else .once) := by
  rcases byte_lt_two h with rfl | rfl <;> rfl

theorem option?_eq {b : Byte} (h : b.toNat < 2) : option? b = some (decide (b.toNat = 1)) := by
  rcases byte_lt_two h with rfl | rfl <;> rfl

theorem port?_eq {b : Byte} {port : Option PortIx} (h : b.toNat = (match port with | none => 255 | some p => p.val)) :
    port? b = some port := by
  have h255 : b = 0xFF ↔ b.toNat = 255 := byte_eq_iff (by decide)
  rw [port?]
  simp only [h255]
  cases port with
  | none => rw [if_pos h]
  | some p =>
    have hp : b.toNat = p.val := h
    rw [if_neg (by omega), index?_val p hp]
    rfl

theorem idle_not_busy {x : LaneState} (h : x ∈ [LaneState.unset, .ready]) :
    x ∉ [LaneState.starting, .running, .stopping] := by
  cases x <;> simp at h ⊢

/-- R83: LANE_SETUP with its fields in range. -/
theorem laneSetup_eq {tag : Tag} {body : List Byte} {l : LaneIx} {port : Option PortIx} {y cb cr : Byte} (s : State)
    (hn : body.length = 13) (hb : fieldsInRange .laneSetup body = true) (hl : field body 0 = l.val)
    (hp : field body 8 = (match port with | none => 255 | some p => p.val)) (hc : body.drop 10 = [y, cb, cr]) :
    laneSetup tag body s =
      if otherPeriod s l port (field2 body 5) then refuse .badParam
      else if (s.lane l).state ∈ [LaneState.starting, .running, .stopping] then refuse .badState
      else if (s.lock l).role ≠ .free then refuse .inUse
      else if 2 ≤ (otherLanes s l port).length then refuse .inUse
      else okReply .laneSetup tag [] (route l port (setupLane l ⟨field2 body 1, field2 body 3, field2 body 5,
        if field body 7 = 0 then .cycle else .once, decide (field body 9 = 1), ⟨y, cb, cr⟩⟩ s)) := by
  match body, hn with
  | [bl, w0, w1, h0, h1, p0, p1, bm, bp, bs, y', cb', cr'], _ =>
    obtain ⟨rfl, rfl, rfl⟩ : y' = y ∧ cb' = cb ∧ cr' = cr := by simpa using hc
    obtain ⟨-, hw, hw', he, hh, hh', hq, hq', hm, -, hs⟩ := of_decide_eq_true hb
    have hrange : ∀ mode stamp fill, (LaneSetup.mk (le16 w0 w1) (le16 h0 h1) (le16 p0 p1) mode stamp fill).inRange = true :=
      fun mode stamp fill => by
        simp only [LaneSetup.inRange, Bool.and_eq_true, decide_eq_true_eq]
        exact ⟨⟨⟨⟨⟨⟨hw, hw'⟩, he⟩, hh⟩, hh'⟩, hq⟩, hq'⟩
    have hl' : index? 6 bl = some l := index?_val l hl
    have hm' : mode? bm = some (if bm.toNat = 0 then .cycle else .once) := mode?_eq hm
    have hp' : port? bp = some port := port?_eq hp
    have hs' : option? bs = some (decide (bs.toNat = 1)) := option?_eq hs
    simp only [laneSetup, hl', hm', hp', hs', hrange, not_true, if_false, Lane.busy_iff]
    rfl

/-- Settles O37: the conditions of LANE_SETUP, and what the setup and the routing write. -/
theorem laneSetupMakesReady : Obligations.LaneSetupMakesReady := by
  refine ⟨fun s tag body l p hw hn hb hl hp => ?_, fun s tag body l port y cb cr hw hn hb hl hp hc heq => ?_⟩
  · obtain ⟨y, cb, cr, hc⟩ := List.length_eq_three.mp (show (body.drop 10).length = 3 by rw [List.length_drop, hn])
    have hjudged := laneSetup_eq (tag := tag) (port := some p) (taken s) hn hb hl hp hc
    rw [taken_lane, taken_lock] at hjudged
    refine ⟨fun x o hx hne ho hperiod => ?_, fun hperiod hs hr htwo => ?_⟩
    · have hother : otherPeriod (taken s) l (some p) (field2 body 5) = true :=
        (otherPeriod_iff _ _ _ _).mpr ⟨p, rfl, x, o, hx, hne, ho, hperiod⟩
      refine (request_waiting laneSetup hw).trans ?_
      rw [hjudged, if_pos hother]
      rfl
    · have htwo : 2 ≤ (otherLanes (taken s) l (some p)).length := htwo
      have hother : otherPeriod (taken s) l (some p) (field2 body 5) = false :=
        otherPeriod_false fun q hq x o hx => hperiod x o (Option.some.inj hq ▸ hx)
      refine (request_waiting laneSetup hw).trans ?_
      rw [hjudged, hother, if_neg Bool.false_ne_true, if_neg (idle_not_busy hs), if_neg (not_not.mpr hr), if_pos htwo]
      rfl
  · have hother : otherPeriod (taken s) l port (field2 body 5) = false :=
      otherPeriod_false fun p hp x o hx hne ho => heq p hp x hx hne o ho
    have hjudged := laneSetup_eq (tag := tag) (taken s) hn hb hl hp hc
    rw [taken_lane, taken_lock, hother, if_neg Bool.false_ne_true] at hjudged
    refine ⟨fun hs => ?_, fun hs hr => ?_, fun hs hr hroom => ?_⟩
    · refine (request_waiting laneSetup hw).trans ?_
      rw [hjudged, if_pos hs]
      rfl
    · refine (request_waiting laneSetup hw).trans ?_
      rw [hjudged, if_neg (idle_not_busy hs), if_pos hr]
      rfl
    · have hlanes : ¬ 2 ≤ (otherLanes (taken s) l port).length := by
        cases port with
        | none => simp [otherLanes]
        | some p => exact Nat.not_le.mpr (Nat.lt_succ_of_le (hroom p rfl))
      rw [if_neg (idle_not_busy hs), if_neg (not_not.mpr hr), if_neg hlanes] at hjudged
      generalize LaneSetup.mk .. = g at hjudged ⊢
      refine ⟨_, (request_waiting laneSetup hw).trans (by rw [hjudged, answer_okReply]), ?_, fun x hx => ?_, ?_, fun p => ?_⟩
      · rw [route_frame]
        rfl
      · exact (route_lane_ne port _ hx).trans (modLane_lane_ne _ _ _ _ hx.symm)
      · refine (route_lane_same l port _).trans ?_
        rw [setupLane_lane_same, taken_lane]
        dsimp only
        split <;> rfl
      · exact (route_outPort l port _ p).trans (by rw [setupLane_port]; rfl)

end Sys2Proof.Machine
end

section
/-! An access failure of the frame store: the frames it reaches, the fills it empties, and what waited on them. -/

namespace Sys2Proof.Machine

open Sys2Proof

/-! ### What is done for each index in turn -/

/-- A record that the step for one index alone writes, where that index is not among those visited. -/
theorem foldl_unvisited {α β : Type} {f : α → State → State} (g : State → β) {j : α}
    (hother : ∀ i s, i ≠ j → g (f i s) = g s) (xs : List α) : j ∉ xs → ∀ s, g (xs.foldl (fun t i => f i t) s) = g s := by
  induction xs with
  | nil => exact fun _ _ => rfl
  | cons i xs ih =>
    intro hj s
    obtain ⟨hne, hj⟩ := List.ne_and_not_mem_of_not_mem_cons hj
    exact (ih hj _).trans (hother i s hne.symm)

/-- The record of an index that is visited once is what its own step makes of it, in a state that holds it as it stood. -/
theorem foldl_visited {α β : Type} {f : α → State → State} (g : α → State → β)
    (hother : ∀ i j s, i ≠ j → g j (f i s) = g j s) (xs : List α) : xs.Nodup → ∀ j ∈ xs, ∀ s,
      ∃ u, g j u = g j s ∧ g j (xs.foldl (fun t i => f i t) s) = g j (f j u) := by
  induction xs with
  | nil => exact fun _ j hj => nomatch hj
  | cons i xs ih =>
    intro hn j hj s
    obtain ⟨hi, hn⟩ := List.nodup_cons.mp hn
    rcases List.mem_cons.mp hj with rfl | hj
    · exact ⟨s, rfl, foldl_unvisited (g j) (fun i u h => hother i j u h) xs hi _⟩
    · obtain ⟨u, hu, hv⟩ := ih hn j hj (f i s)
      exact ⟨u, hu.trans (hother i j s fun e => hi (e ▸ hj)), hv⟩

theorem forAll_visited {n : Nat} {β : Type} {f : Fin n → State → State} (g : Fin n → State → β)
    (hother : ∀ i j s, i ≠ j → g j (f i s) = g j s) (s : State) (j : Fin n) :
    ∃ u, g j u = g j s ∧ g j (forAll f s) = g j (f j u) :=
  foldl_visited g hother _ (List.nodup_finRange n) j (List.mem_finRange j) s

/-! ### The frames being composed (R92, R118) -/

theorem failComposing_idle {l : LaneIx} {s : State} (h : ∀ fl, (s.out l).frame ≠ some ⟨.lines, fl⟩) :
    failComposing l s = s := by
  unfold failComposing
  split
  · rename_i fl hf
    exact absurd hf (h fl)
  · rfl

/-- R92, R118: the frame whose lines are being sent is filled from the line reached on, and its trailer carries the flag. -/
theorem failComposing_lines {l : LaneIx} {s : State} {fl : Option Nat} (h : (s.out l).frame = some ⟨.lines, fl⟩) :
    failComposing l s = { s with
      outs := wr s.outs l { s.out l with frame := some ⟨.lines, some (fl.getD (linesRead s l))⟩ }
      trailers := wr s.trailers l ((s.trailer l).map (fun c => { c with storeFault := true }))
      freeCount := s.freeCount + 1 } := by
  unfold failComposing
  rw [h]
  rfl

theorem failComposing_other {l x : LaneIx} (s : State) (h : l ≠ x) :
    (failComposing l s).out x = s.out x ∧ (failComposing l s).trailer x = s.trailer x := by
  unfold failComposing
  split
  · exact ⟨rd_wr_ne _ _ h, rd_wr_ne _ _ h⟩
  · exact ⟨rfl, rfl⟩

theorem failComposing_lane (l x : LaneIx) (s : State) : (failComposing l s).lane x = s.lane x := by
  rw [failComposing_eq]
  rfl

theorem linesRead_le {s : State} {l : LaneIx} {g : LaneSetup} (hg : (s.lane l).setup = some g) : linesRead s l ≤ g.height := by
  rw [linesRead, hg]
  exact Nat.le_of_lt_succ (Nat.mod_lt _ (Nat.succ_pos _))

theorem failComposings_eq (xs : List LaneIx) : ∀ s : State, xs.foldl (fun t l => failComposing l t) s = { s with
    outs := (xs.foldl (fun t l => failComposing l t) s).outs
    trailers := (xs.foldl (fun t l => failComposing l t) s).trailers
    freeCount := (xs.foldl (fun t l => failComposing l t) s).freeCount } := by
  induction xs with
  | nil => exact fun _ => rfl
  | cons l xs ih =>
    intro s
    rw [List.foldl_cons, ih (failComposing l s), failComposing_eq l s]

/-- R92, R118: the step of each lane, in the state that the lanes before it have left, reaches that lane's frame alone. -/
theorem faultReachesFrames_forAll (s : State) : FaultReachesFrames s (forAll failComposing s) := by
  intro l
  obtain ⟨u, hu, hv⟩ := forAll_visited (f := failComposing) (fun l s => (s.lane l, s.out l, s.trailer l))
    (fun i j s h => by simp only [failComposing_lane, failComposing_other s h]) s l
  simp only [Prod.mk.injEq] at hu hv
  obtain ⟨hlane, hout, htrailer⟩ := hu
  obtain ⟨-, hout', htrailer'⟩ := hv
  rw [hout', htrailer', ← hlane, ← hout, ← htrailer]
  refine ⟨fun h => ?_, fun fl h => ?_⟩
  · rw [failComposing_idle h]
    exact ⟨rfl, rfl⟩
  · rw [failComposing_lines h]
    exact ⟨rd_wr_same _ _ _, linesRead u l, fun g => linesRead_le, rd_wr_same _ _ _⟩

/-! ### One fill emptied, and what waited on it (R8, R33, R37, R40) -/

theorem fillingAt_some {s : State} {i : StreamIx} {p : Nat} :
    fillingAt s i = some p ↔ ∃ r, s.ring i = some r ∧ r.filling = some p := Option.bind_eq_some_iff

/-- R37: the freeze that waits on the fill of a stream. -/
def waitingFreeze (s : State) (i : StreamIx) : Option Tag :=
  if fillingAt s i = none then none else (s.stream i).pendingFreeze

/-- R33: the stop that waits on the fill of a stream. -/
def waitingStop (s : State) (i : StreamIx) : Option Tag :=
  if fillingAt s i = none then none else (s.stream i).pendingStop

/-- R8: the ring with its fill abandoned. -/
def Ring.emptied (r : Ring) : Ring := match r.filling with | none => r | some p => r.setFill p .empty

/-- R8, R33, R37: the record of a stream whose fill has been discarded, after what waited on the fill has been settled. -/
def Stream.fillDiscarded (r : Stream) : Stream :=
  { r with
    state := if r.pendingStop = none then r.state else .stopped
    admitted := if r.pendingStop = none then r.admitted else none
    freeze := if r.pendingFreeze = none then r.freeze else .frozen
    pendingStop := none, pendingFreeze := none
    counters := { r.counters with discarded := satInc r.counters.discarded } }

/-- R8, R40: what the discard of a fill writes, where there is one. -/
theorem streamDiscard_eq (c : Cause) (i : StreamIx) (s : State) : streamDiscard c i s = { s with
    rings := wr s.rings i ((s.ring i).map Ring.emptied)
    streams := wr s.streams i (if fillingAt s i = none then s.stream i else (s.stream i).fillDiscarded)
    claims := s.claims.filter (fun x => decide (x.holder = .stream i → waitingStop s i = none))
    link := (completeIf (waitingStop s i) .ok ([2, c.code] ++ [0, 0, 0, 0])
      (completeIf (waitingFreeze s i) .ok ([2, c.code] ++ seqBytes (newestSeq s i)) s)).link } := by
  cases hf : fillingAt s i with
  | none =>
    have hring : (s.ring i).map Ring.emptied = s.ring i := by
      cases hr : s.ring i with
      | none => rfl
      | some r =>
        have : r.filling = none := by simpa [fillingAt, hr] using hf
        simp [Ring.emptied, this]
    have hrings : wr s.rings i (s.ring i) = s.rings := wr_rd _ _
    have hstreams : wr s.streams i (s.stream i) = s.streams := wr_rd _ _
    rw [streamDiscard_none c hf, hring, if_pos rfl, hrings, hstreams]
    simp [waitingStop, waitingFreeze, hf, completeIf]
  | some p =>
    obtain ⟨r, hr, hp⟩ := fillingAt_some.mp hf
    have hclaims : (if (s.stream i).pendingStop = none then s.claims else s.claims.filter (fun c => c.holder ≠ .stream i)) =
        s.claims.filter (fun x => decide (x.holder = .stream i → (s.stream i).pendingStop = none)) := by
      split <;> rename_i h <;> simp [h]
    rw [streamDiscard_writes c hr hp, hclaims]
    simp [waitingStop, waitingFreeze, hf, hr, Ring.emptied, hp, Stream.fillDiscarded]

theorem streamDiscard_ring_same (c : Cause) (i : StreamIx) (s : State) :
    (streamDiscard c i s).ring i = (s.ring i).map Ring.emptied := by
  rw [streamDiscard_eq]
  exact rd_wr_same _ _ _

theorem streamDiscard_stream_same (c : Cause) (i : StreamIx) (s : State) : (streamDiscard c i s).stream i =
    if fillingAt s i = none then s.stream i else (s.stream i).fillDiscarded := by
  rw [streamDiscard_eq]
  exact rd_wr_same _ _ _

theorem streamDiscard_other (c : Cause) {i j : StreamIx} (s : State) (h : i ≠ j) :
    (streamDiscard c i s).ring j = s.ring j ∧ (streamDiscard c i s).stream j = s.stream j := by
  rw [streamDiscard_eq]
  exact ⟨rd_wr_ne _ _ h, rd_wr_ne _ _ h⟩

/-- What waits on a fill, and the newest frame, are in the ring and the record of the stream. -/
theorem waiting_congr {s t : State} {i : StreamIx} (hr : t.ring i = s.ring i) (hs : t.stream i = s.stream i) :
    waitingFreeze t i = waitingFreeze s i ∧ waitingStop t i = waitingStop s i ∧ newestSeq t i = newestSeq s i := by
  have hf : fillingAt t i = fillingAt s i := by rw [fillingAt, hr, fillingAt]
  simp only [waitingFreeze, waitingStop, newestSeq, hf, hr, hs, and_self]

/-! ### Every fill emptied (R130) -/

/-- R130: the claims of the streams whose stop waited on a fill are released. -/
theorem streamDiscards_claims (c : Cause) (xs : List StreamIx) : xs.Nodup → ∀ s : State,
    (xs.foldl (fun t i => streamDiscard c i t) s).claims =
      s.claims.filter (fun x => decide (∀ i ∈ xs, x.holder = .stream i → waitingStop s i = none)) := by
  induction xs with
  | nil => simp
  | cons i xs ih =>
    intro hn s
    obtain ⟨hi, hn⟩ := List.nodup_cons.mp hn
    have hclaims : (streamDiscard c i s).claims = _ := congrArg State.claims (streamDiscard_eq c i s)
    have hrest : ∀ j ∈ xs, waitingStop (streamDiscard c i s) j = waitingStop s j := fun j hj => by
      obtain ⟨hring, hstream⟩ := streamDiscard_other c s fun e : i = j => hi (e ▸ hj)
      obtain ⟨-, hstop, -⟩ := waiting_congr hring hstream
      exact hstop
    rw [List.foldl_cons, ih hn, hclaims, List.filter_filter]
    refine List.filter_congr fun x _ => ?_
    rw [← Bool.decide_and, decide_eq_decide, List.forall_mem_cons, and_comm]
    exact and_congr_right fun _ => forall₂_congr fun j hj => by rw [hrest j hj]

/-- R33, R37, R40: the final replies of the freeze and of the stop that waited on the fill of a stream. -/
def settledReplies (c : Cause) (s : State) (i : StreamIx) : List Reply :=
  (waitingFreeze s i).toList.map (fun tag => ⟨0x85, tag, .final, .ok, [2, c.code] ++ seqBytes (newestSeq s i)⟩) ++
    (waitingStop s i).toList.map (fun tag => ⟨0x84, tag, .final, .ok, [2, c.code] ++ [0, 0, 0, 0]⟩)

/-- R150: what waits on a fill has its entry in the outstanding table. -/
def WaitingEntered (s : State) (i : StreamIx) : Prop :=
  (∀ tag, waitingFreeze s i = some tag → ⟨tag, .streamFreeze i⟩ ∈ s.link.outstanding) ∧
    ∀ tag, waitingStop s i = some tag → ⟨tag, .streamStop i⟩ ∈ s.link.outstanding

/-- R40: the link after one fill has been discarded. -/
theorem streamDiscard_link (c : Cause) {i : StreamIx} {s : State} (hn : (s.link.outstanding.map Entry.tag).Nodup)
    (he : WaitingEntered s i) : (streamDiscard c i s).link = { s.link with
      outstanding := s.link.outstanding.filter (fun e =>
        decide (waitingFreeze s i ≠ some e.tag ∧ waitingStop s i ≠ some e.tag))
      replies := s.link.replies ++ settledReplies c s i } := by
  refine (congrArg State.link (streamDiscard_eq c i s)).trans ?_
  rw [settled_link _ _ hn he.1 he.2, List.append_assoc]
  rfl

/-- R150: the discard of one fill keeps the entries of what waits on another. -/
theorem WaitingEntered.kept {c : Cause} {i j : StreamIx} {s : State} (hn : (s.link.outstanding.map Entry.tag).Nodup)
    (hi : WaitingEntered s i) (hj : WaitingEntered s j) (hne : i ≠ j) : WaitingEntered (streamDiscard c i s) j := by
  obtain ⟨hring, hstream⟩ := streamDiscard_other c s hne
  obtain ⟨hfreeze, hstop, -⟩ := waiting_congr hring hstream
  have hmem : ∀ tag op, ⟨tag, op⟩ ∈ s.link.outstanding → op ≠ .streamFreeze i → op ≠ .streamStop i →
      ⟨tag, op⟩ ∈ (streamDiscard c i s).link.outstanding := by
    intro tag op hm hf hs
    rw [streamDiscard_link c hn hi]
    refine List.mem_filter.mpr ⟨hm, decide_eq_true ⟨fun h => hf ?_, fun h => hs ?_⟩⟩
    · exact congrArg Entry.op (entry_unique hn hm (hi.1 tag h) rfl)
    · exact congrArg Entry.op (entry_unique hn hm (hi.2 tag h) rfl)
  refine ⟨fun tag h => ?_, fun tag h => ?_⟩
  · rw [hfreeze] at h
    exact hmem tag _ (hj.1 tag h) (by simpa using hne.symm) (by simp)
  · rw [hstop] at h
    exact hmem tag _ (hj.2 tag h) (by simp) (by simpa using hne.symm)

/-- R33, R37, R40: the link after every fill has been discarded, the streams answered in their order (log 17). -/
theorem streamDiscards_link (c : Cause) (xs : List StreamIx) : xs.Nodup → ∀ s : State,
    (s.link.outstanding.map Entry.tag).Nodup → (∀ i ∈ xs, WaitingEntered s i) →
    (xs.foldl (fun t i => streamDiscard c i t) s).link = { s.link with
      outstanding := s.link.outstanding.filter (fun e =>
        decide (∀ i ∈ xs, waitingFreeze s i ≠ some e.tag ∧ waitingStop s i ≠ some e.tag))
      replies := s.link.replies ++ xs.flatMap (settledReplies c s) } := by
  induction xs with
  | nil => simp
  | cons i xs ih =>
    intro hx s hn he
    obtain ⟨hi, hx⟩ := List.nodup_cons.mp hx
    obtain ⟨hei, he⟩ := List.forall_mem_cons.mp he
    have hne : ∀ j ∈ xs, i ≠ j := fun j hj e => hi (e ▸ hj)
    have hrest : ∀ j ∈ xs, waitingFreeze (streamDiscard c i s) j = waitingFreeze s j ∧
        waitingStop (streamDiscard c i s) j = waitingStop s j ∧ newestSeq (streamDiscard c i s) j = newestSeq s j :=
      fun j hj => by
        obtain ⟨hring, hstream⟩ := streamDiscard_other c s (hne j hj)
        exact waiting_congr hring hstream
    have hlink := streamDiscard_link c hn hei
    have hn' : ((streamDiscard c i s).link.outstanding.map Entry.tag).Nodup := by
      rw [hlink]
      exact hn.sublist (List.filter_sublist.map _)
    rw [List.foldl_cons, ih hx _ hn' fun j hj => hei.kept hn (he j hj) (hne j hj), hlink]
    have hreplies : xs.flatMap (settledReplies c (streamDiscard c i s)) = xs.flatMap (settledReplies c s) := by
      refine List.flatMap_congr fun j hj => ?_
      obtain ⟨hf, hs, hq⟩ := hrest j hj
      rw [settledReplies, hf, hs, hq, settledReplies]
    have hentries : ∀ e : Entry,
        decide (∀ j ∈ i :: xs, waitingFreeze s j ≠ some e.tag ∧ waitingStop s j ≠ some e.tag) =
          (decide (∀ j ∈ xs, waitingFreeze (streamDiscard c i s) j ≠ some e.tag ∧
              waitingStop (streamDiscard c i s) j ≠ some e.tag) &&
            decide (waitingFreeze s i ≠ some e.tag ∧ waitingStop s i ≠ some e.tag)) := fun e => by
      rw [← Bool.decide_and, decide_eq_decide, List.forall_mem_cons, and_comm]
      refine and_congr_left fun _ => forall₂_congr fun j hj => ?_
      obtain ⟨hf, hs, -⟩ := hrest j hj
      rw [hf, hs]
    simp only [List.filter_filter, hentries, hreplies, List.flatMap_cons, List.append_assoc]

theorem streamDiscards_frame (c : Cause) (xs : List StreamIx) : ∀ s : State,
    xs.foldl (fun t i => streamDiscard c i t) s = { s with
      streams := (xs.foldl (fun t i => streamDiscard c i t) s).streams
      rings := (xs.foldl (fun t i => streamDiscard c i t) s).rings
      claims := (xs.foldl (fun t i => streamDiscard c i t) s).claims
      link := (xs.foldl (fun t i => streamDiscard c i t) s).link } := by
  induction xs with
  | nil => exact fun _ => rfl
  | cons i xs ih =>
    intro s
    rw [List.foldl_cons, ih (streamDiscard c i s), streamDiscard_frame c i s]

/-- R8, R33, R37: the ring and the record of each stream after every fill has been discarded. -/
theorem forAll_streamDiscard_at (c : Cause) (s : State) (i : StreamIx) :
    (forAll (streamDiscard c) s).ring i = (s.ring i).map Ring.emptied ∧
      (forAll (streamDiscard c) s).stream i = if fillingAt s i = none then s.stream i else (s.stream i).fillDiscarded := by
  obtain ⟨u, hu, hv⟩ := forAll_visited (f := streamDiscard c) (fun i s => (s.ring i, s.stream i))
    (fun i j s h => by simp only [streamDiscard_other c s h]) s i
  simp only [Prod.mk.injEq] at hu hv
  obtain ⟨hring, hstream⟩ := hu
  obtain ⟨hring', hstream'⟩ := hv
  have hf : fillingAt u i = fillingAt s i := by rw [fillingAt, hring, fillingAt]
  rw [hring', hstream', streamDiscard_ring_same, streamDiscard_stream_same, hf, hring, hstream]
  exact ⟨rfl, rfl⟩

/-! ### The failure (R130, R131) -/

/-- R130: the store in FAULT, and the frames it reaches. -/
def storeFailed (s : State) : State := forAll failComposing { s with store := { s.store with state := .fault .access } }

theorem storeFailed_eq (s : State) : storeFailed s = { s with
    store := { s.store with state := .fault .access }
    outs := (storeFailed s).outs, trailers := (storeFailed s).trailers, freeCount := (storeFailed s).freeCount } := by
  have h := failComposings_eq (List.finRange 6) { s with store := { s.store with state := .fault .access } }
  unfold storeFailed forAll
  generalize List.foldl _ _ _ = w at h ⊢
  rw [h]

theorem storeFailed_frames (s : State) : FaultReachesFrames s (storeFailed s) := by
  have h := faultReachesFrames_forAll { s with store := { s.store with state := .fault .access } }
  unfold storeFailed
  generalize forAll failComposing _ = u at h ⊢
  exact h

/-- R130: what the failure of a READY store writes. -/
theorem accessFailure_ready {s : State} (h : s.store.state = .ready) :
    accessFailure s = { s with
      store := { s.store with state := .fault .access }
      outs := (storeFailed s).outs
      trailers := (storeFailed s).trailers
      freeCount := (storeFailed s).freeCount
      streams := (forAll (streamDiscard .access) (storeFailed s)).streams
      rings := (forAll (streamDiscard .access) (storeFailed s)).rings
      claims := (forAll (streamDiscard .access) (storeFailed s)).claims
      link := (forAll (streamDiscard .access) (storeFailed s)).link
      notices := (raise (.storeFault .access) s).notices } := by
  have hframe := streamDiscards_frame .access (List.finRange 20) (storeFailed s)
  rw [accessFailure, if_pos h]
  change raise _ (forAll (streamDiscard .access) (storeFailed s)) = _
  unfold forAll
  generalize List.foldl _ _ _ = w at hframe ⊢
  rw [hframe, storeFailed_eq]
  generalize storeFailed s = u
  exact raise_congr (s := s) _ rfl rfl

/-- R130: what the fills are judged by has not been written when the store has failed. -/
theorem storeFailed_kept (s : State) : (storeFailed s).rings = s.rings ∧ (storeFailed s).streams = s.streams ∧
    (storeFailed s).claims = s.claims ∧ (storeFailed s).link = s.link := by
  have h := storeFailed_eq s
  generalize storeFailed s = u at h ⊢
  rw [h]
  exact ⟨rfl, rfl, rfl, rfl⟩

theorem waitingStop_none (s : State) (i : StreamIx) :
    waitingStop s i = none ↔ fillingAt s i = none ∨ (s.stream i).pendingStop = none := by
  unfold waitingStop
  split <;> simp [*]

/-- R150: an entry is not of what waits on the fill of a stream. -/
theorem waiting_ne (s : State) (i : StreamIx) (tag : Tag) : (waitingFreeze s i ≠ some tag ∧ waitingStop s i ≠ some tag) ↔
    fillingAt s i = none ∨ ((s.stream i).pendingFreeze ≠ some tag ∧ (s.stream i).pendingStop ≠ some tag) := by
  unfold waitingFreeze waitingStop
  split <;> simp [*]

theorem settledReplies_eq (c : Cause) (s : State) (i : StreamIx) : settledReplies c s i =
    if fillingAt s i = none then [] else
      (s.stream i).pendingFreeze.toList.map (fun tag => ⟨replyKind Kind.streamFreeze.code, tag, .final, .ok,
        [2, c.code] ++ u32 ((newestSeq s i).getD 0).toNat⟩) ++
      (s.stream i).pendingStop.toList.map (fun tag => ⟨replyKind Kind.streamStop.code, tag, .final, .ok,
        [2, c.code, 0, 0, 0, 0]⟩) := by
  have hf : replyKind Kind.streamFreeze.code = 0x85 := by decide
  have hs : replyKind Kind.streamStop.code = 0x84 := by decide
  rw [hf, hs, settledReplies, waitingFreeze, waitingStop]
  split <;> rfl

/-- R130: the ring and the record of each stream after the failure of the store. -/
theorem storeFailed_fills (s : State) (i : StreamIx) :
    (forAll (streamDiscard .access) (storeFailed s)).ring i = (s.ring i).map Ring.emptied ∧
      (forAll (streamDiscard .access) (storeFailed s)).stream i =
        if fillingAt s i = none then s.stream i else (s.stream i).fillDiscarded := by
  obtain ⟨hrings, hstreams, -, -⟩ := storeFailed_kept s
  have hring : (storeFailed s).ring i = s.ring i := congrArg (rd · i) hrings
  have hstream : (storeFailed s).stream i = s.stream i := congrArg (rd · i) hstreams
  have hf : fillingAt (storeFailed s) i = fillingAt s i := by rw [fillingAt, hring, fillingAt]
  rw [← hring, ← hstream, ← hf]
  exact forAll_streamDiscard_at .access _ i

/-- R33, R37, R40: the claims and the link after the failure of the store. -/
theorem storeFailed_settled (s : State) :
    (forAll (streamDiscard .access) (storeFailed s)).claims = s.claims.filter (fun x =>
      decide (∀ i, x.holder = .stream i → waitingStop s i = none)) ∧
    ((s.link.outstanding.map Entry.tag).Nodup → (∀ i, WaitingEntered s i) →
      (forAll (streamDiscard .access) (storeFailed s)).link = { s.link with
        outstanding := s.link.outstanding.filter (fun e =>
          decide (∀ i, waitingFreeze s i ≠ some e.tag ∧ waitingStop s i ≠ some e.tag))
        replies := s.link.replies ++ (List.finRange 20).flatMap (settledReplies .access s) }) := by
  obtain ⟨hrings, hstreams, hclaims, hlink⟩ := storeFailed_kept s
  have hwaiting : ∀ i, waitingFreeze (storeFailed s) i = waitingFreeze s i ∧
      waitingStop (storeFailed s) i = waitingStop s i ∧ newestSeq (storeFailed s) i = newestSeq s i := fun i =>
    waiting_congr (congrArg (rd · i) hrings) (congrArg (rd · i) hstreams)
  have hall := List.nodup_finRange 20
  refine ⟨(streamDiscards_claims .access _ hall _).trans ?_,
    fun hn he => (streamDiscards_link .access _ hall _ ?_ ?_).trans ?_⟩
  · simp only [hclaims, hwaiting, List.mem_finRange, true_imp_iff]
  · rwa [hlink]
  · intro i _
    simpa only [WaitingEntered, hlink, hwaiting] using he i
  · have hreplies : settledReplies .access (storeFailed s) = settledReplies .access s := by
      funext i
      obtain ⟨hf, hs, hq⟩ := hwaiting i
      rw [settledReplies, hf, hs, hq, settledReplies]
    simp only [hlink, hreplies, hwaiting, List.mem_finRange, true_imp_iff]

/-- Settles O49: the frames, the rings, the stream records, the claims and the link after the failure of a READY store. -/
theorem accessFailureStopsTheStore : Obligations.AccessFailureStopsTheStore := by
  refine ⟨fun s ha hs => ?_, fun s ha hs => ?_⟩
  · have hfills := storeFailed_fills s
    have hframes := storeFailed_frames s
    obtain ⟨hclaims, hlink⟩ := storeFailed_settled s
    have hexec : exec .dramAccessFailure s = .next (accessFailure s) := whileReleased_next _ ha
    rw [accessFailure_ready hs] at hexec
    generalize forAll (streamDiscard .access) (storeFailed s) = v at hexec hfills hclaims hlink
    generalize storeFailed s = u at hexec hframes
    refine ⟨_, hexec, hframes, rfl, fun i => (hfills i).1, fun i hi => (hfills i).2.trans (if_pos hi),
      fun i hi => (hfills i).2.trans (if_neg hi), hclaims.trans ?_, fun hn hf hstop => (hlink hn fun i => ?_).trans ?_,
      rfl, rfl, rfl, rfl, rfl, rfl, rfl, rfl⟩
    · simp only [waitingStop_none]
    · unfold WaitingEntered waitingFreeze waitingStop
      split
      · exact ⟨fun _ h => (nomatch h), fun _ h => (nomatch h)⟩
      · exact ⟨hf i, hstop i⟩
    · have hreplies : settledReplies .access s = _ := funext (settledReplies_eq .access s)
      simp only [waiting_ne, hreplies]
      rfl
  · refine (whileReleased_next _ ha).trans ?_
    rw [accessFailure, if_neg hs]

end Sys2Proof.Machine
end

section
/-! LOCK_JOIN judged in the order of R105, and LOCK_LEAVE: the roles of the group, and what the leaving lane goes on with. -/

namespace Sys2Proof.Machine

open Sys2Proof

/-! ### LOCK_JOIN (R105) -/

/-- R105: a lane can be named as the leader while it is FREE or LEADER. -/
theorem Lock.follows_iff (k : Lock) : k.follows = true ↔ k.role ∉ [LockRole.free, .leader] := by
  unfold Lock.follows
  cases k.role <;> simp

section

variable {s : State} {tag : Tag} {bf bl : Byte} {l ld : LaneIx} (ht : tagHeld s.link tag = false)
  (hf : bf.toNat = l.val) (hl : bl.toNat = ld.val) (hne : l ≠ ld)

include ht hf hl hne

/-- R105: the refusals by the two roles and by the periods; a lane that is UNSET is refused alike. -/
theorem lockJoin_badState (h : (s.lock l).role ≠ .free ∨ (s.lock ld).role ∉ [LockRole.free, .leader] ∨
    (s.lane l).setup.map LaneSetup.period ≠ (s.lane ld).setup.map LaneSetup.period) :
    lockJoin tag [bf, bl] s = refuse .badState := by
  rcases h with hr | hld | hp
  · simp [lockJoin, ht, index?_val l hf, index?_val ld hl, hne, hr]
  · simp [lockJoin, ht, index?_val l hf, index?_val ld hl, hne, (Lock.follows_iff _).mpr hld]
  · simp [lockJoin, ht, index?_val l hf, index?_val ld hl, hne, equalPeriods, hp]

/-- R105: a READY lane is a follower at once. -/
theorem lockJoin_ready (hs : (s.lane l).state = .ready) (hu : (s.lane ld).state ≠ .unset) (hr : (s.lock l).role = .free)
    (hp : (s.lane l).setup.map LaneSetup.period = (s.lane ld).setup.map LaneSetup.period)
    (hld : (s.lock ld).role ∈ [LockRole.free, .leader]) :
    lockJoin tag [bf, bl] s =
      okReply .lockJoin tag [] (makeLeader ld (s.modLock l (fun _ => ⟨.follower ld, none⟩))) := by
  have hfollows : (s.lock ld).follows = false :=
    Bool.eq_false_iff.mpr fun h => (Lock.follows_iff _).mp h hld
  simp [lockJoin, ht, index?_val l hf, index?_val ld hl, hne, hs, hu, hfollows, hr, equalPeriods, hp]

end

/-! ### What a leave does to the pacing of a follower (R110) -/

/-- R94: the first boundary of a run leaves the roles as they are. -/
theorem firstBoundary_locks (l : LaneIx) (t : Time) (s : State) : (firstBoundary l t s).locks = s.locks := by
  obtain ⟨rings, unit, tiles, lastShown, counters, h⟩ := firstBoundary_outputStep l t s
  rw [h]
  unfold outputStep rearm
  dsimp only
  split <;> rfl

theorem startRun_locks (l : LaneIx) (t : Time) (s : State) : (startRun l t s).locks = s.locks := by
  unfold startRun
  dsimp only
  rw [completeIf_eq]
  exact firstBoundary_locks l t _

/-- R110: in every state, the role of the lane that leaves becomes FREE, and no other role changes. -/
theorem leaveGroup_locks (l : LaneIx) (s : State) : (leaveGroup l s).locks = wr s.locks l ⟨.free, none⟩ := by
  unfold leaveGroup
  cases (s.lane l).state with
  | starting => exact startRun_locks l _ (freeLane l s)
  | unset | ready | running | stopping => rfl

theorem leaveGroup_idle {s : State} {l : LaneIx} (hs : (s.lane l).state ∈ [LaneState.unset, .ready]) :
    leaveGroup l s = freeLane l s := by
  have hs' : (s.lane l).state = .unset ∨ (s.lane l).state = .ready := by simpa using hs
  unfold leaveGroup
  rcases hs' with hs' | hs' <;> rw [hs']

/-- R110: the lane paces itself one period after its last relayed boundary. -/
theorem leaveGroup_busy {s : State} {l : LaneIx} {g : LaneSetup} {t : Time}
    (hs : (s.lane l).state ∈ [LaneState.running, .stopping]) (hg : (s.lane l).setup = some g)
    (ht : (s.lock l).lastRelayed = some t) :
    leaveGroup l s = freeLane l { s with
      lanes := wr s.lanes l { s.lane l with timer := some (t + BitVec.ofNat 32 g.period) } } := by
  have hs' : (s.lane l).state = .running ∨ (s.lane l).state = .stopping := by simpa using hs
  have htimer : (s.lane l).setup.map (fun g => after t g.period) = some (t + BitVec.ofNat 32 g.period) := by
    rw [hg]
    rfl
  have harm : armAfterRelay l s = { s with
      lanes := wr s.lanes l { s.lane l with timer := some (t + BitVec.ofNat 32 g.period) } } := by
    rw [armAfterRelay, ht, Option.getD_some, armTimer, State.modLane, htimer]
  unfold leaveGroup
  rcases hs' with hs' | hs' <;> rw [hs', harm]

theorem leaveGroup_starting {s : State} {l : LaneIx} (hs : (s.lane l).state = .starting) :
    leaveGroup l s = startRun l s.deviceTime (freeLane l s) := by
  rw [leaveGroup, hs]

/-! ### LOCK_LEAVE (R110, R111) -/

/-- R103: the roles after a lane has left the group of a leader: its own FREE, and the leader's where no other lane names it. -/
def locksLeft (s : State) (l ld : LaneIx) : Vector Lock 6 :=
  if ∀ x, x ≠ l → (s.lock x).role.leaderNamed ≠ some ld then wr (wr s.locks l ⟨.free, none⟩) ld ⟨.free, none⟩
  else wr s.locks l ⟨.free, none⟩

theorem freeLeader_left {s v : State} {l : LaneIx} (ld : LaneIx) (hv : v.locks = wr s.locks l ⟨.free, none⟩) :
    freeLeader ld v = { v with locks := locksLeft s l ld } :=
  freeLeader_freed ld hv

/-- R111: the withdrawal of a join, by its join phase. -/
theorem cancelJoin_found {s : State} {l ld : LaneIx} {phase : JoinPhase} {old : Tag} {x : Entry}
    (hr : (s.lock l).role = .joining ld phase old) (hx : s.link.outstanding.find? (fun y => y.tag = old) = some x) :
    cancelJoin old l s =
      let dropped := { s with
        locks := locksLeft s l ld
        link := { s.link with
          outstanding := s.link.outstanding.eraseP (fun y => y.tag = old)
          replies := s.link.replies ++ [⟨replyKind x.op.kind.code, old, .final, .cancelled, []⟩] } }
      if phase = .finishing then dropped else laneBoundary l s.deviceTime dropped := by
  rw [cancelJoin, hr]
  dsimp only
  rw [complete_found (s := freeLane l s) _ _ hx, freeLeader_left (s := s) (l := l) ld rfl]
  cases phase <;> rfl

section

variable {s : State} {tag : Tag} {bl : Byte} {l ld : LaneIx} (hw : WaitingFor s .lockLeave tag [bl]) (hl : bl.toNat = l.val)

include hw hl

/-- R110: the leave of a FOLLOWER. -/
theorem exec_lockLeave_follower (hr : (s.lock l).role = .follower ld) : exec (.lockLeave tag [bl]) s =
    .next (firstReply .lockLeave tag .ok [] { leaveGroup l (taken s) with locks := locksLeft s l ld }) := by
  refine (request_waiting lockLeave hw).trans ?_
  simp only [lockLeave, index?_val l hl, taken_lock, hr, answer_okReply]
  rw [freeLeader_left (s := s) (l := l) ld (leaveGroup_locks l (taken s))]

/-- R111: the leave of a JOINING lane is the withdrawal of its join. -/
theorem exec_lockLeave_joining {phase : JoinPhase} {old : Tag} (hr : (s.lock l).role = .joining ld phase old) :
    exec (.lockLeave tag [bl]) s = .next (firstReply .lockLeave tag .ok [] (cancelJoin old l (taken s))) := by
  refine (request_waiting lockLeave hw).trans ?_
  simp only [lockLeave, index?_val l hl, taken_lock, hr, answer_okReply]

/-- R110: a lane that is in no group, or leads one, cannot leave. -/
theorem exec_lockLeave_badState (hr : (s.lock l).role ∈ [LockRole.free, .leader]) :
    exec (.lockLeave tag [bl]) s = .next (s.answered .lockLeave tag .badState []) := by
  have hr' : (s.lock l).role = .free ∨ (s.lock l).role = .leader := by simpa using hr
  refine exec_commandOf_refused (k := .lockLeave) hw ?_
  rcases hr' with hr' | hr' <;> simp only [judgeOf, lockLeave, index?_val l hl, taken_lock, hr']

end

/-- Settles O46: the join of a READY lane with its refusals, and the leave by the role and the state of the lane. -/
theorem joinAndLeaveAGroup : Obligations.JoinAndLeaveAGroup := by
  refine ⟨fun s tag bf bl l ld hw ht hf hl hne hs hu hr hp => ⟨fun hld => ?_, fun hld => ?_⟩,
    fun s tag bf bl l ld hw ht hf hl hne h => ?_, fun s tag bl l ld hw hl hn => ?_,
    fun s tag bl l hw hl => exec_lockLeave_badState hw hl⟩
  · refine (request_waiting lockJoin hw).trans ?_
    rw [lockJoin_ready (s := taken s) ht hf hl hne hs hu hr hp hld, makeLeader_joining _ _ hne]
    rfl
  · exact exec_commandOf_refused (k := .lockJoin) hw (lockJoin_badState (s := taken s) ht hf hl hne (.inr (.inl hld)))
  · exact exec_commandOf_refused (k := .lockJoin) hw (lockJoin_badState (s := taken s) ht hf hl hne h)
  · refine ⟨fun hr => ⟨fun hs => ?_, fun g t hs hg ht => ?_, fun hs => ?_⟩, fun phase old x hr hx => ?_⟩
    · rw [exec_lockLeave_follower hw hl hr, leaveGroup_idle (s := taken s) hs]
      rfl
    · rw [exec_lockLeave_follower hw hl hr, leaveGroup_busy (s := taken s) hs hg ht]
      rfl
    · rw [exec_lockLeave_follower hw hl hr, leaveGroup_starting (s := taken s) hs]
      rfl
    · rw [exec_lockLeave_joining hw hl hr, cancelJoin_found (s := taken s) hr hx]
      cases phase <;> rfl

end Sys2Proof.Machine
end

section
/-! The events of bring-up: a stage that ends well, a stage or a deadline that ends bring-up in FAULT, and the READY store. -/

namespace Sys2Proof.Machine

open Sys2Proof

/-! ### The failure of bring-up (R127, R118) -/

/-- R118: the frames being composed are reached alike, whatever the store's record becomes. -/
theorem failBringup_frames (c : StoreCause) (s : State) : FaultReachesFrames s (failBringup c s) := by
  have h := faultReachesFrames_forAll { s with store := ⟨.fault c, none, none, 0, []⟩ }
  unfold failBringup
  generalize forAll failComposing _ = u at h ⊢
  rw [raise_eq]
  exact h

/-- R162: a notice is raised alike whatever the records of the store and of the output frames hold. -/
theorem raise_storeAndFrames (b : NoticeBody) (s : State) (st : Store) (o : Vector LaneOut 6) (tr : Vector (Option Trailer) 6)
    (n : Nat) : raise b { s with store := st, outs := o, trailers := tr, freeCount := n } =
      { raise b s with store := st, outs := o, trailers := tr, freeCount := n } := by
  refine Eq.trans (raise_congr (s := s) b (by rfl) (by rfl)) ?_
  conv_rhs => rw [raise_eq b s]

/-- R127: beside the frames being composed, the failure writes the store's record and the notice. -/
theorem failBringup_eq (c : StoreCause) (s : State) : failBringup c s = { raise (.storeFault c) s with
    store := ⟨.fault c, none, none, 0, []⟩
    outs := (failBringup c s).outs, trailers := (failBringup c s).trailers, freeCount := (failBringup c s).freeCount } := by
  have h := failComposings_eq (List.finRange 6) { s with store := ⟨.fault c, none, none, 0, []⟩ }
  unfold failBringup forAll
  generalize List.foldl _ _ _ = u at h ⊢
  have hu : u = { s with
      store := ⟨.fault c, none, none, 0, []⟩, outs := u.outs, trailers := u.trailers, freeCount := u.freeCount } := h
  rw [hu, raise_storeAndFrames]

/-- R127: an event of bring-up that fails, by what it has written. -/
theorem exec_failBringup {cmd : Instr} {c : StoreCause} {s : State} (h : exec cmd s = .next (failBringup c s)) :
    ∃ t : State, exec cmd s = .next t ∧ FaultReachesFrames s t ∧ t = { raise (.storeFault c) s with
      store := ⟨.fault c, none, none, 0, []⟩, outs := t.outs, trailers := t.trailers, freeCount := t.freeCount } :=
  ⟨_, h, failBringup_frames c s, failBringup_eq c s⟩

/-! ### The success of bring-up (R126) -/

theorem supported_iff (mib : Nat) : supported mib = true ↔ mib = 128 ∨ mib = 256 ∨ mib = 512 := by
  simp [supported, or_assoc]

theorem finishBringup_small (s : State) : finishBringup 128 s = raise (.storeReady 128 32)
    { s with store := ⟨.ready, some 128, some ⟨1920, 1088⟩, 32, List.range 32⟩ } := rfl

theorem finishBringup_large {mib : Nat} (h : mib = 256 ∨ mib = 512) (s : State) : finishBringup mib s =
    raise (.storeReady mib 64) { s with store := ⟨.ready, some mib, some ⟨1920, 1088⟩, 64, List.range 64⟩ } := by
  have hcount : defaultCount mib = 64 := if_neg (by omega)
  rw [finishBringup, hcount]
  rfl

/-! ### The stages and the deadline, each where it stands (R125, log 5) -/

section

variable {s : State} {d : Time} (ha : s.resetAsserted = false)

include ha

theorem exec_bringupProbeDone (h : s.store.state = .bringup .probe d) (b : Bool) : exec (.bringupProbeDone b) s =
    .next (if b then enterStage .training d s else failBringup .noResponse s) :=
  (whileReleased_next _ ha).trans (by rw [probeDone, h])

theorem exec_bringupTrainingDone (h : s.store.state = .bringup .training d) (b : Bool) : exec (.bringupTrainingDone b) s =
    .next (if b then enterStage .sizing d s else failBringup .training s) :=
  (whileReleased_next _ ha).trans (by rw [trainingDone, h])

theorem exec_bringupSizingDone (h : s.store.state = .bringup .sizing d) (mib : Nat) : exec (.bringupSizingDone mib) s =
    .next (if supported mib then finishBringup mib s else failBringup .unsupported s) :=
  (whileReleased_next _ ha).trans (by rw [sizingDone, h])

theorem exec_bringupDeadlineExpiry_due {stage : BringupStage} (h : s.store.state = .bringup stage d)
    (hd : (s.deviceTime - d).toNat < 2147483648) :
    exec .bringupDeadlineExpiry s = .next (failBringup stage.cause s) := by
  have hdue : due s.deviceTime d = true := decide_eq_true hd
  refine (whileReleased_next _ ha).trans ?_
  rw [deadlineExpiry, h]
  exact congrArg _ (if_pos hdue)

end

/-- Settles O48: each event in the stage in which it acts, and the failure of bring-up by its cause. -/
theorem bringupMovesThroughItsStages : Obligations.BringupMovesThroughItsStages := by
  refine fun s d ha => ⟨fun h => ⟨exec_bringupProbeDone ha h true, exec_failBringup ?_⟩,
    fun h => ⟨exec_bringupTrainingDone ha h true, exec_failBringup ?_⟩,
    fun h mib => ⟨fun hm => ?_, fun hm => ?_, fun h128 h256 h512 => exec_failBringup ?_⟩,
    fun stage h hd => exec_failBringup ?_⟩
  · rw [exec_bringupProbeDone ha h, if_neg Bool.false_ne_true]
  · rw [exec_bringupTrainingDone ha h, if_neg Bool.false_ne_true]
  · rw [exec_bringupSizingDone ha h, if_pos ((supported_iff mib).mpr (.inl hm)), hm, finishBringup_small]
  · rw [exec_bringupSizingDone ha h, if_pos ((supported_iff mib).mpr (.inr hm)), finishBringup_large hm]
  · rw [exec_bringupSizingDone ha h, if_neg (by simp [supported_iff, h128, h256, h512])]
  · rw [exec_bringupDeadlineExpiry_due ha h hd]
    cases stage <;> rfl

end Sys2Proof.Machine
end

section
/-! Every pool slot has one holder: the free set, or the ring of one stream, through everything a command can do. -/

namespace Sys2Proof.Machine

open Sys2Proof

/-! ### The uses of a slot -/

/-- A slot's uses: in the free set, in the ring of one stream, in the rings of the others. -/
theorem slotUses_split (s : State) (i : StreamIx) (n : Nat) : slotUses s n =
    s.store.free.count n + (poolsOf (s.ring i)).count n + ∑ j ∈ Finset.univ.erase i, (poolsOf (s.ring j)).count n := by
  unfold slotUses
  rw [← Fin.sum_univ_def, ← Finset.add_sum_erase _ _ (Finset.mem_univ i), Nat.add_assoc]

/-- Slots that go between the free set and one ring keep their number of uses. -/
theorem slotUses_moved {s t : State} (i : StreamIx) {n : Nat} (ho : ∀ j, j ≠ i → t.ring j = s.ring j)
    (hm : t.store.free.count n + (poolsOf (t.ring i)).count n = s.store.free.count n + (poolsOf (s.ring i)).count n) :
    slotUses t n = slotUses s n := by
  rw [slotUses_split t i, slotUses_split s i, hm]
  congr 1
  exact Finset.sum_congr rfl (fun j hj => by rw [ho j (Finset.ne_of_mem_erase hj)])

theorem slotUses_congr {s t : State} (hf : t.store.free = s.store.free)
    (hp : ∀ i, poolsOf (t.ring i) = poolsOf (s.ring i)) (n : Nat) : slotUses t n = slotUses s n := by
  unfold slotUses
  rw [hf]
  simp only [hp]

/-- A slot that is not used stands neither in the free set nor in a ring. -/
theorem not_used {s : State} {n : Nat} (h : slotUses s n = 0) : n ∉ s.store.free ∧ ∀ i, n ∉ poolsOf (s.ring i) := by
  refine ⟨fun hm => ?_, fun i hm => ?_⟩
  · have := List.count_pos_iff.mpr hm
    unfold slotUses at h
    omega
  · have := List.count_pos_iff.mpr hm
    rw [slotUses_split s i] at h
    omega

/-! ### Slots returned to the free list -/

theorem insertSlot_perm {x : Nat} {ys : List Nat} (h : x ∉ ys) : (insertSlot x ys).Perm (x :: ys) := by
  induction ys with
  | nil => exact .refl _
  | cons y ys ih =>
    obtain ⟨hxy, hys⟩ := not_or.mp (mt List.mem_cons.mpr h)
    unfold insertSlot
    rw [if_neg hxy]
    split
    · exact .refl _
    · exact ((ih hys).cons y).trans (.swap x y ys)

theorem insertSlot_rising {x : Nat} {ys : List Nat} (h : ys.Pairwise (· < ·)) : (insertSlot x ys).Pairwise (· < ·) := by
  induction ys with
  | nil => exact List.pairwise_singleton _ x
  | cons y ys ih =>
    obtain ⟨hy, hys⟩ := List.pairwise_cons.mp h
    unfold insertSlot
    split
    · rename_i hxy
      exact h.cons (fun z hz => (List.mem_cons.mp hz).elim (fun e => e ▸ hxy) (fun hz => hxy.trans (hy z hz)))
    · split
      · exact h
      · refine (ih hys).cons (fun z hz => ?_)
        rcases (mem_insertSlot x z ys).mp hz with rfl | hz
        · omega
        · exact hy z hz

theorem insertSlots_rising (ps : List Nat) : ∀ {fs : List Nat}, fs.Pairwise (· < ·) →
    (ps.foldl (fun fs p => insertSlot p fs) fs).Pairwise (· < ·) := by
  induction ps with
  | nil => exact id
  | cons p ps ih => exact fun h => ih (insertSlot_rising h)

/-- Slots of which none is free yet, and none stands twice, are added to the free list each once. -/
theorem insertSlots_perm (ps : List Nat) : ∀ {fs : List Nat}, (ps ++ fs).Nodup →
    (ps.foldl (fun fs p => insertSlot p fs) fs).Perm (ps ++ fs) := by
  induction ps with
  | nil => exact fun _ => .refl _
  | cons p ps ih =>
    intro fs h
    obtain ⟨hp, hn⟩ := List.nodup_cons.mp h
    have hfs := insertSlot_perm (fun hm => hp (List.mem_append_right ps hm))
    have hmid := (hfs.append_left ps).trans List.perm_middle
    exact (ih (hmid.nodup_iff.mpr h)).trans hmid

/-! ### The law of the pool -/

namespace PoolLaw

/-- R128: the free set is held in rising order. -/
theorem rising {s : State} (h : PoolLaw s) : s.store.free.Pairwise (· < ·) := by
  obtain ⟨-, hrising, -⟩ := h
  exact hrising

/-- R1: an UNBOUND stream has no ring. -/
theorem no_ring {s : State} (h : PoolLaw s) (i : StreamIx) (hu : (s.stream i).state = .unbound) : s.ring i = none := by
  obtain ⟨-, -, hbound, -, -⟩ := h
  exact hbound i hu

/-- R128: the slots of one ring, with the free ones, are each used once. -/
theorem ring_free_nodup {s : State} (h : PoolLaw s) (i : StreamIx) : (poolsOf (s.ring i) ++ s.store.free).Nodup := by
  obtain ⟨huses, -⟩ := h
  rw [List.nodup_iff_count_le_one]
  intro n
  have hn := huses n
  rw [slotUses_split s i] at hn
  rw [List.count_append]
  split at hn <;> omega

/-- R124: a store without a format has no slot, so that none is free and none backs a ring. -/
theorem no_slots {s : State} (h : PoolLaw s) (hu : s.store.unformatted = true) :
    s.store.count = 0 ∧ s.store.free = [] ∧ ∀ i, poolsOf (s.ring i) = [] := by
  obtain ⟨huses, -, -, hcount, -⟩ := h
  have hzero : ∀ n, slotUses s n = 0 := fun n => by rw [huses, hcount hu, if_neg (Nat.not_lt_zero n)]
  exact ⟨hcount hu, List.eq_nil_iff_forall_not_mem.mpr (fun n => (not_used (hzero n)).1),
    fun i => List.eq_nil_iff_forall_not_mem.mpr (fun n => (not_used (hzero n)).2 i)⟩

/-- The store and RESET_N stand, each ring keeps its slots, and no stream becomes UNBOUND or gains a ring. -/
theorem of_pools {s t : State} (h : PoolLaw s) (hs : t.store = s.store) (ha : t.resetAsserted = s.resetAsserted)
    (hp : ∀ i, poolsOf (t.ring i) = poolsOf (s.ring i)) (hn : ∀ i, s.ring i = none → t.ring i = none)
    (hu : ∀ i, (t.stream i).state = .unbound → (s.stream i).state = .unbound) : PoolLaw t := by
  obtain ⟨huses, hrising, hbound, hcount, hreset⟩ := h
  refine ⟨fun n => ?_, hs ▸ hrising, fun i hi => hn i (hbound i (hu i hi)), hs ▸ hcount, ha ▸ hs ▸ hreset⟩
  rw [slotUses_congr (by rw [hs]) hp, huses, hs]

/-- The parts that the law speaks of are as they were. -/
theorem of_same {s t : State} (h : PoolLaw s) (hs : t.store = s.store) (ha : t.resetAsserted = s.resetAsserted)
    (hr : t.rings = s.rings) (hu : t.streams = s.streams) : PoolLaw t :=
  h.of_pools hs ha (fun i => by simp only [State.ring, hr]) (fun i => by simp only [State.ring, hr]; exact id)
    (fun i => by simp only [State.stream, hu]; exact id)

/-- R126, R132, R133: every configured slot is free, and no ring holds one. -/
theorem of_allFree {t : State} (hf : t.store.free = List.range t.store.count) (hp : ∀ i, poolsOf (t.ring i) = [])
    (hn : ∀ i, (t.stream i).state = .unbound → t.ring i = none) (hc : t.store.unformatted = true → t.store.count = 0)
    (ha : t.resetAsserted = true → t.store.state = .offline) : PoolLaw t := by
  refine ⟨fun n => ?_, hf ▸ List.pairwise_lt_range, hn, hc, ha⟩
  simp [slotUses, hp, hf]

/-- R125, R126: bring-up writes the store record alone, in which no slot stood. -/
theorem broughtUp {s t : State} (h : PoolLaw s) (hu : s.store.unformatted = true) (hr : t.rings = s.rings)
    (hi : t.streams = s.streams) (hf : t.store.free = List.range t.store.count)
    (hc : t.store.unformatted = true → t.store.count = 0) (ha : t.resetAsserted = true → t.store.state = .offline) :
    PoolLaw t := by
  obtain ⟨-, -, hp⟩ := h.no_slots hu
  refine of_allFree hf (fun i => ?_) (fun i => ?_) hc ha
  · simpa only [State.ring, hr] using hp i
  · simpa only [State.ring, State.stream, hr, hi] using h.no_ring i

/-- R125: a store without a format changes its state alone. -/
theorem restaged {s t : State} (h : PoolLaw s) (hu : s.store.unformatted = true) {x : StoreState}
    (hs : t.store = { s.store with state := x }) (hr : t.rings = s.rings) (hi : t.streams = s.streams)
    (ha : t.resetAsserted = true → t.store.state = .offline) : PoolLaw t := by
  obtain ⟨hcount, hfree, -⟩ := h.no_slots hu
  have hcount' : t.store.count = 0 := by rw [hs]; exact hcount
  have hfree' : t.store.free = [] := by rw [hs]; exact hfree
  exact h.broughtUp hu hr hi (by rw [hfree', hcount']; rfl) (fun _ => hcount') ha

/-- R125: while bring-up is in progress the store has no format, and RESET_N is released. -/
theorem bringup {s : State} {stage : BringupStage} {d : Time} (h : PoolLaw s) (hs : s.store.state = .bringup stage d) :
    s.store.unformatted = true ∧ s.resetAsserted ≠ true := by
  obtain ⟨-, -, -, -, hreset⟩ := h
  exact ⟨by simp [Store.unformatted, hs], fun ha => nomatch hs.symm.trans (hreset ha)⟩

/-- R1: a change leaves the store and the slots of every ring. -/
theorem change {w : Prop} {s t : State} (c : Change w s t) (h : PoolLaw s) : PoolLaw t :=
  h.of_pools c.store c.resetAsserted c.pools c.noRing c.unbound

/-- R124: while RESET_N is asserted the store has no format. -/
theorem asserted {s : State} (h : PoolLaw s) (ha : s.resetAsserted = true) : s.store.unformatted = true := by
  obtain ⟨-, -, -, -, hreset⟩ := h
  simp [Store.unformatted, hreset ha]

/-- Slots go between the free set and the ring of one stream, whose record is written with it. -/
theorem moved {s t : State} (h : PoolLaw s) (i : StreamIx) {fs : List Nat} (hs : t.store = { s.store with free := fs })
    (ha : t.resetAsserted = s.resetAsserted) (ho : ∀ j, j ≠ i → t.ring j = s.ring j ∧ t.stream j = s.stream j)
    (hf : fs.Pairwise (· < ·))
    (hm : ∀ n, fs.count n + (poolsOf (t.ring i)).count n = s.store.free.count n + (poolsOf (s.ring i)).count n)
    (hi : (t.stream i).state = .unbound → t.ring i = none) : PoolLaw t := by
  obtain ⟨huses, -, hbound, hcount, hreset⟩ := h
  refine ⟨fun n => ?_, by rw [hs]; exact hf, fun j => ?_, by rw [hs]; exact hcount, by rw [hs, ha]; exact hreset⟩
  · rw [slotUses_moved i (fun j hj => (ho j hj).1) (by rw [hs]; exact hm n), huses, hs]
  · by_cases hij : j = i
    · subst hij
      exact hi
    · obtain ⟨hring, hstream⟩ := ho j hij
      rw [hring, hstream]
      exact hbound j

/-- R31: a stream that starts is bound, and no slot goes anywhere. -/
theorem armed {s : State} (h : PoolLaw s) (i : StreamIx) (u : Nat) :
    PoolLaw (admitClaim (.stream i) u (s.modStream i (fun r => { r with state := .armed, admitted := some u }))) := by
  have hstream : ((s.modStream i (fun r => { r with state := .armed, admitted := some u })).stream i).state = .armed :=
    congrArg Stream.state (rd_wr_same _ _ _)
  exact h.moved i rfl rfl (fun j hj => ⟨rfl, rd_wr_ne _ _ hj.symm⟩) h.rising (fun _ => rfl)
    (fun hu => nomatch hstream.symm.trans hu)

/-- R1, R29: the lowest free slots go to the ring of a stream that had none. -/
theorem bound {s : State} (h : PoolLaw s) {i : StreamIx} (n : SourceIx) (sc : Scale) (d : Nat) (pol : LossPolicy)
    (g : SourceSetup) (hu : (s.stream i).state = .unbound) : PoolLaw (bindStream i n sc d pol g s) := by
  have hring : (bindStream i n sc d pol g s).ring i = some (Ring.create (s.store.free.take d)) := rd_wr_same _ _ _
  have hstream : ((bindStream i n sc d pol g s).stream i).state = .stopped := congrArg Stream.state (rd_wr_same _ _ _)
  have hpools : poolsOf (some (Ring.create (s.store.free.take d))) = s.store.free.take d := Ring.create_pools _
  refine h.moved i rfl rfl (fun j hj => ⟨rd_wr_ne _ _ hj.symm, rd_wr_ne _ _ hj.symm⟩)
    (h.rising.sublist (List.drop_sublist d _)) (fun m => ?_) (fun e => nomatch hstream.symm.trans e)
  rw [hring, hpools, h.no_ring i hu, Nat.add_comm, ← List.count_append, List.take_append_drop]
  rfl

/-- R19, R30: the slots of the ring return to the free set. -/
theorem unbounded {s : State} (h : PoolLaw s) (i : StreamIx) : PoolLaw (unbindStream i s) := by
  have hperm := insertSlots_perm (poolsOf (s.ring i)) (h.ring_free_nodup i)
  have hring : (unbindStream i s).ring i = none := rd_wr_same _ _ _
  have hstore : (unbindStream i s).store = { s.store with
      free := (poolsOf (s.ring i)).foldl (fun fs p => insertSlot p fs) s.store.free } := by rw [unbindStream_eq]
  refine h.moved i hstore rfl
    (fun j hj => ⟨rd_wr_ne _ _ hj.symm, rd_wr_ne _ _ hj.symm⟩) (insertSlots_rising _ h.rising) (fun m => ?_) (fun _ => hring)
  rw [hring, hperm.count_eq, List.count_append]
  exact Nat.add_comm _ (s.store.free.count m)

/-- R133: a soft reset frees every slot of a store that keeps its format, and leaves another without slots. -/
theorem softResetStore_allFree {st : Store} (h : st.state = .offline → st.count = 0 ∧ st.free = []) :
    (softResetStore st).free = List.range (softResetStore st).count ∧
      ((softResetStore st).unformatted = true → (softResetStore st).count = 0) := by
  unfold softResetStore
  split
  · rename_i hs
    exact ⟨rfl, fun hu => by simp [Store.unformatted, hs] at hu⟩
  · rename_i hs
    obtain ⟨hcount, hfree⟩ := h hs
    exact ⟨by rw [hfree, hcount]; rfl, fun _ => hcount⟩
  · exact ⟨rfl, fun _ => rfl⟩
  · exact ⟨rfl, fun _ => rfl⟩

/-- R133, R156: after a soft reset no stream has a ring, and every slot that stays configured is free. -/
theorem softReset {s : State} (tag : Tag) (h : PoolLaw s) (ha : s.resetAsserted = false) :
    PoolLaw (softReset tag s) := by
  have hoffline : s.store.state = .offline → s.store.count = 0 ∧ s.store.free = [] := fun hs => by
    obtain ⟨hcount, hfree, -⟩ := h.no_slots (by simp [Store.unformatted, hs])
    exact ⟨hcount, hfree⟩
  obtain ⟨hfree, hcount⟩ := softResetStore_allFree hoffline
  exact of_allFree hfree (fun i => by rw [softReset_ring]; rfl) (fun i _ => softReset_ring tag s i) hcount (by simp [ha])

theorem hardReset (s : State) : PoolLaw (hardReset s) :=
  PoolLaw.reset.of_same rfl rfl rfl rfl

/-- Everything a command can do keeps the law. -/
theorem effect {w g : Prop} {s t : State} (e : Effect w g s t) : PoolLaw s → PoolLaw t := by
  induction e with
  | change c => exact change c
  | trans _ _ h k => exact fun hs => k (h hs)
  | offered r s =>
    intro h
    unfold offer
    split
    · exact h.of_same rfl rfl rfl rfl
    · exact change (w := w) (.raised _ _) (h.of_same rfl rfl rfl rfl)
  | streamAdmitted i u s hf hs => exact fun h => h.armed i u
  | bound i n sc d pol gm s hu => exact fun h => h.bound n sc d pol gm hu
  | unbound i s => exact fun h => h.unbounded i
  | configured f n s hu hs =>
    rintro ⟨-, -, hbound, -, hreset⟩
    exact of_allFree rfl (fun i => congrArg poolsOf (hbound i (hu i))) hbound
      (by simp [configureStore, Store.unformatted, hs]) hreset
  | acked n s =>
    intro h
    unfold reportLost
    split <;> exact h.of_same rfl rfl rfl rfl
  | staged stage stage' d s hs =>
    intro h
    obtain ⟨hu, ha⟩ := h.bringup hs
    exact h.restaged hu rfl rfl rfl (fun e => absurd e ha)
  | bringupFailed c stage d s hs =>
    intro h
    obtain ⟨hu, ha⟩ := h.bringup hs
    exact h.broughtUp hu rfl rfl rfl (fun _ => rfl) (fun e => absurd e ha)
  | bringupFinished mib stage d s hs =>
    intro h
    obtain ⟨hu, ha⟩ := h.bringup hs
    unfold finishBringup
    exact change (w := w) (.raised _ _) (h.broughtUp hu rfl rfl rfl nofun (fun e => absurd e ha))
  | storeFailed s hs =>
    rintro ⟨huses, hrising, hbound, -, hreset⟩
    exact ⟨huses, hrising, hbound, nofun, fun ha => nomatch hs.symm.trans (hreset ha)⟩
  | softReset tag s ha => exact fun h => h.softReset tag ha
  | hardReset s => exact fun _ => hardReset s
  | released s ha => exact fun h => h.restaged (h.asserted ha) rfl rfl rfl nofun
  | _ => exact fun h => h.of_same rfl rfl rfl rfl

/-- Every step keeps the law. -/
theorem step {s t : State} (h : step s = .next t) (hs : PoolLaw s) : PoolLaw t :=
  step_keeps (P := PoolLaw) (fun _ _ hs => hs) (fun s hs => by rw [tick_eq]; exact hs)
    (fun _ _ _ hc => effect (exec_effect (w := True) (fun _ => trivial) hc)) h hs

end PoolLaw

/-- Settles O60: bring-up, STORE_CONFIG and the resets set every slot free, a bind and an unbind move slots between the free
set and one ring, and no other move of a command touches either. -/
theorem everySlotHasOneHolder : Obligations.EverySlotHasOneHolder := fun _ _ => PoolLaw.step

end Sys2Proof.Machine
end

section
/-! STORE_CONFIG: its conditions in their order, and the pool that takes the place of the old one. -/

namespace Sys2Proof.Machine

open Sys2Proof

theorem anyBound_iff (s : State) :
    (List.finRange 20).any (fun i => decide ((s.stream i).state ≠ .unbound)) = true ↔
      ∃ i, (s.stream i).state ≠ .unbound := by
  simp

theorem tooLarge_iff (s : State) (f : SlotFormat) (n : Nat) :
    tooLarge s f n = true ↔ ∃ c, s.store.capacity = some c ∧ c * Config.mib < n * f.bytes := by
  simp [tooLarge, Option.any_eq_true]

/-- R132: the format, the count and the free set, written beside the reply; the store's state and capacity stay. -/
theorem answer_configureStore (f : SlotFormat) (n : Nat) (tag : Tag) (fields : List Byte) (s : State) :
    answer .storeConfig tag (taken s) (okReply .storeConfig tag fields (configureStore f n (taken s))) =
      { s.answered .storeConfig tag .ok fields with
        store := { s.store with format := some f, count := n, free := List.range n } } := rfl

/-- Settles O50: the conditions of R132 in their order, judged in the state with the request taken. -/
theorem storeConfigReplacesThePool : Obligations.StoreConfigReplacesThePool := by
  intro s tag body hw hl
  match body, hl with
  | [w0, w1, h0, h1, bc], _ =>
    refine (request_waiting storeConfig hw).trans (congrArg _ ?_)
    simp only [storeConfig, apply_ite (answer .storeConfig tag (taken s)), answer_refuse, answer_configureStore]
    refine if_congr ?_ rfl (if_congr ?_ rfl (if_congr Iff.rfl rfl (if_congr (anyBound_iff s) rfl rfl)))
    · simp only [field2, field, le16, List.getD_cons_zero, List.getD_cons_succ]
      omega
    · rw [tooLarge_iff, taken_store]
      cases s.store.capacity with
      | none => simp
      | some c => simp [SlotFormat.bytes, Config.mib, field2, field, le16]

end Sys2Proof.Machine
end

section
/-! RESET_N: what a command does while it is asserted, and its two edges. -/

namespace Sys2Proof.Machine

open Sys2Proof

/-! ### While RESET_N is asserted (log 2) -/

section

variable {s : State} (ha : s.resetAsserted = true)

include ha

theorem dispatch_asserted (r : Request) (act : State → State) : dispatch r act s = .next s := if_pos ha

theorem request_asserted (k : Kind) (judge : Tag → List Byte → State → Verdict) (tag : Tag) (body : List Byte) :
    request k judge tag body s = .next s := dispatch_asserted ha _ _

theorem whileReleased_asserted (t : State) : whileReleased s t = .next s := if_pos ha

theorem marker_asserted (port : CaptureIx) (act : State → State) : marker port act s = .next s := if_pos ha

/-- Log 2: no command but the edges of RESET_N and the rise of LCS_N acts on the block. -/
theorem exec_asserted {c : Instr} (h1 : c ≠ .resetNAssert) (h2 : c ≠ .resetNRelease) (h3 : c ≠ .lcsNRise) :
    exec c s = .next s := by
  cases c with
  | resetNAssert => exact absurd rfl h1
  | resetNRelease => exact absurd rfl h2
  | lcsNRise => exact absurd rfl h3
  | unknownRequest kind tag body => exact (congrArg _ (dispatch_asserted ha _ _)).trans (ite_self _)
  | captureFrameStart | lineStart | frameEnd => exact marker_asserted ha _ _
  | inboundFrame | outboundFrameStart | replyTransmitted | noticeTransmitted | bringupProbeDone | bringupTrainingDone
  | bringupSizingDone | bringupDeadlineExpiry | dramAccessFailure | sourceLossTimerExpiry | pacingTimerExpiry
  | outputTrailerStart | outputFrameEnd => exact whileReleased_asserted ha _
  | _ => exact request_asserted ha _ _ _ _

/-- Log 26: LCS_N rises as the host's pin, with nothing in the framer or on LSDO to act on. -/
theorem exec_lcsNRise_asserted : exec .lcsNRise s = .next { s with lcsLow := false } := congrArg _ (if_pos (.inl ha))

/-- R125, R143, R166: the release begins bring-up and enters START (HARD). -/
theorem exec_resetNRelease_asserted : exec .resetNRelease s = .next (release s) := congrArg _ (if_pos ha)

end

/-- Log 5: a release while RESET_N is not asserted. -/
theorem exec_resetNRelease_released {s : State} (ha : s.resetAsserted = false) : exec .resetNRelease s = .next s :=
  congrArg _ (if_neg (by simp [ha]))

/-- Settles O4: the edges are their definitions, and every other command is guarded by RESET_N. -/
theorem resetEdgesClearAndBegin : Obligations.ResetEdgesClearAndBegin :=
  ⟨fun _ _ ha => exec_asserted ha, fun _ => exec_lcsNRise_asserted, fun _ => rfl,
    fun _ ha => exec_resetNRelease_asserted ha, fun _ => exec_resetNRelease_released⟩

end Sys2Proof.Machine
end

section
/-! The budget table through everything a command can do: the admitted total stays within the capacity, and the claims stay the
admitted demands that the records hold. -/

namespace Sys2Proof.Machine

open Sys2Proof

/-! ### Moves of the link, the notice unit and the store -/

/-- R135: the budget table, and the records that hold admitted demands, are as they were. -/
structure SameDemands (s t : State) : Prop where
  claims : t.claims = s.claims
  streams : t.streams = s.streams
  lanes : t.lanes = s.lanes

/-- R147: an offered request is accepted or reported as an overrun. -/
theorem SameDemands.offered (r : Request) (s : State) : SameDemands s (offer r s) := by
  unfold offer
  split
  · exact ⟨rfl, rfl, rfl⟩
  · rw [raise_eq]
    exact ⟨rfl, rfl, rfl⟩

/-- R164: an ACK changes the notice unit. -/
theorem SameDemands.acked (n : Nat) (s : State) : SameDemands s (reportLost (removeNotices n s)) := by
  unfold reportLost
  split <;> exact ⟨rfl, rfl, rfl⟩

/-- R126: the end of bring-up sets up the store and hands a notice over. -/
theorem SameDemands.broughtUp (mib : Nat) (s : State) : SameDemands s (finishBringup mib s) := by
  unfold finishBringup
  rw [raise_eq]
  exact ⟨rfl, rfl, rfl⟩

/-! ### The law of the budget (R137) -/

namespace BudgetLaw

/-- R135: a block's own action drops at most the claim of a stream it stops or of a lane it makes READY. -/
theorem change {w : Prop} {s t : State} (c : Change w s t) : BudgetLaw s.claims → BudgetLaw t.claims := by
  induction c with
  | trans _ _ h k => exact fun hs => k (h hs)
  | records h => exact fun hs => h.claims ▸ hs
  | raised b s => exact fun hs => (raise_claims b s).symm ▸ hs
  | completed tag res fields s => exact fun hs => (complete_claims tag res fields s).symm ▸ hs
  | stopped i s => exact releaseClaim_budget (.stream i) s
  | readied l s => exact releaseClaim_budget (.lane l) s
  | refl | ring | written => exact id

/-- R137: a claim joins the table only where it fits; every other move leaves the table, drops claims or empties it. -/
theorem effect {w g : Prop} {s t : State} (e : Effect w g s t) : BudgetLaw s.claims → BudgetLaw t.claims := by
  induction e with
  | change c => exact change c
  | trans _ _ h k => exact fun hs => k (h hs)
  | streamAdmitted i u s hf => exact fun _ => admitClaim_budget (.stream i) u s hf
  | laneAdmitted l f s hf => exact fun _ => admitClaim_budget (.lane l) (laneDemand s l) s hf
  | softReset | hardReset => exact fun _ => Nat.zero_le Config.budgetUnits
  | offered r s => exact fun hs => (SameDemands.offered r s).claims.symm ▸ hs
  | acked n s => exact fun hs => (SameDemands.acked n s).claims.symm ▸ hs
  | bringupFinished mib stage d s => exact fun hs => (SameDemands.broughtUp mib s).claims.symm ▸ hs
  | _ => exact id

/-- Every step keeps the admitted total within the capacity. -/
theorem step {s t : State} (h : step s = .next t) (hs : BudgetLaw s.claims) : BudgetLaw t.claims :=
  step_keeps (P := fun s => BudgetLaw s.claims) (fun _ _ hs => hs) (fun s hs => by rw [tick_eq]; exact hs)
    (fun _ _ _ hc => effect (exec_effect (w := True) (fun _ => trivial) hc)) h hs

end BudgetLaw

/-! ### The law of the claims (R135, R138, R139) -/

namespace ClaimLaw

theorem sameDemands {s t : State} (h : ClaimLaw s) (r : SameDemands s t) : ClaimLaw t :=
  h.of_same r.claims (fun i => by simp only [State.stream, r.streams]) (fun l => by simp only [State.lane, r.lanes])

/-- R29, R30: the record of an idle stream is written anew without an admitted demand, as a bind and an unbind do. -/
theorem rebound {s t : State} (h : ClaimLaw s) (i : StreamIx) (hc : t.claims = s.claims) (hl : t.lanes = s.lanes)
    (hi : (s.stream i).state.idle = true) (ht : (t.stream i).admitted = none)
    (ho : ∀ j, j ≠ i → t.stream j = s.stream j) : ClaimLaw t := by
  have hlane : ∀ l, t.lane l = s.lane l := fun l => by simp only [State.lane, hl]
  have hadm : ∀ j, (t.stream j).admitted = (s.stream j).admitted := by
    intro j
    by_cases hj : j = i
    · rw [hj, ht, h.idleStream i hi]
    · rw [ho j hj]
  refine ⟨hc ▸ h.once, fun x u => ?_, fun j hj => ?_, fun l => hlane l ▸ h.idleLane l⟩
  · rw [hc, h.recorded]
    cases x <;> simp only [demandIn, hadm, hlane]
  · by_cases hji : j = i
    · rw [hji, ht]
    · rw [ho j hji] at hj ⊢
      exact h.idleStream j hj

/-- R31, R137: a STOPPED stream held no demand; it is armed with its claim. -/
theorem streamAdmitted {s : State} (h : ClaimLaw s) (i : StreamIx) (u : Nat) (hs : (s.stream i).state = .stopped) :
    ClaimLaw (admitClaim (.stream i) u (s.modStream i (fun r => { r with state := .armed, admitted := some u }))) := by
  have hst : ∀ j,
      (admitClaim (.stream i) u (s.modStream i (fun r => { r with state := .armed, admitted := some u }))).stream j =
        if i = j then { s.stream i with state := .armed, admitted := some u } else s.stream j :=
    fun j => rd_wr s.streams i j _
  refine h.admitted (.stream i) u (h.idleStream i (by rw [hs]; rfl)) rfl (fun y => ?_) (fun j => ?_) h.idleLane
  · cases y with
    | stream j =>
      simp only [demandIn, hst, Holder.stream.injEq, eq_comm (a := j)]
      split <;> rfl
    | lane l => rfl
  · rw [hst]
    split
    · nofun
    · exact h.idleStream j

/-- R95, R137: a READY lane held no demand; it leaves READY with its claim. -/
theorem laneAdmitted {s : State} (h : ClaimLaw s) (l : LaneIx) (f : Lane → Lane) (hs : (s.lane l).state = .ready)
    (ha : ∀ r, (f r).admitted = r.admitted) (hb : ∀ r, (f r).state.idle = false) :
    ClaimLaw ((claimLane l s).modLane l f) := by
  have hln : ∀ j, ((claimLane l s).modLane l f).lane j =
      if l = j then f { s.lane l with admitted := some (laneDemand s l) } else s.lane j := fun j => by
    rw [claimLane_modLane]
    exact rd_wr s.lanes l j _
  refine h.admitted (.lane l) (laneDemand s l) (h.idleLane l (by rw [hs]; rfl)) rfl (fun y => ?_) h.idleStream (fun j => ?_)
  · cases y with
    | stream i => rfl
    | lane j =>
      simp only [demandIn, hln, Holder.lane.injEq, eq_comm (a := j)]
      split
      · exact ha _
      · rfl
  · rw [hln]
    split
    · simp only [hb, Bool.false_eq_true, false_implies]
    · exact h.idleLane j

/-- R156: the claims and the records are those of the reset state. -/
theorem softReset (tag : Tag) (s : State) : ClaimLaw (softReset tag s) :=
  ClaimLaw.reset.sameDemands ⟨rfl, rfl, rfl⟩

/-- R137: a claim joins the table as an idle holder's demand; every other move keeps both, drops both or resets both. -/
theorem effect {w g : Prop} {s t : State} (e : Effect w g s t) : ClaimLaw s → ClaimLaw t := by
  induction e with
  | change c => exact c.claimLaw
  | trans _ _ h k => exact fun hs => k (h hs)
  | streamAdmitted i u s hf hs => exact fun h => h.streamAdmitted i u hs
  | laneAdmitted l f s hf hs ha hb => exact fun h => h.laneAdmitted l f hs ha hb
  | bound i n sc d pol gm s hu =>
    exact fun h => h.rebound i rfl rfl (by rw [hu]; rfl) (congrArg Stream.admitted (rd_wr_same _ _ _))
      (fun j hj => rd_wr_ne _ _ hj.symm)
  | unbound i s hs =>
    exact fun h => h.rebound i rfl rfl (by rw [hs]; rfl) (congrArg Stream.admitted (rd_wr_same _ _ _))
      (fun j hj => rd_wr_ne _ _ hj.symm)
  | softReset tag s => exact fun _ => softReset tag s
  | hardReset s => exact fun _ => ClaimLaw.reset.sameDemands ⟨rfl, rfl, rfl⟩
  | offered r s => exact fun h => h.sameDemands (.offered r s)
  | acked n s => exact fun h => h.sameDemands (.acked n s)
  | bringupFinished mib stage d s => exact fun h => h.sameDemands (.broughtUp mib s)
  | _ => exact fun h => h.sameDemands ⟨rfl, rfl, rfl⟩

/-- Every step keeps the claims equal to the records. -/
theorem step {s t : State} (h : step s = .next t) (hs : ClaimLaw s) : ClaimLaw t :=
  step_keeps (P := ClaimLaw) (fun _ _ hs => hs.sameDemands ⟨rfl, rfl, rfl⟩)
    (fun s hs => by rw [tick_eq]; exact hs.sameDemands ⟨rfl, rfl, rfl⟩)
    (fun _ _ _ hc => effect (exec_effect (w := True) (fun _ => trivial) hc)) h hs

end ClaimLaw

/-- Settles O56: a claim is admitted only where it fits and only for an idle holder, whose record takes its units; a stop, a
return to READY and a reset drop the claim and the recorded demand together. -/
theorem budgetNeverExceedsCapacity : Obligations.BudgetNeverExceedsCapacity :=
  ⟨fun _ _ => BudgetLaw.step, fun _ _ => ClaimLaw.step⟩

end Sys2Proof.Machine
end

section
/-! The law of the link through everything a command can do: the request window, the places for final replies, the tags. -/

namespace Sys2Proof.Machine

open Sys2Proof

/-- A reply is a first or a final one. -/
theorem firstReplies_add_finalReplies (k : Link) : firstReplies k + finalReplies k = k.replies.length := by
  have hp : ∀ r : Reply, decide (r.phase = .final) = !decide (r.phase = .first) := fun r => by cases r.phase <;> rfl
  simp only [firstReplies, finalReplies, hp]
  rw [List.length_eq_countP_add_countP (fun r : Reply => decide (r.phase = .first))]
  simp

@[simp] theorem firstReplies_queueReply (r : Reply) (s : State) :
    firstReplies (queueReply r s).link = firstReplies s.link + if r.phase = .first then 1 else 0 := by
  simp [firstReplies, List.countP_append, List.countP_singleton]

@[simp] theorem finalReplies_queueReply (r : Reply) (s : State) :
    finalReplies (queueReply r s).link = finalReplies s.link + if r.phase = .final then 1 else 0 := by
  simp [finalReplies, List.countP_append, List.countP_singleton]

namespace LinkLaw

/-- The law reads the two queues and the table alone. -/
theorem of_same {k k' : Link} (h : LinkLaw k) (hi : k'.inbound = k.inbound) (ho : k'.outstanding = k.outstanding)
    (hr : k'.replies = k.replies) : LinkLaw k' := by
  simpa only [LinkLaw, firstReplies, finalReplies, hi, ho, hr] using h

/-- R147, R150: nothing waits and nothing is queued. -/
theorem initial : LinkLaw Link.initial := ⟨Nat.zero_le _, Nat.zero_le _, List.nodup_nil⟩

/-- R149, R150: a block's own action bears on the link by its completions alone. -/
theorem change {w : Prop} {s t : State} (c : Change w s t) : LinkLaw s.link → LinkLaw t.link := by
  induction c with
  | trans _ _ h k => exact fun hs => k (h hs)
  | records h => exact fun hs => h.link ▸ hs
  | raised b s => exact fun hs => (raise_link b s).symm ▸ hs
  | completed tag res fields s => exact complete_linkLaw tag res fields s
  | refl | ring | stopped | readied | written => exact id

/-- R148: a request taken waits no longer. -/
theorem taken {s : State} (h : LinkLaw s.link) : LinkLaw (taken s).link := by
  obtain ⟨hw, hp, ht⟩ := h
  refine ⟨?_, hp, ht⟩
  have hl : s.link.inbound.tail.length = s.link.inbound.length - 1 := List.length_tail
  show s.link.inbound.tail.length + firstReplies s.link ≤ _
  omega

/-- R147, R149: a first reply is queued where the window is open. -/
theorem replied {s : State} {r : Reply} (h : LinkLaw s.link) (hf : r.phase = .first) (hw : windowOpen s.link = true) :
    LinkLaw (queueReply r s).link := by
  obtain ⟨-, hp, ht⟩ := h
  have hw := of_decide_eq_true hw
  refine ⟨?_, ?_, ht⟩
  · rw [firstReplies_queueReply, queueReply_inbound, if_pos hf]
    omega
  · rw [finalReplies_queueReply, queueReply_outstanding, hf]
    exact hp

/-- R148, R150: an entry joins the table while it and the final replies have places left, under a tag no entry holds. -/
theorem entered {s : State} {tag : Tag} (op : Pending) (h : LinkLaw s.link) (ht : tagHeld s.link tag = false)
    (hp : s.link.outstanding.length + finalReplies s.link < Config.outstandingPlaces) :
    LinkLaw (s.modLink (fun k => { k with outstanding := k.outstanding ++ [⟨tag, op⟩] })).link := by
  obtain ⟨hw, -, hn⟩ := h
  refine ⟨hw, ?_, ?_⟩
  · show (s.link.outstanding ++ [_]).length + finalReplies s.link ≤ _
    rw [List.length_append, List.length_singleton]
    omega
  · show ((s.link.outstanding ++ [_]).map Entry.tag).Nodup
    rw [List.map_append, List.map_singleton, List.nodup_append]
    refine ⟨hn, List.nodup_singleton _, fun a ha b hb e => ?_⟩
    obtain ⟨x, hx, rfl⟩ := List.mem_map.mp ha
    have hne := List.any_eq_false.mp ht x hx
    exact hne (decide_eq_true (e.trans (List.mem_singleton.mp hb)))

/-- R156: the waiting requests are dropped, and each entry gives its place to its own final reply. -/
theorem softReset {s : State} (tag : Tag) (h : LinkLaw s.link) (hw : windowOpen s.link = true) :
    LinkLaw (softReset tag s).link := by
  obtain ⟨-, hp, -⟩ := h
  have hw := of_decide_eq_true hw
  refine ⟨?_, ?_, List.nodup_nil⟩
  · rw [softReset_inbound, firstReplies, softReset_replies, List.countP_append, List.countP_append, List.countP_map]
    simp only [Function.comp_def, reduceCtorEq, decide_false, List.countP_false, Function.const_apply,
      List.countP_singleton, decide_true, if_true,
      List.length_nil]
    unfold firstReplies at hw
    omega
  · rw [softReset_outstanding, finalReplies, softReset_replies, List.countP_append, List.countP_append, List.countP_map]
    simp only [Function.comp_def, decide_true, List.countP_true, List.countP_singleton, reduceCtorEq, decide_false,
      Bool.false_eq_true, if_false, List.length_nil]
    unfold finalReplies at hp
    omega

/-- Every move keeps the law: a request is accepted, a first reply queued and an entry made only where there is room, and a
final reply takes the place of its entry. -/
theorem effect {w g : Prop} (hg : g) {s t : State} (e : Effect w g s t) : LinkLaw s.link → LinkLaw t.link := by
  induction e with
  | change c => exact change c
  | trans _ _ h k => exact fun hs => k (h hs)
  | quiet s f hi ho hr => exact fun hs => hs.of_same hi ho hr
  | offered r s => exact Effect.offer_linkLaw r s
  | taken s => exact taken
  | replied r s hf hw => exact fun hs => hs.replied hf (hw hg)
  | entered tag op s ht hp => exact fun hs => hs.entered op ht hp
  | replySent s => exact Effect.replySent_linkLaw s
  | softReset tag s _ hw => exact fun hs => hs.softReset tag (hw hg)
  | hardReset s => exact fun _ => initial
  | acked n s => exact fun hs => (show (reportLost (removeNotices n s)).link = s.link by unfold reportLost; split <;> rfl) ▸ hs
  | bringupFinished mib stage d s => exact fun hs => (show (finishBringup mib s).link = s.link from raise_link _ _) ▸ hs
  | _ => exact id

/-- Every step keeps the law of the link. -/
theorem step {s t : State} (h : step s = .next t) (hs : LinkLaw s.link) : LinkLaw t.link :=
  step_keeps (P := fun s => LinkLaw s.link) (fun _ _ hs => hs) (fun s hs => by rw [tick_eq]; exact hs)
    (fun _ _ _ hc hs => effect hs (exec_effect (w := True) (fun _ => trivial) hc) hs) h hs

/-- R147, R151: at most 4 first and 8 final replies are queued. -/
theorem replies_length {k : Link} (h : LinkLaw k) : k.replies.length ≤ 12 := by
  obtain ⟨hw, hp, -⟩ := h
  have := firstReplies_add_finalReplies k
  simp only [Config.requestWindow, Config.outstandingPlaces] at hw hp
  omega

end LinkLaw

/-- Settles O57: every move of a command keeps the law, by `LinkLaw.effect`; a reply is a first or a final one. -/
theorem linkWindowsHold : Obligations.LinkWindowsHold := ⟨fun _ _ => LinkLaw.step, fun _ => LinkLaw.replies_length⟩

end Sys2Proof.Machine
end

section
/-! The bytes of the link: the device's byte in a position, the framer on its way through a frame, and the end of a transfer. -/

namespace Sys2Proof.Machine

open Sys2Proof

/-! ### The device's byte in one position (R144, R152) -/

theorem shifted_one (s : State) : s.shifted 1 = sendByte s := rfl

/-- R143, R152: a frame with another byte to send after this one stays in progress. -/
theorem sendByte_goesOn {s : State} {k : OutboundKind} {bytes : List Byte} {sent : Nat}
    (h : frameAt s = some ⟨k, bytes, sent⟩) (hl : sent + 1 < bytes.length) :
    sendByte s = putByte (bytes.getD sent idleByte) (some ⟨k, bytes, sent + 1⟩) s := by
  unfold sendByte
  rw [h]
  exact if_pos hl

/-- R152: with its last byte the frame has been transmitted. -/
theorem sendByte_last {s : State} {k : OutboundKind} {bytes : List Byte} {sent : Nat}
    (h : frameAt s = some ⟨k, bytes, sent⟩) (hl : sent + 1 = bytes.length) :
    sendByte s = frameSent k (putByte (bytes.getD sent idleByte) none s) := by
  unfold sendByte
  rw [h]
  exact if_neg (show ¬ sent + 1 < bytes.length by omega)

/-- R168: the arbiter chose nothing. -/
theorem sendByte_idle {s : State} (h : frameAt s = none) : sendByte s = putByte idleByte none s := by
  unfold sendByte
  rw [h]

theorem frameAt_some {s : State} {o : Outbound} (h : s.link.outbound = some o) : frameAt s = some o := by
  unfold frameAt
  rw [h]

theorem frameAt_reply {s : State} {r : Reply} {rest : List Reply} (h : s.link.outbound = none)
    (hr : s.link.replies = r :: rest) : frameAt s = some ⟨.reply, r.bytes, 0⟩ := by
  unfold frameAt chosenFrame
  rw [h, hr]

theorem frameAt_notice {s : State} {n : Notice} {rest : List Notice} (h : s.link.outbound = none)
    (hr : s.link.replies = []) (hn : s.notices.untransmitted = n :: rest) : frameAt s = some ⟨.notice n.seq, n.bytes, 0⟩ := by
  unfold frameAt chosenFrame
  rw [h, hr, hn]

theorem frameAt_none {s : State} (h : s.link.outbound = none) (hr : s.link.replies = [])
    (hn : s.notices.untransmitted = []) : frameAt s = none := by
  unfold frameAt chosenFrame
  rw [h, hr, hn]

/-- R168: a frame is its sync byte, four bytes before the body, the body, and two check bytes. -/
theorem frameBytes_length (kind tag aux : Byte) (body : List Byte) :
    (frameBytes kind tag aux body).length = 7 + body.length := by
  simp only [frameBytes, u16, List.length_cons, List.length_append, List.length_nil]
  omega

/-- R152, R168: a frame that the arbiter chose starts with its sync byte. -/
theorem sendByte_starts {s : State} {k : OutboundKind} {kind tag aux : Byte} {body : List Byte}
    (h : frameAt s = some ⟨k, frameBytes kind tag aux body, 0⟩) :
    sendByte s = putByte 0xA5 (some ⟨k, frameBytes kind tag aux body, 1⟩) s :=
  sendByte_goesOn h (by rw [frameBytes_length]; omega)

/-- R163: the end of the notice that is the first untransmitted one. -/
theorem frameSent_notice {s : State} {n : Notice} {rest : List Notice} (h : s.notices.untransmitted = n :: rest) :
    frameSent (.notice n.seq) s = noticeSent n rest s := by
  unfold frameSent
  rw [h]
  exact if_pos rfl

/-- R156, R165: the end of a notice that no longer is the first untransmitted one. -/
theorem frameSent_moved {s : State} {k : OutboundKind} (hk : k ≠ .reply)
    (h : ∀ n ∈ s.notices.untransmitted.head?, k ≠ .notice n.seq) : frameSent k s = s := by
  cases k with
  | reply => exact absurd rfl hk
  | orphan => rfl
  | notice q =>
    unfold frameSent
    cases hu : s.notices.untransmitted with
    | nil => rfl
    | cons n rest =>
      rw [hu] at h
      exact if_neg fun hq => h n rfl (congrArg OutboundKind.notice hq.symm)

/-- R152: as many positions as a frame in progress has bytes left send it to its end, whatever bytes went before the last. -/
theorem shifted_toTheEnd {k : OutboundKind} {bytes : List Byte} {last : Byte} (hb : bytes.getLast? = some last) (n : Nat) :
    ∀ {s : State} {sent : Nat}, s.link.outbound = some ⟨k, bytes, sent⟩ → sent + (n + 1) = bytes.length →
      s.shifted (n + 1) = frameSent k (putByte last none s) := by
  have hlast : ∀ {sent : Nat}, sent + 1 = bytes.length → bytes.getD sent idleByte = last := by
    intro sent hs
    rw [List.getLast?_eq_getElem?, ← hs, Nat.add_sub_cancel] at hb
    rw [List.getD_eq_getElem?_getD, hb, Option.getD_some]
  induction n with
  | zero =>
    intro s sent ho hs
    rw [shifted_one, sendByte_last (frameAt_some ho) hs, hlast hs]
  | succ n ih =>
    intro s sent ho hs
    show (sendByte s).shifted (n + 1) = _
    rw [sendByte_goesOn (frameAt_some ho) (by omega), ih (sent := sent + 1) rfl (by omega)]
    rfl

/-! ### The host's bytes and the device's (R144, log 8) -/

theorem moveBytes_cons (b : Byte) (bs : List Byte) (s : State) : moveBytes (b :: bs) s = moveBytes bs (moveByte b s) := rfl

theorem moveBytes_append (bs cs : List Byte) (s : State) : moveBytes (bs ++ cs) s = moveBytes cs (moveBytes bs s) :=
  List.foldl_append

/-- Where RESET_N is not asserted an INBOUND_FRAME is its byte positions. -/
theorem exec_inboundFrame {s : State} (ha : s.resetAsserted = false) (bytes : List Byte) :
    exec (.inboundFrame bytes) s = .next (moveBytes bytes s) := if_neg (by simp [ha])

/-- R145: while the framer hunts, bytes that are no sync byte move and do nothing else. -/
theorem moveBytes_hunting {bytes : List Byte} (hb : syncByte ∉ bytes) : ∀ {s : State}, s.link.framer = none →
    moveBytes bytes s = s.shifted bytes.length := by
  induction bytes with
  | nil => exact fun _ => rfl
  | cons b bs ih =>
    intro s hf
    obtain ⟨hne, hb⟩ := List.ne_and_not_mem_of_not_mem_cons hb
    have hf' : (sendByte s).link.framer = none := (shifted_framer 1 s).trans hf
    have hm : moveByte b s = sendByte s := by
      unfold moveByte takeByte
      rw [hf']
      exact if_neg hne.symm
    rw [moveBytes_cons, hm, ih hb hf']
    rfl

/-! ### The framer on its way through a frame (R145) -/

theorem setFramer_setFramer (f f' : Option (List Byte)) (s : State) : setFramer f (setFramer f' s) = setFramer f s := rfl

theorem setFramer_same {s : State} {f : Option (List Byte)} (h : s.link.framer = f) : setFramer f s = s := by
  subst h
  rfl

/-- R145: the bytes received since the sync byte are those of a frame that goes on: its length byte has not come, or is at most
240 and more bytes are due. -/
def Unfinished (got : List Byte) : Prop :=
  got.length < 4 ∨ ((got.getD 3 0).toNat ≤ 240 ∧ got.length < 6 + (got.getD 3 0).toNat)

/-- What comes before an unfinished part of a frame was unfinished. -/
theorem Unfinished.of_append {got more : List Byte} (h : Unfinished (got ++ more)) : Unfinished got := by
  by_cases hl : got.length < 4
  · exact .inl hl
  · simp only [Unfinished, List.length_append, List.getD_append got more 0 3 (by omega)] at h ⊢
    omega

/-- R145: the framer keeps the byte of a frame that goes on. -/
theorem frameByte_unfinished {got : List Byte} {b : Byte} (h : Unfinished (got ++ [b])) (s : State) :
    frameByte got b s = setFramer (some (got ++ [b])) s := by
  have hl : (got ++ [b]).length = got.length + 1 := List.length_append
  have hlen : ¬ ((got ++ [b]).length = 4 ∧ 240 < b.toNat) := by
    rintro ⟨h4, hb⟩
    have h3 : (got ++ [b]).getD 3 0 = b := by
      rw [List.getD_append_right got [b] 0 3 (by omega), show 3 - got.length = 0 by omega]
      rfl
    rcases h with h | ⟨h, -⟩
    · omega
    · rw [h3] at h
      omega
  have hend : ¬ (4 ≤ (got ++ [b]).length ∧ (got ++ [b]).length = 6 + ((got ++ [b]).getD 3 0).toNat) := by
    rcases h with h | ⟨-, h⟩ <;> omega
  exact (if_neg hlen).trans (if_neg hend)

theorem moveByte_framed (got : List Byte) (b : Byte) (s : State) :
    moveByte b (setFramer (some got) s) = frameByte got b (setFramer (some got) (sendByte s)) := by
  unfold moveByte
  rw [sendByte_setFramer]
  rfl

/-- R144, R145: the bytes of a frame that goes on are kept, while as many go out. -/
theorem moveBytes_unfinished (bs : List Byte) : ∀ {got : List Byte} (s : State), Unfinished (got ++ bs) →
    moveBytes bs (setFramer (some got) s) = setFramer (some (got ++ bs)) (s.shifted bs.length) := by
  induction bs with
  | nil => exact fun s _ => by rw [List.append_nil]; rfl
  | cons b bs ih =>
    intro got s h
    rw [List.append_cons] at h ⊢
    rw [moveBytes_cons, moveByte_framed, frameByte_unfinished h.of_append, setFramer_setFramer, ih _ h]
    rfl

/-- R145: a hunting framer takes the sync byte and then keeps the bytes of a frame that goes on. -/
theorem moveBytes_begun {s : State} {bs : List Byte} (hf : s.link.framer = none) (h : Unfinished bs) :
    moveBytes (0xA5 :: bs) s = setFramer (some bs) (s.shifted (bs.length + 1)) := by
  have hm : moveByte 0xA5 s = setFramer (some []) (sendByte s) := by
    unfold moveByte takeByte
    rw [show (sendByte s).link.framer = none from (shifted_framer 1 s).trans hf]
    exact if_pos rfl
  rw [moveBytes_cons, hm, moveBytes_unfinished bs (got := []) _ h]
  rfl

/-- The same with one more byte, which the framer judges. -/
theorem moveBytes_judged {s : State} {bs : List Byte} {b : Byte} (hf : s.link.framer = none) (h : Unfinished bs) :
    moveBytes (0xA5 :: (bs ++ [b])) s = frameByte bs b (setFramer (some bs) (s.shifted (bs.length + 2))) := by
  rw [← List.cons_append, moveBytes_append, moveBytes_begun hf h, moveBytes_cons, moveByte_framed, ← shifted_one, shifted_add]
  rfl

theorem byte_length {body : List Byte} (h : body.length ≤ 240) : (byte body.length).toNat = body.length := by
  rw [byte, BitVec.toNat_ofNat]
  omega

theorem coveredBytes_length (kind tag aux : Byte) (body : List Byte) :
    (coveredBytes kind tag aux body).length = 4 + body.length := by
  simp only [coveredBytes, List.length_cons]
  omega

/-- R145, R168: a frame is unfinished before its last check byte. -/
theorem unfinished_covered (kind tag aux lo : Byte) {body : List Byte} (h : body.length ≤ 240) :
    Unfinished (coveredBytes kind tag aux body ++ [lo]) := by
  refine .inr ?_
  rw [List.length_append, coveredBytes_length]
  show (byte body.length).toNat ≤ 240 ∧ _ < 6 + (byte body.length).toNat
  rw [byte_length h, List.length_singleton]
  omega

/-- R145, R168: with its last check byte a frame is judged. -/
theorem frameByte_whole (kind tag aux lo hi : Byte) {body : List Byte} (h : body.length ≤ 240) (s : State) :
    frameByte (coveredBytes kind tag aux body ++ [lo]) hi s = judgeFrame (coveredBytes kind tag aux body ++ [lo, hi]) s := by
  have hnow : coveredBytes kind tag aux body ++ [lo] ++ [hi] = coveredBytes kind tag aux body ++ [lo, hi] := List.append_assoc ..
  have hlen : (coveredBytes kind tag aux body ++ [lo, hi]).length = 6 + body.length := by
    rw [List.length_append, coveredBytes_length, List.length_cons, List.length_singleton]
    omega
  unfold frameByte
  dsimp only
  rw [hnow, if_neg (by omega)]
  refine if_pos ⟨by omega, hlen.trans ?_⟩
  exact congrArg (6 + ·) (byte_length h).symm

/-- R144, R145: the bytes of a whole frame, at a framer that hunts, end in its judging, as many bytes having gone out. -/
theorem moveBytes_whole {s : State} (kind tag aux lo hi : Byte) {body : List Byte} (hf : s.link.framer = none)
    (h : body.length ≤ 240) :
    moveBytes (0xA5 :: (coveredBytes kind tag aux body ++ [lo, hi])) s =
      judgeFrame (coveredBytes kind tag aux body ++ [lo, hi])
        (setFramer (some (coveredBytes kind tag aux body ++ [lo])) (s.shifted (7 + body.length))) := by
  have hnow : coveredBytes kind tag aux body ++ [lo, hi] = coveredBytes kind tag aux body ++ [lo] ++ [hi] := List.append_cons ..
  have hn : (coveredBytes kind tag aux body ++ [lo]).length + 2 = 7 + body.length := by
    rw [List.length_append, coveredBytes_length, List.length_singleton]
    omega
  conv_lhs => rw [hnow, moveBytes_judged hf (unfinished_covered kind tag aux lo h), frameByte_whole _ _ _ _ _ h, hn]

/-- R169: the check of a whole frame is the last two bytes against the rest. -/
theorem goodFrame_covered (kind tag aux lo hi : Byte) (body : List Byte) :
    goodFrame (coveredBytes kind tag aux body ++ [lo, hi]) = true ↔
      [lo, hi] = u16 (crc16 (coveredBytes kind tag aux body)).toNat := by
  have hn : (coveredBytes kind tag aux body ++ [lo, hi]).length - 2 = (coveredBytes kind tag aux body).length := by
    rw [List.length_append]
    rfl
  rw [goodFrame, decide_eq_true_iff, hn, List.drop_left, List.take_left]

/-- R168: type, tag and body are read back. -/
theorem frameRequest_covered (kind tag aux lo hi : Byte) (body : List Byte) :
    frameRequest (coveredBytes kind tag aux body ++ [lo, hi]) = ⟨kind, tag, body⟩ := by
  have hn : (coveredBytes kind tag aux body ++ [lo, hi]).length - 6 = body.length := by
    rw [List.length_append, coveredBytes_length]
    show 4 + body.length + 2 - 6 = _
    omega
  rw [frameRequest, hn]
  exact congrArg (Request.mk kind tag) (List.take_left)

/-- R145: at a framer that held part of a frame, and hunted before it, a CHECK error is counted and reported. -/
theorem checkError_framed {s : State} (tag : Byte) (f : Option (List Byte)) (h : s.link.framer = none) :
    checkError (some tag) (setFramer f s) = s.checkFailed tag :=
  calc checkError (some tag) (setFramer f s)
    _ = (setFramer none s).checkFailed tag := rfl
    _ = s.checkFailed tag := by rw [setFramer_same h]

/-- R145, R169: a frame whose check agrees is offered. -/
theorem judgeFrame_good {s : State} {kind tag aux lo hi : Byte} {body : List Byte} (f : Option (List Byte))
    (h : s.link.framer = none) (hc : [lo, hi] = u16 (crc16 (coveredBytes kind tag aux body)).toNat) :
    judgeFrame (coveredBytes kind tag aux body ++ [lo, hi]) (setFramer f s) = offer ⟨kind, tag, body⟩ s := by
  unfold judgeFrame
  rw [if_pos ((goodFrame_covered ..).mpr hc), frameRequest_covered, setFramer_setFramer, setFramer_same h]

/-- R145, R169: a frame whose check disagrees is a CHECK error. -/
theorem judgeFrame_damaged {s : State} {kind tag aux lo hi : Byte} {body : List Byte} (f : Option (List Byte))
    (h : s.link.framer = none) (hc : [lo, hi] ≠ u16 (crc16 (coveredBytes kind tag aux body)).toNat) :
    judgeFrame (coveredBytes kind tag aux body ++ [lo, hi]) (setFramer f s) = s.checkFailed tag :=
  (if_neg (mt (goodFrame_covered ..).mp hc)).trans (checkError_framed tag f h)

/-- R145, R168, R169: a whole frame is read back and offered. -/
theorem moveBytes_frameBytes {s : State} (kind tag aux : Byte) {body : List Byte} (hf : s.link.framer = none)
    (h : body.length ≤ 240) :
    moveBytes (frameBytes kind tag aux body) s = offer ⟨kind, tag, body⟩ (s.shifted (7 + body.length)) :=
  (moveBytes_whole kind tag aux _ _ hf h).trans (judgeFrame_good _ ((shifted_framer _ s).trans hf) rfl)

/-- R145, R168: what comes of a frame before its last bytes is its sync byte and a part that the framer keeps. -/
theorem frameBytes_cut {kind tag aux : Byte} {body before after : List Byte} (h : body.length ≤ 240)
    (hc : before ++ after = frameBytes kind tag aux body) (hb : before ≠ []) (ha : after ≠ []) :
    ∃ bs, before = 0xA5 :: bs ∧ Unfinished bs := by
  obtain ⟨b, bs, rfl⟩ := List.exists_cons_of_ne_nil hb
  obtain ⟨init, x, rfl⟩ := List.eq_nil_or_concat after |>.resolve_left ha
  obtain ⟨rfl, hw⟩ := List.cons.inj (List.cons_append.symm.trans hc)
  refine ⟨bs, rfl, ?_⟩
  rw [List.concat_eq_append, ← List.append_assoc] at hw
  obtain ⟨hi, -⟩ := List.append_inj' (hw.trans (List.append_cons (coveredBytes kind tag aux body) ..)) rfl
  exact Unfinished.of_append (hi ▸ unfinished_covered kind tag aux _ h)

/-! ### The statements of the wire -/

/-- Settles O8: a frame is unfinished up to its last byte, which the framer judges; a part of it is kept. The codes and layouts
are case by case. -/
theorem inboundFrameRoundTrip : Obligations.InboundFrameRoundTrip := by
  refine ⟨fun s kind tag aux body ha hf h => ?_, fun s kind tag aux body before after ha hf h hw hb hc => ?_, fun _ _ _ _ => rfl,
    fun _ => ⟨rfl, rfl⟩, rfl, ⟨rfl, rfl⟩, fun r => ?_, rfl, fun n => ?_⟩
  · rw [exec_inboundFrame ha, moveBytes_frameBytes kind tag aux hf h]
  · obtain ⟨bs, rfl, hu⟩ := frameBytes_cut h hw hb hc
    have hm := moveBytes_begun hf hu
    refine ⟨_, exec_inboundFrame ha _, hm, ?_⟩
    have ha' : (moveBytes (0xA5 :: bs) s).resetAsserted = false := by
      rw [hm]
      exact (shifted_resetAsserted _ s).trans ha
    rw [exec_inboundFrame ha', ← moveBytes_append, hw, moveBytes_frameBytes kind tag aux hf h]
  · rcases r with ⟨kind, tag, phase, res, fields⟩
    cases phase <;> rfl
  · rcases n with ⟨seq, time, body⟩
    cases body with
    | start c => cases c <;> rfl
    | linkCheck t => cases t <;> rfl
    | linkTruncated t => cases t <;> rfl
    | captureDrop i r => cases r <;> rfl
    | _ => rfl

/-- Settles O9: the window is open exactly below 4. -/
theorem offeredFrameIsAcceptedOrOverruns : Obligations.OfferedFrameIsAcceptedOrOverruns :=
  fun _ _ => ⟨fun h => if_pos (decide_eq_true h), fun h => if_neg (fun hw => absurd (of_decide_eq_true hw) (Nat.not_lt.mpr h))⟩

/-- Settles O10: a damaged frame is unfinished up to its last byte, or up to a length byte over 240. -/
theorem damagedFramesAreDiscarded : Obligations.DamagedFramesAreDiscarded := by
  refine ⟨fun s kind tag aux body lo hi ha hf h hc => ?_, fun s kind tag aux len ha hf h => ?_⟩
  · exact (exec_inboundFrame ha _).trans (congrArg _ ((moveBytes_whole kind tag aux lo hi hf h).trans
      (judgeFrame_damaged _ ((shifted_framer _ s).trans hf) hc)))
  · have hu : Unfinished [kind, tag, aux] := .inl (show 3 < 4 by decide)
    refine (exec_inboundFrame ha _).trans (congrArg _ ((moveBytes_judged (b := len) hf hu).trans ?_))
    exact (if_pos ⟨rfl, h⟩).trans (checkError_framed tag _ ((shifted_framer 5 s).trans hf))

/-- R146: the link after the end of a transfer at the framer: it hunts, and a frame begun is counted as truncated. -/
def Link.truncated (k : Link) : Link := { k with
  framer := none
  counters := { k.counters with
    truncated := if k.framer.isSome then satInc k.counters.truncated else k.counters.truncated } }

/-- R153: the link after the end of a transfer on LSDO: no frame is in progress, and one that was is counted as interrupted. -/
def Link.interrupted (k : Link) : Link := { k with
  outbound := none
  counters := { k.counters with
    interrupted := if k.outbound.isSome then satInc k.counters.interrupted else k.counters.interrupted } }

theorem Link.truncated_none {k : Link} (h : k.framer = none) : k.truncated = k := by
  cases k
  cases h
  rfl

theorem Link.truncated_some {k : Link} {got : List Byte} (h : k.framer = some got) : k.truncated = { k with
    framer := none, counters := { k.counters with truncated := satInc k.counters.truncated } } := by
  rw [Link.truncated, h]
  rfl

theorem Link.interrupted_none {k : Link} (h : k.outbound = none) : k.interrupted = k := by
  cases k
  cases h
  rfl

theorem Link.interrupted_some {k : Link} {o : Outbound} (h : k.outbound = some o) : k.interrupted = { k with
    outbound := none, counters := { k.counters with interrupted := satInc k.counters.interrupted } } := by
  rw [Link.interrupted, h]
  rfl

theorem truncate_none {s : State} (h : s.link.framer = none) : truncate s = s.modLink Link.truncated := by
  conv_rhs => rw [State.modLink, Link.truncated_none h]
  rw [truncate, h]

theorem truncate_some {s : State} {got : List Byte} (h : s.link.framer = some got) :
    truncate s = raise (.linkTruncated got[1]?) (s.modLink Link.truncated) := by
  conv_rhs => rw [State.modLink, Link.truncated_some h]
  rw [truncate, h]
  rfl

theorem interrupt_eq (s : State) : interrupt s = s.modLink Link.interrupted := by
  cases h : s.link.outbound with
  | none =>
    conv_rhs => rw [State.modLink, Link.interrupted_none h]
    rw [interrupt, h]
  | some o =>
    conv_rhs => rw [State.modLink, Link.interrupted_some h]
    rw [interrupt, h]
    rfl

/-- Settles O11: the framer and then the outbound frame are ended; the notice of the first bears on no part of the second. -/
theorem lcsRiseEndsTheTransfer : Obligations.LcsRiseEndsTheTransfer := by
  intro s ha hl
  refine congrArg _ ((if_neg (by simp [ha, hl])).trans ?_)
  rw [interrupt_eq]
  dsimp only
  split
  · rename_i hf
    rw [truncate_none (s := { s with lcsLow := false }) hf]
    rfl
  · rename_i got hf
    rw [truncate_some (s := { s with lcsLow := false }) hf, ← raise_modLink]
    rfl

/-! ### The bytes that go out (R144, R152) -/

/-- R144: an event of LSDO where RESET_N is not asserted. -/
theorem whileReleased_released {s : State} (ha : s.resetAsserted = false) (t : State) : whileReleased s t = .next t :=
  if_neg (by simp [ha])

theorem exec_outboundFrameStart {s : State} (ha : s.resetAsserted = false) :
    exec .outboundFrameStart s = .next (outboundFrameStart s) := whileReleased_released ha _

/-- Log 8: a free byte position is one in which the host sends the idle byte. -/
theorem outboundFrameStart_free {s : State} (h : s.link.outbound = none) : outboundFrameStart s = moveBytes [idleByte] s := by
  rw [outboundFrameStart, h]
  rfl

/-- Log 5: there is no free byte position while a frame is in progress. -/
theorem outboundFrameStart_busy {s : State} (h : s.link.outbound ≠ none) : outboundFrameStart s = s := by
  obtain ⟨o, ho⟩ := Option.ne_none_iff_exists'.mp h
  rw [outboundFrameStart, ho]

/-- Settles O12: the arbiter's choice, case by case, in one position; positions in which the framer hunts move nothing else. -/
theorem arbiterPrefersReplies : Obligations.ArbiterPrefersReplies := by
  refine ⟨fun s r rest h hr => sendByte_starts (frameAt_reply h hr),
    fun s n rest h hr hn => sendByte_starts (frameAt_notice h hr hn),
    fun s h hr hn => ?_, fun s k bytes sent b h hl hb => ?_, fun _ _ => ⟨rfl, rfl⟩, fun s bytes ha hf hb => ?_,
    fun s ha => ⟨fun h => ?_, fun h hf => ?_, fun h => ?_⟩, fun _ => rfl⟩
  · rw [shifted_one, sendByte_idle (frameAt_none h hr hn), putByte, ← h]
    rfl
  · rw [shifted_one, sendByte_goesOn (frameAt_some h) hl, List.getD_eq_getElem?_getD, hb]
    rfl
  · rw [exec_inboundFrame ha, moveBytes_hunting hb hf]
  · rw [exec_outboundFrameStart ha, outboundFrameStart_free h, exec_inboundFrame ha]
    rfl
  · rw [exec_outboundFrameStart ha, outboundFrameStart_free h, moveBytes_hunting (by decide) hf]
    rfl
  · rw [exec_outboundFrameStart ha, outboundFrameStart_busy h]

theorem exec_replyTransmitted {s : State} (ha : s.resetAsserted = false) :
    exec .replyTransmitted s = .next (replyTransmitted s) := whileReleased_released ha _

theorem exec_noticeTransmitted {s : State} (ha : s.resetAsserted = false) :
    exec .noticeTransmitted s = .next (noticeTransmitted s) := whileReleased_released ha _

/-- Log 8: the positions up to the last byte of a reply in progress. -/
theorem replyTransmitted_eq {s : State} {k : OutboundKind} {bytes : List Byte} {sent : Nat}
    (h : s.link.outbound = some ⟨k, bytes, sent⟩) : replyTransmitted s =
      if k = .reply then moveBytes (List.replicate (bytes.length - sent) idleByte) s else s := by
  rw [replyTransmitted, h]
  cases k <;> rfl

/-- Log 8: the positions up to the last byte of a notice in progress, one still queued or not. -/
theorem noticeTransmitted_eq {s : State} {k : OutboundKind} {bytes : List Byte} {sent : Nat}
    (h : s.link.outbound = some ⟨k, bytes, sent⟩) : noticeTransmitted s =
      if k = .reply then s else moveBytes (List.replicate (bytes.length - sent) idleByte) s := by
  rw [noticeTransmitted, h]
  cases k <;> rfl

/-- R145, R152: at a framer that hunts, the positions up to the last byte of the frame in progress send it to its end. -/
theorem moveBytes_toTheEnd {s : State} {k : OutboundKind} {bytes : List Byte} {last : Byte} {sent : Nat}
    (hf : s.link.framer = none) (hl : sent < bytes.length) (hb : bytes.getLast? = some last)
    (h : s.link.outbound = some ⟨k, bytes, sent⟩) :
    moveBytes (List.replicate (bytes.length - sent) idleByte) s = frameSent k (putByte last none s) := by
  have hidle : syncByte ∉ List.replicate (bytes.length - sent) idleByte :=
    fun hm => absurd (List.eq_of_mem_replicate hm) (by decide)
  obtain ⟨n, hn⟩ := Nat.exists_eq_add_of_lt hl
  rw [moveBytes_hunting hidle hf, List.length_replicate, show bytes.length - sent = n + 1 by omega]
  exact shifted_toTheEnd hb n h (by omega)

/-- Settles O13: the last byte of a frame ends it as its kind has it, in one position or in a run of them. -/
theorem transmittedFramesLeaveTheirQueue : Obligations.TransmittedFramesLeaveTheirQueue := by
  unfold Obligations.TransmittedFramesLeaveTheirQueue
  intro replySent' noticeSent' endSent
  have hnotice : ∀ {s : State} {n : Notice} {rest : List Notice} (last : Byte), s.notices.untransmitted = n :: rest →
      frameSent (.notice n.seq) (putByte last none s) = noticeSent' s n rest last := fun last hn => frameSent_notice hn
  have hend : ∀ {s : State} {k : OutboundKind} (last : Byte), k ≠ .reply →
      (∀ n ∈ s.notices.untransmitted.head?, k ≠ .notice n.seq) → frameSent k (putByte last none s) = endSent s last :=
    fun last hk hn => frameSent_moved hk hn
  refine ⟨fun s bytes last sent hb hl => ?_, fun s bytes sent k ha h => ?_, fun s ha h => ?_,
    fun s bytes last sent ha hf hl hb => ?_⟩
  · refine ⟨fun h => shifted_toTheEnd hb 0 h hl, fun n rest h hn => ?_, fun k hk h hn => ?_⟩
    · exact (shifted_toTheEnd hb 0 h hl).trans (hnotice last hn)
    · exact (shifted_toTheEnd hb 0 h hl).trans (hend last hk hn)
  · rw [exec_replyTransmitted ha, exec_noticeTransmitted ha, replyTransmitted_eq h, noticeTransmitted_eq h, exec_inboundFrame ha]
    exact ⟨apply_ite Host.Outcome.next _ _ _, apply_ite Host.Outcome.next _ _ _⟩
  · rw [exec_replyTransmitted ha, exec_noticeTransmitted ha, replyTransmitted, noticeTransmitted, h]
    exact ⟨rfl, rfl⟩
  · have toTheEnd := fun k => moveBytes_toTheEnd (s := s) (k := k) hf hl hb
    refine ⟨fun h => ?_, fun n rest h hn => ?_, fun k hk h hn => ?_⟩
    · rw [exec_replyTransmitted ha, replyTransmitted_eq h, if_pos rfl, toTheEnd _ h]
      rfl
    · rw [exec_noticeTransmitted ha, noticeTransmitted_eq h, if_neg nofun, toTheEnd _ h, hnotice last hn]
    · rw [exec_noticeTransmitted ha, noticeTransmitted_eq h, if_neg hk, toTheEnd _ h, hend last hk hn]

/-- R154: ATTN_N is low exactly while something waits to be sent. -/
theorem attnLow_iff (s : State) : s.attnLow = true ↔ (s.link.replies ≠ [] ∨ s.notices.untransmitted ≠ []) := by
  simp only [State.attnLow, Bool.or_eq_true, Bool.not_eq_true', List.isEmpty_eq_false_iff]

/-- Settles O6: nothing waits at an assertion of RESET_N, and START (HARD) does at its release. -/
theorem attentionFollowsTheQueues : Obligations.AttentionFollowsTheQueues :=
  ⟨attnLow_iff, fun _ => ⟨_, rfl, rfl⟩, fun _ ha => ⟨_, exec_resetNRelease_asserted ha, (attnLow_iff _).mpr (.inr nofun)⟩⟩

end Sys2Proof.Machine
end

section
/-! The dispatcher: the arrival of a request, the one first reply to each, and the checks every request passes first. -/

namespace Sys2Proof.Machine

open Sys2Proof

/-! ### Request commands and the kinds of the dispatcher -/

theorem isRequestKind_iff (kind : Byte) : isRequestKind kind = true ↔ 1 ≤ kind.toNat ∧ kind.toNat ≤ 0x1B := by
  simp [isRequestKind]

/-- R148, R149: a well-formed request command is that of a known kind, or carries a type that is no request kind. -/
theorem requestOf_some {c : Instr} {r : Request} (hr : requestOf c = some r) (hw : c.wellFormed = true) :
    (∃ k, r.kind = k.code ∧ c = commandOf k r.tag r.body) ∨
      (isRequestKind r.kind = false ∧ c = .unknownRequest r.kind r.tag r.body) := by
  obtain ⟨kind, tag, body⟩ := r
  dsimp only
  cases c
  case inboundFrame | lcsNRise | outboundFrameStart | replyTransmitted | noticeTransmitted | resetNAssert | resetNRelease
  | bringupProbeDone | bringupTrainingDone | bringupSizingDone | bringupDeadlineExpiry | dramAccessFailure | captureFrameStart
  | lineStart | frameEnd | sourceLossTimerExpiry | pacingTimerExpiry | outputTrailerStart | outputFrameEnd => exact nomatch hr
  case unknownRequest =>
    cases hr
    obtain ⟨-, hk⟩ := Bool.and_eq_true_iff.mp hw
    exact .inr ⟨by simpa using hk, rfl⟩
  all_goals
    cases hr
    refine .inl ⟨_, rfl, ?_⟩
    rfl

/-- R149: a type that is no request kind is dispatched as it stands. -/
theorem exec_unknownRequest {kind : Byte} (hk : isRequestKind kind = false) (tag : Tag) (body : List Byte) (s : State) :
    exec (.unknownRequest kind tag body) s =
      dispatch ⟨kind, tag, body⟩ (queueReply ⟨replyKind kind, tag, .first, .badRequest, []⟩) s :=
  if_neg (mt (isRequestKind_iff kind).mpr (by simp [hk]))

/-- R148: a request command is its request dispatched, whatever its owner then does. -/
theorem exec_eq_dispatch {c : Instr} {r : Request} (hr : requestOf c = some r) (hw : c.wellFormed = true) :
    ∃ act, ∀ s, exec c s = dispatch r act s := by
  obtain ⟨kind, tag, body⟩ := r
  rcases requestOf_some hr hw with ⟨k, hk, rfl⟩ | ⟨hk, rfl⟩
  · dsimp only at hk
    subst hk
    exact ⟨_, exec_commandOf k tag body⟩
  · exact ⟨_, exec_unknownRequest hk tag body⟩

/-! ### Arrival and waiting (R147, R148, R151, log 3) -/

theorem present_arriving {r : Request} {s : State} (h : s.link.inbound.head? ≠ some r) :
    present r s = offer r (s.shifted (7 + r.body.length)) := if_neg h

theorem present_waiting {r : Request} {s : State} (h : s.link.inbound.head? = some r) : present r s = s := if_pos h

@[simp] theorem offer_resetAsserted (r : Request) (s : State) : (offer r s).resetAsserted = s.resetAsserted := by
  unfold offer
  split
  · rfl
  · rw [raise_resetAsserted]
    rfl

theorem dispatch_released {r : Request} {s : State} (act : State → State) (ha : s.resetAsserted = false) :
    dispatch r act s = if canTake r (present r s) then .next (act (taken (present r s))) else .next (present r s) :=
  if_neg (by simp [ha])

theorem canTake_iff (r : Request) (s : State) :
    canTake r s = true ↔ s.link.inbound.head? = some r ∧ replyRoom s.link = true := by
  simp [canTake]

/-- R151: there is no room exactly while entries and queued final replies number 8 and one of them is a final reply. -/
theorem replyRoom_false_iff (k : Link) :
    replyRoom k = false ↔ 8 ≤ k.outstanding.length + finalReplies k ∧ 0 < finalReplies k := by
  have hn : ∀ n, n = 0 ↔ ¬ 0 < n := fun n => by omega
  rw [replyRoom, Bool.or_eq_false_iff, decide_eq_false_iff_not, decide_eq_false_iff_not, Nat.not_lt, hn, not_not]
  rfl

/-- Settles O14: a request command dispatches its request, and a request that has arrived is presented as it stands. -/
theorem arrivingRequestIsOffered : Obligations.ArrivingRequestIsOffered := by
  refine ⟨fun c r s hr hw ha hh => ?_, fun c r s hr hw ha hh hroom => ?_, replyRoom_false_iff, fun _ => rfl⟩
  · obtain ⟨act, hact⟩ := exec_eq_dispatch hr hw
    have hu : (offer r (s.shifted (7 + r.body.length))).resetAsserted = false := by
      rw [offer_resetAsserted, shifted_resetAsserted, ha]
    rw [hact, dispatch_released act ha, present_arriving hh]
    simp only [canTake_iff]
    split
    · rename_i h
      rw [hact, dispatch_waiting act ⟨hu, h⟩]
    · rfl
  · obtain ⟨act, hact⟩ := exec_eq_dispatch hr hw
    rw [hact, dispatch_released act ha, present_waiting hh]
    exact if_neg (fun h => absurd ((canTake_iff r s).mp h).2 (by simp [hroom]))

/-! ### One first reply (R149) -/

/-- The first replies that wait to be sent, in their order. -/
def queuedFirsts (s : State) : List Reply := s.link.replies.filter (fun x => x.phase = .first)

/-- R149: a first reply of the kind and tag, OK or PENDING, is the one first reply more that `v` holds than `u`. -/
def AnsweredOnce (k : Kind) (tag : Tag) (u v : State) : Prop :=
  ∃ rep : Reply, rep.kind = replyKind k.code ∧ rep.tag = tag ∧ rep.phase = .first ∧
    (rep.result = .ok ∨ rep.result = .pending) ∧ queuedFirsts v = queuedFirsts u ++ [rep]

/-- What a verdict does with the first replies where it is no refusal. -/
def AnswersOnce (k : Kind) (tag : Tag) (u : State) : Verdict → Prop
  | .error _ => True
  | .ok v => AnsweredOnce k tag u v

theorem queuedFirsts_congr {u v : State} (h : v.link.replies = u.link.replies) : queuedFirsts v = queuedFirsts u :=
  congrArg (List.filter _) h

theorem queuedFirsts_queueReply {r : Reply} (s : State) (hr : r.phase = .first) :
    queuedFirsts (queueReply r s) = queuedFirsts s ++ [r] := by
  rw [queuedFirsts, queueReply_replies, List.filter_append, List.filter_cons_of_pos (by simpa using hr), List.filter_nil]
  rfl

namespace AnswersOnce

variable {k : Kind} {tag : Tag} {fields : List Byte} {u v : State}

theorem refused (r : Result) : AnswersOnce k tag u (refuse r) := trivial

/-- An OK queued after an action that leaves the first replies. -/
theorem okReply (h : queuedFirsts v = queuedFirsts u) : AnswersOnce k tag u (okReply k tag fields v) :=
  ⟨_, rfl, rfl, rfl, .inl rfl, h ▸ queuedFirsts_queueReply v rfl⟩

/-- An OK queued after a block's own action. -/
theorem okAfter (c : Change True u v) : AnswersOnce k tag u (Machine.okReply k tag fields v) := okReply c.firsts

/-- PENDING, queued with the entry. -/
theorem pending {op : Pending} (h : queuedFirsts v = queuedFirsts u) : AnswersOnce op.kind tag u (.ok (defer tag op v)) :=
  ⟨⟨replyKind op.kind.code, tag, .first, .pending, []⟩, rfl, rfl, rfl, .inr rfl,
    h ▸ queuedFirsts_queueReply (v.modLink fun k => { k with outstanding := k.outstanding ++ [⟨tag, op⟩] }) rfl⟩

/-- A block's own action after the reply. -/
theorem before {v' : State} (h : AnswersOnce k tag u (.ok v)) (c : Change True v v') : AnswersOnce k tag u (.ok v') := by
  obtain ⟨rep, hk, ht, hp, hr, hq⟩ := h
  exact ⟨rep, hk, ht, hp, hr, c.firsts.trans hq⟩

/-! Each owner in turn. Its refusals queue nothing of their own; each of its other branches is one of the shapes above. -/

theorem streamStop (body : List Byte) : AnswersOnce .streamStop tag u (streamStop tag body u) := by
  unfold Machine.streamStop
  repeat' split
  any_goals exact refused _
  · exact okReply rfl
  · exact okReply rfl
  · exact okReply rfl
  · exact okAfter (.calm (.discardStop _ u))
  · exact pending (op := .streamStop _) rfl
  · exact okAfter (.calm (.discardStop _ u))

theorem streamFreeze (body : List Byte) : AnswersOnce .streamFreeze tag u (streamFreeze tag body u) := by
  unfold Machine.streamFreeze
  repeat' split
  any_goals exact refused _
  · exact okReply rfl
  · exact okReply rfl
  · exact pending (op := .streamFreeze _) rfl

theorem streamThaw (body : List Byte) : AnswersOnce .streamThaw tag u (streamThaw tag body u) := by
  unfold Machine.streamThaw
  repeat' split
  any_goals exact refused _
  · exact okReply rfl
  · exact okReply (Change.calm (w := True) (.retireOnThaw _ (u.modStream _ _))).firsts
  · exact okAfter (.calm (.withdrawFreeze _ u))

theorem listCommit (body : List Byte) : AnswersOnce .listCommit tag u (listCommit tag body u) := by
  unfold Machine.listCommit
  repeat' split
  any_goals exact refused _
  · exact trivial
  · exact okReply rfl
  · exact pending (op := .listCommit _) rfl

theorem laneSetup (body : List Byte) : AnswersOnce .laneSetup tag u (laneSetup tag body u) := by
  unfold Machine.laneSetup
  dsimp only
  repeat' split
  any_goals exact refused _
  exact okReply (Change.calm (w := True) (.route _ _ (setupLane _ _ u))).firsts

theorem laneStart (body : List Byte) : AnswersOnce .laneStart tag u (laneStart tag body u) := by
  unfold Machine.laneStart
  repeat' split
  any_goals exact refused _
  · exact okReply (Change.firstBoundary (w := True) _ _ (claimLane _ u)).firsts
  · exact (okReply (Change.firstBoundary (w := True) _ _ (claimLane _ u)).firsts).before (.relay _ _ _)
  · exact pending (op := .laneStart _) rfl

/-- R98, R112: the stops that act at once. -/
theorem immediateStop (l : LaneIx) : AnswersOnce .laneStop tag u (.ok (immediateStop tag l u)) := by
  have stopped : AnswersOnce .laneStop tag u (Machine.okReply .laneStop tag [] (stopNow l u)) := okAfter (.stopNow l u)
  unfold Machine.immediateStop
  dsimp only
  split
  · exact stopped.before (.dissolve _ (fun x s => .dissolveImmediate l _ x s) l _)
  · exact stopped

theorem stopWaiting (l : LaneIx) : AnswersOnce .laneStop tag u (.ok (stopWaiting tag l u)) :=
  okAfter (fields := []) ((Change.calm (.completeJoin _ u)).trans (.finishStop _ _))

theorem laneStop (body : List Byte) : AnswersOnce .laneStop tag u (laneStop tag body u) := by
  unfold Machine.laneStop
  repeat' split
  any_goals exact refused _
  · exact okReply rfl
  · exact okAfter (((Change.applyPending _ u).trans (.readied _ _)).trans (.calm (.completeIf _ _ _ _)))
  · exact stopWaiting _
  · exact immediateStop _
  · exact pending (op := .laneStop _) rfl
  · exact stopWaiting _
  · exact immediateStop _

theorem lockJoin (body : List Byte) : AnswersOnce .lockJoin tag u (lockJoin tag body u) := by
  unfold Machine.lockJoin
  repeat' split
  any_goals exact refused _
  · exact pending (op := .lockJoin _) rfl
  · exact okReply rfl

theorem lockLeave (body : List Byte) : AnswersOnce .lockLeave tag u (lockLeave tag body u) := by
  unfold Machine.lockLeave
  repeat' split
  any_goals exact refused _
  · exact okAfter ((Change.leaveGroup _ u).trans (.calm (.freeLeader _ _)))
  · exact okAfter (.cancelJoin _ _ u)

/-- R159: reading counters, and clearing them, leaves the reply queue. -/
theorem counters (body : List Byte) : AnswersOnce .counters tag u (counters tag body u) := by
  have hflag : ∀ h, (clearFlag h u).link = u.link := fun h => by cases h <;> rfl
  have hclear : ∀ h s, (clearCounters h s).link.replies = s.link.replies := fun h s => by cases h <;> rfl
  unfold Machine.counters
  repeat' split
  any_goals exact refused _
  · exact okReply (queuedFirsts_congr ((hclear _ _).trans (congrArg Link.replies (hflag _))))
  · exact okReply (queuedFirsts_congr (congrArg Link.replies (hflag _)))

theorem cancel (body : List Byte) : AnswersOnce .cancel tag u (cancel tag body u) := by
  unfold Machine.cancel
  repeat' split
  any_goals exact refused _
  exact okAfter (.withdraw _ u)

/-- R156: the ABORTED of a soft reset are final replies. -/
theorem reset (body : List Byte) : AnswersOnce .reset tag u (reset tag body u) := by
  unfold Machine.reset
  split
  · refine ⟨⟨replyKind Kind.reset.code, tag, .first, .ok, listBytes (fun t => [t]) (u.link.inbound.map Request.tag)⟩,
      rfl, rfl, rfl, .inl rfl, ?_⟩
    rw [queuedFirsts, softReset_replies, List.filter_append, List.filter_append, List.filter_map]
    simp [queuedFirsts]
  · exact refused _

theorem noticeAck (body : List Byte) : AnswersOnce .noticeAck tag u (noticeAck tag body u) := by
  have hlink : ∀ s, (reportLost s).link = s.link := fun s => by unfold reportLost; split <;> rfl
  unfold Machine.noticeAck
  repeat' split
  any_goals exact refused _
  exact okReply (queuedFirsts_congr (congrArg Link.replies (hlink _)))

/-- R149: whatever the kind, a request its owner does not refuse is answered once. The owners not named above write no part of
the link but by that reply, an OK. -/
theorem judged (k : Kind) (body : List Byte) : AnswersOnce k tag u (judgeOf k tag body u) := by
  cases k
  case streamStop => exact streamStop body
  case streamFreeze => exact streamFreeze body
  case streamThaw => exact streamThaw body
  case listCommit => exact listCommit body
  case laneSetup => exact laneSetup body
  case laneStart => exact laneStart body
  case laneStop => exact laneStop body
  case lockJoin => exact lockJoin body
  case lockLeave => exact lockLeave body
  case counters => exact counters body
  case cancel => exact cancel body
  case reset => exact reset body
  case noticeAck => exact noticeAck body
  all_goals
    dsimp only [judgeOf, Machine.streamBind, Machine.streamUnbind, Machine.streamStart, Machine.streamFill, Machine.sourceSetup,
      Machine.listEdit, Machine.listRead, Machine.portSetup, Machine.streamStamp, Machine.storeConfig, Machine.identify,
      Machine.status, Machine.linkSet, Machine.noticeResend]
    repeat' split
    any_goals exact refused _
    all_goals exact okReply rfl

end AnswersOnce

/-- Settles O15: a refusal queues its own first reply and changes nothing else; any other verdict holds one. -/
theorem everyRequestGetsOneFirstReply : Obligations.EveryRequestGetsOneFirstReply := by
  intro c r s hr hw hwait
  obtain ⟨kind, tag, body⟩ := r
  rcases requestOf_some hr hw with ⟨k, hk, rfl⟩ | ⟨hk, rfl⟩
  · dsimp only at hk
    subst hk
    have hx := exec_commandOf_waiting hwait
    have hj : AnswersOnce k tag (taken s) (judgeOf k tag body (taken s)) := .judged k body
    cases hv : judgeOf k tag body (taken s) with
    | error x =>
      rw [hv, answer_error] at hx
      exact ⟨_, _, hx, rfl, rfl, rfl, queuedFirsts_queueReply (taken s) rfl, fun _ _ => rfl⟩
    | ok v =>
      rw [hv] at hx hj
      obtain ⟨rep, hkind, htag, hphase, hres, hq⟩ := hj
      exact ⟨v, rep, hx, hkind, htag, hphase, hq, fun hok hpending => (hres.elim hok hpending).elim⟩
  · exact ⟨_, _, (exec_unknownRequest hk tag body s).trans (dispatch_waiting _ hwait), rfl, rfl, rfl,
      queuedFirsts_queueReply (taken s) rfl, fun _ _ => rfl⟩

/-! ### The first checks (R148) -/

theorem tagHeld_iff (k : Link) (tag : Tag) : tagHeld k tag = true ↔ ∃ e ∈ k.outstanding, e.tag = tag := by
  simp [tagHeld]

/-- R148, R173: whatever the kind, a body of a length it does not take is BAD_REQUEST. -/
theorem judgeOf_badRequest {k : Kind} {tag : Tag} {body : List Byte} {s : State}
    (h : lengthTaken k body.length (field body 1) = false) : judgeOf k tag body s = refuse .badRequest := by
  cases k
  case listEdit =>
    dsimp only [judgeOf, listEdit]
    split
    · rename_i bl bo bi bc rest
      exact if_pos (by simpa [lengthTaken] using h)
    · rfl
  case streamStamp =>
    dsimp only [judgeOf, streamStamp]
    split
    · rename_i bi bc rest
      refine if_pos (fun hr => ?_)
      simp [lengthTaken, field, hr] at h
      omega
    · rfl
  all_goals
    dsimp only [judgeOf, streamBind, streamUnbind, streamStart, streamStop, streamFreeze, streamThaw, streamFill, sourceSetup,
      listRead, listCommit, laneSetup, portSetup, laneStart, laneStop, lockJoin, lockLeave, storeConfig, identify, status,
      counters, linkSet, cancel, reset, noticeAck, noticeResend]
    split
    · exact nomatch h
    · rfl

/-- R148, R150: a deferrable request under the tag of an entry is TAG_IN_USE. -/
theorem judgeOf_tagInUse {k : Kind} {tag : Tag} {body : List Byte} {s : State}
    (hl : lengthTaken k body.length (field body 1) = true) (hd : k.deferrable = true) (ht : tagHeld s.link tag = true) :
    judgeOf k tag body s = refuse .tagInUse := by
  cases k
  case streamStop | listCommit | laneStop | lockJoin =>
    match body, beq_iff_eq.mp hl with
    | [_, _], _ => exact if_pos ht
  case streamFreeze | laneStart =>
    match body, beq_iff_eq.mp hl with
    | [_], _ => exact if_pos ht
  all_goals exact nomatch hd

/-- Settles O16: the length and then the tag are every owner's first conditions; a type of no kind has no owner. -/
theorem kindLengthAndTagAreChecked : Obligations.KindLengthAndTagAreChecked :=
  ⟨fun _ _ _ _ hw => ⟨fun h => exec_commandOf_refused hw (judgeOf_badRequest h),
      fun hl hd ht => exec_commandOf_refused hw (judgeOf_tagInUse hl hd ht)⟩,
    tagHeld_iff, fun _ tag body s hk hw => (exec_unknownRequest hk tag body s).trans (dispatch_waiting _ hw)⟩

end Sys2Proof.Machine
end

section
/-! The soft reset: the abort markers of the frames that have not ended, and the records the owners tear down. -/

namespace Sys2Proof.Machine

open Sys2Proof

/-! ### The abort markers, lane by lane (R87, R102, R122) -/

/-- R100: an abort is counted on a port; its width stays. -/
theorem abortFrame_width (l : LaneIx) (s : State) (p : PortIx) :
    ((abortFrame l countAborted s).outPort p).width = (s.outPort p).width := by
  unfold abortFrame countOnPort
  cases (s.out l).frame with
  | none => rfl
  | some fr =>
    cases (s.lane l).port with
    | none => rfl
    | some q =>
      show (rd (wr s.outPorts q (countAborted (s.outPort q))) p).width = _
      rw [rd_wr]
      split
      · rename_i h
        rw [h]
        rfl
      · rfl

theorem abortFrame_laneWidth (l j : LaneIx) (s : State) : laneWidth (abortFrame l countAborted s) j = laneWidth s j := by
  simp only [laneWidth, abortFrame_lane, abortFrame_width]

/-- R91: the picture is composed of the streams' frames and the store, which an abort leaves. -/
theorem abortFrame_frameLines (l j : LaneIx) (s : State) : frameLines (abortFrame l countAborted s) j = frameLines s j := by
  have hc : ∀ g tiles fl y, composedLine (abortFrame l countAborted s) g tiles fl y = composedLine s g tiles fl y := by
    intro g tiles fl y
    rw [abortFrame_eq]
    rfl
  funext fl
  simp only [frameLines, abortFrame_lane, abortFrame_laneWidth, hc]

/-- What the abort of a lane's frame reads of the block: its output, its port's width and the words of its lines. -/
def abortReads (l : LaneIx) (s : State) : LaneOut × WidthMode × (Option Nat → List Half) :=
  (s.out l, laneWidth s l, frameLines s l)

theorem abortReads_abortFrame (i j : LaneIx) (s : State) (h : i ≠ j) :
    abortReads j (abortFrame i countAborted s) = abortReads j s := by
  simp only [abortReads, abortFrame_out_ne i j countAborted s h, abortFrame_laneWidth, abortFrame_frameLines]

/-- R87, R122: the words that stand before the abort marker, and the marker. -/
theorem abortFrame_out {l : LaneIx} {s : State} {fr : OutFrame} (h : (s.out l).frame = some fr) :
    (abortFrame l countAborted s).out l = { s.out l with
      frame := none
      sent := (s.out l).sent ++ goneBeforeAbort s l fr ++ [markerWord (laneWidth s l) 0x05] } := by
  unfold abortFrame countOnPort
  rw [h]
  cases (s.lane l).port <;> exact rd_wr_same _ _ _

/-- R102: each lane's marker is sent in a state that holds what its abort reads as it stood. -/
theorem abortAll_visited (s : State) (l : LaneIx) :
    ∃ u, u.out l = s.out l ∧ laneWidth u l = laneWidth s l ∧ frameLines u l = frameLines s l ∧
      (abortAll s).out l = (abortFrame l countAborted u).out l := by
  obtain ⟨u, hu, hv⟩ := forAll_visited (f := fun l u => abortFrame l countAborted u) abortReads
    (fun i j s h => abortReads_abortFrame i j s h) s l
  simp only [abortReads, Prod.mk.injEq] at hu hv
  obtain ⟨hout, hwidth, hlines⟩ := hu
  obtain ⟨hafter, -, -⟩ := hv
  exact ⟨u, hout, hwidth, hlines, hafter⟩

/-- R102: a lane with no frame in progress sends nothing. -/
theorem abortAll_out_idle {l : LaneIx} {s : State} (h : (s.out l).frame = none) : (abortAll s).out l = s.out l := by
  obtain ⟨u, hout, -, -, hafter⟩ := abortAll_visited s l
  rw [hafter, abortFrame_none l _ u (hout ▸ h), hout]

/-- R87, R121: the words that a frame in progress may still have to send. -/
def wordsLeft (s : State) (l : LaneIx) (fr : OutFrame) : List Half :=
  match fr.stage with
  | .lines => frameLines s l fr.faultLine
  | .trailer rest => rest

theorem wordsLeft_congr {s t : State} {l : LaneIx} (h : frameLines t l = frameLines s l) (fr : OutFrame) :
    wordsLeft t l fr = wordsLeft s l fr := by
  unfold wordsLeft
  rw [h]

/-- R87, R102, R122: a frame in progress ends with the abort marker, after a beginning of what it still had to send that is never
the whole of a packet. -/
theorem abortAll_out {l : LaneIx} {s : State} {fr : OutFrame} (h : (s.out l).frame = some fr) :
    ∃ n : Nat, (∀ rest, fr.stage = .trailer rest → rest ≠ [] → n < rest.length) ∧ (abortAll s).out l = { s.out l with
      frame := none
      sent := (s.out l).sent ++ (wordsLeft s l fr).take n ++ [markerWord (laneWidth s l) 0x05] } := by
  obtain ⟨u, hout, hwidth, hlines, hafter⟩ := abortAll_visited s l
  obtain ⟨n, hn, hgone⟩ := goneBeforeAbort_take u l fr
  refine ⟨n, hn, ?_⟩
  rw [hafter, abortFrame_out (hout ▸ h), hgone.trans (congrArg (List.take n) (wordsLeft_congr hlines fr)), hout, hwidth]

theorem abortAll_frame (s : State) (l : LaneIx) : ((abortAll s).out l).frame = none := by
  cases h : (s.out l).frame with
  | none => rw [abortAll_out_idle h, h]
  | some fr =>
    obtain ⟨n, -, ho⟩ := abortAll_out h
    rw [ho]

theorem abortFrames_eq (xs : List LaneIx) : ∀ s : State, xs.foldl (fun t l => abortFrame l countAborted t) s = { s with
    outPorts := (xs.foldl (fun t l => abortFrame l countAborted t) s).outPorts
    outs := (xs.foldl (fun t l => abortFrame l countAborted t) s).outs
    trailers := (xs.foldl (fun t l => abortFrame l countAborted t) s).trailers
    freeCount := (xs.foldl (fun t l => abortFrame l countAborted t) s).freeCount } := by
  induction xs with
  | nil => exact fun _ => rfl
  | cons l xs ih =>
    intro s
    rw [List.foldl_cons, ih (abortFrame l countAborted s), abortFrame_eq l _ s]

/-- R102: the abort markers are written on the output side alone. -/
theorem abortAll_eq (s : State) : abortAll s = { s with
    outPorts := (abortAll s).outPorts
    outs := (abortAll s).outs
    trailers := (abortAll s).trailers
    freeCount := (abortAll s).freeCount } := abortFrames_eq _ s

/-! ### The six steps (R156) -/

/-- R156: the state in which the abort markers are sent: the waiting requests are dropped and the entries answered ABORTED. -/
def resetBegun (s : State) : State := abortOutstanding (s.modLink (fun k => { k with inbound := [] }))

theorem frameLines_resetBegun (s : State) (l : LaneIx) : frameLines (resetBegun (taken s)) l = frameLines s l := rfl

theorem laneWidth_resetBegun (s : State) (l : LaneIx) : laneWidth (resetBegun (taken s)) l = laneWidth s l := rfl

/-! What a soft reset leaves of the outputs, the pins and the waiting commands. -/

theorem softReset_out (tag : Tag) (s : State) (l : LaneIx) : (softReset tag s).out l = (abortAll (resetBegun s)).out l := by
  dsimp only [softReset, restartNotices, enterNotice, firstReply, queueReply, State.modLink, teardown, State.out, resetBegun]

@[simp] theorem softReset_lcsLow (tag : Tag) (s : State) : (softReset tag s).lcsLow = s.lcsLow := by
  dsimp only [softReset, restartNotices, enterNotice, firstReply, queueReply, State.modLink, abortOutstanding, teardown]
  rw [abortAll_eq]

@[simp] theorem softReset_pending (tag : Tag) (s : State) : (softReset tag s).pending = s.pending := by
  dsimp only [softReset, restartNotices, enterNotice, firstReply, queueReply, State.modLink, abortOutstanding, teardown]
  rw [abortAll_eq]

/-- R156, R166: the class mask is the one the notice unit had. -/
theorem softReset_noticeUnit (tag : Tag) (s : State) :
    (softReset tag s).notices = ⟨s.notices.mask, [], [⟨0, 0, .start .soft⟩], 1, 0⟩ := by
  rw [softReset_notices]
  dsimp only [abortOutstanding, State.modLink, teardown]
  rw [abortAll_eq]

/-- R133: READY keeps its format with every slot free; bring-up and FAULT begin bring-up again. -/
theorem softResetStore_cases (st : Store) :
    (st.state = .ready → softResetStore st = { st with free := List.range st.count }) ∧
      ((∀ stage d, st.state = .bringup stage d → softResetStore st = ⟨.bringup .probe 40, none, none, 0, []⟩) ∧
        (∀ c, st.state = .fault c → softResetStore st = ⟨.bringup .probe 40, none, none, 0, []⟩)) := by
  refine ⟨fun h => ?_, fun stage d h => ?_, fun c h => ?_⟩ <;> rw [softResetStore, h] <;> rfl

/-- R156: RESET without a body is the soft reset of the state with its request taken. -/
theorem exec_reset_waiting {s : State} {tag : Tag} (h : WaitingFor s .reset tag []) :
    exec (.reset tag []) s = .next (softReset tag (taken s)) := request_waiting reset h

/-- Settles O5: every record is written anew in one update but the outputs, which the abort markers leave as `abortAll_out` has
them. -/
theorem softResetTearsDown : Obligations.SoftResetTearsDown := by
  intro s tag h
  obtain ⟨ha, -, -⟩ := id h
  refine ⟨_, exec_reset_waiting h, rfl, rfl, rfl, rfl, rfl, rfl, rfl, rfl, ?_, ?_, ?_, softReset_dram tag _, fun n => ?_,
    fun p => ?_, fun i => ?_, fun l => ?_, fun l hf => ?_, fun l fr hf => ?_, fun p => ?_, rfl, ?_, softResetStore_cases s.store⟩
  · rw [softReset_resetAsserted]
    exact ha
  · rw [softReset_lcsLow]
    rfl
  · rw [softReset_pending]
    rfl
  · exact rd_replicate _ n
  · exact rd_replicate _ p
  · exact ⟨rd_replicate _ i, rd_replicate _ i⟩
  · refine ⟨rd_replicate _ l, rd_replicate _ l, rd_replicate _ l, ?_, rd_replicate _ l⟩
    rw [softReset_out]
    exact abortAll_frame _ l
  · rw [softReset_out]
    exact abortAll_out_idle (s := resetBegun (taken s)) hf
  · rw [softReset_out]
    obtain ⟨n, hn, ho⟩ := abortAll_out (s := resetBegun (taken s)) hf
    refine ⟨n, hn, ho.trans ?_⟩
    rw [wordsLeft_congr (frameLines_resetBegun s l), laneWidth_resetBegun]
    obtain ⟨stage, fl⟩ := fr
    cases stage <;> rfl
  · exact rd_replicate _ p
  · exact softReset_noticeUnit tag (taken s)
end Sys2Proof.Machine
end

section
/-! The law of the notice queue (R163) through everything a command can do. -/

namespace Sys2Proof.Machine

open Sys2Proof

namespace NoticeLaw

/-- R163: an empty queue, whatever the next sequence. -/
theorem empty (mask : BitVec 5) (q lost : Half) : NoticeLaw ⟨mask, [], [], q, lost⟩ := ⟨Nat.zero_le _, rfl⟩

/-- The law reads the queue as a whole and the next sequence, not which of its notices have been sent. -/
theorem of_queue {u v : NoticeUnit} (h : NoticeLaw u)
    (hq : v.transmitted ++ v.untransmitted = u.transmitted ++ u.untransmitted) (hn : v.nextSeq = u.nextSeq) :
    NoticeLaw v := by
  have hc : noticeCount v = noticeCount u := by
    simp only [noticeCount, ← List.length_append, hq]
  simpa only [NoticeLaw, hc, hq, hn] using h

/-- R164: the notices that stay after a removal from the head are consecutive, up to the same next sequence. -/
theorem removed {s : State} {n : Nat} (h : NoticeLaw s.notices) (hn : n ≤ s.notices.transmitted.length) :
    NoticeLaw (removeNotices n s).notices := by
  obtain ⟨hcount, hseq⟩ := h
  have hc : noticeCount s.notices = noticeCount (removeNotices n s).notices + n := by
    simp only [noticeCount, removeNotices, List.length_drop]
    omega
  have hfirst : ∀ q : Half, q - BitVec.ofNat 16 (noticeCount s.notices) + BitVec.ofNat 16 n =
      q - BitVec.ofNat 16 (noticeCount (removeNotices n s).notices) := by
    intro q
    rw [hc, BitVec.ofNat_add]
    generalize BitVec.ofNat 16 (noticeCount (removeNotices n s).notices) = x
    bv_omega
  have hqueue : (s.notices.transmitted ++ s.notices.untransmitted).drop n =
      (removeNotices n s).notices.transmitted ++ (removeNotices n s).notices.untransmitted :=
    List.drop_append_of_le_length hn
  refine ⟨by omega, ?_⟩
  rw [← hqueue, ← hfirst]
  exact consecutiveFrom_drop _ _ n (by rw [List.length_append]; omega) hseq

/-- R164: the loss report enters where an ACK has made room. -/
theorem reportLost {s : State} (h : NoticeLaw s.notices) (hroom : noticeCount s.notices < Config.noticePlaces) :
    NoticeLaw (reportLost s).notices := by
  unfold Machine.reportLost
  split
  · exact h
  · exact enterNotice_law _ { s with notices := { s.notices with lost := 0 } } hroom h

/-- R164: an ACK removes at least one notice, so that there is room for the loss report. -/
theorem acked {s : State} {n : Nat} (h : NoticeLaw s.notices) (h0 : 0 < n) (hn : n ≤ s.notices.transmitted.length) :
    NoticeLaw (Machine.reportLost (removeNotices n s)).notices := by
  have hroom : noticeCount (removeNotices n s).notices < Config.noticePlaces := by
    obtain ⟨hcount, -⟩ := h
    simp only [noticeCount, removeNotices, List.length_drop] at hcount ⊢
    omega
  exact (h.removed hn).reportLost hroom

/-- R147: an overrun is handed to the notice unit. -/
theorem offered {s : State} (h : NoticeLaw s.notices) (r : Request) : NoticeLaw (offer r s).notices := by
  unfold offer
  split
  · exact h
  · exact raise_law _ _ h

/-- R126: the end of bring-up hands a notice over. -/
theorem broughtUp {s : State} (h : NoticeLaw s.notices) (mib : Nat) : NoticeLaw (finishBringup mib s).notices := by
  unfold finishBringup
  exact raise_law _ _ h

/-- R156, R166: after a restart START stands alone in the queue. -/
theorem restarted (c : StartCause) (s : State) : NoticeLaw (restartNotices c s).notices :=
  enterNotice_law (.start c) _ (show 0 < 32 by decide) (empty s.notices.mask 0 0)

/-- R162: a block's own action bears on the notice unit by the notices it hands over alone. -/
theorem change {w : Prop} {s t : State} (c : Change w s t) : NoticeLaw s.notices → NoticeLaw t.notices := by
  induction c with
  | trans _ _ h k => exact fun hs => k (h hs)
  | records h => exact fun hs => h.notices ▸ hs
  | raised b s => exact raise_law b s
  | completed tag res fields s => exact fun hs => (complete_notices tag res fields s).symm ▸ hs
  | refl | ring | stopped | readied | written => exact id

/-- R162 to R166: a notice enters at the end with the next sequence, the oldest leave by an ACK, and a restart begins anew; every
other move leaves the queue as a whole. -/
theorem effect {w g : Prop} {s t : State} (e : Effect w g s t) : NoticeLaw s.notices → NoticeLaw t.notices := by
  induction e with
  | change c => exact change c
  | trans _ _ h k => exact fun hs => k (h hs)
  | offered r s => exact fun hs => hs.offered r
  | acked n s h0 hn => exact fun hs => hs.acked h0 hn
  | resent s => exact fun hs => hs.of_queue rfl rfl
  | noticeSent n rest s hu =>
    exact fun hs => hs.of_queue ((List.append_cons s.notices.transmitted n rest).symm.trans (hu ▸ rfl)) rfl
  | bringupFinished mib stage d s => exact fun hs => hs.broughtUp mib
  | softReset tag s => exact fun _ => restarted .soft _
  | hardReset s => exact fun _ => empty _ _ _
  | released s => exact fun _ => restarted .hard _
  | _ => exact id

/-- Every step keeps the law of the notice queue. -/
theorem step {s t : State} (h : step s = .next t) (hs : NoticeLaw s.notices) : NoticeLaw t.notices :=
  step_keeps (P := fun s => NoticeLaw s.notices) (fun _ _ hs => hs) (fun s hs => by rw [tick_eq]; exact hs)
    (fun _ _ _ hc => effect (exec_effect (w := True) (fun _ => trivial) hc)) h hs

end NoticeLaw

/-- Settles O58: a notice enters only where there is room and takes the next sequence; notices leave from the head alone. -/
theorem noticeSequencesStayConsecutive : Obligations.NoticeSequencesStayConsecutive := fun _ _ => NoticeLaw.step

end Sys2Proof.Machine
end

section
/-! The notice unit: a notice handed over, NOTICE_ACK and NOTICE_RESEND. -/

namespace Sys2Proof.Machine

open Sys2Proof

/-! ### A notice handed over (R162) -/

theorem classEnabled_iff (mask : BitVec 5) (b : NoticeBody) :
    classEnabled mask b = true ↔ ∀ n, b.maskBit = some n → mask.getLsbD n = true := by
  unfold classEnabled
  cases b.maskBit <;> simp

/-- R162: a notice whose class is disabled is not created. -/
theorem raise_disabled {b : NoticeBody} {s : State} (h : classEnabled s.notices.mask b = false) : raise b s = s :=
  if_neg (by simp [h])

/-- R162: a notice is discarded and counted while the queue is full. -/
theorem raise_full {b : NoticeBody} {s : State} (h : classEnabled s.notices.mask b = true)
    (hfull : Config.noticePlaces ≤ noticeCount s.notices) :
    raise b s = { s with notices := { s.notices with lost := satInc s.notices.lost } } :=
  (if_pos h).trans (if_pos hfull)

/-- R162: a notice enters while the queue has room. -/
theorem raise_room {b : NoticeBody} {s : State} (h : classEnabled s.notices.mask b = true)
    (hroom : noticeCount s.notices < Config.noticePlaces) : raise b s = enterNotice b s :=
  (if_pos h).trans (if_neg (Nat.not_le.mpr hroom))

/-- 00_scope.md: a 16-bit counter holds at 65,535. -/
theorem satInc_half (x : Half) : satInc x = if x = 65535 then 65535 else x + 1 := by
  unfold satInc
  split
  · rename_i h
    rw [h]
    rfl
  · rename_i h
    exact (if_neg h).symm

/-- R27: a drop with reason STALL or STORE leaves the flag set. -/
theorem noteDrop_stream (c : DropReason) (i : StreamIx) (s : State) :
    (noteDrop c i s).stream i = { s.stream i with dropFlag := true } := by
  rw [noteDrop_eq]
  split
  · exact modStream_stream_same s i _
  · rw [raise_stream, modStream_stream_same]

/-- Settles O53: the three outcomes of R162, and the flags, which are set before the notice is handed over. -/
theorem raisedNoticeIsEnteredOrLost : Obligations.RaisedNoticeIsEnteredOrLost := by
  refine ⟨fun _ _ _ => ⟨rfl, rfl, rfl⟩, fun _ _ _ _ _ _ _ _ _ _ _ => ⟨rfl, rfl, rfl, rfl, rfl⟩,
    fun s c n => congrArg Source.errorFlag (frameError_source c n s),
    fun s c i => congrArg Stream.dropFlag (noteDrop_stream c i s), fun s b => ⟨fun n hb hm => ?_, fun h => ?_⟩⟩
  · have hd : classEnabled s.notices.mask b = false := by rw [classEnabled, hb]; exact hm
    exact raise_disabled hd
  · have he := (classEnabled_iff _ _).mpr h
    refine ⟨fun hfull => ?_, fun hroom => raise_room he hroom⟩
    rw [raise_full he hfull, satInc_half]

/-! ### NOTICE_ACK and NOTICE_RESEND (R164, R165) -/

/-- R164: the ACK of a sequence no transmitted notice has. -/
theorem ackCount_none {u : NoticeUnit} {q : Half} (h : ∀ n ∈ u.transmitted, n.seq ≠ q) : ackCount u q = none := by
  have hidx : u.transmitted.findIdx? (fun n => n.seq = q) = none :=
    List.findIdx?_eq_none_iff.mpr (fun n hn => decide_eq_false (h n hn))
  rw [ackCount, hidx]
  rfl

/-- R164: the ACK of the first transmitted notice with the sequence counts it and those before it. -/
theorem ackCount_some {u : NoticeUnit} {q : Half} {before rest : List Notice} {n : Notice}
    (hu : u.transmitted = before ++ n :: rest) (hn : n.seq = q) (hb : ∀ m ∈ before, m.seq ≠ q) :
    ackCount u q = some (before.length + 1) := by
  have hbefore : before.findIdx? (fun m => m.seq = q) = none :=
    List.findIdx?_eq_none_iff.mpr (fun m hm => decide_eq_false (hb m hm))
  have hidx : u.transmitted.findIdx? (fun m => m.seq = q) = some before.length := by
    simp [hu, List.findIdx?_append, hbefore, List.findIdx?_cons, hn]
  rw [ackCount, hidx]
  rfl

/-- R164: a removal that leaves `rest` of the transmitted notices. -/
theorem removeNotices_append {s : State} {before rest : List Notice} {n : Notice}
    (hu : s.notices.transmitted = before ++ n :: rest) :
    removeNotices (before.length + 1) s = { s with notices := { s.notices with transmitted := rest } } := by
  have hdrop : s.notices.transmitted.drop (before.length + 1) = rest := by
    rw [hu, List.append_cons, List.drop_left' (by rw [List.length_append]; rfl)]
  rw [removeNotices, hdrop]

/-- R164: the loss report is written in the notice unit alone. -/
theorem reportLost_eq (s : State) : reportLost s = { s with notices :=
    if s.notices.lost = 0 then s.notices else { s.notices with
      lost := 0
      nextSeq := s.notices.nextSeq + 1
      untransmitted := s.notices.untransmitted ++ [⟨s.notices.nextSeq, s.deviceTime, .noticesLost s.notices.lost⟩] } } := by
  unfold reportLost
  split <;> rfl

/-- R164: NOTICE_ACK reads the sequence it names. -/
theorem noticeAck_u16 (tag : Tag) (q : Half) (s : State) : noticeAck tag (u16 q.toNat) s =
    match ackCount s.notices q with
    | none => refuse .badParam
    | some n => okReply .noticeAck tag (u8 n) (reportLost (removeNotices n s)) := by
  conv_rhs => rw [← ofNat_le16_u16 q]
  rfl

/-- Settles O54: the ACK counts the notices up to the one named and drops as many from the head, then reports the loss. -/
theorem ackRemovesAndResendMarks : Obligations.AckRemovesAndResendMarks := by
  refine ⟨fun s tag q hw => ⟨fun h => ?_, fun before n rest hu hn hb => ?_⟩, fun s tag hw => request_waiting noticeResend hw⟩
  · refine (request_waiting noticeAck hw).trans ?_
    rw [noticeAck_u16, ackCount_none (u := (taken s).notices) h, answer_refuse]
  · refine (request_waiting noticeAck hw).trans ?_
    rw [noticeAck_u16, ackCount_some (u := (taken s).notices) hu hn hb, answer_okReply,
      removeNotices_append (s := taken s) hu, reportLost_eq]
    rfl

end Sys2Proof.Machine
end

section
/-! The check of a frame (R169), bit by bit. -/

namespace Sys2Proof.Machine

open Sys2Proof

/-- R169: a bit that differs from the most significant bit of the check takes the polynomial. -/
theorem crcBit_eq (crc : Half) (bit : Bool) :
    crcBit crc bit = if crc[15] = bit then crc <<< 1 else (crc <<< 1) ^^^ 0x1021 := by
  have hm : crc.msb = crc[15] := BitVec.msb_eq_getLsbD_last crc
  rw [crcBit, hm]
  by_cases h : crc[15] = bit
  · rw [if_pos h, if_neg (by simp [h])]
  · rw [if_neg h, if_pos (bne_iff_ne.mpr h)]

/-- R169: a byte of the check is its bits in turn, the most significant first. -/
theorem crcByte_eq (crc : Half) (b : Byte) :
    crcByte crc b = [b[7], b[6], b[5], b[4], b[3], b[2], b[1], b[0]].foldl crcBit crc :=
  (List.foldl_map (f := b.getLsbD) (g := crcBit) (l := [7, 6, 5, 4, 3, 2, 1, 0])).symm

@[simp] theorem crc16_nil : crc16 [] = 0xFFFF := rfl

/-- R169: the check of a byte more. -/
theorem crc16_concat (bs : List Byte) (b : Byte) : crc16 (bs ++ [b]) = crcByte (crc16 bs) b :=
  List.foldl_concat crcByte 0xFFFF b bs

/-- Settles O7: a byte at the end is eight bits of the polynomial's rule; the check of the nine digits is computed. -/
theorem checkOfTheStandardDigits : Obligations.CheckOfTheStandardDigits := by
  refine ⟨crc16_nil, fun bs b => ?_, by decide +kernel⟩
  rw [crc16_concat, crcByte_eq]
  exact List.foldl_ext _ _ _ (fun crc bit _ => crcBit_eq crc bit)

end Sys2Proof.Machine
end

section
/-! The step: the command at the front of the queue, and a tick where none waits. -/

namespace Sys2Proof.Machine

open Sys2Proof

/-- A waiting command runs on the queue's rest. -/
theorem step_cons {s : State} {c : Instr} {rest : List Instr} (h : s.pending = c :: rest) :
    step s = exec c { s with pending := rest } := by
  unfold step
  rw [h]

/-- Log 4: with no command waiting a step is a tick. -/
theorem step_nil {s : State} (h : s.pending = []) : step s = .next (tick s) := by
  unfold step
  rw [h]

/-- Settles O1: the queue has a front command or none, and the statement's choice by RESET_N is that of `tick`. -/
theorem stepRunsFrontCommand : Obligations.StepRunsFrontCommand :=
  ⟨fun _ _ _ => step_cons, fun _ => step_nil⟩

end Sys2Proof.Machine
end
